-- ==== Sys2Proof/Word.lean ====
section
/-! DEFINITION. The word types of the block: register words, tick counts, pin numbers and pin banks. -/

namespace Sys2Proof

/-- A register word, an operation word, an operand word, a handler word or a context word (rules R6, R101). -/
abbrev Word := BitVec 32

/-- A count of timer ticks, `u64` (rules R6, R40). -/
abbrev Ticks := BitVec 64

/-- A physical GPIO number 0..53 (rule R11). -/
abbrev PinNo := Fin 54

/-- A one-bit-per-pin group: bit `n` belongs to pin `n`.
Bits of pins 54 to 63 have no storage: they read 0 and ignore writes (rule R77). -/
abbrev PinBank := BitVec 54

end Sys2Proof
end

