-- ==== Sys2Proof/Syntax.lean ====
section
/-! DEFINITION. The enumerations of the spec (rules R106 to R111) and the 28 operations of its opcode map (rule R104). -/

namespace Sys2Proof

/-- Pin function, the first half of a pin's mode (rule R107). -/
inductive PinFunction where
  | input | output | altFn0 | altFn1 | altFn2 | altFn3 | altFn4 | altFn5
deriving DecidableEq, Repr

/-- Pull, the second half of a pin's mode (rule R107). -/
inductive Pull where
  | off | up | down
deriving DecidableEq, Repr

/-- The six trigger kinds (rule R106). -/
inductive TrigKind where
  | risingEdge | fallingEdge | highLevel | lowLevel | asyncRisingEdge | asyncFallingEdge
deriving DecidableEq, Repr

/-- States of the quadrature decoder (rules R37, R108). -/
inductive EncState where
  | start | cwStart | cwDataFall | cwClockRise | ccwStart | ccwClockFall | ccwDataRise | invalid
deriving DecidableEq, Repr

/-- States of the button machine (rules R38, R109). -/
inductive ButtonState where
  | start | down | click | click2 | click3 | hold | invalid
deriving DecidableEq, Repr

/-- Inputs of the button machine (rules R38, R110). -/
inductive ButtonEvent where
  | down | up | click | doubleClick | tick
deriving DecidableEq, Repr

/-- Application events, "the closed set" (rules R12, R111).
The table entry `NoEvent` is `none` of `Option AppEvent`. -/
inductive AppEvent where
  | rotateClockwise | rotateCounterclockwise
  | switchDown | switchUp | switchClick | switchDoubleClick | switchTripleClick | switchHold
deriving DecidableEq, Repr

/-- The operations of the block (rule R104), one constructor per row of the opcode table.
Ids, pin-object indices and pin numbers are numbers (`WellFormed` says which the encoding admits);
words and bit fields are bit vectors. -/
inductive Instr where
  /-- `IC.RegisterHandler id, handler, ctx` (R140) -/
  | icRegisterHandler (id : Nat) (handler ctx : Word)
  /-- `IC.UnregisterHandler id` (R141) -/
  | icUnregisterHandler (id : Nat)
  /-- `IC.EnableLine id` (R142) -/
  | icEnableLine (id : Nat)
  /-- `IC.DisableLine id` (R143) -/
  | icDisableLine (id : Nat)
  /-- `IC.DisableAllLines` (R144) -/
  | icDisableAllLines
  /-- `IC.Dispatch` (R145) -/
  | icDispatch
  /-- `IC.DispatchFiq` (R150) -/
  | icDispatchFiq
  /-- `GM.Initialize` (R173) -/
  | gmInitialize
  /-- `GM.ConnectInterrupt obj` (R174) -/
  | gmConnectInterrupt (obj : Nat)
  /-- `GM.DisconnectInterrupt obj` (R175) -/
  | gmDisconnectInterrupt (obj : Nat)
  /-- `GM.Dispatch` (R176) -/
  | gmDispatch
  /-- `GM.AllOff` (R177) -/
  | gmAllOff
  /-- `Pin.AssignPin obj, n` (R200) -/
  | pinAssignPin (obj n : Nat)
  /-- `Pin.SetMode obj, function/pull` (R201); pull code 3 decodes and faults when executed (R105) -/
  | pinSetMode (obj : Nat) (fn : PinFunction) (pull : BitVec 2)
  /-- `Pin.EnableInterrupt obj, types` (R204) -/
  | pinEnableInterrupt (obj : Nat) (types : BitVec 6)
  /-- `Pin.DisableInterrupt obj, types` (R205) -/
  | pinDisableInterrupt (obj : Nat) (types : BitVec 6)
  /-- `Pin.ConnectInterrupt obj, autoAck, callback, ctx` (R207) -/
  | pinConnectInterrupt (obj : Nat) (autoAck : Bool) (callback ctx : Word)
  /-- `Pin.DisconnectInterrupt obj` (R208) -/
  | pinDisconnectInterrupt (obj : Nat)
  /-- `Pin.AcknowledgeInterrupt obj` (R209) -/
  | pinAcknowledgeInterrupt (obj : Nat)
  /-- `Pin.Dispatch obj` (R210) -/
  | pinDispatch (obj : Nat)
  /-- `Enc.Initialize sw, dt, clk` (R240) -/
  | encInitialize (sw dt clk : Nat)
  /-- `Enc.RegisterEventHandler callback, ctx` (R241) -/
  | encRegisterEventHandler (callback ctx : Word)
  /-- `Enc.Uninitialize` (R242) -/
  | encUninitialize
  /-- `Mem.Read32 addr` (R300) -/
  | memRead32 (addr : Word)
  /-- `Mem.Write32 addr, value` (R301) -/
  | memWrite32 (addr value : Word)
  /-- `Ev.PinLevel n, level` (R170) -/
  | evPinLevel (n : Nat) (level : Bool)
  /-- `Ev.IrqLine id, level` (R151) -/
  | evIrqLine (id : Nat) (level : Bool)
  /-- `Ev.TimerPeriod` (R306) -/
  | evTimerPeriod
deriving DecidableEq, Repr

/-- A command (opcode bit 31 = 0, software agent), as opposed to a stimulus (rules R8, R100). -/
def Instr.isCommand : Instr → Bool
  | .icRegisterHandler _ _ _ => true
  | .icUnregisterHandler _ => true
  | .icEnableLine _ => true
  | .icDisableLine _ => true
  | .icDisableAllLines => true
  | .icDispatch => true
  | .icDispatchFiq => true
  | .gmInitialize => true
  | .gmConnectInterrupt _ => true
  | .gmDisconnectInterrupt _ => true
  | .gmDispatch => true
  | .gmAllOff => true
  | .pinAssignPin _ _ => true
  | .pinSetMode _ _ _ => true
  | .pinEnableInterrupt _ _ => true
  | .pinDisableInterrupt _ _ => true
  | .pinConnectInterrupt _ _ _ _ => true
  | .pinDisconnectInterrupt _ => true
  | .pinAcknowledgeInterrupt _ => true
  | .pinDispatch _ => true
  | .encInitialize _ _ _ => true
  | .encRegisterEventHandler _ _ => true
  | .encUninitialize => true
  | .memRead32 _ => true
  | .memWrite32 _ _ => true
  | .evPinLevel _ _ => false
  | .evIrqLine _ _ => false
  | .evTimerPeriod => false

end Sys2Proof
end

