-- ==== Sys2Proof/Config.lean ====
section
/-! DEFINITION. The parameters of rule R5 as plain data, and the free values. The parameters stand in `State.cfg`, which
no step changes, so that a statement about every state holds for every value of every parameter; the reference
configuration RC0 is in Machine/Reference.lean. N_IRQ and N_PINOBJ are the lengths of two lists of State. -/

namespace Sys2Proof

/-- `PLATFORM_IC` (rule R5). -/
inductive PlatformIc where
  | pendingMask | ackRegister
deriving DecidableEq, Repr

/-- `PULL_STYLE` (rules R5, R35). -/
inductive PullStyle where
  | legacyStrobe | combined2Bit
deriving DecidableEq, Repr

/-- `BUILD` (rules R5, R321). -/
inductive Build where
  | debug | release
deriving DecidableEq, Repr

/-- What one external handler does when it is invoked with one context and one event argument (rule R334). -/
structure HandlerEntry where
  handler : Word
  ctx : Word
  arg : Option AppEvent
  body : List Instr
deriving DecidableEq, Repr

/-- The configuration (rule R5). -/
structure Config where
  /-- `GPIO_LINE` -/
  gpioLine : Nat
  /-- `TIMER_LINE` -/
  timerLine : Nat
  /-- `FIQ_LINE` -/
  fiqLine : Option Nat
  /-- `PLATFORM_IC` -/
  platformIc : PlatformIc
  /-- `SPURIOUS_ID` -/
  spuriousId : Word
  /-- `PULL_STYLE` -/
  pullStyle : PullStyle
  /-- `BUILD` -/
  build : Build
  /-- `DEBOUNCE_MS` -/
  debounceMs : Nat
  /-- `CLICK_MS` -/
  clickMs : Nat
  /-- `DBLCLICK_MS` -/
  dblclickMs : Nat
  /-- `TICK_MS` -/
  tickMs : Nat
  /-- `TICKS_PER_MS` -/
  ticksPerMs : Nat
  /-- `GPIO_BASE` and the offsets `GPIO_OFF_*` (rule R74) -/
  gpioBase : Word
  offFsel : Word
  offLev : Word
  offEds : Word
  offRen : Word
  offFen : Word
  offHen : Word
  offLen : Word
  offAren : Word
  offAfen : Word
  offPud : Word
  offPudclk : Word
  offPuppdn : Word
  /-- `IC_BASE` and the offsets `IC_OFF_*` (rule R85) -/
  icBase : Word
  offPend : Word
  offEnset : Word
  offEnclr : Word
  offIar : Word
  offEoir : Word
  /-- `QDEC_NEXT`, row by row in the order of rule R108, four cells a row in the order of rule R112 (rule R245). Only its
  D cells are read: the S and M cells are fixed (`qdecNext`, D24, U8). -/
  qdecNext : List EncState
  /-- `BTN_NEXT`, row by row in the order of rule R109, five cells a row in the order of rule R110 (rule R277). Only its
  D cells are read: the S and N cells are fixed (`btnNext`, R276, U8). -/
  btnNext : List ButtonState
  /-- `BTN_OUT`, laid out as `BTN_NEXT`; `none` is `NoEvent` (rule R278). Only its D cells are read: the S cells are fixed
  (`btnOut`, R276, U8). -/
  btnOut : List (Option AppEvent)
  /-- `BTN_CLICK3_PRESS` = (next, out), the cell (Click3, ev.DoubleClick) of both button tables (rule R281) -/
  btnClick3Press : ButtonState × Option AppEvent
  /-- `TIMER_HANDLE` (rule R304): the start numbers whose handle is not the start number itself -/
  timerHandles : List (Nat × Word)
  /-- `TIMER_FIRE_ORDER` (rule R307): handles that fire before the others due in the same run, in this order;
  the others follow in the default order. Handles are unique, so some list gives any order. -/
  firePriority : List Word
  /-- `MAX_NEST` -/
  maxNest : Nat
  /-- `HandlerBody` (rule R334): the handlers whose body is not the empty list -/
  handlerBodies : List HandlerEntry
deriving DecidableEq, Repr

/-! ### Free values -/

/-- `ticks` after its wrap past 2^64 - 1, which the spec leaves unspecified (rule R40, U12). -/
opaque Config.freeTicks : Nat → Ticks

/-- A deadline that does not fit `u64`; the spec states no value (rules R41, R304). -/
opaque Config.freeDeadline : Nat → Ticks

/-- A timer handle after 2^32 starts, where the spec's default map ends (rule R304, U13). -/
opaque Config.freeHandle : Nat → Word

end Sys2Proof
end

