-- ==== Sys2Proof/WellFormed.lean ====
section
/-! DEFINITION. Which operands the encoding admits (rules R100, R102): ids of 16 bits, object indices and pin numbers
of 8 bits. Words and bit fields are well formed by their type. Range checks against N_IRQ, N_PINOBJ and 54 are made at
execution, not here (rule R102). -/

namespace Sys2Proof

/-- An IrqId field is 16 bits wide (rule R100, format CI). -/
abbrev idFits (id : Nat) : Bool := decide (id < 65536)

/-- A pin-object field is 8 bits wide (rule R100, format CP). -/
abbrev objFits (obj : Nat) : Bool := decide (obj < 256)

/-- A pin-number field is 8 bits wide (rule R100, formats CP and CT). -/
abbrev pinFits (n : Nat) : Bool := decide (n < 256)

/-- The operands fit the fields of the operation's encoding. -/
def Instr.wellFormed : Instr → Bool
  | .icRegisterHandler id _ _ => idFits id
  | .icUnregisterHandler id => idFits id
  | .icEnableLine id => idFits id
  | .icDisableLine id => idFits id
  | .icDisableAllLines => true
  | .icDispatch => true
  | .icDispatchFiq => true
  | .gmInitialize => true
  | .gmConnectInterrupt obj => objFits obj
  | .gmDisconnectInterrupt obj => objFits obj
  | .gmDispatch => true
  | .gmAllOff => true
  | .pinAssignPin obj n => objFits obj && pinFits n
  | .pinSetMode obj _ _ => objFits obj
  | .pinEnableInterrupt obj _ => objFits obj
  | .pinDisableInterrupt obj _ => objFits obj
  | .pinConnectInterrupt obj _ _ _ => objFits obj
  | .pinDisconnectInterrupt obj => objFits obj
  | .pinAcknowledgeInterrupt obj => objFits obj
  | .pinDispatch obj => objFits obj
  | .encInitialize sw dt clk => pinFits sw && pinFits dt && pinFits clk
  | .encRegisterEventHandler _ _ => true
  | .encUninitialize => true
  | .memRead32 _ => true
  | .memWrite32 _ _ => true
  | .evPinLevel n _ => pinFits n
  | .evIrqLine id _ => idFits id
  | .evTimerPeriod => true

end Sys2Proof
end

