-- ==== Sys2Proof/Decode.lean ====
section
/-! DEFINITION. Operation words: the opcode table, the decoder and the encoder (rules R100 to R107). -/

namespace Sys2Proof

/-! ### Field codes -/

/-- Function code carried in the command word and in `pinObj.function` (rule R107). -/
def PinFunction.code : PinFunction → BitVec 3
  | .input => 0
  | .output => 1
  | .altFn0 => 2
  | .altFn1 => 3
  | .altFn2 => 4
  | .altFn3 => 5
  | .altFn4 => 6
  | .altFn5 => 7

/-- The function named by a 3-bit code; all eight codes are used (rule R107). -/
def pinFunctionOf (c : BitVec 3) : PinFunction :=
  if c = 0 then .input else if c = 1 then .output else if c = 2 then .altFn0 else if c = 3 then .altFn1
  else if c = 4 then .altFn2 else if c = 5 then .altFn3 else if c = 6 then .altFn4 else .altFn5

/-- The pull named by a 2-bit code of the command word; 3 is reserved (rule R107). -/
def pullOf (c : BitVec 2) : Option Pull :=
  if c = 0 then some .off else if c = 1 then some .up else if c = 2 then some .down else none

/-! ### Operation words -/

/-- The four bytes of an operation word, the opcode in bits 31:24 (rule R100). -/
def opWord (op f b1 b0 : BitVec 8) : Word := op ++ (f ++ (b1 ++ b0))

/-- Byte `k` of an operation word, byte 0 in bits 7:0 (rule R100). -/
def byteOf (w : Word) (k : Nat) : BitVec 8 := w.extractLsb' (8 * k) 8

/-- Which operation an operation word requests: one tag per row of the opcode table (rule R104). -/
inductive Op where
  | icRegisterHandler | icUnregisterHandler | icEnableLine | icDisableLine | icDisableAllLines | icDispatch
  | icDispatchFiq | gmInitialize | gmConnectInterrupt | gmDisconnectInterrupt | gmDispatch | gmAllOff
  | pinAssignPin | pinSetMode | pinEnableInterrupt | pinDisableInterrupt | pinConnectInterrupt
  | pinDisconnectInterrupt | pinAcknowledgeInterrupt | pinDispatch | encInitialize | encRegisterEventHandler
  | encUninitialize | memRead32 | memWrite32 | evPinLevel | evIrqLine | evTimerPeriod
deriving DecidableEq, Repr

/-- A row of the opcode table: the opcode, the bits of the three lower bytes that must be 0, and the total number of
words (rules R100, R101, R104). -/
structure OpRow where
  op : Op
  opcode : BitVec 8
  zeroF : BitVec 8
  zeroB1 : BitVec 8
  zeroB0 : BitVec 8
  words : Nat
deriving DecidableEq, Repr

/-- The opcode table (rule R104, opcode_table.json): the mask of a row is `0xFF` and the three zero masks. -/
def opTable : List OpRow :=
  [ ⟨.icRegisterHandler,       0x01, 0xFF, 0x00, 0x00, 3⟩,
    ⟨.icUnregisterHandler,     0x02, 0xFF, 0x00, 0x00, 1⟩,
    ⟨.icEnableLine,            0x03, 0xFF, 0x00, 0x00, 1⟩,
    ⟨.icDisableLine,           0x04, 0xFF, 0x00, 0x00, 1⟩,
    ⟨.icDisableAllLines,       0x05, 0xFF, 0xFF, 0xFF, 1⟩,
    ⟨.icDispatch,              0x06, 0xFF, 0xFF, 0xFF, 1⟩,
    ⟨.icDispatchFiq,           0x07, 0xFF, 0xFF, 0xFF, 1⟩,
    ⟨.gmInitialize,            0x10, 0xFF, 0xFF, 0xFF, 1⟩,
    ⟨.gmConnectInterrupt,      0x11, 0xFF, 0x00, 0xFF, 1⟩,
    ⟨.gmDisconnectInterrupt,   0x12, 0xFF, 0x00, 0xFF, 1⟩,
    ⟨.gmDispatch,              0x13, 0xFF, 0xFF, 0xFF, 1⟩,
    ⟨.gmAllOff,                0x14, 0xFF, 0xFF, 0xFF, 1⟩,
    ⟨.pinAssignPin,            0x20, 0xFF, 0x00, 0x00, 1⟩,
    ⟨.pinSetMode,              0x21, 0xC8, 0x00, 0xFF, 1⟩,
    ⟨.pinEnableInterrupt,      0x22, 0xC0, 0x00, 0xFF, 1⟩,
    ⟨.pinDisableInterrupt,     0x23, 0xC0, 0x00, 0xFF, 1⟩,
    ⟨.pinConnectInterrupt,     0x25, 0xFE, 0x00, 0xFF, 3⟩,
    ⟨.pinDisconnectInterrupt,  0x26, 0xFF, 0x00, 0xFF, 1⟩,
    ⟨.pinAcknowledgeInterrupt, 0x27, 0xFF, 0x00, 0xFF, 1⟩,
    ⟨.pinDispatch,             0x28, 0xFF, 0x00, 0xFF, 1⟩,
    ⟨.encInitialize,           0x30, 0x00, 0x00, 0x00, 1⟩,
    ⟨.encRegisterEventHandler, 0x31, 0xFF, 0xFF, 0xFF, 3⟩,
    ⟨.encUninitialize,         0x32, 0xFF, 0xFF, 0xFF, 1⟩,
    ⟨.memRead32,               0x40, 0xFF, 0xFF, 0xFF, 2⟩,
    ⟨.memWrite32,              0x41, 0xFF, 0xFF, 0xFF, 3⟩,
    ⟨.evPinLevel,              0x80, 0xFE, 0xFF, 0x00, 1⟩,
    ⟨.evIrqLine,               0x81, 0xFE, 0x00, 0x00, 1⟩,
    ⟨.evTimerPeriod,           0x82, 0xFF, 0xFF, 0xFF, 1⟩ ]

/-- The row's mask (rule R100, opcode_table.json): the opcode byte and the unused bits. -/
def OpRow.mask (r : OpRow) : Word := opWord 0xFF r.zeroF r.zeroB1 r.zeroB0

/-- The row's match (rule R100, opcode_table.json): the opcode byte, unused bits 0. -/
def OpRow.matchWord (r : OpRow) : Word := opWord r.opcode 0 0 0

/-- The row of an opcode byte, `none` for an unassigned opcode (rule R105). -/
def rowOf (opcode : BitVec 8) : Option OpRow := opTable.find? (fun r => r.opcode == opcode)

/-- The word's unused bits are 0 (rule R100: mask and match include them). -/
def OpRow.unusedZero (r : OpRow) (w : Word) : Bool :=
  (byteOf w 2 &&& r.zeroF == 0) && (byteOf w 1 &&& r.zeroB1 == 0) && (byteOf w 0 &&& r.zeroB0 == 0)

/-- Operand assembly (rules R102, R103): fields as they stand, `w1` and `w2` the operand words. -/
def OpRow.build (r : OpRow) (w w1 w2 : Word) : Instr :=
  let f := byteOf w 2
  let b1 := byteOf w 1
  let b0 := byteOf w 0
  let id := (b1 ++ b0 : BitVec 16).toNat
  match r.op with
  | .icRegisterHandler => .icRegisterHandler id w1 w2
  | .icUnregisterHandler => .icUnregisterHandler id
  | .icEnableLine => .icEnableLine id
  | .icDisableLine => .icDisableLine id
  | .icDisableAllLines => .icDisableAllLines
  | .icDispatch => .icDispatch
  | .icDispatchFiq => .icDispatchFiq
  | .gmInitialize => .gmInitialize
  | .gmConnectInterrupt => .gmConnectInterrupt b1.toNat
  | .gmDisconnectInterrupt => .gmDisconnectInterrupt b1.toNat
  | .gmDispatch => .gmDispatch
  | .gmAllOff => .gmAllOff
  | .pinAssignPin => .pinAssignPin b1.toNat b0.toNat
  | .pinSetMode => .pinSetMode b1.toNat (pinFunctionOf (f.extractLsb' 0 3)) (f.extractLsb' 4 2)
  | .pinEnableInterrupt => .pinEnableInterrupt b1.toNat (f.extractLsb' 0 6)
  | .pinDisableInterrupt => .pinDisableInterrupt b1.toNat (f.extractLsb' 0 6)
  | .pinConnectInterrupt => .pinConnectInterrupt b1.toNat (f.getLsbD 0) w1 w2
  | .pinDisconnectInterrupt => .pinDisconnectInterrupt b1.toNat
  | .pinAcknowledgeInterrupt => .pinAcknowledgeInterrupt b1.toNat
  | .pinDispatch => .pinDispatch b1.toNat
  | .encInitialize => .encInitialize f.toNat b1.toNat b0.toNat
  | .encRegisterEventHandler => .encRegisterEventHandler w1 w2
  | .encUninitialize => .encUninitialize
  | .memRead32 => .memRead32 w1
  | .memWrite32 => .memWrite32 w1 w2
  | .evPinLevel => .evPinLevel b0.toNat (f.getLsbD 0)
  | .evIrqLine => .evIrqLine id (f.getLsbD 0)
  | .evTimerPeriod => .evTimerPeriod

/-- Why a list of words is no operation. -/
inductive DecodeError where
  /-- there is no operation word -/
  | noWord
  /-- the operation word is legal and its operand words are not all there (rule R101) -/
  | missingOperand (w : Word)
  /-- the opcode is not in the opcode map (rule R105) -/
  | unassignedOpcode (w : Word)
  /-- an unused field of the operation word is not 0 (rules R100, R105) -/
  | unusedField (w : Word)
deriving DecidableEq, Repr

/-- Decode the first operation of a list of words and answer it with the words that follow it.
The number of operand words is fixed by the opcode (rule R101). -/
def decode : List Word → Except DecodeError (Instr × List Word)
  | [] => .error .noWord
  | w :: rest =>
    match rowOf (byteOf w 3) with
    | none => .error (.unassignedOpcode w)
    | some r =>
      if r.unusedZero w then
        match r.words, rest with
        | 1, rest => .ok (r.build w 0 0, rest)
        | 2, w1 :: rest => .ok (r.build w w1 0, rest)
        | 3, w1 :: w2 :: rest => .ok (r.build w w1 w2, rest)
        | _, _ => .error (.missingOperand w)
      else .error (.unusedField w)

/-! ### Encoder -/

/-- Bits 15:8 of an id field. -/
def hiByte (id : Nat) : BitVec 8 := BitVec.ofNat 8 (id / 256)

/-- Bits 7:0 of a number. -/
def loByte (n : Nat) : BitVec 8 := BitVec.ofNat 8 n

/-- A one-bit level or flag in bit 0 of `f` (rule R103). -/
def flagByte (b : Bool) : BitVec 8 := if b then 1 else 0

/-- `f` of `Pin.SetMode`: function in bits 2:0, pull in bits 5:4 (rule R103). -/
def modeByte (fn : PinFunction) (pull : BitVec 2) : BitVec 8 := 0#2 ++ (pull ++ (0#1 ++ fn.code))

/-- `f` of `Pin.EnableInterrupt` and `Pin.DisableInterrupt`: types in bits 5:0 (rule R103). -/
def typesByte (types : BitVec 6) : BitVec 8 := 0#2 ++ types

/-- The operation word of an operation (rules R100, R103, R104). -/
def Instr.opword : Instr → Word
  | .icRegisterHandler id _ _ => opWord 0x01 0 (hiByte id) (loByte id)
  | .icUnregisterHandler id => opWord 0x02 0 (hiByte id) (loByte id)
  | .icEnableLine id => opWord 0x03 0 (hiByte id) (loByte id)
  | .icDisableLine id => opWord 0x04 0 (hiByte id) (loByte id)
  | .icDisableAllLines => opWord 0x05 0 0 0
  | .icDispatch => opWord 0x06 0 0 0
  | .icDispatchFiq => opWord 0x07 0 0 0
  | .gmInitialize => opWord 0x10 0 0 0
  | .gmConnectInterrupt obj => opWord 0x11 0 (loByte obj) 0
  | .gmDisconnectInterrupt obj => opWord 0x12 0 (loByte obj) 0
  | .gmDispatch => opWord 0x13 0 0 0
  | .gmAllOff => opWord 0x14 0 0 0
  | .pinAssignPin obj n => opWord 0x20 0 (loByte obj) (loByte n)
  | .pinSetMode obj fn pull => opWord 0x21 (modeByte fn pull) (loByte obj) 0
  | .pinEnableInterrupt obj types => opWord 0x22 (typesByte types) (loByte obj) 0
  | .pinDisableInterrupt obj types => opWord 0x23 (typesByte types) (loByte obj) 0
  | .pinConnectInterrupt obj autoAck _ _ => opWord 0x25 (flagByte autoAck) (loByte obj) 0
  | .pinDisconnectInterrupt obj => opWord 0x26 0 (loByte obj) 0
  | .pinAcknowledgeInterrupt obj => opWord 0x27 0 (loByte obj) 0
  | .pinDispatch obj => opWord 0x28 0 (loByte obj) 0
  | .encInitialize sw dt clk => opWord 0x30 (loByte sw) (loByte dt) (loByte clk)
  | .encRegisterEventHandler _ _ => opWord 0x31 0 0 0
  | .encUninitialize => opWord 0x32 0 0 0
  | .memRead32 _ => opWord 0x40 0 0 0
  | .memWrite32 _ _ => opWord 0x41 0 0 0
  | .evPinLevel n level => opWord 0x80 (flagByte level) 0 (loByte n)
  | .evIrqLine id level => opWord 0x81 (flagByte level) (hiByte id) (loByte id)
  | .evTimerPeriod => opWord 0x82 0 0 0

/-- The operand words of an operation (rule R101). -/
def Instr.operands : Instr → List Word
  | .icRegisterHandler _ handler ctx => [handler, ctx]
  | .icUnregisterHandler _ => []
  | .icEnableLine _ => []
  | .icDisableLine _ => []
  | .icDisableAllLines => []
  | .icDispatch => []
  | .icDispatchFiq => []
  | .gmInitialize => []
  | .gmConnectInterrupt _ => []
  | .gmDisconnectInterrupt _ => []
  | .gmDispatch => []
  | .gmAllOff => []
  | .pinAssignPin _ _ => []
  | .pinSetMode _ _ _ => []
  | .pinEnableInterrupt _ _ => []
  | .pinDisableInterrupt _ _ => []
  | .pinConnectInterrupt _ _ callback ctx => [callback, ctx]
  | .pinDisconnectInterrupt _ => []
  | .pinAcknowledgeInterrupt _ => []
  | .pinDispatch _ => []
  | .encInitialize _ _ _ => []
  | .encRegisterEventHandler callback ctx => [callback, ctx]
  | .encUninitialize => []
  | .memRead32 addr => [addr]
  | .memWrite32 addr value => [addr, value]
  | .evPinLevel _ _ => []
  | .evIrqLine _ _ => []
  | .evTimerPeriod => []

/-- The words of a well-formed operation (rules R100, R101). -/
def encode (i : Instr) : List Word := i.opword :: i.operands

/-! ### The host's view of the decoder -/

/-- The words of an operation given as one number: bit 0 is the least significant bit of the first word, every bit
above `nbits` is 0, three words being the longest operation (rule R101). -/
def wordsOfNumber (nbits w : Nat) : List Word :=
  let v := w % 2 ^ nbits
  [BitVec.ofNat 32 v, BitVec.ofNat 32 (v / 4294967296), BitVec.ofNat 32 (v / 18446744073709551616)]

/-- The operation the decoder reads from an operation whose bits are `w`. -/
def decodeTableWord (nbits w : Nat) : Option Instr :=
  match decode (wordsOfNumber nbits w) with
  | .ok (i, _) => some i
  | .error _ => none

end Sys2Proof
end

