-- ==== Sys2Proof/Machine/Operands.lean ====
section
/-! DEFINITION. Bit fields of the registers, field codes, enumeration codes, built-in handler words and look-ups in the
configuration: everything about operands that does not touch the state. -/

namespace Sys2Proof.Machine

/-! ### One-bit-per-pin groups (rule R114) -/

/-- `word(n) = n / 32`. -/
def pinWord (n : PinNo) : Fin 2 := ⟨n.val / 32, by omega⟩

/-- `mask(n) = 1 << (n % 32)`. -/
def pinMask (n : PinNo) : Word := 1#32 <<< (n.val % 32)

/-- Word `w` of a group; bits 22 to 31 of word 1 read 0 (rule R77). -/
def bankWord (b : PinBank) (w : Fin 2) : Word := b.extractLsb' (32 * w.val) 32

/-- The pins that the 1 bits of `v` name in word `w`; bits of pins 54 to 63 name none (rule R77). -/
def wordPins (w : Fin 2) (v : Word) : PinBank := (v.setWidth 54) <<< (32 * w.val)

/-- The group after word `w` is replaced by `v` (rules R76, R77). -/
def setBankWord (b : PinBank) (w : Fin 2) (v : Word) : PinBank :=
  (b &&& ~~~(wordPins w 0xFFFFFFFF)) ||| wordPins w v

/-- The group after the bits written 1 in word `w` are cleared (rule R75). -/
def clearBankBits (b : PinBank) (w : Fin 2) (v : Word) : PinBank := b &&& ~~~(wordPins w v)

/-- The bit of one pin. -/
def pinBit (b : PinBank) (n : PinNo) : Bool := b.getLsbD n.val

/-- The group with the bit of one pin set to `v`. -/
def setPinBit (b : PinBank) (n : PinNo) (v : Bool) : PinBank :=
  if v then b ||| (1#54 <<< n.val) else b &&& ~~~(1#54 <<< n.val)

/-- The lowest set bit of a word (rule R176). -/
def lowestBit (v : Word) : Option Nat := (List.range 32).find? (fun b => v.getLsbD b)

/-! ### Function select, three bits a pin (rule R34) -/

/-- `FSEL[k]`: ten pins a word, bits 31:30 (and 31:12 of word 5) read 0 (rules R34, R77). -/
def fselWord (f : BitVec 162) (k : Fin 6) : Word := (f.extractLsb' (30 * k.val) 30).setWidth 32

/-- The function-select bits after word `k` is replaced by `v`, reserved bits ignored (rule R77). -/
def setFselWord (f : BitVec 162) (k : Fin 6) (v : Word) : BitVec 162 :=
  let place := fun x : Word => ((x.setWidth 30).setWidth 162) <<< (30 * k.val)
  (f &&& ~~~(place 0xFFFFFFFF)) ||| place v

/-- The word of `FSEL` that holds pin `n`. -/
def fselIndex (n : PinNo) : Fin 6 := ⟨n.val / 10, by omega⟩

/-- The lowest bit of pin `n`'s field in its `FSEL` word. -/
def fselShift (n : PinNo) : Nat := 3 * (n.val % 10)

/-- `fselCode` (rule R115). -/
def fselCode : PinFunction → BitVec 3
  | .input => 0b000
  | .output => 0b001
  | .altFn0 => 0b100
  | .altFn1 => 0b101
  | .altFn2 => 0b110
  | .altFn3 => 0b111
  | .altFn4 => 0b011
  | .altFn5 => 0b010

/-! ### Pulls (rules R35, R116) -/

/-- `pudCode` (rule R116, LegacyStrobe). -/
def pudCode : Pull → BitVec 2
  | .off => 0
  | .down => 1
  | .up => 2

/-- The pull that `PUD[1:0]` selects, `none` for the reserved code 3 (rules R116, R203). -/
def pudPull (c : BitVec 2) : Option Pull :=
  if c = 0 then some .off else if c = 1 then some .down else if c = 2 then some .up else none

/-- `pupCode` (rule R116, Combined2Bit). -/
def pupCode : Pull → BitVec 2
  | .off => 0
  | .up => 1
  | .down => 2

/-- The pull that a `PUPPDN` field stands for, `none` for the reserved code 3 (rules R116, R203). -/
def pupPull (c : BitVec 2) : Option Pull :=
  if c = 0 then some .off else if c = 1 then some .up else if c = 2 then some .down else none

/-- `PUPPDN[j]`: sixteen pins a word, bits 31:12 of word 3 read 0 (rules R35, R77). -/
def puppdnWord (p : BitVec 108) (j : Fin 4) : Word := p.extractLsb' (32 * j.val) 32

/-- The combined pull bits after word `j` is replaced by `v`, reserved bits ignored (rule R77). -/
def setPuppdnWord (p : BitVec 108) (j : Fin 4) (v : Word) : BitVec 108 :=
  let place := fun x : Word => (x.setWidth 108) <<< (32 * j.val)
  (p &&& ~~~(place 0xFFFFFFFF)) ||| place v

/-- Pin `n`'s field of `PUPPDN` (rule R35). -/
def puppdnField (p : BitVec 108) (n : PinNo) : BitVec 2 := p.extractLsb' (2 * n.val) 2

/-- The word of `PUPPDN` that holds pin `n`. -/
def puppdnIndex (n : PinNo) : Fin 4 := ⟨n.val / 16, by omega⟩

/-- The lowest bit of pin `n`'s field in its `PUPPDN` word. -/
def puppdnShift (n : PinNo) : Nat := 2 * (n.val % 16)

/-- Strobe latch (rule R203, LegacyStrobe): the pulls after word `w` of `PUDCLK` is written with `v` while `PUD` is
`sel`. -/
def strobePulls (old : Vector Pull 54) (sel : BitVec 2) (w : Fin 2) (v : Word) : Vector Pull 54 :=
  match pudPull sel with
  | none => old
  | some p => Vector.ofFn fun n : Fin 54 => if pinBit (wordPins w v) n then p else old[n]

/-- The pulls after word `j` of `PUPPDN` is written: each of its pins has the pull its field decodes to, a field of
code 3 leaves its pin's pull as it was (rule R203, Combined2Bit). -/
def combinedPulls (old : Vector Pull 54) (p : BitVec 108) (j : Fin 4) : Vector Pull 54 :=
  Vector.ofFn fun n : Fin 54 => if puppdnIndex n = j then (pupPull (puppdnField p n)).getD old[n] else old[n]

/-- The word with the `width` bits at `sh` replaced by `v`: the write half of the read-modify-writes of rules R201 and
R202. -/
def insertField (old : Word) (width sh : Nat) (v : Word) : Word :=
  (old &&& ~~~(BitVec.ofNat 32 (2 ^ width - 1) <<< sh)) ||| (v <<< sh)

/-! ### Trigger kinds (rule R106) -/

/-- The six kinds in ascending bit order. -/
def trigKinds : List TrigKind :=
  [.risingEdge, .fallingEdge, .highLevel, .lowLevel, .asyncRisingEdge, .asyncFallingEdge]

/-- Bit position of a kind in `types` and `triggerMask` (rule R106). -/
def trigBit : TrigKind → Nat
  | .risingEdge => 0
  | .fallingEdge => 1
  | .highLevel => 2
  | .lowLevel => 3
  | .asyncRisingEdge => 4
  | .asyncFallingEdge => 5

/-- The kinds named by `types`, ascending (rules R204, R205). -/
def kindsOf (types : BitVec 6) : List TrigKind := trigKinds.filter fun k => types.getLsbD (trigBit k)

/-- A level kind: a write to its group re-applies level detection (rule R76). -/
def isLevelKind : TrigKind → Bool
  | .risingEdge => false
  | .fallingEdge => false
  | .highLevel => true
  | .lowLevel => true
  | .asyncRisingEdge => false
  | .asyncFallingEdge => false

/-- `RisingEdge|FallingEdge` (rules R117, R240). -/
def bothEdges : BitVec 6 := 0x03

/-! ### Enumeration codes -/

/-- EncoderState codes (rule R108). -/
def encCode : EncState → Nat
  | .start => 0
  | .cwStart => 1
  | .cwDataFall => 2
  | .cwClockRise => 3
  | .ccwStart => 4
  | .ccwClockFall => 5
  | .ccwDataRise => 6
  | .invalid => 7

/-- ButtonState codes (rule R109). -/
def btnCode : ButtonState → Nat
  | .start => 0
  | .down => 1
  | .click => 2
  | .click2 => 3
  | .click3 => 4
  | .hold => 5
  | .invalid => 6

/-- ButtonEvent codes (rule R110). -/
def evCode : ButtonEvent → Nat
  | .down => 0
  | .up => 1
  | .click => 2
  | .doubleClick => 3
  | .tick => 4

/-- Application event codes, 15 for `NoEvent` (rule R111). -/
def appEventCode : Option AppEvent → Nat
  | some .rotateClockwise => 0
  | some .rotateCounterclockwise => 1
  | some .switchDown => 2
  | some .switchUp => 3
  | some .switchClick => 4
  | some .switchDoubleClick => 5
  | some .switchTripleClick => 6
  | some .switchHold => 7
  | none => 15

/-- Quadrature input index `qin = 2*CLK + DT` (rule R112). -/
def qin (clk dt : Bool) : Nat := 2 * clk.toNat + dt.toNat

/-! ### Transition and output tables -/

/-- The S and M cells of `QDEC_NEXT`, which the source fixes (rule R245). -/
def qdecFixed : EncState → Nat → Option EncState
  | .start, 1 => some .cwStart
  | .start, 2 => some .ccwStart
  | .cwStart, 0 => some .cwDataFall
  | .cwDataFall, 2 => some .cwClockRise
  | .cwClockRise, 3 => some .start
  | .ccwStart, 0 => some .ccwClockFall
  | .ccwClockFall, 1 => some .ccwDataRise
  | .ccwDataRise, 3 => some .start
  | .invalid, 3 => some .start
  | .invalid, _ => some .invalid
  | _, _ => none

/-- `QDEC_NEXT[state][qin]` (rule R245): the S and M cells are fixed, the D cells stand in the configuration (D24, U8;
log entry 22). -/
def qdecNext (c : Config) (st : EncState) (q : Nat) : EncState :=
  (qdecFixed st q).getD (c.qdecNext.getD (4 * encCode st + q) .invalid)

/-- `QDEC_OUT[state][qin]`, all 32 cells fixed by the source (rule R246). -/
def qdecOut (st : EncState) (q : Nat) : Option AppEvent :=
  match st, q with
  | .cwClockRise, 3 => some .rotateClockwise
  | .ccwDataRise, 3 => some .rotateCounterclockwise
  | _, _ => none

/-- The cell of the fourth rapid press (rule R281). -/
def isClick3Press : ButtonState → ButtonEvent → Bool
  | .click3, .doubleClick => true
  | _, _ => false

/-- The S and N cells of `BTN_NEXT`, which the source fixes (rule R277). -/
def btnNextFixed : ButtonState → ButtonEvent → Option ButtonState
  | .start, .down => some .down
  | .down, .click => some .click
  | .down, .tick => some .hold
  | .click, .doubleClick => some .click2
  | .click2, .doubleClick => some .click3
  | .hold, .tick => some .hold
  | _, _ => none

/-- `BTN_NEXT[state][event]` (rules R277, R281): the S and N cells are fixed, the D cells stand in the configuration
(R276, U8; log entry 22). -/
def btnNext (c : Config) (st : ButtonState) (ev : ButtonEvent) : ButtonState :=
  if isClick3Press st ev then c.btnClick3Press.1
  else (btnNextFixed st ev).getD (c.btnNext.getD (5 * btnCode st + evCode ev) .invalid)

/-- The S cells of `BTN_OUT`, which the source fixes (rule R278). -/
def btnOutFixed : ButtonState → ButtonEvent → Option AppEvent
  | .start, .down => some .switchDown
  | .down, .click => some .switchClick
  | .down, .tick => some .switchHold
  | .click2, .tick => some .switchDoubleClick
  | .click3, .tick => some .switchTripleClick
  | .hold, .tick => some .switchHold
  | _, _ => none

/-- `BTN_OUT[state][event]` (rules R278, R281): the S cells are fixed, the D cells stand in the configuration (R276, U8;
log entry 22). -/
def btnOut (c : Config) (st : ButtonState) (ev : ButtonEvent) : Option AppEvent :=
  if isClick3Press st ev then c.btnClick3Press.2
  else (btnOutFixed st ev).or (c.btnOut.getD (5 * btnCode st + evCode ev) none)

/-! ### Handler words (rules R101, R113) -/

/-- The handlers implemented inside the block (rule R113). -/
inductive Builtin where
  | gm | timer | encClkDt | encSw | encDebounce | encTick
deriving DecidableEq, Repr

/-- `H_GM` .. `H_ENC_TICK` (rule R113). -/
def builtinWord : Builtin → Word
  | .gm => 0xFFFF0001
  | .timer => 0xFFFF0002
  | .encClkDt => 0xFFFF0003
  | .encSw => 0xFFFF0004
  | .encDebounce => 0xFFFF0005
  | .encTick => 0xFFFF0006

/-- What a handler word names (rules R101, R113). -/
inductive HandlerClass where
  | builtin (b : Builtin) | reserved | external
deriving DecidableEq, Repr

/-- The class of a handler word: a built-in word, another word of the reserved range, or external (rule R113). -/
def handlerClass (h : Word) : HandlerClass :=
  if h = builtinWord .gm then .builtin .gm
  else if h = builtinWord .timer then .builtin .timer
  else if h = builtinWord .encClkDt then .builtin .encClkDt
  else if h = builtinWord .encSw then .builtin .encSw
  else if h = builtinWord .encDebounce then .builtin .encDebounce
  else if h = builtinWord .encTick then .builtin .encTick
  else if 0xFFFF0000#32 ≤ h then .reserved
  else .external

/-- `HandlerBody(h, ctx, arg)`: a finite list of commands, the empty list where nothing is listed; stimuli cannot
appear in a handler body (rule R334). -/
def handlerBody (c : Config) (h ctx : Word) (arg : Option AppEvent) : List Instr :=
  match c.handlerBodies.find? (fun e => e.handler == h && e.ctx == ctx && e.arg == arg) with
  | some e => e.body.filter Instr.isCommand
  | none => []

/-! ### Durations and timer parameters -/

/-- `T_DEB = DEBOUNCE_MS * TICKS_PER_MS` (rule R270). -/
def tDeb (c : Config) : Nat := c.debounceMs * c.ticksPerMs

/-- `T_CLICK` (rule R273). -/
def tClick (c : Config) : Nat := c.clickMs * c.ticksPerMs

/-- `T_DBL` (rule R272). -/
def tDbl (c : Config) : Nat := c.dblclickMs * c.ticksPerMs

/-- `T_TICK` (rule R274). -/
def tTick (c : Config) : Nat := c.tickMs * c.ticksPerMs

/-- `TIMER_HANDLE(n)` for `n < 2^32`: the listed word, by default the start number itself (rule R304). -/
def timerHandle (c : Config) (n : Nat) : Word := (c.timerHandles.lookup n).getD (BitVec.ofNat 32 n)

/-- Position of a handle in the fire-priority list, its length for a handle that is not listed (rule R307). -/
def fireRank (c : Config) (h : Word) : Nat := c.firePriority.idxOf h

end Sys2Proof.Machine
end

