-- ==== Sys2Proof/Machine/Reference.lean ====
section
/-! DEFINITION. The reference configuration RC0 (rule R5), its default tables (rules R245, R277, R278), and the
acknowledge-register variant of rule R85. -/

namespace Sys2Proof.Machine

/-- `QDEC_NEXT`, the default table (rule R245). -/
def defaultQdecNext : List EncState :=
  [ .invalid,      .cwStart,     .ccwStart,    .start,
    .cwDataFall,   .cwStart,     .invalid,     .start,
    .cwDataFall,   .invalid,     .cwClockRise, .invalid,
    .invalid,      .invalid,     .cwClockRise, .start,
    .ccwClockFall, .invalid,     .ccwStart,    .start,
    .ccwClockFall, .ccwDataRise, .invalid,     .invalid,
    .invalid,      .ccwDataRise, .invalid,     .start,
    .invalid,      .invalid,     .invalid,     .start ]

/-- `BTN_NEXT`, the default table (rule R277). -/
def defaultBtnNext : List ButtonState :=
  [ .down,    .start, .start,  .down,    .start,
    .down,    .start, .click,  .down,    .hold,
    .down,    .click, .click,  .click2,  .start,
    .down,    .start, .click2, .click3,  .hold,
    .down,    .start, .click3, .invalid, .hold,
    .hold,    .start, .start,  .hold,    .hold,
    .invalid, .start, .start,  .invalid, .invalid ]

/-- `BTN_OUT`, the default table (rule R278). -/
def defaultBtnOut : List (Option AppEvent) :=
  [ some .switchDown, none,           none,                    some .switchDown, none,
    none,             some .switchUp, some .switchClick,       none,             some .switchHold,
    some .switchDown, none,           none,                    some .switchDown, none,
    some .switchDown, some .switchUp, some .switchDoubleClick, some .switchDown, some .switchDoubleClick,
    some .switchDown, some .switchUp, some .switchTripleClick, none,             some .switchTripleClick,
    none,             some .switchUp, some .switchUp,          none,             some .switchHold,
    none,             none,           none,                    none,             none ]

/-- `N_IRQ` of RC0 (rule R5). -/
def rc0NIrq : Nat := 64

/-- `N_PINOBJ` of RC0 (rule R5). -/
def rc0NPinObj : Nat := 8

/-- The reference configuration RC0 (rules R5, R74, R85). -/
def rc0 : Config where
  gpioLine := 52
  timerLine := 3
  fiqLine := none
  platformIc := .pendingMask
  spuriousId := 1023
  pullStyle := .legacyStrobe
  build := .debug
  debounceMs := 50
  clickMs := 300
  dblclickMs := 800
  tickMs := 1000
  ticksPerMs := 1
  gpioBase := 0x3F200000
  offFsel := 0x00
  offLev := 0x34
  offEds := 0x40
  offRen := 0x4C
  offFen := 0x58
  offHen := 0x64
  offLen := 0x70
  offAren := 0x7C
  offAfen := 0x88
  offPud := 0x94
  offPudclk := 0x98
  offPuppdn := 0xE4
  icBase := 0x3F00B000
  offPend := 0x204
  offEnset := 0x210
  offEnclr := 0x21C
  offIar := 0x200C
  offEoir := 0x2010
  qdecNext := defaultQdecNext
  btnNext := defaultBtnNext
  btnOut := defaultBtnOut
  btnClick3Press := (.invalid, none)
  timerHandles := []
  firePriority := []
  maxNest := 4
  handlerBodies := []

/-- RC0 with the acknowledge-register controller and the addresses that rule R85 gives it. -/
def rcAck : Config :=
  { rc0 with
    platformIc := .ackRegister
    icBase := 0xFF840000
    offEnset := 0x1100
    offEnclr := 0x1180 }

end Sys2Proof.Machine
end

