-- ==== Sys2Proof/Machine/State.lean ====
section
/-! DEFINITION. The state of the block (10_state.md), its errors, and the state after reset (rule R47). -/

namespace Sys2Proof.Machine

/-- The error codes of a ProgrammingError, in the order of their numbers 1 to 16 (rule R322). -/
inductive ErrorCode where
  | irqAlreadyBound | irqNotBound | invalidIrq | pinSlotBound | pinSlotUnbound | invalidPin
  | pinAlreadyAssigned | pinAlreadyConnected | pinNotConnected | pinUnassigned | secondAppCallback
  | badOpcode | encState | badOperand | badAddress | reentrant
deriving DecidableEq, Repr

/-- The fault record: the error code and the first word of the outermost command in progress (rules R42, R321). -/
structure FaultRecord where
  code : ErrorCode
  opword : Word
deriving DecidableEq, Repr

/-- Why the machine stops. -/
inductive Fault where
  /-- Raised by `perform` when an operation is asked for after a ProgrammingError in a Debug build: "the machine is
  stuck; no agent takes a further step" (rules R42, R321). Safe: the spec gives no further step. -/
  | stuck (record : FaultRecord)
  /-- Raised by `perform` when the application callback is a built-in word whose handler emits an event for ever, so
  that the operation's calls never end (rule R334) and the spec, where an operation runs to completion before the next
  begins (rule R8), gives no next state (log entry 11). Safe: no next state is claimed. -/
  | endlessInvocation
deriving DecidableEq, Repr

/-- Why a step has no meaning. -/
inductive Refusal where
  /-- Raised by `exec` for an operation that has no meaning yet. Safe. -/
  | notModelled (mnemonic : String)
  /-- Raised by `perform` when an operation is asked for after a ProgrammingError in a Release build: the model
  "proves nothing about steps after `fault` is set" (rule R321, U3). Safe. -/
  | releaseAfterFault (record : FaultRecord)
  /-- Raised by `perform` for an operation inside which 2^64 runs of the timer handler nest in each other: `ticks` has
  gone past 2^64 - 1, and "runs that long are not considered" (rule R40, U12; log entry 23). Safe. -/
  | ticksExhausted
deriving DecidableEq, Repr

/-- An entry of `irqTable` and the application callback: a handler word and its context word (rules R21, R36). -/
structure Registration where
  handler : Word
  ctx : Word
deriving DecidableEq, Repr

/-- The per-line state of one IrqId (rules R21, R22, R23). -/
structure IrqLine where
  /-- `irqTable[id]` -/
  handler : Option Registration
  /-- `irqEnable[id]` -/
  enable : Bool
  /-- `irqPending[id]` of a line that is not derived; the GPIO line's is computed from `EDS` (rule R172) -/
  pending : Bool
deriving DecidableEq, Repr

/-- A line after reset (rule R47). -/
def lineReset : IrqLine := { handler := none, enable := false, pending := false }

/-- The handler record of a pin object (rule R29). -/
structure PinHandler where
  callback : Word
  ctx : Word
  autoAck : Bool
deriving DecidableEq, Repr

/-- One per-pin record (rule R29). -/
structure PinObj where
  pinNumber : Option PinNo
  fn : PinFunction
  pull : Pull
  triggerMask : BitVec 6
  handler : Option PinHandler
deriving DecidableEq, Repr

/-- A pin object after reset (rules R29, R47). -/
def pinObjReset : PinObj :=
  { pinNumber := none, fn := .input, pull := .off, triggerMask := 0, handler := none }

/-- The rotary encoder driver's record (rule R36); its pin objects are fixed at 0, 1, 2 (`clkObj`, `dtObj`, `swObj`). -/
structure Enc where
  initialized : Bool
  encState : EncState
  btnState : ButtonState
  debounceTimer : Option Word
  tickTimer : Option Word
  lastPress : Ticks
  /-- written and read by no rule (rule R39) -/
  lastRelease : Ticks
  pressSeen : Bool
  /-- the last classified stable SW level, true = released -/
  swStable : Bool
  appCallback : Option Registration
deriving DecidableEq, Repr

/-- The driver's record after reset (rule R47). -/
def encReset : Enc where
  initialized := false
  encState := .start
  btnState := .start
  debounceTimer := none
  tickTimer := none
  lastPress := 0
  lastRelease := 0
  pressSeen := false
  swStable := true
  appCallback := none

/-- A running kernel timer (rule R41). -/
structure Timer where
  handle : Word
  deadline : Ticks
  callback : Word
  ctx : Word
  seq : Nat
deriving DecidableEq, Repr

/-- Log codes (rule R324). -/
inductive LogCode where
  | unhandledIrq | unregisteredPin
deriving DecidableEq, Repr

/-- A record of `logTrace` (rule R43). -/
structure LogRecord where
  code : LogCode
  arg : Nat
deriving DecidableEq, Repr

/-- A record of `appTrace` (rule R43). -/
structure AppRecord where
  event : AppEvent
  ctx : Word
deriving DecidableEq, Repr

/-- A record of `readTrace` (rule R43). -/
structure ReadRecord where
  addr : Word
  value : Word
deriving DecidableEq, Repr

/-- One register access (rule R7); the model's own observation (log entry 17). -/
inductive BusAccess where
  | read (addr value : Word)
  | write (addr value : Word)
deriving DecidableEq, Repr

/-- Whose turn the next step is: the next operation on the operation port (software or environment agent), or the trap
agent (rule R9, log entry 3). -/
inductive Turn where
  | port | trap
deriving DecidableEq, Repr

/-- The state of the block (10_state.md). The last five fields are the model's own. -/
structure State where
  /-- `irqTable`, `irqEnable`, `irqPending` by IrqId; its length is `N_IRQ` (rules R21 to R23) -/
  lines : List IrqLine
  /-- `icActive` (rule R24) -/
  icActive : Option Nat
  /-- `inIrq`, `inFiq`, `gmBusy`, `invokeDepth` (rule R25) -/
  inIrq : Bool
  inFiq : Bool
  gmBusy : Bool
  invokeDepth : Nat
  /-- `gmInitialized` (rule R27) -/
  gmInitialized : Bool
  /-- `pinTable[0..53]` (rule R28) -/
  pinTable : Vector (Option Nat) 54
  /-- `pinObj`; its length is `N_PINOBJ` (rule R29) -/
  pinObj : List PinObj
  /-- `LEV` (rule R31) -/
  lev : PinBank
  /-- `EDS` (rule R32) -/
  eds : PinBank
  /-- `REN`, `FEN`, `HEN`, `LEN`, `AREN`, `AFEN` (rule R33) -/
  ren : PinBank
  fen : PinBank
  hen : PinBank
  len : PinBank
  aren : PinBank
  afen : PinBank
  /-- `FSEL`, three bits a pin (rule R34) -/
  fsel : BitVec 162
  /-- `PUD`, `PUDCLK`, `PUPPDN`, `pullState` (rule R35) -/
  pud : BitVec 2
  pudclk : PinBank
  puppdn : BitVec 108
  pullState : Vector Pull 54
  /-- `enc` (rule R36) -/
  enc : Enc
  /-- `ticks` (rule R40) -/
  ticks : Ticks
  /-- `timers`, in the order they were started, and `timerSeq` (rule R41) -/
  timers : List Timer
  timerSeq : Nat
  /-- `fault` (rule R42) -/
  fault : Option FaultRecord
  /-- `logTrace`, `appTrace`, `callTrace`, `readTrace` (rule R43) -/
  logTrace : List LogRecord
  appTrace : List AppRecord
  callTrace : List Registration
  readTrace : List ReadRecord
  /-- the model's own: the parameters of rule R5 (log entry 1) -/
  cfg : Config
  /-- the model's own: operation words not yet taken (log entry 3) -/
  port : List Word
  /-- the model's own: whose turns the coming steps are, the port's when the list is empty (log entry 3) -/
  turns : List Turn
  /-- the model's own: the index of the next free value (log entry 6) -/
  freeCount : Nat
  /-- the model's own: every register access, oldest first (log entry 17) -/
  busTrace : List BusAccess
deriving DecidableEq, Repr

/-- The block right after reset (rules R47, R370 to R372) under RC0, with nothing on the operation port. -/
def State.reset : State where
  lines := List.replicate rc0NIrq lineReset
  icActive := none
  inIrq := false
  inFiq := false
  gmBusy := false
  invokeDepth := 0
  gmInitialized := false
  pinTable := Vector.replicate 54 none
  pinObj := List.replicate rc0NPinObj pinObjReset
  lev := BitVec.allOnes 54
  eds := 0
  ren := 0
  fen := 0
  hen := 0
  len := 0
  aren := 0
  afen := 0
  fsel := 0
  pud := 0
  pudclk := 0
  puppdn := 0
  pullState := Vector.replicate 54 .off
  enc := encReset
  ticks := 0
  timers := []
  timerSeq := 0
  fault := none
  logTrace := []
  appTrace := []
  callTrace := []
  readTrace := []
  cfg := rc0
  port := []
  turns := []
  freeCount := 0
  busTrace := []

end Sys2Proof.Machine
end

