-- ==== Sys2Proof/Machine/Flags.lean ====
section
/-! DEFINITION. The flags of the block (rule R45): lines, request outputs, level detection. -/

namespace Sys2Proof.Machine

/-- `N_IRQ`, the number of lines (rule R5). -/
def State.nIrq (s : State) : Nat := s.lines.length

/-- `N_PINOBJ`, the number of pin objects (rule R5). -/
def State.nPinObj (s : State) : Nat := s.pinObj.length

/-- The line of an IrqId; an id outside 0..N_IRQ-1 reads as a line after reset. -/
def State.line (s : State) (id : Nat) : IrqLine := s.lines.getD id lineReset

/-- `irqTable[id]` (rule R21). -/
def State.irqTable (s : State) (id : Nat) : Option Registration := (s.line id).handler

/-- `irqEnable[id]` (rule R22). -/
def State.irqEnable (s : State) (id : Nat) : Bool := (s.line id).enable

/-- `irqPending[id]` (rule R23): for the GPIO line, some status bit is set (rule R172). -/
def State.irqPending (s : State) (id : Nat) : Bool :=
  if id = s.cfg.gpioLine then s.eds != 0 else (s.line id).pending

/-- `eff(id)`, pending and enabled (rule R26). -/
def State.eff (s : State) (id : Nat) : Bool := s.irqPending id && s.irqEnable id

/-- A line that IRQ selection may serve: effective, and not the FIQ line (rules R26, R146). -/
def State.irqCandidate (s : State) (id : Nat) : Bool := s.eff id && s.cfg.fiqLine != some id

/-- `nFIQ_request` (rule R26). -/
def State.nFiqRequest (s : State) : Bool :=
  match s.cfg.fiqLine with
  | some f => s.eff f && !s.inFiq
  | none => false

/-- `nIRQ_request` (rule R26). -/
def State.nIrqRequest (s : State) : Bool :=
  (List.range s.nIrq).any (fun id => s.irqCandidate id) && !s.inIrq && !s.inFiq

/-- A pin object by its index; an index outside 0..N_PINOBJ-1 reads as an object after reset. -/
def State.obj (s : State) (obj : Nat) : PinObj := s.pinObj.getD obj pinObjReset

/-- The trigger-enable group of a kind, `group(k)` (rules R33, R106). -/
def State.trig (s : State) : TrigKind → PinBank
  | .risingEdge => s.ren
  | .fallingEdge => s.fen
  | .highLevel => s.hen
  | .lowLevel => s.len
  | .asyncRisingEdge => s.aren
  | .asyncFallingEdge => s.afen

/-- The pins whose enabled level condition holds (rule R171). -/
def levelPins (lev hen len : PinBank) : PinBank := (lev &&& hen) ||| (~~~lev &&& len)

/-- `LevelDetect()` (rule R171). -/
def State.levelDetect (s : State) : State := { s with eds := s.eds ||| levelPins s.lev s.hen s.len }

end Sys2Proof.Machine
end

