-- ==== Sys2Proof/Machine/Registers.lean ====
section
/-! DEFINITION. The register window: register map, `MemRead` and `MemWrite` (20_memory.md). -/

namespace Sys2Proof.Machine

/-- A register of the window (rules R74, R85). -/
inductive Reg where
  | fsel (k : Fin 6) | lev (w : Fin 2) | eds (w : Fin 2) | trig (k : TrigKind) (w : Fin 2)
  | pud | pudclk (w : Fin 2) | puppdn (j : Fin 4)
  | icPend (w : Nat) | icEnset (w : Nat) | icEnclr (w : Nat) | icIar | icEoir
deriving DecidableEq, Repr

/-- `W = ceil(N_IRQ / 32)` (rule R85). -/
def icWords (nIrq : Nat) : Nat := (nIrq + 31) / 32

/-- The words of a group laid out from `off`, four bytes each. -/
def wordAddr (base off : Word) (w : Nat) : Word := base + off + BitVec.ofNat 32 (4 * w)

/-- The offset of a trigger-enable group (rule R74). -/
def trigOffset (c : Config) : TrigKind → Word
  | .risingEdge => c.offRen
  | .fallingEdge => c.offFen
  | .highLevel => c.offHen
  | .lowLevel => c.offLen
  | .asyncRisingEdge => c.offAren
  | .asyncFallingEdge => c.offAfen

/-- The address of a register (rules R74, R85). -/
def addrOf (c : Config) : Reg → Word
  | .fsel k => wordAddr c.gpioBase c.offFsel k.val
  | .lev w => wordAddr c.gpioBase c.offLev w.val
  | .eds w => wordAddr c.gpioBase c.offEds w.val
  | .trig k w => wordAddr c.gpioBase (trigOffset c k) w.val
  | .pud => wordAddr c.gpioBase c.offPud 0
  | .pudclk w => wordAddr c.gpioBase c.offPudclk w.val
  | .puppdn j => wordAddr c.gpioBase c.offPuppdn j.val
  | .icPend w => wordAddr c.icBase c.offPend w
  | .icEnset w => wordAddr c.icBase c.offEnset w
  | .icEnclr w => wordAddr c.icBase c.offEnclr w
  | .icIar => wordAddr c.icBase c.offIar 0
  | .icEoir => wordAddr c.icBase c.offEoir 0

/-- Both words of a one-bit-per-pin group. -/
def bothWords : List (Fin 2) := [0, 1]

/-- The registers that exist under a configuration with `nIrq` lines (rules R74, R84, R85). -/
def existingRegs (c : Config) (nIrq : Nat) : List Reg :=
  ([0, 1, 2, 3, 4, 5] : List (Fin 6)).map .fsel
    ++ bothWords.map .lev ++ bothWords.map .eds
    ++ trigKinds.flatMap (fun k => bothWords.map (.trig k))
    ++ (match c.pullStyle with
        | .legacyStrobe => .pud :: bothWords.map .pudclk
        | .combined2Bit => ([0, 1, 2, 3] : List (Fin 4)).map .puppdn)
    ++ (match c.platformIc with
        | .pendingMask => (List.range (icWords nIrq)).map .icPend
        | .ackRegister => [])
    ++ (List.range (icWords nIrq)).map .icEnset
    ++ (List.range (icWords nIrq)).map .icEnclr
    ++ (match c.platformIc with
        | .pendingMask => []
        | .ackRegister => [.icIar, .icEoir])

/-- The register at an address, `none` for an unmapped address (rule R84). -/
def regAt (s : State) (addr : Word) : Option Reg :=
  (existingRegs s.cfg s.nIrq).find? (fun r => addrOf s.cfg r == addr)

/-- The word whose bit `b` is `f b`, for the lowest `n` bits. -/
def bitsWord (f : Nat → Bool) : Nat → Word
  | 0 => 0
  | n + 1 => bitsWord f n ||| (if f n then 1#32 <<< n else 0)

/-- Word `w` of a one-bit-per-id group; ids outside the lines read 0 (rule R85). -/
def idWord (f : Nat → Bool) (w : Nat) : Word := bitsWord (fun b => f (32 * w + b)) 32

/-- Bit of an id in a word of a one-bit-per-id group that is written with `v` (rule R85). -/
def idBit (w : Nat) (v : Word) (id : Nat) : Bool := id / 32 == w && v.getLsbD (id % 32)

/-- The lowest line that IRQ selection may serve, `min S` (rules R78, R146). -/
def State.lowestCandidate (s : State) : Option Nat := (List.range s.nIrq).find? (fun id => s.irqCandidate id)

/-- What an acknowledge read yields: `some id` where it marks a line active, `none` where it returns `SPURIOUS_ID`
(rule R78). -/
def State.ackSelect (s : State) : Option Nat :=
  match s.icActive with
  | some _ => none
  | none => s.lowestCandidate

/-- The word a read of the register returns (rules R75 to R78, R85). -/
def regValue (s : State) : Reg → Word
  | .fsel k => fselWord s.fsel k
  | .lev w => bankWord s.lev w
  | .eds w => bankWord s.eds w
  | .trig k w => bankWord (s.trig k) w
  | .pud => s.pud.setWidth 32
  | .pudclk w => bankWord s.pudclk w
  | .puppdn j => puppdnWord s.puppdn j
  | .icPend w => idWord s.eff w
  | .icEnset w => idWord s.irqEnable w
  | .icEnclr w => idWord s.irqEnable w
  | .icIar =>
    match s.ackSelect with
    | some id => BitVec.ofNat 32 id
    | none => s.cfg.spuriousId
  | .icEoir => 0

/-- The effect of a read on the register itself: only the acknowledge register has one (rule R78). -/
def readEffect (s : State) : Reg → State
  | .fsel _ => s
  | .lev _ => s
  | .eds _ => s
  | .trig _ _ => s
  | .pud => s
  | .pudclk _ => s
  | .puppdn _ => s
  | .icPend _ => s
  | .icEnset _ => s
  | .icEnclr _ => s
  | .icIar =>
    match s.ackSelect with
    | some id => { s with icActive := some id }
    | none => s
  | .icEoir => s

/-- Replace the trigger-enable group of a kind (rule R33). -/
def State.setTrig (s : State) (k : TrigKind) (b : PinBank) : State :=
  match k with
  | .risingEdge => { s with ren := b }
  | .fallingEdge => { s with fen := b }
  | .highLevel => { s with hen := b }
  | .lowLevel => { s with len := b }
  | .asyncRisingEdge => { s with aren := b }
  | .asyncFallingEdge => { s with afen := b }

/-- Set or clear the enable bits of the ids written 1 in word `w`; bits of ids outside the lines are ignored
(rule R85). -/
def State.writeEnable (s : State) (w : Nat) (v : Word) (b : Bool) : State :=
  { s with lines := s.lines.mapIdx fun id l => if idBit w v id then { l with enable := b } else l }

/-- The effect of a write on the register (rules R75 to R78, R85, R203). -/
def writeEffect (s : State) (r : Reg) (v : Word) : State :=
  match r with
  | .fsel k => { s with fsel := setFselWord s.fsel k v }
  | .lev _ => s
  | .eds w => State.levelDetect { s with eds := clearBankBits s.eds w v }
  | .trig k w =>
    if isLevelKind k then (s.setTrig k (setBankWord (s.trig k) w v)).levelDetect
    else s.setTrig k (setBankWord (s.trig k) w v)
  | .pud => { s with pud := v.setWidth 2 }
  | .pudclk w =>
    { s with pudclk := setBankWord s.pudclk w v, pullState := strobePulls s.pullState s.pud w v }
  | .puppdn j =>
    { s with puppdn := setPuppdnWord s.puppdn j v,
             pullState := combinedPulls s.pullState (setPuppdnWord s.puppdn j v) j }
  | .icPend _ => s
  | .icEnset w => s.writeEnable w v true
  | .icEnclr w => s.writeEnable w v false
  | .icIar => s
  | .icEoir => if s.icActive = some (v.setWidth 16).toNat then { s with icActive := none } else s

/-- Record a register access (rule R7; log entry 17). -/
def State.pushBus (s : State) (a : BusAccess) : State := { s with busTrace := s.busTrace ++ [a] }

/-- `MemRead(addr(r), 4)`: the state after the read; the value is `regValue s r` (rules R7, R70). -/
def memRead (s : State) (r : Reg) : State := (readEffect s r).pushBus (.read (addrOf s.cfg r) (regValue s r))

/-- `MemWrite(addr(r), 4, v)` (rules R7, R70). -/
def memWrite (s : State) (r : Reg) (v : Word) : State := (writeEffect s r v).pushBus (.write (addrOf s.cfg r) v)

/-- Read-modify-write of a register: one read, one write of the changed word (rules R79, R387). -/
def memModify (s : State) (r : Reg) (f : Word → Word) : State := memWrite (memRead s r) r (f (regValue s r))

end Sys2Proof.Machine
end

