-- ==== Sys2Proof/Machine/Ops.lean ====
section
/-! DEFINITION. The shared operations: results of a rule, raising a ProgrammingError, trap entry and return, the
logger, pin-object access, kernel timers, and the frame every operation runs in. -/

namespace Sys2Proof.Machine

/-! ### Results of a rule -/

/-- Why an operation has no end that the model can give. -/
inductive Unending where
  /-- built-in handlers call each other for ever (log entry 11) -/
  | calls
  /-- the tick counter would wrap inside the operation (log entry 23) -/
  | ticks
deriving DecidableEq, Repr

/-- The result of running a rule: it ends, it raises a ProgrammingError (the state as written so far, rule R321), or it
does not end. -/
inductive Res where
  | ok (s : State)
  | raised (e : ErrorCode) (s : State)
  | unending (u : Unending)
deriving DecidableEq, Repr

/-- Sequencing: a raise abandons what follows (rule R321). -/
def Res.andThen (r : Res) (k : State → Res) : Res :=
  match r with
  | .ok s => k s
  | .raised e s => .raised e s
  | .unending u => .unending u

/-- A call of a handler word with its context word and optional event (rule R334). -/
abbrev Invoker := Word → Word → Option AppEvent → State → Res

/-! ### ProgrammingError (rules R321, R322) -/

/-- The number of an error code (rule R322). -/
def ErrorCode.number : ErrorCode → Nat
  | .irqAlreadyBound => 1
  | .irqNotBound => 2
  | .invalidIrq => 3
  | .pinSlotBound => 4
  | .pinSlotUnbound => 5
  | .invalidPin => 6
  | .pinAlreadyAssigned => 7
  | .pinAlreadyConnected => 8
  | .pinNotConnected => 9
  | .pinUnassigned => 10
  | .secondAppCallback => 11
  | .badOpcode => 12
  | .encState => 13
  | .badOperand => 14
  | .badAddress => 15
  | .reentrant => 16

/-- Taking the exception: `fault <- some(code, opword)`, everything else as it was (rule R321). -/
def State.raiseFault (s : State) (e : ErrorCode) (opword : Word) : State := { s with fault := some ⟨e, opword⟩ }

/-- The machine after a fault: stuck in Debug, nothing claimed in Release (rules R42, R321). -/
def halted (s : State) (f : FaultRecord) : Host.Outcome State Fault Refusal :=
  match s.cfg.build with
  | .debug => .fault (.stuck f)
  | .release => .refused (.releaseAfterFault f)

/-- Run one operation: no step after a fault; a raise anywhere in it sets the fault record with the operation word of
the outermost command (rules R8, R42, R321). -/
def perform (opword : Word) (op : State → Res) (s : State) : Host.Outcome State Fault Refusal :=
  match s.fault with
  | some f => halted s f
  | none =>
    match op s with
    | .ok t => .next t
    | .raised e t => .next (t.raiseFault e opword)
    | .unending .calls => .fault .endlessInvocation
    | .unending .ticks => .refused .ticksExhausted

/-! ### Trap entry and return (rules R333, R335) -/

/-- A dispatch is in progress, so that another is refused (rules R145, R150, R336). -/
def State.inDispatch (s : State) : Bool := s.inIrq || s.inFiq

/-- The block's own entry of an IRQ trap (rule R333). -/
def State.enterIrq (s : State) : State := { s with inIrq := true }

/-- The end of an IRQ trap: nothing is restored, because nothing was saved (rule R335). -/
def State.leaveIrq (s : State) : State := { s with inIrq := false }

/-- The block's own entry of an FIQ trap (rules R150, R333). -/
def State.enterFiq (s : State) : State := { s with inFiq := true }

/-- The end of an FIQ trap (rule R150). -/
def State.leaveFiq (s : State) : State := { s with inFiq := false }

/-- The operation the trap agent issues: the FIQ dispatch first, then the IRQ dispatch, none while no request line is
asserted (rules R9, R26). -/
def State.trapOperation (s : State) : Option Instr :=
  if s.nFiqRequest then some .icDispatchFiq else if s.nIrqRequest then some .icDispatch else none

/-! ### Logger (rule R324) -/

/-- `Log(code, arg)`. -/
def State.log (s : State) (code : LogCode) (arg : Nat) : State := { s with logTrace := s.logTrace ++ [⟨code, arg⟩] }

/-- The number of a log code (rule R324). -/
def LogCode.number : LogCode → Nat
  | .unhandledIrq => 1
  | .unregisteredPin => 2

/-! ### Lines -/

/-- Change the line of one id. -/
def State.setLine (s : State) (id : Nat) (f : IrqLine → IrqLine) : State := { s with lines := s.lines.modify id f }

/-- `enset(id)` (40_irq_controller.md, helper). -/
def enset (s : State) (id : Nat) : State := memWrite s (.icEnset (id / 32)) (1#32 <<< (id % 32))

/-- `enclr(id)` (40_irq_controller.md, helper). -/
def enclr (s : State) (id : Nat) : State := memWrite s (.icEnclr (id / 32)) (1#32 <<< (id % 32))

/-! ### Pin objects (42_gpio_pin.md) -/

/-- The driver's pin objects (rule R36). -/
def clkObj : Nat := 0
def dtObj : Nat := 1
def swObj : Nat := 2

/-- Replace a pin object. -/
def State.setObj (s : State) (obj : Nat) (p : PinObj) : State := { s with pinObj := s.pinObj.set obj p }

/-- Replace an entry of the pin table. -/
def State.setSlot (s : State) (n : PinNo) (v : Option Nat) : State := { s with pinTable := s.pinTable.set n v }

/-- `CheckObj(obj)`. -/
def checkObj (obj : Nat) (s : State) (k : State → Res) : Res :=
  if obj < s.nPinObj then k s else .raised .badOperand s

/-- `CheckAssigned(obj)`; what follows gets the object's pin number. -/
def checkAssigned (obj : Nat) (s : State) (k : PinNo → State → Res) : Res :=
  checkObj obj s fun s =>
    match (s.obj obj).pinNumber with
    | none => .raised .pinUnassigned s
    | some n => k n s

/-- `PinLevel(obj)` (rule R212): what follows gets the level. An object without a pin number, which no initialized
driver has, raises as any other use of it does (log entry 14). -/
def pinLevel (obj : Nat) (s : State) (k : Bool → State → Res) : Res :=
  match (s.obj obj).pinNumber with
  | none => .raised .pinUnassigned s
  | some n => k ((regValue s (.lev (pinWord n))).getLsbD (n.val % 32)) (memRead s (.lev (pinWord n)))

/-- `MemWrite(addr(EDS, n), 4, mask(n))`: acknowledge one pin with one write (rules R75, R209). -/
def ackPin (s : State) (n : PinNo) : State := memWrite s (.eds (pinWord n)) (pinMask n)

/-- `wait PULL_STROBE_WAIT` changes no state (rule R386). -/
def strobeWait (s : State) : State := s

/-! ### Kernel timers (45_timer_mmio.md) -/

/-- The handle of the next timer, and the free values used: `TIMER_HANDLE(timerSeq)`, free after 2^32 starts
(rule R304, U13; log entry 8). -/
def nextHandle (s : State) : Word :=
  if s.timerSeq + 1 < 4294967296 then timerHandle s.cfg (s.timerSeq + 1) else Config.freeHandle s.freeCount

/-- `ticks + d` as a `u64`; free where the sum does not fit (rules R41, R304; log entry 7). -/
def deadlineAfter (s : State) (d : Nat) : Ticks :=
  if s.ticks.toNat + d < 18446744073709551616 then BitVec.ofNat 64 (s.ticks.toNat + d)
  else Config.freeDeadline s.freeCount

/-- `StartTimer(d, h, ctx)` (rule R304): the state after it; the handle it returns is `nextHandle s`. -/
def startTimer (s : State) (d : Nat) (h ctx : Word) : State :=
  { s with
    timerSeq := s.timerSeq + 1
    timers := s.timers ++ [⟨nextHandle s, deadlineAfter s d, h, ctx, s.timerSeq + 1⟩]
    freeCount := s.freeCount + 1 }

/-- `CancelTimer(hd)` (rule R305): nothing for a handle that is not running. -/
def cancelTimer (s : State) (hd : Word) : State :=
  { s with timers := s.timers.eraseP (fun t => t.handle == hd) }

/-- Cancel a timer whose handle is optional. -/
def cancelOptional (s : State) (hd : Option Word) : State :=
  match hd with
  | none => s
  | some h => cancelTimer s h

/-- `ticks + 1`; free where it wraps (rules R40, R307, U12; log entry 6). -/
def nextTicks (s : State) : Ticks :=
  if s.ticks = BitVec.allOnes 64 then Config.freeTicks s.freeCount else s.ticks + 1

/-- Whether timer `a` fires before timer `b`: fire priority, then deadline, then start order (rule R307; log
entry 9). -/
def firesBefore (c : Config) (a b : Timer) : Bool :=
  if fireRank c a.handle != fireRank c b.handle then decide (fireRank c a.handle < fireRank c b.handle)
  else if a.deadline != b.deadline then decide (a.deadline < b.deadline)
  else decide (a.seq ≤ b.seq)

/-- Insert a timer into a list in fire order. -/
def insertDue (c : Config) (t : Timer) : List Timer → List Timer
  | [] => [t]
  | u :: us => if firesBefore c t u then t :: u :: us else u :: insertDue c t us

/-- Sort timers into fire order. -/
def sortDue (c : Config) : List Timer → List Timer
  | [] => []
  | t :: ts => insertDue c t (sortDue c ts)

/-- The timers due at the state's `ticks`, in fire order (rule R307). -/
def dueTimers (s : State) : List Timer := sortDue s.cfg (s.timers.filter fun t => decide (t.deadline ≤ s.ticks))

end Sys2Proof.Machine
end

