-- ==== Sys2Proof/Machine/RulesPin.lean ====
section
/-! DEFINITION. The rules of the pin table (41_gpio_manager.md, R174, R175) and of the Pin operations
(42_gpio_pin.md), without the operation frame of `perform`. -/

namespace Sys2Proof.Machine

/-! ### Pin table -/

/-- `GM.ConnectInterrupt obj` (rule R174). -/
def ruleGmConnectInterrupt (obj : Nat) (s : State) : Res :=
  checkAssigned obj s fun n s =>
    match s.pinTable[n] with
    | some _ => .raised .pinSlotBound s
    | none => .ok (s.setSlot n (some obj))

/-- `GM.DisconnectInterrupt obj` (rule R175). -/
def ruleGmDisconnectInterrupt (obj : Nat) (s : State) : Res :=
  checkAssigned obj s fun n s =>
    if s.pinTable[n] = some obj then .ok (s.setSlot n none) else .raised .pinSlotUnbound s

/-! ### Identity and mode -/

/-- `Pin.AssignPin obj, n` (rule R200). -/
def rulePinAssignPin (obj n : Nat) (s : State) : Res :=
  checkObj obj s fun s =>
    if h : n < 54 then
      match (s.obj obj).pinNumber with
      | some _ => .raised .pinAlreadyAssigned s
      | none => .ok (s.setObj obj { s.obj obj with pinNumber := some ⟨n, h⟩ })
    else .raised .invalidPin s

/-- `ApplyPull(n, pull)` (rule R202). -/
def applyPull (s : State) (n : PinNo) (pull : Pull) : State :=
  match s.cfg.pullStyle with
  | .legacyStrobe =>
    let s := strobeWait (memWrite s .pud ((pudCode pull).setWidth 32))
    memWrite (memWrite s (.pudclk (pinWord n)) (pinMask n)) (.pudclk (pinWord n)) 0
  | .combined2Bit =>
    memModify s (.puppdn (puppdnIndex n)) fun v => insertField v 2 (puppdnShift n) ((pupCode pull).setWidth 32)

/-- The function-select half of `Pin.SetMode` (rule R201). -/
def applyFunction (s : State) (n : PinNo) (fn : PinFunction) : State :=
  memModify s (.fsel (fselIndex n)) fun v => insertField v 3 (fselShift n) ((fselCode fn).setWidth 32)

/-- "pull is only meaningful for Input" (rule R201). -/
def effectivePull (fn : PinFunction) (pull : Pull) : Pull := if fn = .input then pull else .off

/-- `Pin.SetMode obj, mode` (rule R201). -/
def rulePinSetMode (obj : Nat) (fn : PinFunction) (pullCode : BitVec 2) (s : State) : Res :=
  checkAssigned obj s fun n s =>
    match pullOf pullCode with
    | none => .raised .badOperand s
    | some pull =>
      .ok ((applyPull (applyFunction s n fn) n (effectivePull fn pull)).setObj obj
        { s.obj obj with fn := fn, pull := effectivePull fn pull })

/-! ### Trigger enables -/

/-- One read-modify-write of pin `n`'s bit for each kind, in the order of the list (rules R204, R205). -/
def modifyKinds (n : PinNo) (f : Word → Word) : List TrigKind → State → State
  | [], s => s
  | k :: ks, s => modifyKinds n f ks (memModify s (.trig k (pinWord n)) f)

/-- `Pin.EnableInterrupt obj, types` (rule R204). -/
def rulePinEnableInterrupt (obj : Nat) (types : BitVec 6) (s : State) : Res :=
  checkAssigned obj s fun n s =>
    .ok ((modifyKinds n (fun v => v ||| pinMask n) (kindsOf types) s).setObj obj
      { s.obj obj with triggerMask := (s.obj obj).triggerMask ||| types })

/-- `Pin.DisableInterrupt obj, types` (rule R205). -/
def rulePinDisableInterrupt (obj : Nat) (types : BitVec 6) (s : State) : Res :=
  checkAssigned obj s fun n s =>
    .ok ((modifyKinds n (fun v => v &&& ~~~(pinMask n)) (kindsOf types) s).setObj obj
      { s.obj obj with triggerMask := (s.obj obj).triggerMask &&& ~~~types })

/-! ### Callback registration -/

/-- `Pin.ConnectInterrupt obj, autoAck, callback, ctx` (rule R207). -/
def rulePinConnectInterrupt (obj : Nat) (autoAck : Bool) (callback ctx : Word) (s : State) : Res :=
  checkAssigned obj s fun _ s =>
    match (s.obj obj).handler with
    | some _ => .raised .pinAlreadyConnected s
    | none =>
      (ruleGmConnectInterrupt obj s).andThen fun s =>
        .ok (s.setObj obj { s.obj obj with handler := some ⟨callback, ctx, autoAck⟩ })

/-- `Pin.DisconnectInterrupt obj` (rule R208). -/
def rulePinDisconnectInterrupt (obj : Nat) (s : State) : Res :=
  checkAssigned obj s fun _ s =>
    match (s.obj obj).handler with
    | none => .raised .pinNotConnected s
    | some _ =>
      (ruleGmDisconnectInterrupt obj s).andThen fun s => .ok (s.setObj obj { s.obj obj with handler := none })

/-! ### Acknowledge and dispatch -/

/-- `Pin.AcknowledgeInterrupt obj` (rule R209). -/
def rulePinAcknowledgeInterrupt (obj : Nat) (s : State) : Res :=
  checkAssigned obj s fun n s => .ok (ackPin s n)

/-- `Pin.Dispatch obj` (rule R210). -/
def rulePinDispatch (inv : Invoker) (obj : Nat) (s : State) : Res :=
  checkObj obj s fun s =>
    if (s.obj obj).triggerMask = 0 then .ok s
    else
      match (s.obj obj).handler with
      | some h => inv h.callback h.ctx none s
      | none => .ok s

end Sys2Proof.Machine
end

