-- ==== Sys2Proof/Machine/RulesEnc.lean ====
section
/-! DEFINITION. The rules of the encoder driver: lifecycle and quadrature decoder (43_quadrature.md), button machine
(44_button.md), without the operation frame of `perform`. -/

namespace Sys2Proof.Machine

/-- Change the driver's record. -/
def State.setEnc (s : State) (f : Enc → Enc) : State := { s with enc := f s.enc }

/-! ### Application events (rule R244) -/

/-- `AppEvent(e)` (rule R244): dropped while no callback is registered. -/
def emitEvent (inv : Invoker) (e : AppEvent) (s : State) : Res :=
  match s.enc.appCallback with
  | none => .ok s
  | some cb => inv cb.handler cb.ctx (some e) { s with appTrace := s.appTrace ++ [⟨e, cb.ctx⟩] }

/-- The output of a table cell: `NoEvent` emits nothing (rules R111, R243, R275). -/
def emitOutput (inv : Invoker) (out : Option AppEvent) (s : State) : Res :=
  match out with
  | none => .ok s
  | some e => emitEvent inv e s

/-! ### Quadrature decoder -/

/-- CLK/DT handler, `H_ENC_CLKDT` (rule R243). -/
def ruleEncClkDt (inv : Invoker) (s : State) : Res :=
  if s.enc.initialized then
    pinLevel clkObj s fun clk s =>
      pinLevel dtObj s fun dt s =>
        let q := qin clk dt
        emitOutput inv (qdecOut s.enc.encState q)
          (s.setEnc fun e => { e with encState := qdecNext s.cfg e.encState q })
  else .ok s

/-! ### Button machine -/

/-- `BtnStep(ev)` (rule R275). -/
def btnStep (inv : Invoker) (ev : ButtonEvent) (s : State) : Res :=
  emitOutput inv (btnOut s.cfg s.enc.btnState ev)
    (s.setEnc fun e => { e with btnState := btnNext s.cfg e.btnState ev })

/-- SW handler, `H_ENC_SW` (rule R270). -/
def ruleEncSw (s : State) : Res :=
  if s.enc.initialized then
    let s := cancelOptional s s.enc.debounceTimer
    .ok ((startTimer s (tDeb s.cfg) (builtinWord .encDebounce) 0).setEnc fun e =>
      { e with debounceTimer := some (nextHandle s) })
  else .ok s

/-- Start the tick timer and remember its handle (rules R272, R274). -/
def startTick (s : State) : State :=
  (startTimer s (tTick s.cfg) (builtinWord .encTick) 0).setEnc fun e => { e with tickTimer := some (nextHandle s) }

/-- Cancel the tick timer if it runs, as far as the driver remembers it (rules R272, R273). -/
def cancelTick (s : State) : State := cancelOptional s s.enc.tickTimer

/-- The input that a press is classified as (rule R272). -/
def pressEvent (s : State) : ButtonEvent :=
  if s.enc.pressSeen && decide ((s.ticks - s.enc.lastPress).toNat < tDbl s.cfg) then .doubleClick else .down

/-- The input that a release is classified as (rule R273). -/
def releaseEvent (s : State) : ButtonEvent :=
  if s.enc.pressSeen && decide ((s.ticks - s.enc.lastPress).toNat < tClick s.cfg) then .click else .up

/-- `ClassifyPress(now)` with `now = Ticks()` (rules R272, R303). -/
def classifyPress (inv : Invoker) (s : State) : Res :=
  btnStep inv (pressEvent s)
    (startTick (cancelTick (s.setEnc fun e => { e with lastPress := s.ticks, pressSeen := true })))

/-- `ClassifyRelease(now)` with `now = Ticks()` (rules R273, R303). -/
def classifyRelease (inv : Invoker) (s : State) : Res :=
  btnStep inv (releaseEvent s)
    ((cancelTick (s.setEnc fun e => { e with lastRelease := s.ticks })).setEnc fun e => { e with tickTimer := none })

/-- Debounce expiry, `H_ENC_DEBOUNCE` (rule R271). -/
def ruleEncDebounce (inv : Invoker) (s : State) : Res :=
  let s := s.setEnc fun e => { e with debounceTimer := none }
  if s.enc.initialized then
    pinLevel swObj s fun lvl s =>
      if lvl = s.enc.swStable then .ok s
      else
        let s := s.setEnc fun e => { e with swStable := lvl }
        if lvl then classifyRelease inv s else classifyPress inv s
  else .ok s

/-- Tick expiry, `H_ENC_TICK` (rule R274). -/
def ruleEncTick (inv : Invoker) (s : State) : Res :=
  let s := s.setEnc fun e => { e with tickTimer := none }
  if s.enc.initialized then btnStep inv .tick (if s.enc.swStable then s else startTick s)
  else .ok s

/-! ### Lifecycle -/

/-- The driver's record at the end of `Enc.Initialize` (rule R240). -/
def encStarted (e : Enc) : Enc :=
  { e with
    encState := .start, btnState := .start, swStable := true, pressSeen := false, lastPress := 0, lastRelease := 0,
    debounceTimer := none, tickTimer := none, initialized := true }

/-- `Enc.Initialize sw, dt, clk` (rule R240). -/
def ruleEncInitialize (sw dt clk : Nat) (s : State) : Res :=
  if s.enc.initialized then .raised .encState s
  else if clk ≥ 54 ∨ dt ≥ 54 ∨ sw ≥ 54 then .raised .invalidPin s
  else if clk = dt ∨ clk = sw ∨ dt = sw then .raised .badOperand s
  else
    (rulePinAssignPin clkObj clk s)
      |>.andThen (rulePinAssignPin dtObj dt)
      |>.andThen (rulePinAssignPin swObj sw)
      |>.andThen (rulePinSetMode clkObj .input 1)
      |>.andThen (rulePinSetMode dtObj .input 1)
      |>.andThen (rulePinSetMode swObj .input 1)
      |>.andThen (rulePinConnectInterrupt clkObj true (builtinWord .encClkDt) 0)
      |>.andThen (rulePinConnectInterrupt dtObj true (builtinWord .encClkDt) 0)
      |>.andThen (rulePinConnectInterrupt swObj true (builtinWord .encSw) 0)
      |>.andThen (rulePinEnableInterrupt clkObj bothEdges)
      |>.andThen (rulePinEnableInterrupt dtObj bothEdges)
      |>.andThen (rulePinEnableInterrupt swObj bothEdges)
      |>.andThen fun s => .ok (s.setEnc encStarted)

/-- `Enc.RegisterEventHandler callback, ctx` (rule R241). -/
def ruleEncRegisterEventHandler (callback ctx : Word) (s : State) : Res :=
  match s.enc.appCallback with
  | some _ => .raised .secondAppCallback s
  | none => .ok (s.setEnc fun e => { e with appCallback := some ⟨callback, ctx⟩ })

/-- Cancel both timers, as `Enc.Uninitialize` does first (rule R242). -/
def cancelEncTimers (s : State) : State :=
  let s := (cancelOptional s s.enc.debounceTimer).setEnc fun e => { e with debounceTimer := none }
  (cancelOptional s s.enc.tickTimer).setEnc fun e => { e with tickTimer := none }

/-- The driver's record at the end of `Enc.Uninitialize` (rule R242). -/
def encStopped (e : Enc) : Enc :=
  { e with appCallback := none, encState := .start, btnState := .start, initialized := false }

/-- The destruction of the driver's three pins (rule R242). -/
def destroyPins (s : State) : State :=
  ((s.setObj clkObj pinObjReset).setObj dtObj pinObjReset).setObj swObj pinObjReset

/-- `Enc.Uninitialize` (rule R242): timers, then pins, then destruction. -/
def ruleEncUninitialize (s : State) : Res :=
  if s.enc.initialized then
    (rulePinDisconnectInterrupt clkObj (cancelEncTimers s))
      |>.andThen (rulePinDisconnectInterrupt dtObj)
      |>.andThen (rulePinDisconnectInterrupt swObj)
      |>.andThen fun s => .ok ((destroyPins s).setEnc encStopped)
  else .raised .encState s

end Sys2Proof.Machine
end

