-- ==== Sys2Proof/Machine/RulesIc.lean ====
section
/-! DEFINITION. The rules of the IC operations (40_irq_controller.md), without the operation frame of `perform`. -/

namespace Sys2Proof.Machine

/-- `IC.RegisterHandler id, handler, ctx` (rule R140). -/
def ruleIcRegisterHandler (id : Nat) (handler ctx : Word) (s : State) : Res :=
  if id < s.nIrq then
    match s.irqTable id with
    | some _ => .raised .irqAlreadyBound s
    | none => .ok (enset (s.setLine id fun l => { l with handler := some ⟨handler, ctx⟩ }) id)
  else .raised .invalidIrq s

/-- `IC.UnregisterHandler id` (rule R141). -/
def ruleIcUnregisterHandler (id : Nat) (s : State) : Res :=
  if id < s.nIrq then
    match s.irqTable id with
    | some _ => .ok ((enclr s id).setLine id fun l => { l with handler := none })
    | none => .raised .irqNotBound s
  else .raised .invalidIrq s

/-- `IC.EnableLine id` (rule R142). -/
def ruleIcEnableLine (id : Nat) (s : State) : Res :=
  if id < s.nIrq then .ok (enset s id) else .raised .invalidIrq s

/-- `IC.DisableLine id` (rule R143). -/
def ruleIcDisableLine (id : Nat) (s : State) : Res :=
  if id < s.nIrq then .ok (enclr s id) else .raised .invalidIrq s

/-- Write all ones to the first `n` clear-enable words, ascending (rule R144). -/
def clearEnableWords (s : State) : Nat → State
  | 0 => s
  | n + 1 => memWrite (clearEnableWords s n) (.icEnclr n) 0xFFFFFFFF

/-- `IC.DisableAllLines` (rule R144). -/
def ruleIcDisableAllLines (s : State) : Res := .ok (clearEnableWords s (icWords s.nIrq))

/-- `Unhandled(id)` (rule R148): log, then mask the line. -/
def unhandled (s : State) (id : Nat) : State := enclr (s.log .unhandledIrq id) id

/-- Read the first `n` words of `IC_PEND`, ascending (rule R146). -/
def readPendWords (s : State) : Nat → State
  | 0 => s
  | n + 1 => memRead (readPendWords s n) (.icPend n)

/-- Bit `id` of the pending words read (rule R146). -/
def pendBit (s : State) (id : Nat) : Bool := (regValue s (.icPend (id / 32))).getLsbD (id % 32)

/-- The line chosen from the pending words: the timer line first, then the lowest id (rule R146). -/
def pickPending (s : State) : Option Nat :=
  let inS := fun id => pendBit s id && s.cfg.fiqLine != some id
  if inS s.cfg.timerLine then some s.cfg.timerLine
  else (List.range s.nIrq).find? inS

/-- The line that an acknowledge word names, `none` for `SPURIOUS_ID` or an id out of range (rule R147). -/
def ackedLine (s : State) (v : Word) : Option Nat :=
  if (v.setWidth 16).toNat < s.nIrq then some (v.setWidth 16).toNat else none

/-- `SelectLine` (rules R146, R147): the line chosen. -/
def selectLine (s : State) : Option Nat :=
  match s.cfg.platformIc with
  | .pendingMask => pickPending s
  | .ackRegister => ackedLine s (regValue s .icIar)

/-- `SelectLine` (rules R146, R147): the state after its register reads. -/
def afterSelect (s : State) : State :=
  match s.cfg.platformIc with
  | .pendingMask => readPendWords s (icWords s.nIrq)
  | .ackRegister => memRead s .icIar

/-- `Complete(id)` (rules R146, R147): nothing under PendingMask, the id written back under AckRegister. -/
def complete (s : State) (id : Nat) : State :=
  match s.cfg.platformIc with
  | .pendingMask => s
  | .ackRegister => memWrite s .icEoir (BitVec.ofNat 32 id)

/-- Serve a line: its handler if it has one, else the unhandled path (rules R145, R150). -/
def serveLine (inv : Invoker) (id : Nat) (s : State) : Res :=
  match s.irqTable id with
  | some r => inv r.handler r.ctx none s
  | none => .ok (unhandled s id)

/-- `IC.Dispatch` (rule R145). -/
def ruleIcDispatch (inv : Invoker) (s : State) : Res :=
  if s.inDispatch then .raised .reentrant s
  else
    match selectLine s.enterIrq with
    | none => .ok (afterSelect s.enterIrq).leaveIrq
    | some id => (serveLine inv id (afterSelect s.enterIrq)).andThen fun t => .ok (complete t id).leaveIrq

/-- `IC.DispatchFiq` (rule R150). -/
def ruleIcDispatchFiq (inv : Invoker) (s : State) : Res :=
  if s.inDispatch then .raised .reentrant s
  else
    match s.cfg.fiqLine with
    | none => .ok s
    | some f =>
      if s.eff f then (serveLine inv f s.enterFiq).andThen fun t => .ok t.leaveFiq else .ok s

/-- `Ev.IrqLine id, level` (rule R151); a stimulus that is not admitted changes nothing (log entry 4). -/
def ruleEvIrqLine (id : Nat) (level : Bool) (s : State) : Res :=
  if id < s.nIrq ∧ id ≠ s.cfg.gpioLine ∧ id ≠ s.cfg.timerLine then
    .ok (s.setLine id fun l => { l with pending := level })
  else .ok s

end Sys2Proof.Machine
end

