-- ==== Sys2Proof/Machine/RulesGm.lean ====
section
/-! DEFINITION. The edge detector and the rules of the GM operations (41_gpio_manager.md), without the operation frame
of `perform`. -/

namespace Sys2Proof.Machine

/-- An enabled edge: the pin's status bit is to be set (rule R170). -/
def edgeDetected (s : State) (n : PinNo) (level : Bool) : Bool :=
  if level then !pinBit s.lev n && (pinBit s.ren n || pinBit s.aren n)
  else pinBit s.lev n && (pinBit s.fen n || pinBit s.afen n)

/-- `Ev.PinLevel n, level` (rules R170, R171); a stimulus that is not admitted changes nothing (log entry 4). -/
def ruleEvPinLevel (n : Nat) (level : Bool) (s : State) : Res :=
  if h : n < 54 then
    let pin : PinNo := ⟨n, h⟩
    let edge := edgeDetected s pin level
    .ok (State.levelDetect
      { s with lev := setPinBit s.lev pin level, eds := if edge then setPinBit s.eds pin true else s.eds })
  else .ok s

/-- `GM.Initialize` (rule R173). -/
def ruleGmInitialize (s : State) : Res :=
  if s.gmInitialized then .ok s
  else
    (ruleIcRegisterHandler s.cfg.gpioLine (builtinWord .gm) 0 s).andThen fun s =>
      .ok { s with gmInitialized := true }

/-- The lowest pin whose status bit is set; word 1 counts only when word 0 is zero (rule R176). -/
def firstStatusPin (s : State) : Option PinNo :=
  match lowestBit (regValue s (.eds 0)) with
  | some b => if h : b < 54 then some ⟨b, h⟩ else none
  | none =>
    match lowestBit (regValue s (.eds 1)) with
    | some b => if h : 32 + b < 54 then some ⟨32 + b, h⟩ else none
    | none => none

/-- The status reads of `GM.Dispatch`: word 1 is read only when word 0 is zero (rule R176). -/
def readStatus (s : State) : State :=
  if regValue s (.eds 0) = 0 then memRead (memRead s (.eds 0)) (.eds 1) else memRead s (.eds 0)

/-- The auto-acknowledge flag of a pin object with a handler (rule R176). -/
def autoAckOf (p : PinObj) : Bool :=
  match p.handler with
  | some h => h.autoAck
  | none => false

/-- The service of one pin by `GM.Dispatch` (rule R176): log and clear for an empty slot; else the pin's dispatch, then
the acknowledge if the flag, latched before the call, is set. -/
def servePin (inv : Invoker) (n : PinNo) (s : State) : Res :=
  match s.pinTable[n] with
  | none => .ok (ackPin (s.log .unregisteredPin n.val) n)
  | some obj =>
    let ack := autoAckOf (s.obj obj)
    (rulePinDispatch inv obj s).andThen fun t => .ok (if ack then ackPin t n else t)

/-- `GM.Dispatch` (rule R176). -/
def ruleGmDispatch (inv : Invoker) (s : State) : Res :=
  if s.gmBusy then .raised .reentrant s
  else
    let s1 := readStatus { s with gmBusy := true }
    match firstStatusPin s with
    | none => .ok { s1 with gmBusy := false }
    | some n => (servePin inv n s1).andThen fun t => .ok { t with gmBusy := false }

/-- Write 0 to the listed `FSEL` words (rule R177). -/
def clearFsel (s : State) (ks : List (Fin 6)) : State := ks.foldl (fun s k => memWrite s (.fsel k) 0) s

/-- Write 0 to the listed `PUPPDN` words (rule R177). -/
def clearPuppdn (s : State) (js : List (Fin 4)) : State := js.foldl (fun s j => memWrite s (.puppdn j) 0) s

/-- The strobe of Off into every pin (rule R177). -/
def strobeAllOff (s : State) : State :=
  let s := strobeWait (memWrite s .pud 0)
  let s := memWrite (memWrite s (.pudclk 0) 0xFFFFFFFF) (.pudclk 1) 0xFFFFFFFF
  memWrite (memWrite s (.pudclk 0) 0) (.pudclk 1) 0

/-- `GM.AllOff` (rule R177). -/
def ruleGmAllOff (s : State) : Res :=
  let s := clearFsel s [0, 1, 2, 3, 4, 5]
  match s.cfg.pullStyle with
  | .legacyStrobe => .ok (strobeAllOff s)
  | .combined2Bit => .ok (clearPuppdn s [0, 1, 2, 3])

end Sys2Proof.Machine
end

