-- ==== Sys2Proof/Machine/RulesMem.lean ====
section
/-! DEFINITION. The rules of the raw register commands and of the timer line (45_timer_mmio.md), without the operation
frame of `perform`. -/

namespace Sys2Proof.Machine

/-- The checks of a raw access of `width` bytes (rules R71, R72, R84): what follows gets the register. The commands of
the block only issue four-byte accesses. -/
def checkAccess (addr : Word) (width : Nat) (s : State) (k : Reg → Res) : Res :=
  if width = 4 ∧ addr.toNat % 4 = 0 then
    match regAt s addr with
    | some r => k r
    | none => .raised .badAddress s
  else .raised .badAddress s

/-- `Mem.Read32 addr` (rule R300). -/
def ruleMemRead32 (addr : Word) (s : State) : Res :=
  checkAccess addr 4 s fun r =>
    .ok { memRead s r with readTrace := s.readTrace ++ [⟨addr, regValue s r⟩] }

/-- `Mem.Write32 addr, value` (rule R301). -/
def ruleMemWrite32 (addr value : Word) (s : State) : Res :=
  checkAccess addr 4 s fun r => .ok (memWrite s r value)

/-- `Ev.TimerPeriod` (rule R306). -/
def ruleEvTimerPeriod (s : State) : Res := .ok (s.setLine s.cfg.timerLine fun l => { l with pending := true })

/-- Fire one due timer, unless a callback has cancelled it (rule R307). -/
def fireTimer (inv : Invoker) (t : Timer) (s : State) : Res :=
  if t ∈ s.timers then inv t.callback t.ctx none { s with timers := s.timers.erase t } else .ok s

/-- Fire the due timers in order (rule R307). -/
def fireTimers (inv : Invoker) : List Timer → State → Res
  | [], s => .ok s
  | t :: ts, s => (fireTimer inv t s).andThen (fireTimers inv ts)

/-- The timer handler before its callbacks: the source quiesced, one more tick (rule R307). -/
def tickOnce (s : State) : State :=
  { s.setLine s.cfg.timerLine (fun l => { l with pending := false }) with
    ticks := nextTicks s, freeCount := s.freeCount + 1 }

/-- Timer-line handler, `H_TIMER` (rule R307). -/
def ruleTimer (inv : Invoker) (s : State) : Res := fireTimers inv (dueTimers (tickOnce s)) (tickOnce s)

end Sys2Proof.Machine
end

