-- ==== Sys2Proof/Machine/Invoke.lean ====
section
/-! DEFINITION. Invoking a handler word (rule R334): the built-in handlers, the bodies of external handlers and the
commands in them. The rules take the call of a handler word as an argument; `invoke` ties the knot. Its bounds are those
of the spec: an operation whose calls end, ends (log entry 11). -/

namespace Sys2Proof.Machine

/-- One command of a handler body, executed by its rule inside the enclosing operation (rule R334). Stimuli never
appear in a body. -/
def command (inv : Invoker) : Instr → State → Res
  | .icRegisterHandler id handler ctx => ruleIcRegisterHandler id handler ctx
  | .icUnregisterHandler id => ruleIcUnregisterHandler id
  | .icEnableLine id => ruleIcEnableLine id
  | .icDisableLine id => ruleIcDisableLine id
  | .icDisableAllLines => ruleIcDisableAllLines
  | .icDispatch => ruleIcDispatch inv
  | .icDispatchFiq => ruleIcDispatchFiq inv
  | .gmInitialize => ruleGmInitialize
  | .gmConnectInterrupt obj => ruleGmConnectInterrupt obj
  | .gmDisconnectInterrupt obj => ruleGmDisconnectInterrupt obj
  | .gmDispatch => ruleGmDispatch inv
  | .gmAllOff => ruleGmAllOff
  | .pinAssignPin obj n => rulePinAssignPin obj n
  | .pinSetMode obj fn pull => rulePinSetMode obj fn pull
  | .pinEnableInterrupt obj types => rulePinEnableInterrupt obj types
  | .pinDisableInterrupt obj types => rulePinDisableInterrupt obj types
  | .pinConnectInterrupt obj autoAck callback ctx => rulePinConnectInterrupt obj autoAck callback ctx
  | .pinDisconnectInterrupt obj => rulePinDisconnectInterrupt obj
  | .pinAcknowledgeInterrupt obj => rulePinAcknowledgeInterrupt obj
  | .pinDispatch obj => rulePinDispatch inv obj
  | .encInitialize sw dt clk => ruleEncInitialize sw dt clk
  | .encRegisterEventHandler callback ctx => ruleEncRegisterEventHandler callback ctx
  | .encUninitialize => ruleEncUninitialize
  | .memRead32 addr => ruleMemRead32 addr
  | .memWrite32 addr value => ruleMemWrite32 addr value
  | .evPinLevel _ _ => .ok
  | .evIrqLine _ _ => .ok
  | .evTimerPeriod => .ok

/-- The commands of a body, in order (rule R334). -/
def runBody (inv : Invoker) : List Instr → State → Res
  | [], s => .ok s
  | i :: is, s => (command inv i s).andThen (runBody inv is)

/-- The rule that a built-in word names; context and event are ignored (rules R113, R334). -/
def runBuiltin (inv : Invoker) : Builtin → State → Res
  | .gm => ruleGmDispatch inv
  | .timer => ruleTimer inv
  | .encClkDt => ruleEncClkDt inv
  | .encSw => ruleEncSw
  | .encDebounce => ruleEncDebounce inv
  | .encTick => ruleEncTick inv

/-- The entry of an external handler: the call is recorded before the nesting check (rule R334). -/
def recordCall (h ctx : Word) (s : State) : State := { s with callTrace := s.callTrace ++ [⟨h, ctx⟩] }

/-- An external handler: record the call, check the nesting, run the body one level deeper (rule R334). -/
def runExternal (inv : Invoker) (h ctx : Word) (arg : Option AppEvent) (s : State) : Res :=
  let s := recordCall h ctx s
  if s.invokeDepth ≥ s.cfg.maxNest then .raised .reentrant s
  else
    (runBody inv (handlerBody s.cfg h ctx arg) { s with invokeDepth := s.invokeDepth + 1 }).andThen fun t =>
      .ok { t with invokeDepth := t.invokeDepth - 1 }

/-- `Invoke(h, ctx)` and `Invoke(h, ctx, some(e))` over a given call for the nested ones (rule R334). -/
def invokeWith (inv : Invoker) (h ctx : Word) (arg : Option AppEvent) (s : State) : Res :=
  match handlerClass h with
  | .builtin b => runBuiltin inv b s
  | .reserved => .raised .badOperand s
  | .external => runExternal inv h ctx arg s

/-- A call of the timer handler goes to `runs`, every other call to `calls`. -/
def splitCall (runs calls : Invoker) : Invoker := fun h => if h = builtinWord .timer then runs h else calls h

/-- `Invoke` with at most `n` calls nested in each other between two nested runs of the timer handler, which are
`runs`. -/
def nestedCall (runs : Invoker) : Nat → Invoker
  | 0 => fun _ _ _ _ => .unending .calls
  | n + 1 => invokeWith (splitCall runs (nestedCall runs n))

/-- More calls than nest in each other between two nested runs of the timer handler, unless they never end: `MAX_NEST`
bounds the external handlers (rule R334), the re-entry check the pin dispatches (rule R176), and a handler of the
encoder driver calls the application callback only (rule R244; log entry 11, `timedCall_eq` in Laws/Calls.lean). -/
def callBound (c : Config) : Nat := 2 * c.maxNest + 16

/-- `Invoke` with at most `n` runs of the timer handler nested in each other. -/
def timedCall : Nat → Invoker
  | 0 => fun _ _ _ _ => .unending .ticks
  | n + 1 => fun h ctx arg s => nestedCall (timedCall n) (callBound s.cfg) h ctx arg s

/-- Every run of the timer handler counts one tick, and `ticks` has 64 bits (rules R40, R307, U12). -/
def tickLimit : Nat := 18446744073709551616

/-- The call of a handler word by the operations of an agent (rule R334). -/
def invoke : Invoker := timedCall tickLimit

end Sys2Proof.Machine
end

