-- ==== Sys2Proof/Machine/Enc.lean ====
section
/-! DEFINITION. The meanings of the Enc operations (43_quadrature.md): each operation's rule in the operation frame of `perform`. -/

namespace Sys2Proof.Machine

/-- `Enc.Initialize` (rule R240). -/
def execEncInitialize (sw dt clk : Nat) (s : State) : Host.Outcome State Fault Refusal :=
  perform (Instr.encInitialize sw dt clk).opword (ruleEncInitialize sw dt clk) s

/-- `Enc.RegisterEventHandler` (rule R241). -/
def execEncRegisterEventHandler (callback ctx : Word) (s : State) : Host.Outcome State Fault Refusal :=
  perform (Instr.encRegisterEventHandler callback ctx).opword (ruleEncRegisterEventHandler callback ctx) s

/-- `Enc.Uninitialize` (rule R242). -/
def execEncUninitialize (s : State) : Host.Outcome State Fault Refusal :=
  perform Instr.encUninitialize.opword ruleEncUninitialize s

end Sys2Proof.Machine
end

