-- ==== Sys2Proof/Machine/Ev.lean ====
section
/-! DEFINITION. The meanings of the stimuli (40_irq_controller.md, 41_gpio_manager.md, 45_timer_mmio.md): each operation's rule in the operation frame of `perform`. -/

namespace Sys2Proof.Machine

/-- `Ev.PinLevel` (rule R170). -/
def execEvPinLevel (n : Nat) (level : Bool) (s : State) : Host.Outcome State Fault Refusal :=
  perform (Instr.evPinLevel n level).opword (ruleEvPinLevel n level) s

/-- `Ev.IrqLine` (rule R151). -/
def execEvIrqLine (id : Nat) (level : Bool) (s : State) : Host.Outcome State Fault Refusal :=
  perform (Instr.evIrqLine id level).opword (ruleEvIrqLine id level) s

/-- `Ev.TimerPeriod` (rule R306). -/
def execEvTimerPeriod (s : State) : Host.Outcome State Fault Refusal :=
  perform Instr.evTimerPeriod.opword ruleEvTimerPeriod s

end Sys2Proof.Machine
end

