-- ==== Sys2Proof/Machine/Gm.lean ====
section
/-! DEFINITION. The meanings of the GM operations (41_gpio_manager.md): each operation's rule in the operation frame of `perform`. -/

namespace Sys2Proof.Machine

/-- `GM.Initialize` (rule R173). -/
def execGmInitialize (s : State) : Host.Outcome State Fault Refusal :=
  perform Instr.gmInitialize.opword ruleGmInitialize s

/-- `GM.ConnectInterrupt` (rule R174). -/
def execGmConnectInterrupt (obj : Nat) (s : State) : Host.Outcome State Fault Refusal :=
  perform (Instr.gmConnectInterrupt obj).opword (ruleGmConnectInterrupt obj) s

/-- `GM.DisconnectInterrupt` (rule R175). -/
def execGmDisconnectInterrupt (obj : Nat) (s : State) : Host.Outcome State Fault Refusal :=
  perform (Instr.gmDisconnectInterrupt obj).opword (ruleGmDisconnectInterrupt obj) s

/-- `GM.Dispatch` (rule R176). -/
def execGmDispatch (s : State) : Host.Outcome State Fault Refusal :=
  perform Instr.gmDispatch.opword (ruleGmDispatch invoke) s

/-- `GM.AllOff` (rule R177). -/
def execGmAllOff (s : State) : Host.Outcome State Fault Refusal :=
  perform Instr.gmAllOff.opword ruleGmAllOff s

end Sys2Proof.Machine
end

