-- ==== Sys2Proof/Machine/Ic.lean ====
section
/-! DEFINITION. The meanings of the IC operations (40_irq_controller.md): each operation's rule in the operation frame of `perform`. -/

namespace Sys2Proof.Machine

/-- `IC.RegisterHandler` (rule R140). -/
def execIcRegisterHandler (id : Nat) (handler ctx : Word) (s : State) : Host.Outcome State Fault Refusal :=
  perform (Instr.icRegisterHandler id handler ctx).opword (ruleIcRegisterHandler id handler ctx) s

/-- `IC.UnregisterHandler` (rule R141). -/
def execIcUnregisterHandler (id : Nat) (s : State) : Host.Outcome State Fault Refusal :=
  perform (Instr.icUnregisterHandler id).opword (ruleIcUnregisterHandler id) s

/-- `IC.EnableLine` (rule R142). -/
def execIcEnableLine (id : Nat) (s : State) : Host.Outcome State Fault Refusal :=
  perform (Instr.icEnableLine id).opword (ruleIcEnableLine id) s

/-- `IC.DisableLine` (rule R143). -/
def execIcDisableLine (id : Nat) (s : State) : Host.Outcome State Fault Refusal :=
  perform (Instr.icDisableLine id).opword (ruleIcDisableLine id) s

/-- `IC.DisableAllLines` (rule R144). -/
def execIcDisableAllLines (s : State) : Host.Outcome State Fault Refusal :=
  perform Instr.icDisableAllLines.opword ruleIcDisableAllLines s

/-- `IC.Dispatch` (rule R145). -/
def execIcDispatch (s : State) : Host.Outcome State Fault Refusal :=
  perform Instr.icDispatch.opword (ruleIcDispatch invoke) s

/-- `IC.DispatchFiq` (rule R150). -/
def execIcDispatchFiq (s : State) : Host.Outcome State Fault Refusal :=
  perform Instr.icDispatchFiq.opword (ruleIcDispatchFiq invoke) s

end Sys2Proof.Machine
end

