-- ==== Sys2Proof/Machine/Mem.lean ====
section
/-! DEFINITION. The meanings of the raw register commands (45_timer_mmio.md): each operation's rule in the operation frame of `perform`. -/

namespace Sys2Proof.Machine

/-- `Mem.Read32` (rule R300). -/
def execMemRead32 (addr : Word) (s : State) : Host.Outcome State Fault Refusal :=
  perform (Instr.memRead32 addr).opword (ruleMemRead32 addr) s

/-- `Mem.Write32` (rule R301). -/
def execMemWrite32 (addr value : Word) (s : State) : Host.Outcome State Fault Refusal :=
  perform (Instr.memWrite32 addr value).opword (ruleMemWrite32 addr value) s

end Sys2Proof.Machine
end

