-- ==== Sys2Proof/Machine/Pin.lean ====
section
/-! DEFINITION. The meanings of the Pin operations (42_gpio_pin.md): each operation's rule in the operation frame of `perform`. -/

namespace Sys2Proof.Machine

/-- `Pin.AssignPin` (rule R200). -/
def execPinAssignPin (obj n : Nat) (s : State) : Host.Outcome State Fault Refusal :=
  perform (Instr.pinAssignPin obj n).opword (rulePinAssignPin obj n) s

/-- `Pin.SetMode` (rule R201). -/
def execPinSetMode (obj : Nat) (fn : PinFunction) (pull : BitVec 2) (s : State) : Host.Outcome State Fault Refusal :=
  perform (Instr.pinSetMode obj fn pull).opword (rulePinSetMode obj fn pull) s

/-- `Pin.EnableInterrupt` (rule R204). -/
def execPinEnableInterrupt (obj : Nat) (types : BitVec 6) (s : State) : Host.Outcome State Fault Refusal :=
  perform (Instr.pinEnableInterrupt obj types).opword (rulePinEnableInterrupt obj types) s

/-- `Pin.DisableInterrupt` (rule R205). -/
def execPinDisableInterrupt (obj : Nat) (types : BitVec 6) (s : State) : Host.Outcome State Fault Refusal :=
  perform (Instr.pinDisableInterrupt obj types).opword (rulePinDisableInterrupt obj types) s

/-- `Pin.ConnectInterrupt` (rule R207). -/
def execPinConnectInterrupt (obj : Nat) (autoAck : Bool) (callback ctx : Word) (s : State) : Host.Outcome State Fault Refusal :=
  perform (Instr.pinConnectInterrupt obj autoAck callback ctx).opword (rulePinConnectInterrupt obj autoAck callback ctx) s

/-- `Pin.DisconnectInterrupt` (rule R208). -/
def execPinDisconnectInterrupt (obj : Nat) (s : State) : Host.Outcome State Fault Refusal :=
  perform (Instr.pinDisconnectInterrupt obj).opword (rulePinDisconnectInterrupt obj) s

/-- `Pin.AcknowledgeInterrupt` (rule R209). -/
def execPinAcknowledgeInterrupt (obj : Nat) (s : State) : Host.Outcome State Fault Refusal :=
  perform (Instr.pinAcknowledgeInterrupt obj).opword (rulePinAcknowledgeInterrupt obj) s

/-- `Pin.Dispatch` (rule R210). -/
def execPinDispatch (obj : Nat) (s : State) : Host.Outcome State Fault Refusal :=
  perform (Instr.pinDispatch obj).opword (rulePinDispatch invoke obj) s

end Sys2Proof.Machine
end

