-- ==== Sys2Proof/Machine/Dispatch.lean ====
section
/-! DEFINITION. The meaning of every operation of the opcode table (rule R104), one arm each. -/

namespace Sys2Proof.Machine

def exec (i : Instr) (s : State) : Host.Outcome State Fault Refusal :=
  match i with
  | .icRegisterHandler id handler ctx => Sys2Proof.Machine.execIcRegisterHandler id handler ctx s
  | .icUnregisterHandler id => Sys2Proof.Machine.execIcUnregisterHandler id s
  | .icEnableLine id => Sys2Proof.Machine.execIcEnableLine id s
  | .icDisableLine id => Sys2Proof.Machine.execIcDisableLine id s
  | .icDisableAllLines => Sys2Proof.Machine.execIcDisableAllLines s
  | .icDispatch => Sys2Proof.Machine.execIcDispatch s
  | .icDispatchFiq => Sys2Proof.Machine.execIcDispatchFiq s
  | .gmInitialize => Sys2Proof.Machine.execGmInitialize s
  | .gmConnectInterrupt obj => Sys2Proof.Machine.execGmConnectInterrupt obj s
  | .gmDisconnectInterrupt obj => Sys2Proof.Machine.execGmDisconnectInterrupt obj s
  | .gmDispatch => Sys2Proof.Machine.execGmDispatch s
  | .gmAllOff => Sys2Proof.Machine.execGmAllOff s
  | .pinAssignPin obj n => Sys2Proof.Machine.execPinAssignPin obj n s
  | .pinSetMode obj fn pull => Sys2Proof.Machine.execPinSetMode obj fn pull s
  | .pinEnableInterrupt obj types => Sys2Proof.Machine.execPinEnableInterrupt obj types s
  | .pinDisableInterrupt obj types => Sys2Proof.Machine.execPinDisableInterrupt obj types s
  | .pinConnectInterrupt obj autoAck callback ctx => Sys2Proof.Machine.execPinConnectInterrupt obj autoAck callback ctx s
  | .pinDisconnectInterrupt obj => Sys2Proof.Machine.execPinDisconnectInterrupt obj s
  | .pinAcknowledgeInterrupt obj => Sys2Proof.Machine.execPinAcknowledgeInterrupt obj s
  | .pinDispatch obj => Sys2Proof.Machine.execPinDispatch obj s
  | .encInitialize sw dt clk => Sys2Proof.Machine.execEncInitialize sw dt clk s
  | .encRegisterEventHandler callback ctx => Sys2Proof.Machine.execEncRegisterEventHandler callback ctx s
  | .encUninitialize => Sys2Proof.Machine.execEncUninitialize s
  | .memRead32 addr => Sys2Proof.Machine.execMemRead32 addr s
  | .memWrite32 addr value => Sys2Proof.Machine.execMemWrite32 addr value s
  | .evPinLevel n level => Sys2Proof.Machine.execEvPinLevel n level s
  | .evIrqLine id level => Sys2Proof.Machine.execEvIrqLine id level s
  | .evTimerPeriod => Sys2Proof.Machine.execEvTimerPeriod s

end Sys2Proof.Machine
end

