-- ==== Sys2Proof/Machine/Fetch.lean ====
section
/-! DEFINITION. Taking the next operation: the turn of the operation port and the turn of the trap agent (rules R8, R9,
R100, R105; log entry 3). -/

namespace Sys2Proof.Machine

/-- What the operation port offers. -/
inductive Fetched where
  /-- no operation, or one whose operand words are not all there yet -/
  | idle
  /-- a word that matches no row of the opcode table -/
  | illegal (w : Word)
  /-- an operation, and the words after it -/
  | op (i : Instr) (rest : List Word)
deriving DecidableEq, Repr

/-- Read the operation at the head of the port (rules R101, R105). -/
def fetch (ws : List Word) : Fetched :=
  match decode ws with
  | .ok (i, rest) => .op i rest
  | .error .noWord => .idle
  | .error (.missingOperand _) => .idle
  | .error (.unassignedOpcode w) => .illegal w
  | .error (.unusedField w) => .illegal w

/-- An illegal operation word raises `PE_BAD_OPCODE` and changes no other state (rule R105). -/
def execIllegal (w : Word) (s : State) : Host.Outcome State Fault Refusal := perform w (.raised .badOpcode) s

/-- The turn of the operation port: one operation, or an idle step. -/
def portTurn (s : State) : Host.Outcome State Fault Refusal :=
  match fetch s.port with
  | .idle => perform 0 .ok s
  | .illegal w => execIllegal w { s with port := s.port.tail }
  | .op i rest => exec i { s with port := rest }

/-- The turn of the trap agent: the dispatch its request lines call for, else nothing (rules R9, R26). -/
def trapTurn (s : State) : Host.Outcome State Fault Refusal :=
  match s.trapOperation with
  | some i => exec i s
  | none => perform 0 .ok s

/-- One step: the agent whose turn it is issues one operation; without a listed turn it is the port's. -/
def takeTurn (s : State) : Host.Outcome State Fault Refusal :=
  match s.turns with
  | [] => portTurn s
  | .port :: ts => portTurn { s with turns := ts }
  | .trap :: ts => trapTurn { s with turns := ts }

/-- The state with one operation on the port and the port's turn next. -/
def placeOperation (s : State) (ws : List Word) : State := { s with port := ws, turns := [] }

end Sys2Proof.Machine
end

