-- ==== Sys2Proof/Machine/Step.lean ====
section
/-! DEFINITION. One step of the machine, and how the host places an operation where the next step takes it. -/

namespace Sys2Proof.Machine

/-- One step (rules R8, R9): see `takeTurn`. -/
def step (s : State) : Host.Outcome State Fault Refusal := takeTurn s

/-- The state in which the next step takes the operation whose bits are `w` (log entry 3). -/
def State.withFetchWord (s : State) (nbits w : Nat) : State := placeOperation s (wordsOfNumber nbits w)

end Sys2Proof.Machine
end

