-- ==== Sys2Proof/Safety.lean ====
section
/-! DEFINITION. The terms claims are stated in: how an operation ends, and what every state of a run keeps. -/

namespace Sys2Proof.Safety

open Sys2Proof.Machine

/-! ### How an operation ends -/

/-- The operation ends with the fault record set and nothing else changed (rules R321, R322). -/
def Raises (i : Instr) (s : State) (e : ErrorCode) : Prop := exec i s = .next { s with fault := some ⟨e, i.opword⟩ }

/-! ### Register accesses, as the model records them (log entry 17) -/

/-- The record of a read of a register. -/
def readOf (c : Config) (r : Reg) (v : Word) : BusAccess := .read (addrOf c r) v

/-- The record of a write to a register. -/
def writeOf (c : Config) (r : Reg) (v : Word) : BusAccess := .write (addrOf c r) v

/-- The state with further register accesses recorded. -/
def withBus (s : State) (l : List BusAccess) : State := { s with busTrace := s.busTrace ++ l }

/-- The reads of the first `n` words of `IC_PEND`, ascending (rule R146). -/
def pendReads (s : State) (n : Nat) : List BusAccess :=
  (List.range n).map fun w => readOf s.cfg (.icPend w) (regValue s (.icPend w))

/-- The reads that selecting a line makes (rules R146, R147). -/
def selectReads (s : State) : List BusAccess :=
  match s.cfg.platformIc with
  | .pendingMask => pendReads s (icWords s.nIrq)
  | .ackRegister => [readOf s.cfg .icIar (regValue s .icIar)]

/-- The writes that completing a line makes (rule R147). -/
def completeWrites (c : Config) (id : Nat) : List BusAccess :=
  match c.platformIc with
  | .pendingMask => []
  | .ackRegister => [writeOf c .icEoir (BitVec.ofNat 32 id)]

/-- The status reads of `GM.Dispatch`: word 1 only when word 0 is zero (rule R176). -/
def statusReads (s : State) : List BusAccess :=
  if bankWord s.eds 0 = 0 then [readOf s.cfg (.eds 0) 0, readOf s.cfg (.eds 1) (bankWord s.eds 1)]
  else [readOf s.cfg (.eds 0) (bankWord s.eds 0)]

/-- The read-modify-writes of a pin's bit in the groups of some kinds (rules R204, R205). -/
def kindAccesses (s : State) (n : PinNo) (f : Word → Word) (ks : List TrigKind) : List BusAccess :=
  ks.flatMap fun k =>
    [readOf s.cfg (.trig k (pinWord n)) (bankWord (s.trig k) (pinWord n)),
      writeOf s.cfg (.trig k (pinWord n)) (f (bankWord (s.trig k) (pinWord n)))]

/-- The bits of a plain register that are implemented; the others read 0 and ignore writes (rule R77).
`none` for a register that is not plain. -/
def implemented : Reg → Option Word
  | .fsel k => some (if k = 5 then 0x00000FFF else 0x3FFFFFFF)
  | .lev _ => none
  | .eds _ => none
  | .trig _ w => some (if w = 1 then 0x003FFFFF else 0xFFFFFFFF)
  | .pud => some 0x00000003
  | .pudclk w => some (if w = 1 then 0x003FFFFF else 0xFFFFFFFF)
  | .puppdn j => some (if j = 3 then 0x00000FFF else 0xFFFFFFFF)
  | .icPend _ => none
  | .icEnset _ => none
  | .icEnclr _ => none
  | .icIar => none
  | .icEoir => none

/-! ### Lines and pins -/

/-- The line that a dispatch serves (rules R78, R146, R331): under PendingMask the timer line first, then the lowest
line; under AckRegister the lowest line, and none while a line is active. -/
def Selected (s : State) (id : Nat) : Prop :=
  s.irqCandidate id = true ∧
    match s.cfg.platformIc with
    | .pendingMask =>
      id = s.cfg.timerLine ∨ s.irqCandidate s.cfg.timerLine = false ∧ ∀ j < id, s.irqCandidate j = false
    | .ackRegister => s.icActive = none ∧ ∀ j < id, s.irqCandidate j = false

/-- No line can be served (rules R78, R146). -/
def NoneSelected (s : State) : Prop :=
  (∀ id, s.irqCandidate id = false) ∨ s.cfg.platformIc = .ackRegister ∧ s.icActive.isSome = true

/-- An id field holds every id, and the spurious id is no line (rule R5). -/
def IdsFit (s : State) : Prop := s.nIrq ≤ 65536 ∧ s.nIrq ≤ (s.cfg.spuriousId.setWidth 16).toNat

/-- Pin `n` is the lowest pin whose status bit is set (rule R176). -/
def FirstPending (s : State) (n : PinNo) : Prop := pinBit s.eds n = true ∧ ∀ m : PinNo, m < n → pinBit s.eds m = false

/-- The mask of one pin in a group. -/
def onePin (n : PinNo) : PinBank := 1#54 <<< n.val

/-- The status bits after a write-1-to-clear of one pin: level detection is re-applied (rules R75, R171). -/
def cleared (s : State) (n : PinNo) : PinBank := (s.eds &&& ~~~(onePin n)) ||| levelPins s.lev s.hen s.len

/-- Pin `n`'s field of the function-select registers (rule R34). -/
def fselField (f : BitVec 162) (n : PinNo) : BitVec 3 := f.extractLsb' (3 * n.val) 3

/-- The object is one of the objects and has the pin number `n`. -/
def AssignedTo (s : State) (obj : Nat) (n : PinNo) : Prop := obj < s.nPinObj ∧ (s.obj obj).pinNumber = some n

/-- An external handler whose body is empty can be called (rule R334). -/
def CallableQuietly (s : State) (h ctx : Word) (arg : Option AppEvent) : Prop :=
  handlerClass h = .external ∧ handlerBody s.cfg h ctx arg = [] ∧ s.invokeDepth < s.cfg.maxNest

/-! ### Handlers, timers and the driver -/

/-- The call of a handler word ends well in the state `t` (rule R334). -/
def HandlerEnds (h ctx : Word) (arg : Option AppEvent) (s t : State) : Prop := invoke h ctx arg s = .ok t

/-- A call made inside a called handler: of the timer handler, one run fewer can nest in it; of another word, it is the
call that an operation makes (log entries 11 and 23). -/
def innerCall : Invoker := splitCall (timedCall (tickLimit - 1)) invoke

/-- A list of due timers fires: each one that still runs is taken out and its callback's call ends, one that a callback
has cancelled is skipped (rule R307). -/
def FiresTo : List Timer → State → State → Prop
  | [], s, t => t = s
  | x :: xs, s, t =>
    if x ∈ s.timers then
      ∃ u, innerCall x.callback x.ctx none { s with timers := s.timers.erase x } = .ok u ∧ FiresTo xs u t
    else FiresTo xs s t

/-- Commands run in order inside a handler, each of them ending (rule R334). -/
def CommandsEnd : List Instr → State → State → Prop
  | [], s, t => t = s
  | i :: is, s, t => ∃ u, command innerCall i s = .ok u ∧ CommandsEnd is u t

/-- The timers without the one of a handle (rule R305). -/
def withoutTimer (h : Option Word) (l : List Timer) : List Timer :=
  match h with
  | none => l
  | some hd => l.eraseP fun t => t.handle == hd

/-- The next start has a handle of the handle map, and its deadline fits 64 bits (rules R304, U12, U13). -/
def CanStart (s : State) (d : Nat) : Prop := s.timerSeq + 1 < 4294967296 ∧ s.ticks.toNat + d < 18446744073709551616

/-- The timer that a start of `d` ticks makes (rule R304). -/
def newTimer (s : State) (d : Nat) (h ctx : Word) : Timer :=
  ⟨timerHandle s.cfg (s.timerSeq + 1), BitVec.ofNat 64 (s.ticks.toNat + d), h, ctx, s.timerSeq + 1⟩

/-- The state after an output of a state machine: dropped without a callback, else recorded and delivered (rules R111,
R244, R334). -/
def emitted (s : State) (out : Option AppEvent) : State :=
  match out, s.enc.appCallback with
  | some e, some cb =>
    { s with appTrace := s.appTrace ++ [⟨e, cb.ctx⟩], callTrace := s.callTrace ++ [⟨cb.handler, cb.ctx⟩] }
  | _, _ => s

/-- An output can be delivered: the callback, if there is one, can be called. -/
def CanEmit (s : State) (out : Option AppEvent) : Prop :=
  ∀ e cb, out = some e → s.enc.appCallback = some cb → CallableQuietly s cb.handler cb.ctx (some e)

/-- The quadrature machine over a list of inputs: the state it ends in and the events it emits (rules R243, R245,
R246). -/
def quadRun (c : Config) : EncState → List Nat → EncState × List AppEvent
  | st, [] => (st, [])
  | st, q :: qs => ((quadRun c (qdecNext c st q) qs).1, (qdecOut st q).toList ++ (quadRun c (qdecNext c st q) qs).2)

/-- A full sequence of four inputs, each of the first three repeated at will (rule R247). -/
def fullSequence (q1 q2 q3 : Nat) (a b c : Nat) : List Nat :=
  List.replicate (a + 1) q1 ++ List.replicate (b + 1) q2 ++ List.replicate (c + 1) q3 ++ [3]

/-- Fire order by default: ascending deadline, then ascending start order (rules R307, R331). -/
def DueOrder (a b : Timer) : Prop := a.deadline < b.deadline ∨ a.deadline = b.deadline ∧ a.seq ≤ b.seq

/-! ### What every state keeps -/

/-- Every enabled level condition that holds has its status bit set (rule R171). -/
abbrev LevelLatched (s : State) : Prop := levelPins s.lev s.hen s.len &&& ~~~s.eds = 0

/-- A pin-table slot holds only an object with that pin number, so no object is in two slots (rules R28, R178). -/
abbrev PinTableSound (s : State) : Prop := ∀ n : PinNo, ∀ o ∈ s.pinTable[n], (s.obj o).pinNumber = some n

/-- Between two operations no dispatch and no handler is in progress, unless one raised (rules R25, R321, R340). -/
abbrev Quiet (s : State) : Prop :=
  s.fault = none → s.inIrq = false ∧ s.inFiq = false ∧ s.gmBusy = false ∧ s.invokeDepth = 0

/-- Under Combined2Bit the pull of a pin is its decoded field (rules R35, R203). -/
abbrev PullMirror (s : State) : Prop :=
  s.cfg.pullStyle = .combined2Bit → ∀ n : PinNo, ∀ p ∈ pupPull (puppdnField s.puppdn n), s.pullState[n] = p

/-- The running timers stand in the order of their starts, and none was started after the last start (rules R41,
R304). -/
abbrev TimersOrdered (s : State) : Prop :=
  s.timers.Pairwise (fun a b => a.seq < b.seq) ∧ ∀ t ∈ s.timers, 1 ≤ t.seq ∧ t.seq ≤ s.timerSeq

/-- Under the default handle map a timer's handle is its start number, so handles are not zero and unique (rules R41,
R304). -/
abbrev HandlesDefault (s : State) : Prop :=
  s.cfg.timerHandles = [] → ∀ t ∈ s.timers, t.seq < 4294967296 → t.handle = BitVec.ofNat 32 t.seq

/-- An initialized driver has its three pins (rule R240). -/
abbrev EncHasPins (s : State) : Prop :=
  s.enc.initialized = true → ∀ o ∈ [clkObj, dtObj, swObj], (s.obj o).pinNumber.isSome = true

/-- `icActive` names a line and is used only under AckRegister (rule R24). -/
abbrev ActiveLine (s : State) : Prop :=
  ∀ id ∈ s.icActive, s.cfg.platformIc = .ackRegister ∧ id < s.nIrq

/-- A tick timer is remembered only while the switch is pressed (rule R282). -/
abbrev TickWhilePressed (s : State) : Prop := s.enc.tickTimer.isSome = true → s.enc.swStable = false

/-- The handles of the running timers with a callback. -/
def handlesOf (callback : Word) (s : State) : List Word :=
  (s.timers.filter fun t => t.callback == callback).map (·.handle)

/-- A remembered handle is the handle of a running timer of its kind, which is the only one of its kind, and no handle
is remembered exactly when there is none; a driver that is not initialized has no timer (rules R242, R282). -/
abbrev DriverTimers (s : State) : Prop :=
  handlesOf 0xFFFF0005 s = s.enc.debounceTimer.toList ∧ handlesOf 0xFFFF0006 s = s.enc.tickTimer.toList ∧
    TickWhilePressed s ∧
    (s.enc.initialized = false → s.enc.debounceTimer = none ∧ s.enc.tickTimer = none)

/-- The handler word that a command registers (rules R140, R207, R241). -/
def registeredWord : Instr → Option Word
  | .icRegisterHandler _ handler _ => some handler
  | .pinConnectInterrupt _ _ callback _ => some callback
  | .encRegisterEventHandler callback _ => some callback
  | .icUnregisterHandler _ => none
  | .icEnableLine _ => none
  | .icDisableLine _ => none
  | .icDisableAllLines => none
  | .icDispatch => none
  | .icDispatchFiq => none
  | .gmInitialize => none
  | .gmConnectInterrupt _ => none
  | .gmDisconnectInterrupt _ => none
  | .gmDispatch => none
  | .gmAllOff => none
  | .pinAssignPin _ _ => none
  | .pinSetMode _ _ _ => none
  | .pinEnableInterrupt _ _ => none
  | .pinDisableInterrupt _ _ => none
  | .pinDisconnectInterrupt _ => none
  | .pinAcknowledgeInterrupt _ => none
  | .pinDispatch _ => none
  | .encInitialize _ _ _ => none
  | .encUninitialize => none
  | .memRead32 _ => none
  | .memWrite32 _ _ => none
  | .evPinLevel _ _ => none
  | .evIrqLine _ _ => none
  | .evTimerPeriod => none

/-- Not one of the words of the two expiry handlers, which the timer subsystem invokes (rules R271, R274). -/
abbrev NotExpiry (h : Word) : Prop := h ≠ 0xFFFF0005 ∧ h ≠ 0xFFFF0006

/-- Software has registered neither expiry handler of the driver, and no handler body registers one: the timers alone
invoke them (rules R113, R271, R274). -/
def ExpiryByTimerOnly (s : State) : Prop :=
  (∀ l ∈ s.lines, ∀ r ∈ l.handler, NotExpiry r.handler) ∧ (∀ p ∈ s.pinObj, ∀ h ∈ p.handler, NotExpiry h.callback) ∧
    (∀ cb ∈ s.enc.appCallback, NotExpiry cb.handler) ∧
    ∀ e ∈ s.cfg.handlerBodies, ∀ i ∈ e.body, ∀ w ∈ registeredWord i, NotExpiry w

/-- The invariant of the machine. -/
abbrev Inv (s : State) : Prop :=
  LevelLatched s ∧ PinTableSound s ∧ Quiet s ∧ PullMirror s ∧ TimersOrdered s ∧ HandlesDefault s ∧ EncHasPins s ∧
    ActiveLine s ∧ TickWhilePressed s

/-! ### What a run only adds to -/

/-- The output ports only grow (rule R43). -/
def TracesGrow (s t : State) : Prop :=
  s.logTrace <+: t.logTrace ∧ s.appTrace <+: t.appTrace ∧ s.callTrace <+: t.callTrace ∧ s.readTrace <+: t.readTrace

/-- The parameters, among them the number of lines and of pin objects, stay what they are (rule R5). -/
def SameParameters (s t : State) : Prop := t.cfg = s.cfg ∧ t.nIrq = s.nIrq ∧ t.nPinObj = s.nPinObj

/-! ### What no rule reads -/

/-- The state without what no rule reads: the output ports (rule R43), the register-access record (log entry 17), the
pulls (rules R35, R203) and the release timestamp (rule R39). -/
def unread (s : State) : State :=
  { s with
    logTrace := [], appTrace := [], callTrace := [], readTrace := [], busTrace := []
    pullState := Vector.replicate 54 .off
    enc := { s.enc with lastRelease := 0 } }

/-- Two outcomes that differ at most in what no rule reads. -/
def SameButUnread : Host.Outcome State Fault Refusal → Host.Outcome State Fault Refusal → Prop
  | .next s, .next t => unread s = unread t
  | .fault f, .fault g => f = g
  | .refused f, .refused g => f = g
  | _, _ => False

end Sys2Proof.Safety
end

