-- ==== Sys2Proof/Certificates/Slice0/Obligations.lean ====
section
/-! DEFINITION. The statements about the model, for the provers. -/

section Statements

open Sys2Proof Sys2Proof.Machine Sys2Proof.Safety

/-! ### Encoding -/

/-- Decoding the words of a well-formed operation gives it back, and leaves the words after it (rules R100 to R104). -/
def Obligations.EncodedOperationDecodes : Prop :=
  ∀ (i : Instr) (rest : List Word), i.wellFormed = true → decode (encode i ++ rest) = .ok (i, rest)

/-- Whatever words decode to an operation are that operation's words and the words left over (rules R100 to R104). -/
def Obligations.DecodedOperationEncodes : Prop :=
  ∀ (ws rest : List Word) (i : Instr), decode ws = .ok (i, rest) → i.wellFormed = true ∧ ws = encode i ++ rest

/-- A word that matches no row of the opcode table raises PE_BAD_OPCODE and changes no other state of the block (rule
R105); that the port gives the word up is the model's choice (log entry 3); opcode 0x24 is unassigned; pull code 3
decodes, and raises when executed. -/
def Obligations.IllegalWordRaises : Prop :=
  (∀ (s : State) (w : Word) (ws : List Word), s.fault = none → s.turns = [] → s.port = w :: ws →
    (∀ r ∈ opTable, w &&& r.mask ≠ r.matchWord) →
    step s = .next { s with port := ws, fault := some ⟨.badOpcode, w⟩ }) ∧
  (∀ r ∈ opTable, r.opcode ≠ 0x24) ∧
  (∀ (obj : Nat) (fn : PinFunction) (rest : List Word), obj < 256 →
    decode (encode (.pinSetMode obj fn 3) ++ rest) = .ok (.pinSetMode obj fn 3, rest)) ∧
  (∀ (s : State) (obj : Nat) (fn : PinFunction) (n : PinNo), s.fault = none → AssignedTo s obj n →
    Raises (.pinSetMode obj fn 3) s .badOperand)

/-- Words of the spec's examples decode to the operations they stand for. -/
def Obligations.ExampleWordsDecode : Prop :=
  decode [0x01000009, 0x00001000, 0x0000AAAA] = .ok (.icRegisterHandler 9 0x1000 0xAAAA, []) ∧
  decode [0x03000028] = .ok (.icEnableLine 40, []) ∧
  decode [0x11000000] = .ok (.gmConnectInterrupt 0, []) ∧
  decode [0x20000011] = .ok (.pinAssignPin 0 17, []) ∧
  decode [0x21100000] = .ok (.pinSetMode 0 .input 1, []) ∧
  decode [0x22030000] = .ok (.pinEnableInterrupt 0 3, []) ∧
  decode [0x25010200, 0xFFFF0004, 0x00000000] = .ok (.pinConnectInterrupt 2 true 0xFFFF0004 0, []) ∧
  decode [0x301B1611] = .ok (.encInitialize 27 22 17, []) ∧
  decode [0x40000000, 0x3F200040] = .ok (.memRead32 0x3F200040, []) ∧
  decode [0x80000011] = .ok (.evPinLevel 17 false, []) ∧
  decode [0x81010009] = .ok (.evIrqLine 9 true, []) ∧
  decode [0x82000000] = .ok (.evTimerPeriod, [])

/-! ### Steps -/

/-- On the port's turn a step runs the decoded operation on the state that has given up its words (log entry 3). -/
def Obligations.StepRunsDecodedOperation : Prop :=
  (∀ (s : State) (i : Instr) (rest : List Word), s.turns = [] → decode s.port = .ok (i, rest) →
    step s = exec i { s with port := rest }) ∧
  (∀ (s : State) (ts : List Turn) (i : Instr) (rest : List Word), s.turns = .port :: ts →
    decode s.port = .ok (i, rest) → step s = exec i { s with port := rest, turns := ts })

/-- On the trap agent's turn a step dispatches: FIQ while the FIQ line is effective and no FIQ runs, else IRQ while
another line is effective and neither runs, else nothing (rules R9, R26). -/
def Obligations.TrapAgentServesRequests : Prop :=
  ∀ (s : State) (ts : List Turn), s.fault = none → s.turns = .trap :: ts →
    let fiq := ∃ f, s.cfg.fiqLine = some f ∧ s.irqPending f = true ∧ s.irqEnable f = true ∧ s.inFiq = false
    let irq := (∃ id, id < s.nIrq ∧ s.cfg.fiqLine ≠ some id ∧ s.irqPending id = true ∧ s.irqEnable id = true) ∧
      s.inIrq = false ∧ s.inFiq = false
    (fiq → step s = exec .icDispatchFiq { s with turns := ts }) ∧
    (¬ fiq → irq → step s = exec .icDispatch { s with turns := ts }) ∧
    (¬ fiq → ¬ irq → step s = .next { s with turns := ts })

/-- After reset there is no fault; once there is one, no operation and no step has a next state (rules R42, R321). Which
outcome says so is the model's reading (log entry 5). -/
def Obligations.FaultedMachineTakesNoStep : Prop :=
  State.reset.fault = none ∧
  ∀ (s : State) (f : FaultRecord), s.fault = some f →
    (s.cfg.build = .debug → step s = .fault (.stuck f) ∧ ∀ i, exec i s = .fault (.stuck f)) ∧
    (s.cfg.build = .release →
      step s = .refused (.releaseAfterFault f) ∧ ∀ i, exec i s = .refused (.releaseAfterFault f))

/-! ### IC -/

/-- Rule R140: `IC.RegisterHandler`. -/
def Obligations.RegisterHandler : Prop :=
  ∀ (s : State) (id : Nat) (handler ctx : Word), s.fault = none →
    encode (.icRegisterHandler id handler ctx) = [opWord 0x01 0 (hiByte id) (loByte id), handler, ctx] ∧
    if s.nIrq ≤ id then Raises (.icRegisterHandler id handler ctx) s .invalidIrq
    else if (s.irqTable id).isSome then Raises (.icRegisterHandler id handler ctx) s .irqAlreadyBound
    else
      exec (.icRegisterHandler id handler ctx) s =
        .next (withBus
          { s with lines := s.lines.modify id fun l => { l with handler := some ⟨handler, ctx⟩, enable := true } }
          [writeOf s.cfg (.icEnset (id / 32)) (1#32 <<< (id % 32))])

/-- Rule R141: `IC.UnregisterHandler`; a second one raises and changes nothing. -/
def Obligations.UnregisterHandler : Prop :=
  ∀ (s : State) (id : Nat), s.fault = none →
    encode (.icUnregisterHandler id) = [opWord 0x02 0 (hiByte id) (loByte id)] ∧
    if s.nIrq ≤ id then Raises (.icUnregisterHandler id) s .invalidIrq
    else if s.irqTable id = none then Raises (.icUnregisterHandler id) s .irqNotBound
    else
      ∃ t, t = withBus { s with lines := s.lines.modify id fun l => { l with handler := none, enable := false } }
          [writeOf s.cfg (.icEnclr (id / 32)) (1#32 <<< (id % 32))] ∧
        exec (.icUnregisterHandler id) s = .next t ∧ Raises (.icUnregisterHandler id) t .irqNotBound

/-- Rules R142 and R143: `IC.EnableLine` and `IC.DisableLine`, and that each is idempotent. -/
def Obligations.EnableAndDisableLine : Prop :=
  ∀ (s : State) (id : Nat), s.fault = none →
    encode (.icEnableLine id) = [opWord 0x03 0 (hiByte id) (loByte id)] ∧
    encode (.icDisableLine id) = [opWord 0x04 0 (hiByte id) (loByte id)] ∧
    if s.nIrq ≤ id then Raises (.icEnableLine id) s .invalidIrq ∧ Raises (.icDisableLine id) s .invalidIrq
    else
      (∃ t u, t = withBus { s with lines := s.lines.modify id fun l => { l with enable := true } }
          [writeOf s.cfg (.icEnset (id / 32)) (1#32 <<< (id % 32))] ∧
        exec (.icEnableLine id) s = .next t ∧ exec (.icEnableLine id) t = .next u ∧ u.lines = t.lines) ∧
      (∃ t u, t = withBus { s with lines := s.lines.modify id fun l => { l with enable := false } }
          [writeOf s.cfg (.icEnclr (id / 32)) (1#32 <<< (id % 32))] ∧
        exec (.icDisableLine id) s = .next t ∧ exec (.icDisableLine id) t = .next u ∧ u.lines = t.lines)

/-- Rule R144: `IC.DisableAllLines`. -/
def Obligations.DisableAllLines : Prop :=
  ∀ s : State, s.fault = none →
    encode .icDisableAllLines = [0x05000000] ∧
    exec .icDisableAllLines s =
      .next (withBus { s with lines := s.lines.map fun l => { l with enable := false } }
        ((List.range (icWords s.nIrq)).map fun w => writeOf s.cfg (.icEnclr w) 0xFFFFFFFF))

/-- The line that `SelectLine` answers (rules R78, R146, R147). -/
def Obligations.SelectionPriority : Prop :=
  ∀ s : State, IdsFit s →
    (∀ id, selectLine s = some id ↔ Selected s id) ∧ (selectLine s = none ↔ NoneSelected s)

/-- `IC.Dispatch` with no line to serve reads the controller and changes nothing (rules R145 to R147). -/
def Obligations.DispatchWithoutRequest : Prop :=
  ∀ s : State, s.fault = none → s.inIrq = false → s.inFiq = false → IdsFit s → NoneSelected s →
    exec .icDispatch s = .next (withBus s (selectReads s))

/-- `IC.Dispatch` of a line without a handler logs, masks the line and completes it; the line is then no longer
effective (rules R145, R147, R148, R323). -/
def Obligations.DispatchUnhandledLine : Prop :=
  ∀ (s : State) (id : Nat), s.fault = none → s.inIrq = false → s.inFiq = false → IdsFit s → Selected s id →
    s.irqTable id = none →
    ∃ t, t = withBus
        { s with
          lines := s.lines.modify id fun l => { l with enable := false }
          logTrace := s.logTrace ++ [⟨.unhandledIrq, id⟩] }
        (selectReads s ++ [writeOf s.cfg (.icEnclr (id / 32)) (1#32 <<< (id % 32))] ++ completeWrites s.cfg id) ∧
      exec .icDispatch s = .next t ∧ t.eff id = false ∧ ¬ Selected t id

/-- `IC.Dispatch` of a line with a handler: the handler runs in the dispatch after the reads of the selection, whatever
handler word it is; when its call ends the line is completed and the dispatch is over; when its call raises the fault
record has the dispatch's word. A call of an external handler of empty body ends and leaves the line effective, so that
the request output is asserted again; a reserved handler word raises (rules R113, R145, R147, R149, R321, R334, R335). -/
def Obligations.DispatchHandler : Prop :=
  ∀ (s : State) (id : Nat) (r : Registration), s.fault = none → s.inIrq = false → s.inFiq = false → IdsFit s →
    Selected s id → s.irqTable id = some r →
    let called := withBus
      { s with inIrq := true, icActive := if s.cfg.platformIc = .ackRegister then some id else s.icActive } (selectReads s)
    (∀ u, invoke r.handler r.ctx none called = .ok u →
      exec .icDispatch s = .next
        (if u.cfg.platformIc = .ackRegister then
          withBus { u with inIrq := false, icActive := if u.icActive = some id then none else u.icActive }
            [writeOf u.cfg .icEoir (BitVec.ofNat 32 id)]
        else { u with inIrq := false })) ∧
    (∀ e u, invoke r.handler r.ctx none called = .raised e u →
      exec .icDispatch s = .next { u with fault := some ⟨e, 0x06000000⟩ }) ∧
    (CallableQuietly s r.handler r.ctx none →
      ∃ t, t = withBus { s with callTrace := s.callTrace ++ [r] } (selectReads s ++ completeWrites s.cfg id) ∧
        exec .icDispatch s = .next t ∧ t.nIrqRequest = true) ∧
    (0xFFFF0007#32 ≤ r.handler ∨ r.handler = 0xFFFF0000#32 →
      exec .icDispatch s = .next { called with fault := some ⟨.badOperand, 0x06000000⟩ })

/-- A dispatch in progress refuses another: issued at the port it raises and changes nothing else; in a handler body it
raises with the outermost command's word, and the flags of the dispatch stay set (rules R145, R150, R176, R321,
R336). -/
def Obligations.NestedDispatchRaises : Prop :=
  (∀ s : State, s.fault = none →
    (s.inIrq = true ∨ s.inFiq = true → Raises .icDispatch s .reentrant ∧ Raises .icDispatchFiq s .reentrant) ∧
    (s.gmBusy = true → Raises .gmDispatch s .reentrant)) ∧
  ∀ (s : State) (id : Nat) (h ctx : Word) (body : List Instr), s.fault = none → s.inIrq = false → s.inFiq = false →
    IdsFit s → Selected s id → s.irqTable id = some ⟨h, ctx⟩ → handlerClass h = .external →
    handlerBody s.cfg h ctx none = .icDispatch :: body → s.invokeDepth < s.cfg.maxNest →
    ∃ t, exec .icDispatch s = .next t ∧ t.fault = some ⟨.reentrant, 0x06000000⟩ ∧ t.inIrq = true ∧
      t.invokeDepth = s.invokeDepth + 1 ∧ t.callTrace = s.callTrace ++ [⟨h, ctx⟩] ∧
      { t with
        fault := s.fault, inIrq := s.inIrq, invokeDepth := s.invokeDepth, callTrace := s.callTrace
        icActive := s.icActive, busTrace := s.busTrace } = s

/-- `IC.DispatchFiq` (rule R150): a handler's call ends or raises as it does; one of an external handler of empty body
ends. -/
def Obligations.DispatchFiq : Prop :=
  ∀ s : State, s.fault = none →
    encode .icDispatchFiq = [0x07000000] ∧
    if s.inIrq = true ∨ s.inFiq = true then Raises .icDispatchFiq s .reentrant
    else
      match s.cfg.fiqLine with
      | none => exec .icDispatchFiq s = .next s
      | some f =>
        if s.irqPending f = true ∧ s.irqEnable f = true then
          match s.irqTable f with
          | none =>
            exec .icDispatchFiq s = .next (withBus
              { s with
                lines := s.lines.modify f fun l => { l with enable := false }
                logTrace := s.logTrace ++ [⟨.unhandledIrq, f⟩] }
              [writeOf s.cfg (.icEnclr (f / 32)) (1#32 <<< (f % 32))])
          | some r =>
            (∀ u, invoke r.handler r.ctx none { s with inFiq := true } = .ok u →
              exec .icDispatchFiq s = .next { u with inFiq := false }) ∧
            (∀ e u, invoke r.handler r.ctx none { s with inFiq := true } = .raised e u →
              exec .icDispatchFiq s = .next { u with fault := some ⟨e, 0x07000000⟩ }) ∧
            (CallableQuietly s r.handler r.ctx none →
              exec .icDispatchFiq s = .next { s with callTrace := s.callTrace ++ [r] })
        else exec .icDispatchFiq s = .next s

/-- `Ev.IrqLine` (rule R151). That a stimulus which is not admitted leaves the state as it is, is the model's reading of
"has no step" (log entry 4). -/
def Obligations.IrqLineStimulus : Prop :=
  ∀ (s : State) (id : Nat) (level : Bool), s.fault = none →
    if id < s.nIrq ∧ id ≠ s.cfg.gpioLine ∧ id ≠ s.cfg.timerLine then
      exec (.evIrqLine id level) s =
        .next { s with lines := s.lines.modify id fun l => { l with pending := level } }
    else exec (.evIrqLine id level) s = .next s

/-- Rule R306: `Ev.TimerPeriod` makes the timer line pending and does nothing else; `ticks` does not move. -/
def Obligations.TimerPeriodStimulus : Prop :=
  ∀ s : State, s.fault = none →
    encode .evTimerPeriod = [0x82000000] ∧
    exec .evTimerPeriod s =
      .next { s with lines := s.lines.modify s.cfg.timerLine fun l => { l with pending := true } }

/-- Rule R78: the acknowledge read, the end-of-interrupt write, and that no other register read has a side effect. -/
def Obligations.AcknowledgeAndEndOfInterrupt : Prop :=
  (∀ (s : State) (a : Word), s.fault = none → a.toNat % 4 = 0 → regAt s a = some .icIar →
    (∀ id, s.icActive = none → s.irqCandidate id = true → (∀ j < id, s.irqCandidate j = false) →
      exec (.memRead32 a) s = .next (withBus
        { s with icActive := some id, readTrace := s.readTrace ++ [⟨a, BitVec.ofNat 32 id⟩] }
        [.read a (BitVec.ofNat 32 id)])) ∧
    ((∀ id, s.irqCandidate id = false) ∨ s.icActive.isSome = true →
      exec (.memRead32 a) s = .next (withBus
        { s with readTrace := s.readTrace ++ [⟨a, s.cfg.spuriousId⟩] } [.read a s.cfg.spuriousId]))) ∧
  (∀ (s : State) (a v : Word), s.fault = none → a.toNat % 4 = 0 → regAt s a = some .icEoir →
    exec (.memWrite32 a v) s = .next (withBus
      (if s.icActive = some (v.setWidth 16).toNat then { s with icActive := none } else s) [.write a v])) ∧
  ∀ (s : State) (r : Reg), r ≠ .icIar → memRead s r = withBus s [readOf s.cfg r (regValue s r)]

/-- The controller's one-bit-per-id registers, bit by bit: the pending view shows pending and enabled lines, a 1 written
to the set or clear register sets or clears one enable bit and touches nothing else (rules R26, R85). -/
def Obligations.LineRegisters : Prop :=
  ∀ (s : State) (w : Nat) (v : Word),
    (∀ b < 32,
      (regValue s (.icPend w)).getLsbD b = (s.irqPending (32 * w + b) && s.irqEnable (32 * w + b)) ∧
      (regValue s (.icEnset w)).getLsbD b = s.irqEnable (32 * w + b) ∧
      (regValue s (.icEnclr w)).getLsbD b = s.irqEnable (32 * w + b)) ∧
    (∀ (r : Reg) (value : Bool), r = .icEnset w ∧ value = true ∨ r = .icEnclr w ∧ value = false →
      (∀ id, (memWrite s r v).irqEnable id =
          if id < s.nIrq ∧ id / 32 = w ∧ v.getLsbD (id % 32) = true then value else s.irqEnable id) ∧
      (∀ id, (memWrite s r v).irqTable id = s.irqTable id ∧
        ((memWrite s r v).line id).pending = (s.line id).pending) ∧
      { memWrite s r v with lines := s.lines, busTrace := s.busTrace } = s)

/-! ### GM -/

/-- Rule R173: `GM.Initialize`; the GPIO line is one of the lines (rule R5). -/
def Obligations.GmInitialize : Prop :=
  ∀ s : State, s.fault = none → s.cfg.gpioLine < s.nIrq →
    encode .gmInitialize = [0x10000000] ∧
    if s.gmInitialized = true then exec .gmInitialize s = .next s
    else if (s.irqTable s.cfg.gpioLine).isSome then Raises .gmInitialize s .irqAlreadyBound
    else
      ∃ t, t = withBus
          { s with
            lines := s.lines.modify s.cfg.gpioLine fun l => { l with handler := some ⟨0xFFFF0001, 0⟩, enable := true }
            gmInitialized := true }
          [writeOf s.cfg (.icEnset (s.cfg.gpioLine / 32)) (1#32 <<< (s.cfg.gpioLine % 32))] ∧
        exec .gmInitialize s = .next t ∧ exec .gmInitialize t = .next t

/-- Rules R174 and R175: `GM.ConnectInterrupt` and `GM.DisconnectInterrupt`; a second disconnect raises and changes
nothing. -/
def Obligations.GmConnectAndDisconnect : Prop :=
  ∀ (s : State) (obj : Nat), s.fault = none →
    encode (.gmConnectInterrupt obj) = [opWord 0x11 0 (loByte obj) 0] ∧
    encode (.gmDisconnectInterrupt obj) = [opWord 0x12 0 (loByte obj) 0] ∧
    if s.nPinObj ≤ obj then
      Raises (.gmConnectInterrupt obj) s .badOperand ∧ Raises (.gmDisconnectInterrupt obj) s .badOperand
    else
      match (s.obj obj).pinNumber with
      | none => Raises (.gmConnectInterrupt obj) s .pinUnassigned ∧ Raises (.gmDisconnectInterrupt obj) s .pinUnassigned
      | some n =>
        (if s.pinTable[n].isSome then Raises (.gmConnectInterrupt obj) s .pinSlotBound
          else exec (.gmConnectInterrupt obj) s = .next { s with pinTable := s.pinTable.set n (some obj) }) ∧
        if s.pinTable[n] ≠ some obj then Raises (.gmDisconnectInterrupt obj) s .pinSlotUnbound
        else
          ∃ t, t = { s with pinTable := s.pinTable.set n none } ∧
            exec (.gmDisconnectInterrupt obj) s = .next t ∧ Raises (.gmDisconnectInterrupt obj) t .pinSlotUnbound

/-- `GM.Dispatch` with no status bit set reads both words and changes nothing; with the lowest set bit on a pin without
an owner it logs and clears that bit (rules R75, R171, R176, R323). -/
def Obligations.GmDispatchWithoutOwner : Prop :=
  ∀ s : State, s.fault = none → s.gmBusy = false →
    (s.eds = 0 → exec .gmDispatch s = .next (withBus s (statusReads s))) ∧
    ∀ n : PinNo, FirstPending s n → s.pinTable[n] = none →
      exec .gmDispatch s = .next (withBus
        { s with eds := cleared s n, logTrace := s.logTrace ++ [⟨.unregisteredPin, n.val⟩] }
        (statusReads s ++ [writeOf s.cfg (.eds (pinWord n)) (pinMask n)]))

/-- `GM.Dispatch` of a pin with an owner: the callback runs if the pin object's trigger mask is not empty; when its call
ends, the status bit is cleared if the auto-acknowledge flag was set before the call, and when it raises the fault
record has the dispatch's word. A call of an external callback of empty body ends (rules R176, R210, R321, R334). -/
def Obligations.GmDispatchOwner : Prop :=
  ∀ (s : State) (n : PinNo) (obj : Nat), s.fault = none → s.gmBusy = false → FirstPending s n →
    s.pinTable[n] = some obj → obj < s.nPinObj →
    let busy := withBus { s with gmBusy := true } (statusReads s)
    match (s.obj obj).handler with
    | none => exec .gmDispatch s = .next (withBus s (statusReads s))
    | some h =>
      let acked := fun u : State =>
        if h.autoAck then withBus { u with eds := cleared u n } [writeOf u.cfg (.eds (pinWord n)) (pinMask n)] else u
      if (s.obj obj).triggerMask = 0 then exec .gmDispatch s = .next (acked (withBus s (statusReads s)))
      else
        (∀ u, invoke h.callback h.ctx none busy = .ok u →
          exec .gmDispatch s = .next { acked u with gmBusy := false }) ∧
        (∀ e u, invoke h.callback h.ctx none busy = .raised e u →
          exec .gmDispatch s = .next { u with fault := some ⟨e, 0x13000000⟩ }) ∧
        (CallableQuietly s h.callback h.ctx none →
          exec .gmDispatch s =
            .next (acked (withBus { s with callTrace := s.callTrace ++ [⟨h.callback, h.ctx⟩] } (statusReads s))))

/-- The no-storm law that the spec infers from rules R171 and R176: with one status bit set, of a pin without an
owner, a dispatch logs once and clears it and the next dispatch finds nothing; while an enabled level condition of the
pin holds, the bit is set again and every dispatch logs once more. -/
def Obligations.NoStormOnOwnerlessPin : Prop :=
  ∀ (s : State) (n : PinNo), s.fault = none → s.gmBusy = false → LevelLatched s → s.eds = onePin n →
    s.pinTable[n] = none →
    ∃ t u, exec .gmDispatch s = .next t ∧ exec .gmDispatch t = .next u ∧
      t.logTrace = s.logTrace ++ [⟨.unregisteredPin, n.val⟩] ∧
      (pinBit (levelPins s.lev s.hen s.len) n = false →
        t.eds = 0 ∧ t.irqPending s.cfg.gpioLine = false ∧ u = withBus t (statusReads t)) ∧
      (pinBit (levelPins s.lev s.hen s.len) n = true →
        t.eds = s.eds ∧ u.eds = s.eds ∧ u.logTrace = t.logTrace ++ [⟨.unregisteredPin, n.val⟩])

/-- Rule R177: `GM.AllOff`. -/
def Obligations.GmAllOff : Prop :=
  ∀ s : State, s.fault = none →
    encode .gmAllOff = [0x14000000] ∧
    let fselWrites := ([0, 1, 2, 3, 4, 5] : List (Fin 6)).map fun k => writeOf s.cfg (.fsel k) 0
    match s.cfg.pullStyle with
    | .legacyStrobe =>
      exec .gmAllOff s = .next (withBus
        { s with fsel := 0, pud := 0, pudclk := 0, pullState := Vector.replicate 54 .off }
        (fselWrites ++ [writeOf s.cfg .pud 0, writeOf s.cfg (.pudclk 0) 0xFFFFFFFF, writeOf s.cfg (.pudclk 1) 0xFFFFFFFF,
          writeOf s.cfg (.pudclk 0) 0, writeOf s.cfg (.pudclk 1) 0]))
    | .combined2Bit =>
      exec .gmAllOff s = .next (withBus
        { s with fsel := 0, puppdn := 0, pullState := Vector.replicate 54 .off }
        (fselWrites ++ ([0, 1, 2, 3] : List (Fin 4)).map fun j => writeOf s.cfg (.puppdn j) 0))

/-! ### Pin -/

/-- Rule R200: `Pin.AssignPin`. -/
def Obligations.AssignPin : Prop :=
  ∀ (s : State) (obj n : Nat), s.fault = none →
    encode (.pinAssignPin obj n) = [opWord 0x20 0 (loByte obj) (loByte n)] ∧
    if s.nPinObj ≤ obj then Raises (.pinAssignPin obj n) s .badOperand
    else if h : n < 54 then
      if (s.obj obj).pinNumber.isSome then Raises (.pinAssignPin obj n) s .pinAlreadyAssigned
      else
        exec (.pinAssignPin obj n) s =
          .next { s with pinObj := s.pinObj.set obj { s.obj obj with pinNumber := some ⟨n, h⟩ } }
    else Raises (.pinAssignPin obj n) s .invalidPin

/-- Rules R201 and R202: `Pin.SetMode`. The function field of the pin takes the function's code and the pin's pull is
applied (Off unless the function is Input); nothing of another pin changes. Under Combined2Bit the other pulls stay
because they are the decoded fields already (`PullMirror`, rules R35, R203). -/
def Obligations.SetMode : Prop :=
  ∀ (s : State) (obj : Nat) (fn : PinFunction) (code : BitVec 2), s.fault = none →
    encode (.pinSetMode obj fn code) = [opWord 0x21 (0#2 ++ code ++ 0#1 ++ fn.code) (loByte obj) 0] ∧
    if s.nPinObj ≤ obj then Raises (.pinSetMode obj fn code) s .badOperand
    else
      match (s.obj obj).pinNumber with
      | none => Raises (.pinSetMode obj fn code) s .pinUnassigned
      | some n =>
        match pullOf code with
        | none => Raises (.pinSetMode obj fn code) s .badOperand
        | some asked =>
          let pull := if fn = .input then asked else .off
          let v := fselWord s.fsel (fselIndex n)
          let fselAccesses := [readOf s.cfg (.fsel (fselIndex n)) v,
            writeOf s.cfg (.fsel (fselIndex n))
              ((v &&& ~~~(7#32 <<< fselShift n)) ||| ((fselCode fn).setWidth 32 <<< fselShift n))]
          ∃ t, exec (.pinSetMode obj fn code) s = .next t ∧
            (∀ m : PinNo, fselField t.fsel m = if m = n then fselCode fn else fselField s.fsel m) ∧
            (PullMirror s → t.pullState = s.pullState.set n pull) ∧
            t.pinObj = s.pinObj.set obj { s.obj obj with fn := fn, pull := pull } ∧
            match s.cfg.pullStyle with
            | .legacyStrobe =>
              t.pud = pudCode pull ∧
              (∀ m : PinNo, pinBit t.pudclk m = (pinBit s.pudclk m && decide (pinWord m ≠ pinWord n))) ∧
              t.busTrace = s.busTrace ++ fselAccesses ++
                [writeOf s.cfg .pud ((pudCode pull).setWidth 32), writeOf s.cfg (.pudclk (pinWord n)) (pinMask n),
                  writeOf s.cfg (.pudclk (pinWord n)) 0] ∧
              { t with
                fsel := s.fsel, pullState := s.pullState, pinObj := s.pinObj, pud := s.pud, pudclk := s.pudclk
                busTrace := s.busTrace } = s
            | .combined2Bit =>
              let u := puppdnWord s.puppdn (puppdnIndex n)
              (∀ m : PinNo, puppdnField t.puppdn m = if m = n then pupCode pull else puppdnField s.puppdn m) ∧
              t.busTrace = s.busTrace ++ fselAccesses ++
                [readOf s.cfg (.puppdn (puppdnIndex n)) u,
                  writeOf s.cfg (.puppdn (puppdnIndex n))
                    ((u &&& ~~~(3#32 <<< puppdnShift n)) ||| ((pupCode pull).setWidth 32 <<< puppdnShift n))] ∧
              { t with
                fsel := s.fsel, pullState := s.pullState, pinObj := s.pinObj, puppdn := s.puppdn
                busTrace := s.busTrace } = s

/-- Rule R204: `Pin.EnableInterrupt`. -/
def Obligations.EnableInterrupt : Prop :=
  ∀ (s : State) (obj : Nat) (types : BitVec 6), s.fault = none →
    encode (.pinEnableInterrupt obj types) = [opWord 0x22 (0#2 ++ types) (loByte obj) 0] ∧
    if s.nPinObj ≤ obj then Raises (.pinEnableInterrupt obj types) s .badOperand
    else
      match (s.obj obj).pinNumber with
      | none => Raises (.pinEnableInterrupt obj types) s .pinUnassigned
      | some n =>
        ∃ t, exec (.pinEnableInterrupt obj types) s = .next t ∧
          (∀ k m, pinBit (t.trig k) m = (pinBit (s.trig k) m || (decide (m = n) && types.getLsbD (trigBit k)))) ∧
          t.pinObj = s.pinObj.set obj { s.obj obj with triggerMask := (s.obj obj).triggerMask ||| types } ∧
          t.eds = (if types.getLsbD 2 || types.getLsbD 3 then s.eds ||| levelPins s.lev t.hen t.len else s.eds) ∧
          t.busTrace = s.busTrace ++ kindAccesses s n (fun v => v ||| pinMask n) (kindsOf types) ∧
          { t with
            ren := s.ren, fen := s.fen, hen := s.hen, len := s.len, aren := s.aren, afen := s.afen, eds := s.eds
            pinObj := s.pinObj, busTrace := s.busTrace } = s

/-- Rule R205: `Pin.DisableInterrupt`; no status bit is cleared, and none is set while level conditions are latched. -/
def Obligations.DisableInterrupt : Prop :=
  ∀ (s : State) (obj : Nat) (types : BitVec 6), s.fault = none →
    encode (.pinDisableInterrupt obj types) = [opWord 0x23 (0#2 ++ types) (loByte obj) 0] ∧
    if s.nPinObj ≤ obj then Raises (.pinDisableInterrupt obj types) s .badOperand
    else
      match (s.obj obj).pinNumber with
      | none => Raises (.pinDisableInterrupt obj types) s .pinUnassigned
      | some n =>
        ∃ t, exec (.pinDisableInterrupt obj types) s = .next t ∧
          (∀ k m, pinBit (t.trig k) m = (pinBit (s.trig k) m && !(decide (m = n) && types.getLsbD (trigBit k)))) ∧
          t.pinObj = s.pinObj.set obj { s.obj obj with triggerMask := (s.obj obj).triggerMask &&& ~~~types } ∧
          (∀ m, pinBit s.eds m = true → pinBit t.eds m = true) ∧ (LevelLatched s → t.eds = s.eds) ∧
          t.busTrace = s.busTrace ++ kindAccesses s n (fun v => v &&& ~~~(pinMask n)) (kindsOf types) ∧
          { t with
            ren := s.ren, fen := s.fen, hen := s.hen, len := s.len, aren := s.aren, afen := s.afen, eds := s.eds
            pinObj := s.pinObj, busTrace := s.busTrace } = s

/-- The round trip that the spec infers from rules R204 and R205 ("this holds exactly when, before the pair, the pin's
bit was 0 in every group named by `types`"): enabling and then disabling restores the enable groups exactly when the
pin's bit was 0 in every group named; a bit that was 1 is 0 afterwards; other pins keep their bits. -/
def Obligations.EnableDisableRoundTrip : Prop :=
  ∀ (s : State) (obj : Nat) (types : BitVec 6) (n : PinNo), s.fault = none → AssignedTo s obj n →
    ∃ t u, exec (.pinEnableInterrupt obj types) s = .next t ∧ exec (.pinDisableInterrupt obj types) t = .next u ∧
      ((∀ k, u.trig k = s.trig k) ↔ ∀ k ∈ kindsOf types, pinBit (s.trig k) n = false) ∧
      (∀ k ∈ kindsOf types, pinBit (u.trig k) n = false) ∧
      ∀ k m, m ≠ n → pinBit (u.trig k) m = pinBit (s.trig k) m

/-- Rules R207 and R208: `Pin.ConnectInterrupt` and `Pin.DisconnectInterrupt`; a second disconnect raises and changes
nothing. -/
def Obligations.PinConnectAndDisconnect : Prop :=
  ∀ (s : State) (obj : Nat) (autoAck : Bool) (callback ctx : Word), s.fault = none →
    let connect := Instr.pinConnectInterrupt obj autoAck callback ctx
    let disconnect := Instr.pinDisconnectInterrupt obj
    encode connect = [opWord 0x25 (if autoAck then 1 else 0) (loByte obj) 0, callback, ctx] ∧
    encode disconnect = [opWord 0x26 0 (loByte obj) 0] ∧
    if s.nPinObj ≤ obj then Raises connect s .badOperand ∧ Raises disconnect s .badOperand
    else
      match (s.obj obj).pinNumber with
      | none => Raises connect s .pinUnassigned ∧ Raises disconnect s .pinUnassigned
      | some n =>
        (if (s.obj obj).handler.isSome then Raises connect s .pinAlreadyConnected
          else if s.pinTable[n].isSome then Raises connect s .pinSlotBound
          else
            exec connect s =
              .next { s with
                pinTable := s.pinTable.set n (some obj)
                pinObj := s.pinObj.set obj { s.obj obj with handler := some ⟨callback, ctx, autoAck⟩ } }) ∧
        if (s.obj obj).handler = none then Raises disconnect s .pinNotConnected
        else if s.pinTable[n] ≠ some obj then Raises disconnect s .pinSlotUnbound
        else
          ∃ t, t = { s with
              pinTable := s.pinTable.set n none
              pinObj := s.pinObj.set obj { s.obj obj with handler := none } } ∧
            exec disconnect s = .next t ∧ Raises disconnect t .pinNotConnected

/-- Rule R209: `Pin.AcknowledgeInterrupt`: one write, the pin's status bit becomes 0 unless a level condition holds. -/
def Obligations.AcknowledgeInterrupt : Prop :=
  ∀ (s : State) (obj : Nat), s.fault = none →
    encode (.pinAcknowledgeInterrupt obj) = [opWord 0x27 0 (loByte obj) 0] ∧
    if s.nPinObj ≤ obj then Raises (.pinAcknowledgeInterrupt obj) s .badOperand
    else
      match (s.obj obj).pinNumber with
      | none => Raises (.pinAcknowledgeInterrupt obj) s .pinUnassigned
      | some n =>
        ∃ eds, exec (.pinAcknowledgeInterrupt obj) s =
            .next (withBus { s with eds := eds } [writeOf s.cfg (.eds (pinWord n)) (pinMask n)]) ∧
          ∀ m, pinBit eds m = (pinBit s.eds m && decide (m ≠ n) || pinBit (levelPins s.lev s.hen s.len) m)

/-- `Pin.Dispatch` (rule R210): the callback is called only while the trigger mask is not empty, and the operation ends or
raises as its call does; the call of an external callback of empty body ends, that of a reserved word raises (rules
R113, R321, R334). -/
def Obligations.PinDispatch : Prop :=
  ∀ (s : State) (obj : Nat), s.fault = none →
    encode (.pinDispatch obj) = [opWord 0x28 0 (loByte obj) 0] ∧
    if s.nPinObj ≤ obj then Raises (.pinDispatch obj) s .badOperand
    else if (s.obj obj).triggerMask = 0 then exec (.pinDispatch obj) s = .next s
    else
      match (s.obj obj).handler with
      | none => exec (.pinDispatch obj) s = .next s
      | some h =>
        (∀ u, invoke h.callback h.ctx none s = .ok u → exec (.pinDispatch obj) s = .next u) ∧
        (∀ e u, invoke h.callback h.ctx none s = .raised e u →
          exec (.pinDispatch obj) s = .next { u with fault := some ⟨e, opWord 0x28 0 (loByte obj) 0⟩ }) ∧
        (CallableQuietly s h.callback h.ctx none →
          exec (.pinDispatch obj) s = .next { s with callTrace := s.callTrace ++ [⟨h.callback, h.ctx⟩] }) ∧
        (0xFFFF0007#32 ≤ h.callback ∨ h.callback = 0xFFFF0000#32 → Raises (.pinDispatch obj) s .badOperand)

/-! ### Enc: lifecycle -/

/-- `Enc.Initialize` (rules R240, R321, log entry 15). Its checks, in their order; a check that fails changes nothing
else. It completes when its three objects and slots are free: it assigns the pins, makes them inputs with pull-up,
connects the built-in handlers, enables both edges and puts the driver in its start state. -/
def Obligations.EncInitialize : Prop :=
  (∀ (s : State) (sw dt clk : Nat), s.fault = none →
    encode (.encInitialize sw dt clk) = [opWord 0x30 (loByte sw) (loByte dt) (loByte clk)] ∧
    if s.enc.initialized = true then Raises (.encInitialize sw dt clk) s .encState
    else if 54 ≤ clk ∨ 54 ≤ dt ∨ 54 ≤ sw then Raises (.encInitialize sw dt clk) s .invalidPin
    else if clk = dt ∨ clk = sw ∨ dt = sw then Raises (.encInitialize sw dt clk) s .badOperand
    else
      (s.nPinObj = 0 → Raises (.encInitialize sw dt clk) s .badOperand) ∧
      (0 < s.nPinObj → (s.obj clkObj).pinNumber.isSome = true →
        Raises (.encInitialize sw dt clk) s .pinAlreadyAssigned)) ∧
  ∀ (s : State) (sw dt clk : PinNo), s.fault = none → s.enc.initialized = false →
    clk ≠ dt → clk ≠ sw → dt ≠ sw → 3 ≤ s.nPinObj →
    (∀ o < 3, (s.obj o).pinNumber = none ∧ (s.obj o).handler = none) →
    s.pinTable[clk] = none → s.pinTable[dt] = none → s.pinTable[sw] = none →
    ∃ t, exec (.encInitialize sw dt clk) s = .next t ∧
      t.enc = { s.enc with
        encState := .start, btnState := .start, swStable := true, pressSeen := false, lastPress := 0
        lastRelease := 0, debounceTimer := none, tickTimer := none, initialized := true } ∧
      t.pinTable = ((s.pinTable.set clk (some 0)).set dt (some 1)).set sw (some 2) ∧
      t.pinObj =
        ((s.pinObj.set 0 ⟨some clk, .input, .up, (s.obj 0).triggerMask ||| 3, some ⟨0xFFFF0003, 0, true⟩⟩).set 1
          ⟨some dt, .input, .up, (s.obj 1).triggerMask ||| 3, some ⟨0xFFFF0003, 0, true⟩⟩).set 2
          ⟨some sw, .input, .up, (s.obj 2).triggerMask ||| 3, some ⟨0xFFFF0004, 0, true⟩⟩ ∧
      (∀ m : PinNo, let mine := m = clk ∨ m = dt ∨ m = sw
        pinBit t.ren m = (pinBit s.ren m || decide mine) ∧ pinBit t.fen m = (pinBit s.fen m || decide mine) ∧
        fselField t.fsel m = (if mine then 0 else fselField s.fsel m) ∧
        (PullMirror s → t.pullState[m] = if mine then .up else s.pullState[m])) ∧
      { t with
        enc := s.enc, pinTable := s.pinTable, pinObj := s.pinObj, ren := s.ren, fen := s.fen, fsel := s.fsel
        pullState := s.pullState, pud := s.pud, pudclk := s.pudclk, puppdn := s.puppdn, busTrace := s.busTrace } = s

/-- Rule R241: `Enc.RegisterEventHandler`. -/
def Obligations.RegisterEventHandler : Prop :=
  ∀ (s : State) (callback ctx : Word), s.fault = none →
    encode (.encRegisterEventHandler callback ctx) = [0x31000000, callback, ctx] ∧
    if s.enc.appCallback.isSome then Raises (.encRegisterEventHandler callback ctx) s .secondAppCallback
    else
      exec (.encRegisterEventHandler callback ctx) s =
        .next { s with enc := { s.enc with appCallback := some ⟨callback, ctx⟩ } }

/-- `Enc.Uninitialize` (rule R242): it raises when the driver is not initialized; when its three pins are connected it
cancels the timers, disconnects and destroys the pins and resets the driver; the trigger-enable bits stay. -/
def Obligations.EncUninitialize : Prop :=
  ∀ s : State, s.fault = none →
    encode .encUninitialize = [0x32000000] ∧
    (s.enc.initialized = false → Raises .encUninitialize s .encState) ∧
    ∀ clk dt sw : PinNo, s.enc.initialized = true → AssignedTo s 0 clk → AssignedTo s 1 dt → AssignedTo s 2 sw →
      (∀ o < 3, (s.obj o).handler.isSome = true) →
      s.pinTable[clk] = some 0 → s.pinTable[dt] = some 1 → s.pinTable[sw] = some 2 →
      ∃ t, t = { s with
          timers := withoutTimer s.enc.tickTimer (withoutTimer s.enc.debounceTimer s.timers)
          pinTable := ((s.pinTable.set clk none).set dt none).set sw none
          pinObj := ((s.pinObj.set 0 pinObjReset).set 1 pinObjReset).set 2 pinObjReset
          enc := { s.enc with
            debounceTimer := none, tickTimer := none, appCallback := none, encState := .start, btnState := .start
            initialized := false } } ∧
        exec .encUninitialize s = .next t ∧ Raises .encUninitialize t .encState

/-! ### Enc: the two state machines -/

/-- The CLK/DT handler (rules R112, R212, R243, R244): the driver steps on the two sampled levels and delivers at most
one event, for application callbacks of empty body. -/
def Obligations.ClkDtHandler : Prop :=
  ∀ (s : State) (ctx : Word) (arg : Option AppEvent),
    (s.enc.initialized = false → HandlerEnds 0xFFFF0003 ctx arg s s) ∧
    ∀ clk dt : PinNo, s.enc.initialized = true → (s.obj 0).pinNumber = some clk → (s.obj 1).pinNumber = some dt →
      let q := 2 * (pinBit s.lev clk).toNat + (pinBit s.lev dt).toNat
      let out := qdecOut s.enc.encState q
      CanEmit s out →
      HandlerEnds 0xFFFF0003 ctx arg s
        (withBus (emitted { s with enc := { s.enc with encState := qdecNext s.cfg s.enc.encState q } } out)
          [readOf s.cfg (.lev (pinWord clk)) (bankWord s.lev (pinWord clk)),
            readOf s.cfg (.lev (pinWord dt)) (bankWord s.lev (pinWord dt))])

/-- The cells that the source fixes suffice for the four-edge sequences, whatever the other cells are; `Invalid` is left
on the neutral input only and emits nothing. With the spec's default table (log entry 22), a full sequence from Start,
its first three inputs repeated at will, emits exactly one rotation and ends in Start; and a run from Start emits a
rotation at its last input, whichever that is, exactly when it ends in a full sequence of that direction, entered in
Start (rules R245 to R248). -/
def Obligations.RotationNeedsFullSequence : Prop :=
  (∀ c : Config, quadRun c .start [1, 0, 2, 3] = (.start, [.rotateClockwise]) ∧
    quadRun c .start [2, 0, 1, 3] = (.start, [.rotateCounterclockwise]) ∧
    ∀ q < 4, qdecNext c .invalid q = (if q = 3 then .start else .invalid) ∧ qdecOut .invalid q = none) ∧
  (∀ (c : Config) (a₁ a₂ a₃ : Nat), c.qdecNext = defaultQdecNext →
    quadRun c .start (fullSequence 1 0 2 a₁ a₂ a₃) = (.start, [.rotateClockwise]) ∧
    quadRun c .start (fullSequence 2 0 1 a₁ a₂ a₃) = (.start, [.rotateCounterclockwise])) ∧
  ∀ (c : Config) (qs : List Nat), c.qdecNext = defaultQdecNext → (∀ q ∈ qs, q < 4) → ∀ q < 4,
    ((quadRun c .start (qs ++ [q])).2 = (quadRun c .start qs).2 ++ [.rotateClockwise] ↔
      ∃ pre a₁ a₂ a₃, qs ++ [q] = pre ++ fullSequence 1 0 2 a₁ a₂ a₃ ∧ (quadRun c .start pre).1 = .start) ∧
    ((quadRun c .start (qs ++ [q])).2 = (quadRun c .start qs).2 ++ [.rotateCounterclockwise] ↔
      ∃ pre a₁ a₂ a₃, qs ++ [q] = pre ++ fullSequence 2 0 1 a₁ a₂ a₃ ∧ (quadRun c .start pre).1 = .start) ∧
    ((quadRun c .start (qs ++ [q])).2 = (quadRun c .start qs).2 ∨
      ∃ e, (e = .rotateClockwise ∨ e = .rotateCounterclockwise) ∧
        (quadRun c .start (qs ++ [q])).2 = (quadRun c .start qs).2 ++ [e])

/-- The SW handler restarts the debounce timer and does nothing else (rules R270, R304, R305). -/
def Obligations.SwHandler : Prop :=
  ∀ (s : State) (ctx : Word) (arg : Option AppEvent),
    (s.enc.initialized = false → HandlerEnds 0xFFFF0004 ctx arg s s) ∧
    (s.enc.initialized = true → CanStart s (tDeb s.cfg) →
      HandlerEnds 0xFFFF0004 ctx arg s
        { s with
          timers := withoutTimer s.enc.debounceTimer s.timers ++ [newTimer s (tDeb s.cfg) 0xFFFF0005 0]
          timerSeq := s.timerSeq + 1
          freeCount := s.freeCount + 1
          enc := { s.enc with debounceTimer := some (newTimer s (tDeb s.cfg) 0xFFFF0005 0).handle } })

/-- Debounce expiry at a low level that is new: a press, classified by the time since the last one (rules R271, R272,
R275). -/
def Obligations.DebouncePress : Prop :=
  ∀ (s : State) (ctx : Word) (arg : Option AppEvent) (sw : PinNo), s.enc.initialized = true →
    (s.obj 2).pinNumber = some sw → pinBit s.lev sw = false → s.enc.swStable = true → CanStart s (tTick s.cfg) →
    let ev := if s.enc.pressSeen = true ∧ (s.ticks - s.enc.lastPress).toNat < tDbl s.cfg then ButtonEvent.doubleClick
      else ButtonEvent.down
    let timer := newTimer s (tTick s.cfg) 0xFFFF0006 0
    CanEmit s (btnOut s.cfg s.enc.btnState ev) →
    HandlerEnds 0xFFFF0005 ctx arg s
      (withBus (emitted
        { s with
          timers := withoutTimer s.enc.tickTimer s.timers ++ [timer]
          timerSeq := s.timerSeq + 1
          freeCount := s.freeCount + 1
          enc := { s.enc with
            debounceTimer := none, swStable := false, lastPress := s.ticks, pressSeen := true
            tickTimer := some timer.handle, btnState := btnNext s.cfg s.enc.btnState ev } }
        (btnOut s.cfg s.enc.btnState ev))
        [readOf s.cfg (.lev (pinWord sw)) (bankWord s.lev (pinWord sw))])

/-- Debounce expiry at a high level that is new: a release, classified by the time since the press; the tick timer is
cancelled (rules R271, R273, R275). -/
def Obligations.DebounceRelease : Prop :=
  ∀ (s : State) (ctx : Word) (arg : Option AppEvent) (sw : PinNo), s.enc.initialized = true →
    (s.obj 2).pinNumber = some sw → pinBit s.lev sw = true → s.enc.swStable = false →
    let ev := if s.enc.pressSeen = true ∧ (s.ticks - s.enc.lastPress).toNat < tClick s.cfg then ButtonEvent.click
      else ButtonEvent.up
    CanEmit s (btnOut s.cfg s.enc.btnState ev) →
    HandlerEnds 0xFFFF0005 ctx arg s
      (withBus (emitted
        { s with
          timers := withoutTimer s.enc.tickTimer s.timers
          enc := { s.enc with
            debounceTimer := none, swStable := true, lastRelease := s.ticks, tickTimer := none
            btnState := btnNext s.cfg s.enc.btnState ev } }
        (btnOut s.cfg s.enc.btnState ev))
        [readOf s.cfg (.lev (pinWord sw)) (bankWord s.lev (pinWord sw))])

/-- Debounce expiry filters what is not new: without the driver it only forgets its timer, and at the level last
classified it reads the pin and emits nothing (rule R271). -/
def Obligations.DebounceFilter : Prop :=
  ∀ (s : State) (ctx : Word) (arg : Option AppEvent),
    (s.enc.initialized = false →
      HandlerEnds 0xFFFF0005 ctx arg s { s with enc := { s.enc with debounceTimer := none } }) ∧
    ∀ sw : PinNo, s.enc.initialized = true → (s.obj 2).pinNumber = some sw → pinBit s.lev sw = s.enc.swStable →
      HandlerEnds 0xFFFF0005 ctx arg s
        (withBus { s with enc := { s.enc with debounceTimer := none } }
          [readOf s.cfg (.lev (pinWord sw)) (bankWord s.lev (pinWord sw))])

/-- Tick expiry: one tick into the button machine, and the timer again while the button remains down (rules R274,
R275). -/
def Obligations.TickExpiry : Prop :=
  ∀ (s : State) (ctx : Word) (arg : Option AppEvent),
    (s.enc.initialized = false →
      HandlerEnds 0xFFFF0006 ctx arg s { s with enc := { s.enc with tickTimer := none } }) ∧
    (s.enc.initialized = true → CanEmit s (btnOut s.cfg s.enc.btnState .tick) →
      (s.enc.swStable = true →
        HandlerEnds 0xFFFF0006 ctx arg s
          (emitted { s with enc := { s.enc with
              tickTimer := none, btnState := btnNext s.cfg s.enc.btnState .tick } }
            (btnOut s.cfg s.enc.btnState .tick))) ∧
      (s.enc.swStable = false → CanStart s (tTick s.cfg) →
        HandlerEnds 0xFFFF0006 ctx arg s
          (emitted
            { s with
              timers := s.timers ++ [newTimer s (tTick s.cfg) 0xFFFF0006 0]
              timerSeq := s.timerSeq + 1
              freeCount := s.freeCount + 1
              enc := { s.enc with
                tickTimer := some (newTimer s (tTick s.cfg) 0xFFFF0006 0).handle
                btnState := btnNext s.cfg s.enc.btnState .tick } }
            (btnOut s.cfg s.enc.btnState .tick))))

/-- A press and a release within the click window give SwitchDown and then SwitchClick, and leave no tick timer: the two
debounce expiries, any other operations between them leaving the driver alone (rules R271 to R280). The cells of both
tables that this takes are fixed by the source. -/
def Obligations.PressThenReleaseIsAClick : Prop :=
  ∀ (s : State) (sw : PinNo) (cb : Registration) (d : Nat), s.enc.initialized = true → (s.obj 2).pinNumber = some sw →
    pinBit s.lev sw = false → s.enc.swStable = true → s.enc.btnState = .start → s.enc.pressSeen = false →
    s.enc.appCallback = some cb → CanStart s (tTick s.cfg) → d < tClick s.cfg → d < 18446744073709551616 →
    CallableQuietly s cb.handler cb.ctx (some .switchDown) → CallableQuietly s cb.handler cb.ctx (some .switchClick) →
    ∃ t u, HandlerEnds 0xFFFF0005 0 none s t ∧
      HandlerEnds 0xFFFF0005 0 none
        { t with lev := setPinBit t.lev sw true, ticks := t.ticks + BitVec.ofNat 64 d } u ∧
      u.appTrace = s.appTrace ++ [⟨.switchDown, cb.ctx⟩, ⟨.switchClick, cb.ctx⟩] ∧
      u.enc.btnState = .click ∧ u.enc.tickTimer = none ∧ u.enc.swStable = true

/-! ### Calls -/

/-- The call of an external handler (rule R334): it is recorded; nested too deeply it raises PE_REENTRANT; else the
commands of its body run in order, one level deeper, each by its rule and with calls of the same kind, and the call ends
as they do. The commands of a body are what the table lists, stimuli left out (log entry 10); an unlisted body is
empty. -/
def Obligations.ExternalHandlerRunsBody : Prop :=
  ∀ (h ctx : Word) (arg : Option AppEvent) (s : State), handlerClass h = .external →
    let recorded := { s with callTrace := s.callTrace ++ [⟨h, ctx⟩] }
    (s.cfg.maxNest ≤ s.invokeDepth → invoke h ctx arg s = .raised .reentrant recorded) ∧
    (s.invokeDepth < s.cfg.maxNest →
      let body := handlerBody s.cfg h ctx arg
      let entered := { recorded with invokeDepth := s.invokeDepth + 1 }
      (∀ t, CommandsEnd body entered t → HandlerEnds h ctx arg s { t with invokeDepth := s.invokeDepth }) ∧
      (∀ done i rest u e t, body = done ++ i :: rest → CommandsEnd done entered u →
        command innerCall i u = .raised e t → invoke h ctx arg s = .raised e t) ∧
      ∀ t, HandlerEnds h ctx arg s t → ∃ u, CommandsEnd body entered u ∧ t = { u with invokeDepth := s.invokeDepth }) ∧
    ((∀ b ∈ s.cfg.handlerBodies, ¬ (b.handler = h ∧ b.ctx = ctx ∧ b.arg = arg)) → handlerBody s.cfg h ctx arg = []) ∧
    ∀ w ctx' arg' u, w ≠ 0xFFFF0002 → innerCall w ctx' arg' u = invoke w ctx' arg' u

/-! ### Kernel timers and raw register commands -/

/-- The timer handler withdraws the timer line, counts one tick and fires what is due at the new count, each timer once
and in fire order: the due timers are those listed when the run starts, a timer that a callback has cancelled is skipped,
a callback is called with its timer already taken out, whatever word it is (a call of a driver handler is as the
statements about it say), and a call that raises ends the run. With nothing due that is all; due timers whose callbacks
are external and of empty body are called in fire order and gone (rules R303, R307, R321, R334). -/
def Obligations.TimerHandler : Prop :=
  ∀ (s : State) (ctx : Word) (arg : Option AppEvent), s.ticks ≠ BitVec.allOnes 64 →
    let quiesced := { s with
      lines := s.lines.modify s.cfg.timerLine fun l => { l with pending := false }
      ticks := s.ticks + 1
      freeCount := s.freeCount + 1 }
    ((∀ x ∈ s.timers, s.ticks + 1 < x.deadline) → HandlerEnds 0xFFFF0002 ctx arg s quiesced) ∧
    ((∀ x ∈ s.timers, x.deadline ≤ s.ticks + 1 → CallableQuietly s x.callback x.ctx none) →
      HandlerEnds 0xFFFF0002 ctx arg s
        { quiesced with
          timers := s.timers.filter fun x => decide (s.ticks + 1 < x.deadline)
          callTrace := s.callTrace ++ (dueTimers quiesced).map fun x => ⟨x.callback, x.ctx⟩ }) ∧
    (∀ t, FiresTo (dueTimers quiesced) quiesced t → HandlerEnds 0xFFFF0002 ctx arg s t) ∧
    ∀ fired x rest u e t, dueTimers quiesced = fired ++ x :: rest → FiresTo fired quiesced u → x ∈ u.timers →
      innerCall x.callback x.ctx none { u with timers := u.timers.erase x } = .raised e t →
      invoke 0xFFFF0002 ctx arg s = .raised e t

/-- By default the due timers fire in ascending deadline and then start order, each once (rules R307, R331). -/
def Obligations.DueTimersInOrder : Prop :=
  ∀ s : State, s.cfg.firePriority = [] →
    (dueTimers s).Pairwise DueOrder ∧ (dueTimers s).Perm (s.timers.filter fun t => decide (t.deadline ≤ s.ticks))

/-- Under the default handle map a started timer has a handle that is not zero and that no running timer has, and
cancelling it at once leaves the timers as they were; cancelling a handle that is not running does nothing (rules R41,
R304, R305). -/
def Obligations.NewHandleIsFresh : Prop :=
  ∀ (s : State) (d : Nat) (h ctx : Word), s.cfg.timerHandles = [] → TimersOrdered s → HandlesDefault s →
    s.timerSeq + 1 < 4294967296 →
    nextHandle s ≠ 0 ∧ (∀ t ∈ s.timers, t.handle ≠ nextHandle s) ∧
    (cancelTimer (startTimer s d h ctx) (nextHandle s)).timers = s.timers ∧
    ∀ hd, (∀ t ∈ s.timers, t.handle ≠ hd) → cancelTimer s hd = s

/-- `Mem.Read32` of a register other than the acknowledge register, whose read rule R78 gives (rules R72, R84, R300). -/
def Obligations.RawRead : Prop :=
  ∀ (s : State) (a : Word), s.fault = none →
    encode (.memRead32 a) = [0x40000000, a] ∧
    if a.toNat % 4 ≠ 0 then Raises (.memRead32 a) s .badAddress
    else
      match regAt s a with
      | none => Raises (.memRead32 a) s .badAddress
      | some r =>
        (∃ t, exec (.memRead32 a) s = .next t ∧ t.readTrace = s.readTrace ++ [⟨a, regValue s r⟩]) ∧
        (r ≠ .icIar →
          exec (.memRead32 a) s = .next (withBus
            { s with readTrace := s.readTrace ++ [⟨a, regValue s r⟩] } [.read a (regValue s r)]))

/-- `Mem.Write32`: the checks, what is ignored, and the effect of a write to each GPIO register with everything else
unchanged: write-1-to-clear of the status words with level detection applied again; an enable word replaced bit by bit,
level detection after a level kind, no pin object changed; a function word replaced field by field; the pull selection; the
strobe that latches the selected pull into the pins written 1, code 3 into none; a combined pull word with the pulls its
fields decode to, code 3 leaving a pin's pull as it was (rules R72, R75 to R77, R84, R116, R203, R301). Which pull the codes
1 and 2 stand for in PUD and in PUPPDN is presumed with rule R116, which takes it from general knowledge (log entry 21).
That a write to any mapped register completes takes in the acknowledge register, where it is the model's deduction (log
entry 13). The effects of writes to the interrupt controller's other registers are in `LineRegisters` and
`AcknowledgeAndEndOfInterrupt`. -/
def Obligations.RawWrite : Prop :=
  ∀ (s : State) (a v : Word), s.fault = none →
    encode (.memWrite32 a v) = [0x41000000, a, v] ∧
    if a.toNat % 4 ≠ 0 then Raises (.memWrite32 a v) s .badAddress
    else
      match regAt s a with
      | none => Raises (.memWrite32 a v) s .badAddress
      | some r =>
        let ends := fun t : State => exec (.memWrite32 a v) s = .next (withBus t [.write a v])
        let bit := fun m : PinNo => v.getLsbD (m.val % 32)
        (exec (.memWrite32 a v) s = .next (memWrite s r v) ∧ addrOf s.cfg r = a) ∧
        ((∃ w, r = .lev w) ∨ (∃ w, r = .icPend w) → ends s) ∧
        (∀ w, r = .eds w → ∃ eds, ends { s with eds := eds } ∧ ∀ m,
          pinBit eds m =
            (pinBit s.eds m && !(decide (pinWord m = w) && bit m) || pinBit (levelPins s.lev s.hen s.len) m)) ∧
        (∀ k w, r = .trig k w → ∃ t, ends t ∧
          (∀ k' m, pinBit (t.trig k') m = if k' = k ∧ pinWord m = w then bit m else pinBit (s.trig k') m) ∧
          t.eds = (if k = .highLevel ∨ k = .lowLevel then s.eds ||| levelPins s.lev t.hen t.len else s.eds) ∧
          { t with
            ren := s.ren, fen := s.fen, hen := s.hen, len := s.len, aren := s.aren, afen := s.afen, eds := s.eds } = s) ∧
        (∀ j, r = .fsel j → ∃ fsel, ends { s with fsel := fsel } ∧ ∀ m,
          fselField fsel m = if fselIndex m = j then (v >>> fselShift m).setWidth 3 else fselField s.fsel m) ∧
        (r = .pud → ends { s with pud := v.setWidth 2 }) ∧
        (∀ w, r = .pudclk w → ∃ clk pulls, ends { s with pudclk := clk, pullState := pulls } ∧ ∀ m,
          pinBit clk m = (if pinWord m = w then bit m else pinBit s.pudclk m) ∧
          pulls[m] =
            if pinWord m = w ∧ bit m = true then
              if s.pud = 0 then .off else if s.pud = 1 then .down else if s.pud = 2 then .up else s.pullState[m]
            else s.pullState[m]) ∧
        ∀ j, r = .puppdn j → ∃ p pulls, ends { s with puppdn := p, pullState := pulls } ∧ ∀ m,
          puppdnField p m =
            (if puppdnIndex m = j then (v >>> puppdnShift m).setWidth 2 else puppdnField s.puppdn m) ∧
          pulls[m] =
            if puppdnIndex m = j then
              if puppdnField p m = 0 then .off else if puppdnField p m = 1 then .up
              else if puppdnField p m = 2 then .down else s.pullState[m]
            else s.pullState[m]

/-- A plain register reads back what was written to it, reserved bits 0, and every other plain register reads as before
(rules R76, R77). -/
def Obligations.PlainRegistersHoldTheirWords : Prop :=
  ∀ (s : State) (r r' : Reg) (v mask mask' : Word), implemented r = some mask → implemented r' = some mask' →
    regValue (memWrite s r v) r' = if r' = r then v &&& mask else regValue s r'

/-! ### Pin levels -/

/-- `Ev.PinLevel` (rules R170, R171): the level, the status bit of an enabled edge, and level detection. That a stimulus
which is not admitted leaves the state as it is, is the model's reading (log entry 4). -/
def Obligations.PinLevelStimulus : Prop :=
  ∀ (s : State) (n : Nat) (level : Bool), s.fault = none →
    if h : n < 54 then
      let old := pinBit s.lev ⟨n, h⟩
      ∃ lev eds, exec (.evPinLevel n level) s = .next { s with lev := lev, eds := eds } ∧
        (∀ m : PinNo, pinBit lev m = if m.val = n then level else pinBit s.lev m) ∧
        ∀ m : PinNo, pinBit eds m =
          (pinBit s.eds m ||
            (decide (m.val = n) &&
              (!old && level && (pinBit s.ren m || pinBit s.aren m) ||
                old && !level && (pinBit s.fen m || pinBit s.afen m))) ||
            (pinBit lev m && pinBit s.hen m || !pinBit lev m && pinBit s.len m))
    else exec (.evPinLevel n level) s = .next s

/-! ### The whole machine -/

/-- The state after reset has the invariant (rule R47); its pin levels are the model's choice (log entry 2). -/
def Obligations.InvariantAtReset : Prop := Inv State.reset

/-- Rule R371: after reset the block is in normal context with every line masked and no registration, both state
machines in Start and no fault, and no request output is asserted whatever the sources do. -/
def Obligations.ResetAssertsNoRequest : Prop :=
  State.reset.inIrq = false ∧ State.reset.inFiq = false ∧ State.reset.fault = none ∧
  State.reset.enc.encState = .start ∧ State.reset.enc.btnState = .start ∧ State.reset.enc.initialized = false ∧
  (∀ id, State.reset.irqEnable id = false ∧ State.reset.irqTable id = none) ∧
  ∀ (lines : List IrqLine) (eds : PinBank) (c : Config),
    lines.map (fun l => (l.handler, l.enable)) = State.reset.lines.map (fun l => (l.handler, l.enable)) →
    ({ State.reset with lines := lines, eds := eds, cfg := c }).nIrqRequest = false ∧
    ({ State.reset with lines := lines, eds := eds, cfg := c }).nFiqRequest = false ∧
    ({ State.reset with lines := lines, eds := eds, cfg := c }).trapOperation = none

/-- The invariant of the machine is kept by every step, from every state that has it. Its pin-table and tick-timer
parts are the spec's own inferences ("each object sits in at most one slot", "Timer-handle invariants"). -/
def Obligations.InvariantKeptByStep : Prop := ∀ s t : State, Inv s → step s = .next t → Inv t

/-- The spec's own inference of rule R282: while the two expiry handlers are invoked by the timers alone, every operation
keeps that, of each of the two kinds, the running timers are the remembered one or none; so it holds after reset and as
long as no operation raises. Handles are those of the default map, of fewer than 2^32 starts (rules R41, R304, U13). -/
def Obligations.DriverTimersMatchHandles : Prop :=
  (DriverTimers State.reset ∧ ExpiryByTimerOnly State.reset) ∧
  ∀ (i : Instr) (s t : State), s.cfg.timerHandles = [] → TimersOrdered s → HandlesDefault s → DriverTimers s →
    ExpiryByTimerOnly s → (∀ w ∈ registeredWord i, NotExpiry w) → exec i s = .next t → t.fault = none →
    t.timerSeq < 4294967296 → DriverTimers t ∧ ExpiryByTimerOnly t

/-- What no operation and no step does: the output ports only grow, the parameters, the number of lines and the number
of pin objects stay, and no operation but `Ev.PinLevel` changes a pin's level (rules R5, R31, R43). -/
def Obligations.WhatEveryStepKeeps : Prop :=
  (∀ s t : State, step s = .next t → TracesGrow s t ∧ SameParameters s t) ∧
  ∀ (i : Instr) (s t : State), exec i s = .next t →
    TracesGrow s t ∧ SameParameters s t ∧ ((∀ n level, i ≠ .evPinLevel n level) → t.lev = s.lev)

/-- What a step does depends on no output port, no pull and no release timestamp: from two states that differ in these
only, the outcomes differ in these only (rules R35, R39, R43; the register-access record is the model's own, log
entry 17). -/
def Obligations.UnreadStateIsUnread : Prop :=
  ∀ s t : State, unread s = unread t → SameButUnread (step s) (step t)

end Statements
end

