-- ==== Sys2Proof/Laws/Bits.lean ====
section
/-! SUPPORT. Laws of the bit fields: pins in one-bit-per-pin groups, ids in one-bit-per-id groups. -/

namespace Sys2Proof.Laws

open Sys2Proof.Machine

/-! ### One-bit-per-pin groups -/

/-- The mask of a pin, written to the pin's word, names exactly that pin (rule R114). -/
theorem wordPins_pinMask (n : PinNo) : wordPins (pinWord n) (pinMask n) = 1#54 <<< n.val := by
  revert n; decide

/-- Bit `i` of the pins a written word names. -/
theorem getLsbD_wordPins (w : Fin 2) (v : Word) (i : Nat) :
    (wordPins w v).getLsbD i = (decide (i < 54) && (decide (32 * w.val ≤ i) && v.getLsbD (i - 32 * w.val))) := by
  by_cases h : i < 54
  · by_cases h2 : i < 32 * w.val
    · simp [wordPins, h, h2]
    · simp [wordPins, h, h2, show 32 * w.val ≤ i by omega]
  · simp [BitVec.getLsbD_of_ge _ _ (by omega : 54 ≤ i), h]

/-- Bit `i` of a word of a group. -/
theorem getLsbD_bankWord (b : PinBank) (w : Fin 2) (i : Nat) :
    (bankWord b w).getLsbD i = (decide (i < 32) && b.getLsbD (32 * w.val + i)) := by
  simp [bankWord, BitVec.getLsbD_extractLsb']

/-- The whole word names the pins of that word. -/
theorem getLsbD_wordPins_ones (w : Fin 2) (i : Nat) :
    (wordPins w (0xFFFFFFFF : Word)).getLsbD i = (decide (i < 54) && decide (i / 32 = w.val)) := by
  by_cases h : i < 54
  · have key : ∀ w : Fin 2, ∀ i : Fin 54,
        (wordPins w (0xFFFFFFFF : Word)).getLsbD i.val = decide (i.val / 32 = w.val) := by decide
    rw [key w ⟨i, h⟩]
    simp [h]
  · simp [BitVec.getLsbD_of_ge _ _ (by omega : 54 ≤ i), h]

/-- Bit `i` of a group after one of its words is replaced: the word's bit if it lies in that word (rule R76). -/
theorem getLsbD_setBankWord (b : PinBank) (w : Fin 2) (v : Word) (i : Nat) :
    (setBankWord b w v).getLsbD i =
      (decide (i < 54) && if i / 32 = w.val then v.getLsbD (i % 32) else b.getLsbD i) := by
  rw [setBankWord, BitVec.getLsbD_or, BitVec.getLsbD_and, BitVec.getLsbD_not, getLsbD_wordPins_ones,
    getLsbD_wordPins]
  by_cases hi : i < 54
  · by_cases h : i / 32 = w.val
    · have h2 : 32 * w.val ≤ i := by omega
      have h3 : i - 32 * w.val = i % 32 := by omega
      simp [hi, h, h2, h3]
    · by_cases h5 : 32 * w.val ≤ i
      · have : 32 ≤ i - 32 * w.val := by omega
        simp [hi, h, BitVec.getLsbD_of_ge _ _ this]
      · simp [hi, h, h5]
  · simp [hi]

/-- Reading a word just written: the pins' bits as written, the reserved bits 0 (rules R76, R77). -/
theorem bankWord_setBankWord (b : PinBank) (w : Fin 2) (v : Word) :
    bankWord (setBankWord b w v) w = v &&& bankWord (BitVec.allOnes 54) w := by
  apply BitVec.eq_of_getLsbD_eq
  intro i hi
  have e : (32 * w.val + i) / 32 = w.val := by omega
  have e2 : (32 * w.val + i) % 32 = i := by omega
  rw [BitVec.getLsbD_and, getLsbD_bankWord, getLsbD_bankWord, getLsbD_setBankWord, BitVec.getLsbD_allOnes, e, e2]
  by_cases h : 32 * w.val + i < 54 <;> simp [h, hi]

/-- A pin's bit after a word is written: the written bit in that word, unchanged elsewhere (rule R76). -/
theorem pinBit_setBankWord (b : PinBank) (w : Fin 2) (v : Word) (n : PinNo) :
    pinBit (setBankWord b w v) n = if pinWord n = w then v.getLsbD (n.val % 32) else pinBit b n := by
  simp only [pinBit, getLsbD_setBankWord, n.isLt, decide_true, Bool.true_and, pinWord, Fin.ext_iff]

/-- Bit `i` of a group given by a pin's mask. -/
theorem getLsbD_pinMask (n : PinNo) (i : Nat) (h : i / 32 = n.val / 32) :
    (pinMask n).getLsbD (i % 32) = decide (i = n.val) := by
  have h32 : i % 32 < 32 := by omega
  simp only [pinMask, BitVec.getLsbD_shiftLeft, BitVec.getLsbD_one, h32, decide_true, Bool.true_and]
  by_cases e : i = n.val
  · simp [e]
  · by_cases l : i % 32 < n.val % 32
    · simp [e, l]
    · have : i % 32 - n.val % 32 ≠ 0 := by omega
      simp [e, this]

/-- Setting a pin's bit by read-modify-write of its word. -/
theorem setBankWord_or_pinMask (b : PinBank) (n : PinNo) :
    setBankWord b (pinWord n) (bankWord b (pinWord n) ||| pinMask n) = b ||| (1#54 <<< n.val) := by
  apply BitVec.eq_of_getLsbD_eq
  intro i hi
  rw [← wordPins_pinMask, getLsbD_setBankWord, BitVec.getLsbD_or, BitVec.getLsbD_or, getLsbD_bankWord,
    getLsbD_wordPins]
  by_cases h : i / 32 = (pinWord n).val
  · have h2 : 32 * (pinWord n).val ≤ i := by omega
    have h3 : 32 * (pinWord n).val + i % 32 = i := by omega
    have h4 : i - 32 * (pinWord n).val = i % 32 := by omega
    simp [hi, h, h2, h3, h4, show i % 32 < 32 by omega]
  · by_cases h5 : 32 * (pinWord n).val ≤ i
    · have : 32 ≤ i - 32 * (pinWord n).val := by omega
      simp [hi, h, BitVec.getLsbD_of_ge _ _ this]
    · simp [hi, h, h5]

/-- Clearing a pin's bit by read-modify-write of its word. -/
theorem setBankWord_and_pinMask (b : PinBank) (n : PinNo) :
    setBankWord b (pinWord n) (bankWord b (pinWord n) &&& ~~~(pinMask n)) = b &&& ~~~(1#54 <<< n.val) := by
  apply BitVec.eq_of_getLsbD_eq
  intro i hi
  rw [← wordPins_pinMask, getLsbD_setBankWord, BitVec.getLsbD_and, BitVec.getLsbD_and, BitVec.getLsbD_not,
    BitVec.getLsbD_not, getLsbD_bankWord, getLsbD_wordPins]
  by_cases h : i / 32 = (pinWord n).val
  · have h2 : 32 * (pinWord n).val ≤ i := by omega
    have h3 : 32 * (pinWord n).val + i % 32 = i := by omega
    have h4 : i - 32 * (pinWord n).val = i % 32 := by omega
    simp [hi, h, h2, h3, h4, show i % 32 < 32 by omega]
  · by_cases h5 : 32 * (pinWord n).val ≤ i
    · have : 32 ≤ i - 32 * (pinWord n).val := by omega
      simp [hi, h, BitVec.getLsbD_of_ge _ _ this]
    · simp [hi, h, h5]

/-! ### One-bit-per-id groups -/

/-- Bit `i` of a word built bit by bit. -/
theorem getLsbD_bitsWord (f : Nat → Bool) (n i : Nat) (hn : n ≤ 32) :
    (bitsWord f n).getLsbD i = (decide (i < n) && f i) := by
  induction n with
  | zero => simp [bitsWord]
  | succ n ih =>
    have ih := ih (by omega)
    rw [bitsWord, BitVec.getLsbD_or, ih]
    by_cases hi : i = n
    · subst hi
      by_cases hf : f i <;> simp [hf, show i < 32 by omega]
    · by_cases hlt : i < n
      · by_cases hf : f n <;> simp [hf, hlt, show i < n + 1 by omega]
      · have h1 : ¬ i < n + 1 := by omega
        by_cases hf : f n
        · by_cases h32 : i < 32
          · have : ¬ (i - n = 0) := by omega
            simp [hf, hlt, h1, h32, this]
          · simp [hf, hlt, h1, h32]
        · simp [hf, hlt, h1]

/-- Bit of an id in its word of a one-bit-per-id group (rule R85). -/
theorem getLsbD_idWord (f : Nat → Bool) (id : Nat) : (idWord f (id / 32)).getLsbD (id % 32) = f id := by
  rw [idWord, getLsbD_bitsWord _ _ _ (by omega)]
  simp [show id % 32 < 32 by omega, Nat.div_add_mod]

/-- The mask of an id, written to the id's word, names exactly that id (rule R85). -/
theorem idBit_mask (id j : Nat) : idBit (id / 32) (1#32 <<< (id % 32)) j = decide (j = id) := by
  have h32 : j % 32 < 32 := by omega
  by_cases h : j = id
  · subst h; simp [idBit, h32]
  · by_cases hw : j / 32 = id / 32
    · have hm : j % 32 ≠ id % 32 := by omega
      have : ¬ (j % 32 - id % 32 = 0 ∧ ¬ j % 32 < id % 32) := by omega
      simp [idBit, hw, h, h32]
      omega
    · simp [idBit, hw, h]

/-- `enset(id)` sets the enable bit of one line and nothing else but the access record (rule R85). -/
theorem enset_eq (s : State) (id : Nat) :
    enset s id = (s.setLine id fun l => { l with enable := true }).pushBus
      (.write (addrOf s.cfg (.icEnset (id / 32))) (1#32 <<< (id % 32))) := by
  have h : s.lines.mapIdx (fun j l => if idBit (id / 32) (1#32 <<< (id % 32)) j then { l with enable := true } else l)
      = s.lines.modify id (fun l => { l with enable := true }) := by
    apply List.ext_getElem
    · simp
    · intro j h1 h2
      simp only [List.getElem_mapIdx, List.getElem_modify, idBit_mask]
      by_cases e : j = id
      · subst e; simp
      · simp [e, Ne.symm e]
  simp only [enset, memWrite, writeEffect, State.writeEnable, State.setLine, h]

/-- `enclr(id)` clears the enable bit of one line and nothing else but the access record (rule R85). -/
theorem enclr_eq (s : State) (id : Nat) :
    enclr s id = (s.setLine id fun l => { l with enable := false }).pushBus
      (.write (addrOf s.cfg (.icEnclr (id / 32))) (1#32 <<< (id % 32))) := by
  have h : s.lines.mapIdx (fun j l => if idBit (id / 32) (1#32 <<< (id % 32)) j then { l with enable := false } else l)
      = s.lines.modify id (fun l => { l with enable := false }) := by
    apply List.ext_getElem
    · simp
    · intro j h1 h2
      simp only [List.getElem_mapIdx, List.getElem_modify, idBit_mask]
      by_cases e : j = id
      · subst e; simp
      · simp [e, Ne.symm e]
  simp only [enclr, memWrite, writeEffect, State.writeEnable, State.setLine, h]

/-- The acknowledge write clears exactly the pin's status bit, then level detection is applied (rules R75, R171). -/
theorem ackPin_eq (s : State) (n : PinNo) :
    ackPin s n = (State.levelDetect { s with eds := s.eds &&& ~~~(1#54 <<< n.val) }).pushBus
      (.write (addrOf s.cfg (.eds (pinWord n))) (pinMask n)) := by
  simp only [ackPin, memWrite, writeEffect, clearBankBits, wordPins_pinMask]

end Sys2Proof.Laws
end

