-- ==== Sys2Proof/Laws/Ops.lean ====
section
/-! SUPPORT. What each shared operation can do, said once: `perform`, sequencing, the object checks, register access,
kernel timers, the order of due timers. -/

namespace Sys2Proof.Laws

open Sys2Proof.Machine

/-! ### Sequencing and the operation frame -/

@[simp] theorem andThen_ok (s : State) (k : State → Res) : (Res.ok s).andThen k = k s := rfl
@[simp] theorem andThen_raised (e : ErrorCode) (s : State) (k : State → Res) :
    (Res.raised e s).andThen k = .raised e s := rfl
@[simp] theorem andThen_unending (u : Unending) (k : State → Res) : (Res.unending u).andThen k = .unending u := rfl

/-- A sequence that ends well ran both halves (rule R321). -/
theorem andThen_eq_ok {r : Res} {k : State → Res} {t : State} :
    r.andThen k = .ok t ↔ ∃ s, r = .ok s ∧ k s = .ok t := by
  cases r <;> simp [Res.andThen]

/-- A sequence raises in its first half or in its second (rule R321). -/
theorem andThen_eq_raised {r : Res} {k : State → Res} {e : ErrorCode} {t : State} :
    r.andThen k = .raised e t ↔ r = .raised e t ∨ ∃ s, r = .ok s ∧ k s = .raised e t := by
  cases r <;> simp [Res.andThen]

/-- An operation whose rule ends well answers the rule's state. -/
theorem perform_ok {op : Word} {f : State → Res} {s t : State} (hs : s.fault = none) (h : f s = .ok t) :
    perform op f s = .next t := by simp [perform, hs, h]

/-- An operation whose rule raises answers the state so far with the fault record set (rule R321). -/
theorem perform_raised {op : Word} {f : State → Res} {s t : State} {e : ErrorCode} (hs : s.fault = none)
    (h : f s = .raised e t) : perform op f s = .next (t.raiseFault e op) := by simp [perform, hs, h]

/-- Everything an operation can do: it answers a next state only from a state without a fault, and that state is what
its rule ends with, or what its rule raised with and the fault record. -/
theorem perform_next {op : Word} {f : State → Res} {s t : State} (h : perform op f s = .next t) :
    s.fault = none ∧ (f s = .ok t ∨ ∃ e u, f s = .raised e u ∧ t = u.raiseFault e op) := by
  unfold perform at h
  split at h
  · unfold halted at h; split at h <;> cases h
  · rename_i hf
    refine ⟨hf, ?_⟩
    split at h
    · rename_i hr; cases h; exact .inl hr
    · rename_i e u hr; cases h; exact .inr ⟨e, u, hr, rfl⟩
    · cases h
    · cases h

/-- An operation asked for after a fault (rules R42, R321). -/
theorem perform_fault {op : Word} {f : State → Res} {s : State} {r : FaultRecord} (h : s.fault = some r) :
    perform op f s = halted s r := by simp [perform, h]

/-! ### Object checks -/

theorem checkObj_lt {obj : Nat} {s : State} {k : State → Res} (h : obj < s.nPinObj) : checkObj obj s k = k s := by
  simp [checkObj, h]

theorem checkObj_ge {obj : Nat} {s : State} {k : State → Res} (h : s.nPinObj ≤ obj) :
    checkObj obj s k = .raised .badOperand s := by
  simp [checkObj, Nat.not_lt.2 h]

theorem checkAssigned_some {obj : Nat} {s : State} {k : PinNo → State → Res} {n : PinNo} (h : obj < s.nPinObj)
    (hn : (s.obj obj).pinNumber = some n) : checkAssigned obj s k = k n s := by
  simp [checkAssigned, checkObj_lt h, hn]

theorem checkAssigned_none {obj : Nat} {s : State} {k : PinNo → State → Res} (h : obj < s.nPinObj)
    (hn : (s.obj obj).pinNumber = none) : checkAssigned obj s k = .raised .pinUnassigned s := by
  simp [checkAssigned, checkObj_lt h, hn]

theorem checkAssigned_ge {obj : Nat} {s : State} {k : PinNo → State → Res} (h : s.nPinObj ≤ obj) :
    checkAssigned obj s k = .raised .badOperand s := checkObj_ge h

/-! ### Pin objects -/

@[simp] theorem setObj_nPinObj (s : State) (obj : Nat) (p : PinObj) : (s.setObj obj p).nPinObj = s.nPinObj := by
  simp [State.setObj, State.nPinObj]

/-- Reading a pin object after replacing one. -/
theorem setObj_obj (s : State) (obj o : Nat) (p : PinObj) :
    (s.setObj obj p).obj o = if o = obj ∧ obj < s.nPinObj then p else s.obj o := by
  simp only [State.setObj, State.obj, State.nPinObj, List.getD_eq_getElem?_getD, List.getElem?_set]
  by_cases h : obj = o
  · subst h
    by_cases h2 : obj < s.pinObj.length
    · simp [h2]
    · simp [h2]
  · have h' : o ≠ obj := fun e => h e.symm
    simp [h, h']

/-- An object with a pin number is one of the objects. -/
theorem obj_lt_of_pinNumber {s : State} {obj : Nat} {n : PinNo} (h : (s.obj obj).pinNumber = some n) :
    obj < s.nPinObj := by
  by_contra hc
  simp [State.obj, State.nPinObj, List.getD_eq_getElem?_getD] at h hc
  rw [List.getElem?_eq_none hc] at h
  simp [pinObjReset] at h

/-! ### Lines -/

@[simp] theorem setLine_nIrq (s : State) (id : Nat) (f : IrqLine → IrqLine) : (s.setLine id f).nIrq = s.nIrq := by
  simp [State.setLine, State.nIrq]

/-- Reading a line after changing one. -/
theorem setLine_line (s : State) (id i : Nat) (f : IrqLine → IrqLine) :
    (s.setLine id f).line i = if i = id ∧ id < s.nIrq then f (s.line i) else s.line i := by
  simp only [State.setLine, State.line, State.nIrq, List.getD_eq_getElem?_getD, List.getElem?_modify]
  by_cases h : id = i
  · subst h
    by_cases h2 : id < s.lines.length
    · simp [h2]
    · simp [h2]
  · have h' : i ≠ id := fun e => h e.symm
    simp [h, h']

/-- A line with a handler is one of the lines. -/
theorem lt_of_irqTable {s : State} {id : Nat} {r : Registration} (h : s.irqTable id = some r) : id < s.nIrq := by
  by_contra hc
  simp [State.irqTable, State.line, State.nIrq, List.getD_eq_getElem?_getD] at h hc
  rw [List.getElem?_eq_none hc] at h
  simp [lineReset] at h

/-- An enabled line is one of the lines. -/
theorem lt_of_irqEnable {s : State} {id : Nat} (h : s.irqEnable id = true) : id < s.nIrq := by
  by_contra hc
  simp [State.irqEnable, State.line, State.nIrq, List.getD_eq_getElem?_getD] at h hc
  rw [List.getElem?_eq_none hc] at h
  simp [lineReset] at h

/-- An effective line is one of the lines. -/
theorem lt_of_eff {s : State} {id : Nat} (h : s.eff id = true) : id < s.nIrq := by
  simp [State.eff] at h; exact lt_of_irqEnable h.2

/-- A line that IRQ selection may serve is one of the lines. -/
theorem lt_of_candidate {s : State} {id : Nat} (h : s.irqCandidate id = true) : id < s.nIrq := by
  simp [State.irqCandidate] at h; exact lt_of_eff h.1

/-! ### Register access -/

/-- Reading a register other than the acknowledge register changes no state (rules R75, R76, R78). -/
theorem memRead_eq (s : State) (r : Reg) (h : r ≠ .icIar) :
    memRead s r = s.pushBus (.read (addrOf s.cfg r) (regValue s r)) := by
  cases r <;> first | rfl | exact absurd rfl h

/-- Reading the acknowledge register changes `icActive` at most (rule R78). -/
theorem memRead_icIar (s : State) :
    memRead s .icIar =
      { s with
        icActive := match s.ackSelect with | some id => some id | none => s.icActive
        busTrace := s.busTrace ++ [.read (addrOf s.cfg .icIar) (regValue s .icIar)] } := by
  unfold memRead readEffect
  cases s.ackSelect <;> rfl

/-- A write to a trigger-enable group: the group's word, and level detection after a level group (rule R76). -/
theorem memWrite_trig (s : State) (k : TrigKind) (w : Fin 2) (v : Word) :
    memWrite s (.trig k w) v =
      State.pushBus (if isLevelKind k then (s.setTrig k (setBankWord (s.trig k) w v)).levelDetect
        else s.setTrig k (setBankWord (s.trig k) w v)) (.write (addrOf s.cfg (.trig k w)) v) := by
  simp [memWrite, writeEffect]

/-! ### Kernel timers -/

/-- Every timer after a start is one from before or the new one (rule R304). -/
theorem mem_startTimer {s : State} {d : Nat} {h ctx : Word} {t : Timer} :
    t ∈ (startTimer s d h ctx).timers ↔
      t ∈ s.timers ∨ t = ⟨nextHandle s, deadlineAfter s d, h, ctx, s.timerSeq + 1⟩ := by
  simp [startTimer]

/-- Cancelling keeps the order of the timers and adds none (rule R305). -/
theorem cancelTimer_sublist (s : State) (hd : Word) : (cancelTimer s hd).timers.Sublist s.timers := by
  simp [cancelTimer, List.eraseP_sublist]

theorem cancelOptional_none (s : State) : cancelOptional s none = s := rfl
theorem cancelOptional_some (s : State) (h : Word) : cancelOptional s (some h) = cancelTimer s h := rfl

/-! ### Order of the due timers (rule R307) -/

theorem insertDue_perm (c : Config) (t : Timer) (l : List Timer) : (insertDue c t l).Perm (t :: l) := by
  induction l with
  | nil => exact List.Perm.refl _
  | cons u us ih =>
    unfold insertDue
    split
    · exact List.Perm.refl _
    · exact (List.Perm.cons u ih).trans (List.Perm.swap t u us)

/-- Sorting neither loses nor adds a timer. -/
theorem sortDue_perm (c : Config) (l : List Timer) : (sortDue c l).Perm l := by
  induction l with
  | nil => exact List.Perm.refl _
  | cons t ts ih => exact (insertDue_perm c t _).trans (List.Perm.cons t ih)

/-- The due timers are the running timers whose deadline is reached (rule R307). -/
theorem mem_dueTimers {s : State} {t : Timer} : t ∈ dueTimers s ↔ t ∈ s.timers ∧ t.deadline ≤ s.ticks := by
  simp [dueTimers, (sortDue_perm s.cfg _).mem_iff]

end Sys2Proof.Laws
end

