-- ==== Sys2Proof/Laws/State.lean ====
section
/-! SUPPORT. What each named update of the state does to each field, so that no later proof unfolds a record update. -/

namespace Sys2Proof.Laws

open Sys2Proof.Machine

variable (s : State)

/-! ### pushBus -/

@[simp] theorem pushBus_lines (a : BusAccess) : (s.pushBus a).lines = s.lines := rfl
@[simp] theorem pushBus_icActive (a : BusAccess) : (s.pushBus a).icActive = s.icActive := rfl
@[simp] theorem pushBus_inIrq (a : BusAccess) : (s.pushBus a).inIrq = s.inIrq := rfl
@[simp] theorem pushBus_inFiq (a : BusAccess) : (s.pushBus a).inFiq = s.inFiq := rfl
@[simp] theorem pushBus_gmBusy (a : BusAccess) : (s.pushBus a).gmBusy = s.gmBusy := rfl
@[simp] theorem pushBus_invokeDepth (a : BusAccess) : (s.pushBus a).invokeDepth = s.invokeDepth := rfl
@[simp] theorem pushBus_gmInitialized (a : BusAccess) : (s.pushBus a).gmInitialized = s.gmInitialized := rfl
@[simp] theorem pushBus_pinTable (a : BusAccess) : (s.pushBus a).pinTable = s.pinTable := rfl
@[simp] theorem pushBus_pinObj (a : BusAccess) : (s.pushBus a).pinObj = s.pinObj := rfl
@[simp] theorem pushBus_lev (a : BusAccess) : (s.pushBus a).lev = s.lev := rfl
@[simp] theorem pushBus_eds (a : BusAccess) : (s.pushBus a).eds = s.eds := rfl
@[simp] theorem pushBus_ren (a : BusAccess) : (s.pushBus a).ren = s.ren := rfl
@[simp] theorem pushBus_fen (a : BusAccess) : (s.pushBus a).fen = s.fen := rfl
@[simp] theorem pushBus_hen (a : BusAccess) : (s.pushBus a).hen = s.hen := rfl
@[simp] theorem pushBus_len (a : BusAccess) : (s.pushBus a).len = s.len := rfl
@[simp] theorem pushBus_aren (a : BusAccess) : (s.pushBus a).aren = s.aren := rfl
@[simp] theorem pushBus_afen (a : BusAccess) : (s.pushBus a).afen = s.afen := rfl
@[simp] theorem pushBus_fsel (a : BusAccess) : (s.pushBus a).fsel = s.fsel := rfl
@[simp] theorem pushBus_pud (a : BusAccess) : (s.pushBus a).pud = s.pud := rfl
@[simp] theorem pushBus_pudclk (a : BusAccess) : (s.pushBus a).pudclk = s.pudclk := rfl
@[simp] theorem pushBus_puppdn (a : BusAccess) : (s.pushBus a).puppdn = s.puppdn := rfl
@[simp] theorem pushBus_pullState (a : BusAccess) : (s.pushBus a).pullState = s.pullState := rfl
@[simp] theorem pushBus_enc (a : BusAccess) : (s.pushBus a).enc = s.enc := rfl
@[simp] theorem pushBus_ticks (a : BusAccess) : (s.pushBus a).ticks = s.ticks := rfl
@[simp] theorem pushBus_timers (a : BusAccess) : (s.pushBus a).timers = s.timers := rfl
@[simp] theorem pushBus_timerSeq (a : BusAccess) : (s.pushBus a).timerSeq = s.timerSeq := rfl
@[simp] theorem pushBus_fault (a : BusAccess) : (s.pushBus a).fault = s.fault := rfl
@[simp] theorem pushBus_logTrace (a : BusAccess) : (s.pushBus a).logTrace = s.logTrace := rfl
@[simp] theorem pushBus_appTrace (a : BusAccess) : (s.pushBus a).appTrace = s.appTrace := rfl
@[simp] theorem pushBus_callTrace (a : BusAccess) : (s.pushBus a).callTrace = s.callTrace := rfl
@[simp] theorem pushBus_readTrace (a : BusAccess) : (s.pushBus a).readTrace = s.readTrace := rfl
@[simp] theorem pushBus_cfg (a : BusAccess) : (s.pushBus a).cfg = s.cfg := rfl
@[simp] theorem pushBus_port (a : BusAccess) : (s.pushBus a).port = s.port := rfl
@[simp] theorem pushBus_turns (a : BusAccess) : (s.pushBus a).turns = s.turns := rfl
@[simp] theorem pushBus_freeCount (a : BusAccess) : (s.pushBus a).freeCount = s.freeCount := rfl
@[simp] theorem pushBus_busTrace (a : BusAccess) : (s.pushBus a).busTrace = s.busTrace ++ [a] := rfl

/-! ### levelDetect -/

@[simp] theorem levelDetect_lines : s.levelDetect.lines = s.lines := rfl
@[simp] theorem levelDetect_icActive : s.levelDetect.icActive = s.icActive := rfl
@[simp] theorem levelDetect_inIrq : s.levelDetect.inIrq = s.inIrq := rfl
@[simp] theorem levelDetect_inFiq : s.levelDetect.inFiq = s.inFiq := rfl
@[simp] theorem levelDetect_gmBusy : s.levelDetect.gmBusy = s.gmBusy := rfl
@[simp] theorem levelDetect_invokeDepth : s.levelDetect.invokeDepth = s.invokeDepth := rfl
@[simp] theorem levelDetect_gmInitialized : s.levelDetect.gmInitialized = s.gmInitialized := rfl
@[simp] theorem levelDetect_pinTable : s.levelDetect.pinTable = s.pinTable := rfl
@[simp] theorem levelDetect_pinObj : s.levelDetect.pinObj = s.pinObj := rfl
@[simp] theorem levelDetect_lev : s.levelDetect.lev = s.lev := rfl
@[simp] theorem levelDetect_eds : s.levelDetect.eds = s.eds ||| levelPins s.lev s.hen s.len := rfl
@[simp] theorem levelDetect_ren : s.levelDetect.ren = s.ren := rfl
@[simp] theorem levelDetect_fen : s.levelDetect.fen = s.fen := rfl
@[simp] theorem levelDetect_hen : s.levelDetect.hen = s.hen := rfl
@[simp] theorem levelDetect_len : s.levelDetect.len = s.len := rfl
@[simp] theorem levelDetect_aren : s.levelDetect.aren = s.aren := rfl
@[simp] theorem levelDetect_afen : s.levelDetect.afen = s.afen := rfl
@[simp] theorem levelDetect_fsel : s.levelDetect.fsel = s.fsel := rfl
@[simp] theorem levelDetect_pud : s.levelDetect.pud = s.pud := rfl
@[simp] theorem levelDetect_pudclk : s.levelDetect.pudclk = s.pudclk := rfl
@[simp] theorem levelDetect_puppdn : s.levelDetect.puppdn = s.puppdn := rfl
@[simp] theorem levelDetect_pullState : s.levelDetect.pullState = s.pullState := rfl
@[simp] theorem levelDetect_enc : s.levelDetect.enc = s.enc := rfl
@[simp] theorem levelDetect_ticks : s.levelDetect.ticks = s.ticks := rfl
@[simp] theorem levelDetect_timers : s.levelDetect.timers = s.timers := rfl
@[simp] theorem levelDetect_timerSeq : s.levelDetect.timerSeq = s.timerSeq := rfl
@[simp] theorem levelDetect_fault : s.levelDetect.fault = s.fault := rfl
@[simp] theorem levelDetect_logTrace : s.levelDetect.logTrace = s.logTrace := rfl
@[simp] theorem levelDetect_appTrace : s.levelDetect.appTrace = s.appTrace := rfl
@[simp] theorem levelDetect_callTrace : s.levelDetect.callTrace = s.callTrace := rfl
@[simp] theorem levelDetect_readTrace : s.levelDetect.readTrace = s.readTrace := rfl
@[simp] theorem levelDetect_cfg : s.levelDetect.cfg = s.cfg := rfl
@[simp] theorem levelDetect_port : s.levelDetect.port = s.port := rfl
@[simp] theorem levelDetect_turns : s.levelDetect.turns = s.turns := rfl
@[simp] theorem levelDetect_freeCount : s.levelDetect.freeCount = s.freeCount := rfl
@[simp] theorem levelDetect_busTrace : s.levelDetect.busTrace = s.busTrace := rfl

/-! ### writeEnable -/

@[simp] theorem writeEnable_lines (w : Nat) (v : Word) (b : Bool) :
    (s.writeEnable w v b).lines = s.lines.mapIdx fun id l => if idBit w v id then { l with enable := b } else l := rfl
@[simp] theorem writeEnable_icActive (w : Nat) (v : Word) (b : Bool) :
    (s.writeEnable w v b).icActive = s.icActive := rfl
@[simp] theorem writeEnable_inIrq (w : Nat) (v : Word) (b : Bool) : (s.writeEnable w v b).inIrq = s.inIrq := rfl
@[simp] theorem writeEnable_inFiq (w : Nat) (v : Word) (b : Bool) : (s.writeEnable w v b).inFiq = s.inFiq := rfl
@[simp] theorem writeEnable_gmBusy (w : Nat) (v : Word) (b : Bool) : (s.writeEnable w v b).gmBusy = s.gmBusy := rfl
@[simp] theorem writeEnable_invokeDepth (w : Nat) (v : Word) (b : Bool) :
    (s.writeEnable w v b).invokeDepth = s.invokeDepth := rfl
@[simp] theorem writeEnable_gmInitialized (w : Nat) (v : Word) (b : Bool) :
    (s.writeEnable w v b).gmInitialized = s.gmInitialized := rfl
@[simp] theorem writeEnable_pinTable (w : Nat) (v : Word) (b : Bool) :
    (s.writeEnable w v b).pinTable = s.pinTable := rfl
@[simp] theorem writeEnable_pinObj (w : Nat) (v : Word) (b : Bool) : (s.writeEnable w v b).pinObj = s.pinObj := rfl
@[simp] theorem writeEnable_lev (w : Nat) (v : Word) (b : Bool) : (s.writeEnable w v b).lev = s.lev := rfl
@[simp] theorem writeEnable_eds (w : Nat) (v : Word) (b : Bool) : (s.writeEnable w v b).eds = s.eds := rfl
@[simp] theorem writeEnable_ren (w : Nat) (v : Word) (b : Bool) : (s.writeEnable w v b).ren = s.ren := rfl
@[simp] theorem writeEnable_fen (w : Nat) (v : Word) (b : Bool) : (s.writeEnable w v b).fen = s.fen := rfl
@[simp] theorem writeEnable_hen (w : Nat) (v : Word) (b : Bool) : (s.writeEnable w v b).hen = s.hen := rfl
@[simp] theorem writeEnable_len (w : Nat) (v : Word) (b : Bool) : (s.writeEnable w v b).len = s.len := rfl
@[simp] theorem writeEnable_aren (w : Nat) (v : Word) (b : Bool) : (s.writeEnable w v b).aren = s.aren := rfl
@[simp] theorem writeEnable_afen (w : Nat) (v : Word) (b : Bool) : (s.writeEnable w v b).afen = s.afen := rfl
@[simp] theorem writeEnable_fsel (w : Nat) (v : Word) (b : Bool) : (s.writeEnable w v b).fsel = s.fsel := rfl
@[simp] theorem writeEnable_pud (w : Nat) (v : Word) (b : Bool) : (s.writeEnable w v b).pud = s.pud := rfl
@[simp] theorem writeEnable_pudclk (w : Nat) (v : Word) (b : Bool) : (s.writeEnable w v b).pudclk = s.pudclk := rfl
@[simp] theorem writeEnable_puppdn (w : Nat) (v : Word) (b : Bool) : (s.writeEnable w v b).puppdn = s.puppdn := rfl
@[simp] theorem writeEnable_pullState (w : Nat) (v : Word) (b : Bool) :
    (s.writeEnable w v b).pullState = s.pullState := rfl
@[simp] theorem writeEnable_enc (w : Nat) (v : Word) (b : Bool) : (s.writeEnable w v b).enc = s.enc := rfl
@[simp] theorem writeEnable_ticks (w : Nat) (v : Word) (b : Bool) : (s.writeEnable w v b).ticks = s.ticks := rfl
@[simp] theorem writeEnable_timers (w : Nat) (v : Word) (b : Bool) : (s.writeEnable w v b).timers = s.timers := rfl
@[simp] theorem writeEnable_timerSeq (w : Nat) (v : Word) (b : Bool) :
    (s.writeEnable w v b).timerSeq = s.timerSeq := rfl
@[simp] theorem writeEnable_fault (w : Nat) (v : Word) (b : Bool) : (s.writeEnable w v b).fault = s.fault := rfl
@[simp] theorem writeEnable_logTrace (w : Nat) (v : Word) (b : Bool) :
    (s.writeEnable w v b).logTrace = s.logTrace := rfl
@[simp] theorem writeEnable_appTrace (w : Nat) (v : Word) (b : Bool) :
    (s.writeEnable w v b).appTrace = s.appTrace := rfl
@[simp] theorem writeEnable_callTrace (w : Nat) (v : Word) (b : Bool) :
    (s.writeEnable w v b).callTrace = s.callTrace := rfl
@[simp] theorem writeEnable_readTrace (w : Nat) (v : Word) (b : Bool) :
    (s.writeEnable w v b).readTrace = s.readTrace := rfl
@[simp] theorem writeEnable_cfg (w : Nat) (v : Word) (b : Bool) : (s.writeEnable w v b).cfg = s.cfg := rfl
@[simp] theorem writeEnable_port (w : Nat) (v : Word) (b : Bool) : (s.writeEnable w v b).port = s.port := rfl
@[simp] theorem writeEnable_turns (w : Nat) (v : Word) (b : Bool) : (s.writeEnable w v b).turns = s.turns := rfl
@[simp] theorem writeEnable_freeCount (w : Nat) (v : Word) (b : Bool) :
    (s.writeEnable w v b).freeCount = s.freeCount := rfl
@[simp] theorem writeEnable_busTrace (w : Nat) (v : Word) (b : Bool) :
    (s.writeEnable w v b).busTrace = s.busTrace := rfl

/-! ### setLine -/

@[simp] theorem setLine_lines (id : Nat) (f : IrqLine → IrqLine) : (s.setLine id f).lines = s.lines.modify id f := rfl
@[simp] theorem setLine_icActive (id : Nat) (f : IrqLine → IrqLine) : (s.setLine id f).icActive = s.icActive := rfl
@[simp] theorem setLine_inIrq (id : Nat) (f : IrqLine → IrqLine) : (s.setLine id f).inIrq = s.inIrq := rfl
@[simp] theorem setLine_inFiq (id : Nat) (f : IrqLine → IrqLine) : (s.setLine id f).inFiq = s.inFiq := rfl
@[simp] theorem setLine_gmBusy (id : Nat) (f : IrqLine → IrqLine) : (s.setLine id f).gmBusy = s.gmBusy := rfl
@[simp] theorem setLine_invokeDepth (id : Nat) (f : IrqLine → IrqLine) :
    (s.setLine id f).invokeDepth = s.invokeDepth := rfl
@[simp] theorem setLine_gmInitialized (id : Nat) (f : IrqLine → IrqLine) :
    (s.setLine id f).gmInitialized = s.gmInitialized := rfl
@[simp] theorem setLine_pinTable (id : Nat) (f : IrqLine → IrqLine) : (s.setLine id f).pinTable = s.pinTable := rfl
@[simp] theorem setLine_pinObj (id : Nat) (f : IrqLine → IrqLine) : (s.setLine id f).pinObj = s.pinObj := rfl
@[simp] theorem setLine_lev (id : Nat) (f : IrqLine → IrqLine) : (s.setLine id f).lev = s.lev := rfl
@[simp] theorem setLine_eds (id : Nat) (f : IrqLine → IrqLine) : (s.setLine id f).eds = s.eds := rfl
@[simp] theorem setLine_ren (id : Nat) (f : IrqLine → IrqLine) : (s.setLine id f).ren = s.ren := rfl
@[simp] theorem setLine_fen (id : Nat) (f : IrqLine → IrqLine) : (s.setLine id f).fen = s.fen := rfl
@[simp] theorem setLine_hen (id : Nat) (f : IrqLine → IrqLine) : (s.setLine id f).hen = s.hen := rfl
@[simp] theorem setLine_len (id : Nat) (f : IrqLine → IrqLine) : (s.setLine id f).len = s.len := rfl
@[simp] theorem setLine_aren (id : Nat) (f : IrqLine → IrqLine) : (s.setLine id f).aren = s.aren := rfl
@[simp] theorem setLine_afen (id : Nat) (f : IrqLine → IrqLine) : (s.setLine id f).afen = s.afen := rfl
@[simp] theorem setLine_fsel (id : Nat) (f : IrqLine → IrqLine) : (s.setLine id f).fsel = s.fsel := rfl
@[simp] theorem setLine_pud (id : Nat) (f : IrqLine → IrqLine) : (s.setLine id f).pud = s.pud := rfl
@[simp] theorem setLine_pudclk (id : Nat) (f : IrqLine → IrqLine) : (s.setLine id f).pudclk = s.pudclk := rfl
@[simp] theorem setLine_puppdn (id : Nat) (f : IrqLine → IrqLine) : (s.setLine id f).puppdn = s.puppdn := rfl
@[simp] theorem setLine_pullState (id : Nat) (f : IrqLine → IrqLine) : (s.setLine id f).pullState = s.pullState := rfl
@[simp] theorem setLine_enc (id : Nat) (f : IrqLine → IrqLine) : (s.setLine id f).enc = s.enc := rfl
@[simp] theorem setLine_ticks (id : Nat) (f : IrqLine → IrqLine) : (s.setLine id f).ticks = s.ticks := rfl
@[simp] theorem setLine_timers (id : Nat) (f : IrqLine → IrqLine) : (s.setLine id f).timers = s.timers := rfl
@[simp] theorem setLine_timerSeq (id : Nat) (f : IrqLine → IrqLine) : (s.setLine id f).timerSeq = s.timerSeq := rfl
@[simp] theorem setLine_fault (id : Nat) (f : IrqLine → IrqLine) : (s.setLine id f).fault = s.fault := rfl
@[simp] theorem setLine_logTrace (id : Nat) (f : IrqLine → IrqLine) : (s.setLine id f).logTrace = s.logTrace := rfl
@[simp] theorem setLine_appTrace (id : Nat) (f : IrqLine → IrqLine) : (s.setLine id f).appTrace = s.appTrace := rfl
@[simp] theorem setLine_callTrace (id : Nat) (f : IrqLine → IrqLine) : (s.setLine id f).callTrace = s.callTrace := rfl
@[simp] theorem setLine_readTrace (id : Nat) (f : IrqLine → IrqLine) : (s.setLine id f).readTrace = s.readTrace := rfl
@[simp] theorem setLine_cfg (id : Nat) (f : IrqLine → IrqLine) : (s.setLine id f).cfg = s.cfg := rfl
@[simp] theorem setLine_port (id : Nat) (f : IrqLine → IrqLine) : (s.setLine id f).port = s.port := rfl
@[simp] theorem setLine_turns (id : Nat) (f : IrqLine → IrqLine) : (s.setLine id f).turns = s.turns := rfl
@[simp] theorem setLine_freeCount (id : Nat) (f : IrqLine → IrqLine) : (s.setLine id f).freeCount = s.freeCount := rfl
@[simp] theorem setLine_busTrace (id : Nat) (f : IrqLine → IrqLine) : (s.setLine id f).busTrace = s.busTrace := rfl

/-! ### setObj -/

@[simp] theorem setObj_lines (o : Nat) (p : PinObj) : (s.setObj o p).lines = s.lines := rfl
@[simp] theorem setObj_icActive (o : Nat) (p : PinObj) : (s.setObj o p).icActive = s.icActive := rfl
@[simp] theorem setObj_inIrq (o : Nat) (p : PinObj) : (s.setObj o p).inIrq = s.inIrq := rfl
@[simp] theorem setObj_inFiq (o : Nat) (p : PinObj) : (s.setObj o p).inFiq = s.inFiq := rfl
@[simp] theorem setObj_gmBusy (o : Nat) (p : PinObj) : (s.setObj o p).gmBusy = s.gmBusy := rfl
@[simp] theorem setObj_invokeDepth (o : Nat) (p : PinObj) : (s.setObj o p).invokeDepth = s.invokeDepth := rfl
@[simp] theorem setObj_gmInitialized (o : Nat) (p : PinObj) : (s.setObj o p).gmInitialized = s.gmInitialized := rfl
@[simp] theorem setObj_pinTable (o : Nat) (p : PinObj) : (s.setObj o p).pinTable = s.pinTable := rfl
@[simp] theorem setObj_pinObj (o : Nat) (p : PinObj) : (s.setObj o p).pinObj = s.pinObj.set o p := rfl
@[simp] theorem setObj_lev (o : Nat) (p : PinObj) : (s.setObj o p).lev = s.lev := rfl
@[simp] theorem setObj_eds (o : Nat) (p : PinObj) : (s.setObj o p).eds = s.eds := rfl
@[simp] theorem setObj_ren (o : Nat) (p : PinObj) : (s.setObj o p).ren = s.ren := rfl
@[simp] theorem setObj_fen (o : Nat) (p : PinObj) : (s.setObj o p).fen = s.fen := rfl
@[simp] theorem setObj_hen (o : Nat) (p : PinObj) : (s.setObj o p).hen = s.hen := rfl
@[simp] theorem setObj_len (o : Nat) (p : PinObj) : (s.setObj o p).len = s.len := rfl
@[simp] theorem setObj_aren (o : Nat) (p : PinObj) : (s.setObj o p).aren = s.aren := rfl
@[simp] theorem setObj_afen (o : Nat) (p : PinObj) : (s.setObj o p).afen = s.afen := rfl
@[simp] theorem setObj_fsel (o : Nat) (p : PinObj) : (s.setObj o p).fsel = s.fsel := rfl
@[simp] theorem setObj_pud (o : Nat) (p : PinObj) : (s.setObj o p).pud = s.pud := rfl
@[simp] theorem setObj_pudclk (o : Nat) (p : PinObj) : (s.setObj o p).pudclk = s.pudclk := rfl
@[simp] theorem setObj_puppdn (o : Nat) (p : PinObj) : (s.setObj o p).puppdn = s.puppdn := rfl
@[simp] theorem setObj_pullState (o : Nat) (p : PinObj) : (s.setObj o p).pullState = s.pullState := rfl
@[simp] theorem setObj_enc (o : Nat) (p : PinObj) : (s.setObj o p).enc = s.enc := rfl
@[simp] theorem setObj_ticks (o : Nat) (p : PinObj) : (s.setObj o p).ticks = s.ticks := rfl
@[simp] theorem setObj_timers (o : Nat) (p : PinObj) : (s.setObj o p).timers = s.timers := rfl
@[simp] theorem setObj_timerSeq (o : Nat) (p : PinObj) : (s.setObj o p).timerSeq = s.timerSeq := rfl
@[simp] theorem setObj_fault (o : Nat) (p : PinObj) : (s.setObj o p).fault = s.fault := rfl
@[simp] theorem setObj_logTrace (o : Nat) (p : PinObj) : (s.setObj o p).logTrace = s.logTrace := rfl
@[simp] theorem setObj_appTrace (o : Nat) (p : PinObj) : (s.setObj o p).appTrace = s.appTrace := rfl
@[simp] theorem setObj_callTrace (o : Nat) (p : PinObj) : (s.setObj o p).callTrace = s.callTrace := rfl
@[simp] theorem setObj_readTrace (o : Nat) (p : PinObj) : (s.setObj o p).readTrace = s.readTrace := rfl
@[simp] theorem setObj_cfg (o : Nat) (p : PinObj) : (s.setObj o p).cfg = s.cfg := rfl
@[simp] theorem setObj_port (o : Nat) (p : PinObj) : (s.setObj o p).port = s.port := rfl
@[simp] theorem setObj_turns (o : Nat) (p : PinObj) : (s.setObj o p).turns = s.turns := rfl
@[simp] theorem setObj_freeCount (o : Nat) (p : PinObj) : (s.setObj o p).freeCount = s.freeCount := rfl
@[simp] theorem setObj_busTrace (o : Nat) (p : PinObj) : (s.setObj o p).busTrace = s.busTrace := rfl

/-! ### setSlot -/

@[simp] theorem setSlot_lines (n : PinNo) (v : Option Nat) : (s.setSlot n v).lines = s.lines := rfl
@[simp] theorem setSlot_icActive (n : PinNo) (v : Option Nat) : (s.setSlot n v).icActive = s.icActive := rfl
@[simp] theorem setSlot_inIrq (n : PinNo) (v : Option Nat) : (s.setSlot n v).inIrq = s.inIrq := rfl
@[simp] theorem setSlot_inFiq (n : PinNo) (v : Option Nat) : (s.setSlot n v).inFiq = s.inFiq := rfl
@[simp] theorem setSlot_gmBusy (n : PinNo) (v : Option Nat) : (s.setSlot n v).gmBusy = s.gmBusy := rfl
@[simp] theorem setSlot_invokeDepth (n : PinNo) (v : Option Nat) : (s.setSlot n v).invokeDepth = s.invokeDepth := rfl
@[simp] theorem setSlot_gmInitialized (n : PinNo) (v : Option Nat) :
    (s.setSlot n v).gmInitialized = s.gmInitialized := rfl
@[simp] theorem setSlot_pinTable (n : PinNo) (v : Option Nat) : (s.setSlot n v).pinTable = s.pinTable.set n v := rfl
@[simp] theorem setSlot_pinObj (n : PinNo) (v : Option Nat) : (s.setSlot n v).pinObj = s.pinObj := rfl
@[simp] theorem setSlot_lev (n : PinNo) (v : Option Nat) : (s.setSlot n v).lev = s.lev := rfl
@[simp] theorem setSlot_eds (n : PinNo) (v : Option Nat) : (s.setSlot n v).eds = s.eds := rfl
@[simp] theorem setSlot_ren (n : PinNo) (v : Option Nat) : (s.setSlot n v).ren = s.ren := rfl
@[simp] theorem setSlot_fen (n : PinNo) (v : Option Nat) : (s.setSlot n v).fen = s.fen := rfl
@[simp] theorem setSlot_hen (n : PinNo) (v : Option Nat) : (s.setSlot n v).hen = s.hen := rfl
@[simp] theorem setSlot_len (n : PinNo) (v : Option Nat) : (s.setSlot n v).len = s.len := rfl
@[simp] theorem setSlot_aren (n : PinNo) (v : Option Nat) : (s.setSlot n v).aren = s.aren := rfl
@[simp] theorem setSlot_afen (n : PinNo) (v : Option Nat) : (s.setSlot n v).afen = s.afen := rfl
@[simp] theorem setSlot_fsel (n : PinNo) (v : Option Nat) : (s.setSlot n v).fsel = s.fsel := rfl
@[simp] theorem setSlot_pud (n : PinNo) (v : Option Nat) : (s.setSlot n v).pud = s.pud := rfl
@[simp] theorem setSlot_pudclk (n : PinNo) (v : Option Nat) : (s.setSlot n v).pudclk = s.pudclk := rfl
@[simp] theorem setSlot_puppdn (n : PinNo) (v : Option Nat) : (s.setSlot n v).puppdn = s.puppdn := rfl
@[simp] theorem setSlot_pullState (n : PinNo) (v : Option Nat) : (s.setSlot n v).pullState = s.pullState := rfl
@[simp] theorem setSlot_enc (n : PinNo) (v : Option Nat) : (s.setSlot n v).enc = s.enc := rfl
@[simp] theorem setSlot_ticks (n : PinNo) (v : Option Nat) : (s.setSlot n v).ticks = s.ticks := rfl
@[simp] theorem setSlot_timers (n : PinNo) (v : Option Nat) : (s.setSlot n v).timers = s.timers := rfl
@[simp] theorem setSlot_timerSeq (n : PinNo) (v : Option Nat) : (s.setSlot n v).timerSeq = s.timerSeq := rfl
@[simp] theorem setSlot_fault (n : PinNo) (v : Option Nat) : (s.setSlot n v).fault = s.fault := rfl
@[simp] theorem setSlot_logTrace (n : PinNo) (v : Option Nat) : (s.setSlot n v).logTrace = s.logTrace := rfl
@[simp] theorem setSlot_appTrace (n : PinNo) (v : Option Nat) : (s.setSlot n v).appTrace = s.appTrace := rfl
@[simp] theorem setSlot_callTrace (n : PinNo) (v : Option Nat) : (s.setSlot n v).callTrace = s.callTrace := rfl
@[simp] theorem setSlot_readTrace (n : PinNo) (v : Option Nat) : (s.setSlot n v).readTrace = s.readTrace := rfl
@[simp] theorem setSlot_cfg (n : PinNo) (v : Option Nat) : (s.setSlot n v).cfg = s.cfg := rfl
@[simp] theorem setSlot_port (n : PinNo) (v : Option Nat) : (s.setSlot n v).port = s.port := rfl
@[simp] theorem setSlot_turns (n : PinNo) (v : Option Nat) : (s.setSlot n v).turns = s.turns := rfl
@[simp] theorem setSlot_freeCount (n : PinNo) (v : Option Nat) : (s.setSlot n v).freeCount = s.freeCount := rfl
@[simp] theorem setSlot_busTrace (n : PinNo) (v : Option Nat) : (s.setSlot n v).busTrace = s.busTrace := rfl

/-! ### setEnc -/

@[simp] theorem setEnc_lines (f : Enc → Enc) : (s.setEnc f).lines = s.lines := rfl
@[simp] theorem setEnc_icActive (f : Enc → Enc) : (s.setEnc f).icActive = s.icActive := rfl
@[simp] theorem setEnc_inIrq (f : Enc → Enc) : (s.setEnc f).inIrq = s.inIrq := rfl
@[simp] theorem setEnc_inFiq (f : Enc → Enc) : (s.setEnc f).inFiq = s.inFiq := rfl
@[simp] theorem setEnc_gmBusy (f : Enc → Enc) : (s.setEnc f).gmBusy = s.gmBusy := rfl
@[simp] theorem setEnc_invokeDepth (f : Enc → Enc) : (s.setEnc f).invokeDepth = s.invokeDepth := rfl
@[simp] theorem setEnc_gmInitialized (f : Enc → Enc) : (s.setEnc f).gmInitialized = s.gmInitialized := rfl
@[simp] theorem setEnc_pinTable (f : Enc → Enc) : (s.setEnc f).pinTable = s.pinTable := rfl
@[simp] theorem setEnc_pinObj (f : Enc → Enc) : (s.setEnc f).pinObj = s.pinObj := rfl
@[simp] theorem setEnc_lev (f : Enc → Enc) : (s.setEnc f).lev = s.lev := rfl
@[simp] theorem setEnc_eds (f : Enc → Enc) : (s.setEnc f).eds = s.eds := rfl
@[simp] theorem setEnc_ren (f : Enc → Enc) : (s.setEnc f).ren = s.ren := rfl
@[simp] theorem setEnc_fen (f : Enc → Enc) : (s.setEnc f).fen = s.fen := rfl
@[simp] theorem setEnc_hen (f : Enc → Enc) : (s.setEnc f).hen = s.hen := rfl
@[simp] theorem setEnc_len (f : Enc → Enc) : (s.setEnc f).len = s.len := rfl
@[simp] theorem setEnc_aren (f : Enc → Enc) : (s.setEnc f).aren = s.aren := rfl
@[simp] theorem setEnc_afen (f : Enc → Enc) : (s.setEnc f).afen = s.afen := rfl
@[simp] theorem setEnc_fsel (f : Enc → Enc) : (s.setEnc f).fsel = s.fsel := rfl
@[simp] theorem setEnc_pud (f : Enc → Enc) : (s.setEnc f).pud = s.pud := rfl
@[simp] theorem setEnc_pudclk (f : Enc → Enc) : (s.setEnc f).pudclk = s.pudclk := rfl
@[simp] theorem setEnc_puppdn (f : Enc → Enc) : (s.setEnc f).puppdn = s.puppdn := rfl
@[simp] theorem setEnc_pullState (f : Enc → Enc) : (s.setEnc f).pullState = s.pullState := rfl
@[simp] theorem setEnc_enc (f : Enc → Enc) : (s.setEnc f).enc = f s.enc := rfl
@[simp] theorem setEnc_ticks (f : Enc → Enc) : (s.setEnc f).ticks = s.ticks := rfl
@[simp] theorem setEnc_timers (f : Enc → Enc) : (s.setEnc f).timers = s.timers := rfl
@[simp] theorem setEnc_timerSeq (f : Enc → Enc) : (s.setEnc f).timerSeq = s.timerSeq := rfl
@[simp] theorem setEnc_fault (f : Enc → Enc) : (s.setEnc f).fault = s.fault := rfl
@[simp] theorem setEnc_logTrace (f : Enc → Enc) : (s.setEnc f).logTrace = s.logTrace := rfl
@[simp] theorem setEnc_appTrace (f : Enc → Enc) : (s.setEnc f).appTrace = s.appTrace := rfl
@[simp] theorem setEnc_callTrace (f : Enc → Enc) : (s.setEnc f).callTrace = s.callTrace := rfl
@[simp] theorem setEnc_readTrace (f : Enc → Enc) : (s.setEnc f).readTrace = s.readTrace := rfl
@[simp] theorem setEnc_cfg (f : Enc → Enc) : (s.setEnc f).cfg = s.cfg := rfl
@[simp] theorem setEnc_port (f : Enc → Enc) : (s.setEnc f).port = s.port := rfl
@[simp] theorem setEnc_turns (f : Enc → Enc) : (s.setEnc f).turns = s.turns := rfl
@[simp] theorem setEnc_freeCount (f : Enc → Enc) : (s.setEnc f).freeCount = s.freeCount := rfl
@[simp] theorem setEnc_busTrace (f : Enc → Enc) : (s.setEnc f).busTrace = s.busTrace := rfl

/-! ### log -/

@[simp] theorem log_lines (c : LogCode) (a : Nat) : (s.log c a).lines = s.lines := rfl
@[simp] theorem log_icActive (c : LogCode) (a : Nat) : (s.log c a).icActive = s.icActive := rfl
@[simp] theorem log_inIrq (c : LogCode) (a : Nat) : (s.log c a).inIrq = s.inIrq := rfl
@[simp] theorem log_inFiq (c : LogCode) (a : Nat) : (s.log c a).inFiq = s.inFiq := rfl
@[simp] theorem log_gmBusy (c : LogCode) (a : Nat) : (s.log c a).gmBusy = s.gmBusy := rfl
@[simp] theorem log_invokeDepth (c : LogCode) (a : Nat) : (s.log c a).invokeDepth = s.invokeDepth := rfl
@[simp] theorem log_gmInitialized (c : LogCode) (a : Nat) : (s.log c a).gmInitialized = s.gmInitialized := rfl
@[simp] theorem log_pinTable (c : LogCode) (a : Nat) : (s.log c a).pinTable = s.pinTable := rfl
@[simp] theorem log_pinObj (c : LogCode) (a : Nat) : (s.log c a).pinObj = s.pinObj := rfl
@[simp] theorem log_lev (c : LogCode) (a : Nat) : (s.log c a).lev = s.lev := rfl
@[simp] theorem log_eds (c : LogCode) (a : Nat) : (s.log c a).eds = s.eds := rfl
@[simp] theorem log_ren (c : LogCode) (a : Nat) : (s.log c a).ren = s.ren := rfl
@[simp] theorem log_fen (c : LogCode) (a : Nat) : (s.log c a).fen = s.fen := rfl
@[simp] theorem log_hen (c : LogCode) (a : Nat) : (s.log c a).hen = s.hen := rfl
@[simp] theorem log_len (c : LogCode) (a : Nat) : (s.log c a).len = s.len := rfl
@[simp] theorem log_aren (c : LogCode) (a : Nat) : (s.log c a).aren = s.aren := rfl
@[simp] theorem log_afen (c : LogCode) (a : Nat) : (s.log c a).afen = s.afen := rfl
@[simp] theorem log_fsel (c : LogCode) (a : Nat) : (s.log c a).fsel = s.fsel := rfl
@[simp] theorem log_pud (c : LogCode) (a : Nat) : (s.log c a).pud = s.pud := rfl
@[simp] theorem log_pudclk (c : LogCode) (a : Nat) : (s.log c a).pudclk = s.pudclk := rfl
@[simp] theorem log_puppdn (c : LogCode) (a : Nat) : (s.log c a).puppdn = s.puppdn := rfl
@[simp] theorem log_pullState (c : LogCode) (a : Nat) : (s.log c a).pullState = s.pullState := rfl
@[simp] theorem log_enc (c : LogCode) (a : Nat) : (s.log c a).enc = s.enc := rfl
@[simp] theorem log_ticks (c : LogCode) (a : Nat) : (s.log c a).ticks = s.ticks := rfl
@[simp] theorem log_timers (c : LogCode) (a : Nat) : (s.log c a).timers = s.timers := rfl
@[simp] theorem log_timerSeq (c : LogCode) (a : Nat) : (s.log c a).timerSeq = s.timerSeq := rfl
@[simp] theorem log_fault (c : LogCode) (a : Nat) : (s.log c a).fault = s.fault := rfl
@[simp] theorem log_logTrace (c : LogCode) (a : Nat) : (s.log c a).logTrace = s.logTrace ++ [⟨c, a⟩] := rfl
@[simp] theorem log_appTrace (c : LogCode) (a : Nat) : (s.log c a).appTrace = s.appTrace := rfl
@[simp] theorem log_callTrace (c : LogCode) (a : Nat) : (s.log c a).callTrace = s.callTrace := rfl
@[simp] theorem log_readTrace (c : LogCode) (a : Nat) : (s.log c a).readTrace = s.readTrace := rfl
@[simp] theorem log_cfg (c : LogCode) (a : Nat) : (s.log c a).cfg = s.cfg := rfl
@[simp] theorem log_port (c : LogCode) (a : Nat) : (s.log c a).port = s.port := rfl
@[simp] theorem log_turns (c : LogCode) (a : Nat) : (s.log c a).turns = s.turns := rfl
@[simp] theorem log_freeCount (c : LogCode) (a : Nat) : (s.log c a).freeCount = s.freeCount := rfl
@[simp] theorem log_busTrace (c : LogCode) (a : Nat) : (s.log c a).busTrace = s.busTrace := rfl

/-! ### raiseFault -/

@[simp] theorem raiseFault_lines (e : ErrorCode) (w : Word) : (s.raiseFault e w).lines = s.lines := rfl
@[simp] theorem raiseFault_icActive (e : ErrorCode) (w : Word) : (s.raiseFault e w).icActive = s.icActive := rfl
@[simp] theorem raiseFault_inIrq (e : ErrorCode) (w : Word) : (s.raiseFault e w).inIrq = s.inIrq := rfl
@[simp] theorem raiseFault_inFiq (e : ErrorCode) (w : Word) : (s.raiseFault e w).inFiq = s.inFiq := rfl
@[simp] theorem raiseFault_gmBusy (e : ErrorCode) (w : Word) : (s.raiseFault e w).gmBusy = s.gmBusy := rfl
@[simp] theorem raiseFault_invokeDepth (e : ErrorCode) (w : Word) :
    (s.raiseFault e w).invokeDepth = s.invokeDepth := rfl
@[simp] theorem raiseFault_gmInitialized (e : ErrorCode) (w : Word) :
    (s.raiseFault e w).gmInitialized = s.gmInitialized := rfl
@[simp] theorem raiseFault_pinTable (e : ErrorCode) (w : Word) : (s.raiseFault e w).pinTable = s.pinTable := rfl
@[simp] theorem raiseFault_pinObj (e : ErrorCode) (w : Word) : (s.raiseFault e w).pinObj = s.pinObj := rfl
@[simp] theorem raiseFault_lev (e : ErrorCode) (w : Word) : (s.raiseFault e w).lev = s.lev := rfl
@[simp] theorem raiseFault_eds (e : ErrorCode) (w : Word) : (s.raiseFault e w).eds = s.eds := rfl
@[simp] theorem raiseFault_ren (e : ErrorCode) (w : Word) : (s.raiseFault e w).ren = s.ren := rfl
@[simp] theorem raiseFault_fen (e : ErrorCode) (w : Word) : (s.raiseFault e w).fen = s.fen := rfl
@[simp] theorem raiseFault_hen (e : ErrorCode) (w : Word) : (s.raiseFault e w).hen = s.hen := rfl
@[simp] theorem raiseFault_len (e : ErrorCode) (w : Word) : (s.raiseFault e w).len = s.len := rfl
@[simp] theorem raiseFault_aren (e : ErrorCode) (w : Word) : (s.raiseFault e w).aren = s.aren := rfl
@[simp] theorem raiseFault_afen (e : ErrorCode) (w : Word) : (s.raiseFault e w).afen = s.afen := rfl
@[simp] theorem raiseFault_fsel (e : ErrorCode) (w : Word) : (s.raiseFault e w).fsel = s.fsel := rfl
@[simp] theorem raiseFault_pud (e : ErrorCode) (w : Word) : (s.raiseFault e w).pud = s.pud := rfl
@[simp] theorem raiseFault_pudclk (e : ErrorCode) (w : Word) : (s.raiseFault e w).pudclk = s.pudclk := rfl
@[simp] theorem raiseFault_puppdn (e : ErrorCode) (w : Word) : (s.raiseFault e w).puppdn = s.puppdn := rfl
@[simp] theorem raiseFault_pullState (e : ErrorCode) (w : Word) : (s.raiseFault e w).pullState = s.pullState := rfl
@[simp] theorem raiseFault_enc (e : ErrorCode) (w : Word) : (s.raiseFault e w).enc = s.enc := rfl
@[simp] theorem raiseFault_ticks (e : ErrorCode) (w : Word) : (s.raiseFault e w).ticks = s.ticks := rfl
@[simp] theorem raiseFault_timers (e : ErrorCode) (w : Word) : (s.raiseFault e w).timers = s.timers := rfl
@[simp] theorem raiseFault_timerSeq (e : ErrorCode) (w : Word) : (s.raiseFault e w).timerSeq = s.timerSeq := rfl
@[simp] theorem raiseFault_fault (e : ErrorCode) (w : Word) : (s.raiseFault e w).fault = some ⟨e, w⟩ := rfl
@[simp] theorem raiseFault_logTrace (e : ErrorCode) (w : Word) : (s.raiseFault e w).logTrace = s.logTrace := rfl
@[simp] theorem raiseFault_appTrace (e : ErrorCode) (w : Word) : (s.raiseFault e w).appTrace = s.appTrace := rfl
@[simp] theorem raiseFault_callTrace (e : ErrorCode) (w : Word) : (s.raiseFault e w).callTrace = s.callTrace := rfl
@[simp] theorem raiseFault_readTrace (e : ErrorCode) (w : Word) : (s.raiseFault e w).readTrace = s.readTrace := rfl
@[simp] theorem raiseFault_cfg (e : ErrorCode) (w : Word) : (s.raiseFault e w).cfg = s.cfg := rfl
@[simp] theorem raiseFault_port (e : ErrorCode) (w : Word) : (s.raiseFault e w).port = s.port := rfl
@[simp] theorem raiseFault_turns (e : ErrorCode) (w : Word) : (s.raiseFault e w).turns = s.turns := rfl
@[simp] theorem raiseFault_freeCount (e : ErrorCode) (w : Word) : (s.raiseFault e w).freeCount = s.freeCount := rfl
@[simp] theorem raiseFault_busTrace (e : ErrorCode) (w : Word) : (s.raiseFault e w).busTrace = s.busTrace := rfl

/-! ### enterIrq -/

@[simp] theorem enterIrq_lines : s.enterIrq.lines = s.lines := rfl
@[simp] theorem enterIrq_icActive : s.enterIrq.icActive = s.icActive := rfl
@[simp] theorem enterIrq_inIrq : s.enterIrq.inIrq = true := rfl
@[simp] theorem enterIrq_inFiq : s.enterIrq.inFiq = s.inFiq := rfl
@[simp] theorem enterIrq_gmBusy : s.enterIrq.gmBusy = s.gmBusy := rfl
@[simp] theorem enterIrq_invokeDepth : s.enterIrq.invokeDepth = s.invokeDepth := rfl
@[simp] theorem enterIrq_gmInitialized : s.enterIrq.gmInitialized = s.gmInitialized := rfl
@[simp] theorem enterIrq_pinTable : s.enterIrq.pinTable = s.pinTable := rfl
@[simp] theorem enterIrq_pinObj : s.enterIrq.pinObj = s.pinObj := rfl
@[simp] theorem enterIrq_lev : s.enterIrq.lev = s.lev := rfl
@[simp] theorem enterIrq_eds : s.enterIrq.eds = s.eds := rfl
@[simp] theorem enterIrq_ren : s.enterIrq.ren = s.ren := rfl
@[simp] theorem enterIrq_fen : s.enterIrq.fen = s.fen := rfl
@[simp] theorem enterIrq_hen : s.enterIrq.hen = s.hen := rfl
@[simp] theorem enterIrq_len : s.enterIrq.len = s.len := rfl
@[simp] theorem enterIrq_aren : s.enterIrq.aren = s.aren := rfl
@[simp] theorem enterIrq_afen : s.enterIrq.afen = s.afen := rfl
@[simp] theorem enterIrq_fsel : s.enterIrq.fsel = s.fsel := rfl
@[simp] theorem enterIrq_pud : s.enterIrq.pud = s.pud := rfl
@[simp] theorem enterIrq_pudclk : s.enterIrq.pudclk = s.pudclk := rfl
@[simp] theorem enterIrq_puppdn : s.enterIrq.puppdn = s.puppdn := rfl
@[simp] theorem enterIrq_pullState : s.enterIrq.pullState = s.pullState := rfl
@[simp] theorem enterIrq_enc : s.enterIrq.enc = s.enc := rfl
@[simp] theorem enterIrq_ticks : s.enterIrq.ticks = s.ticks := rfl
@[simp] theorem enterIrq_timers : s.enterIrq.timers = s.timers := rfl
@[simp] theorem enterIrq_timerSeq : s.enterIrq.timerSeq = s.timerSeq := rfl
@[simp] theorem enterIrq_fault : s.enterIrq.fault = s.fault := rfl
@[simp] theorem enterIrq_logTrace : s.enterIrq.logTrace = s.logTrace := rfl
@[simp] theorem enterIrq_appTrace : s.enterIrq.appTrace = s.appTrace := rfl
@[simp] theorem enterIrq_callTrace : s.enterIrq.callTrace = s.callTrace := rfl
@[simp] theorem enterIrq_readTrace : s.enterIrq.readTrace = s.readTrace := rfl
@[simp] theorem enterIrq_cfg : s.enterIrq.cfg = s.cfg := rfl
@[simp] theorem enterIrq_port : s.enterIrq.port = s.port := rfl
@[simp] theorem enterIrq_turns : s.enterIrq.turns = s.turns := rfl
@[simp] theorem enterIrq_freeCount : s.enterIrq.freeCount = s.freeCount := rfl
@[simp] theorem enterIrq_busTrace : s.enterIrq.busTrace = s.busTrace := rfl

/-! ### leaveIrq -/

@[simp] theorem leaveIrq_lines : s.leaveIrq.lines = s.lines := rfl
@[simp] theorem leaveIrq_icActive : s.leaveIrq.icActive = s.icActive := rfl
@[simp] theorem leaveIrq_inIrq : s.leaveIrq.inIrq = false := rfl
@[simp] theorem leaveIrq_inFiq : s.leaveIrq.inFiq = s.inFiq := rfl
@[simp] theorem leaveIrq_gmBusy : s.leaveIrq.gmBusy = s.gmBusy := rfl
@[simp] theorem leaveIrq_invokeDepth : s.leaveIrq.invokeDepth = s.invokeDepth := rfl
@[simp] theorem leaveIrq_gmInitialized : s.leaveIrq.gmInitialized = s.gmInitialized := rfl
@[simp] theorem leaveIrq_pinTable : s.leaveIrq.pinTable = s.pinTable := rfl
@[simp] theorem leaveIrq_pinObj : s.leaveIrq.pinObj = s.pinObj := rfl
@[simp] theorem leaveIrq_lev : s.leaveIrq.lev = s.lev := rfl
@[simp] theorem leaveIrq_eds : s.leaveIrq.eds = s.eds := rfl
@[simp] theorem leaveIrq_ren : s.leaveIrq.ren = s.ren := rfl
@[simp] theorem leaveIrq_fen : s.leaveIrq.fen = s.fen := rfl
@[simp] theorem leaveIrq_hen : s.leaveIrq.hen = s.hen := rfl
@[simp] theorem leaveIrq_len : s.leaveIrq.len = s.len := rfl
@[simp] theorem leaveIrq_aren : s.leaveIrq.aren = s.aren := rfl
@[simp] theorem leaveIrq_afen : s.leaveIrq.afen = s.afen := rfl
@[simp] theorem leaveIrq_fsel : s.leaveIrq.fsel = s.fsel := rfl
@[simp] theorem leaveIrq_pud : s.leaveIrq.pud = s.pud := rfl
@[simp] theorem leaveIrq_pudclk : s.leaveIrq.pudclk = s.pudclk := rfl
@[simp] theorem leaveIrq_puppdn : s.leaveIrq.puppdn = s.puppdn := rfl
@[simp] theorem leaveIrq_pullState : s.leaveIrq.pullState = s.pullState := rfl
@[simp] theorem leaveIrq_enc : s.leaveIrq.enc = s.enc := rfl
@[simp] theorem leaveIrq_ticks : s.leaveIrq.ticks = s.ticks := rfl
@[simp] theorem leaveIrq_timers : s.leaveIrq.timers = s.timers := rfl
@[simp] theorem leaveIrq_timerSeq : s.leaveIrq.timerSeq = s.timerSeq := rfl
@[simp] theorem leaveIrq_fault : s.leaveIrq.fault = s.fault := rfl
@[simp] theorem leaveIrq_logTrace : s.leaveIrq.logTrace = s.logTrace := rfl
@[simp] theorem leaveIrq_appTrace : s.leaveIrq.appTrace = s.appTrace := rfl
@[simp] theorem leaveIrq_callTrace : s.leaveIrq.callTrace = s.callTrace := rfl
@[simp] theorem leaveIrq_readTrace : s.leaveIrq.readTrace = s.readTrace := rfl
@[simp] theorem leaveIrq_cfg : s.leaveIrq.cfg = s.cfg := rfl
@[simp] theorem leaveIrq_port : s.leaveIrq.port = s.port := rfl
@[simp] theorem leaveIrq_turns : s.leaveIrq.turns = s.turns := rfl
@[simp] theorem leaveIrq_freeCount : s.leaveIrq.freeCount = s.freeCount := rfl
@[simp] theorem leaveIrq_busTrace : s.leaveIrq.busTrace = s.busTrace := rfl

/-! ### enterFiq -/

@[simp] theorem enterFiq_lines : s.enterFiq.lines = s.lines := rfl
@[simp] theorem enterFiq_icActive : s.enterFiq.icActive = s.icActive := rfl
@[simp] theorem enterFiq_inIrq : s.enterFiq.inIrq = s.inIrq := rfl
@[simp] theorem enterFiq_inFiq : s.enterFiq.inFiq = true := rfl
@[simp] theorem enterFiq_gmBusy : s.enterFiq.gmBusy = s.gmBusy := rfl
@[simp] theorem enterFiq_invokeDepth : s.enterFiq.invokeDepth = s.invokeDepth := rfl
@[simp] theorem enterFiq_gmInitialized : s.enterFiq.gmInitialized = s.gmInitialized := rfl
@[simp] theorem enterFiq_pinTable : s.enterFiq.pinTable = s.pinTable := rfl
@[simp] theorem enterFiq_pinObj : s.enterFiq.pinObj = s.pinObj := rfl
@[simp] theorem enterFiq_lev : s.enterFiq.lev = s.lev := rfl
@[simp] theorem enterFiq_eds : s.enterFiq.eds = s.eds := rfl
@[simp] theorem enterFiq_ren : s.enterFiq.ren = s.ren := rfl
@[simp] theorem enterFiq_fen : s.enterFiq.fen = s.fen := rfl
@[simp] theorem enterFiq_hen : s.enterFiq.hen = s.hen := rfl
@[simp] theorem enterFiq_len : s.enterFiq.len = s.len := rfl
@[simp] theorem enterFiq_aren : s.enterFiq.aren = s.aren := rfl
@[simp] theorem enterFiq_afen : s.enterFiq.afen = s.afen := rfl
@[simp] theorem enterFiq_fsel : s.enterFiq.fsel = s.fsel := rfl
@[simp] theorem enterFiq_pud : s.enterFiq.pud = s.pud := rfl
@[simp] theorem enterFiq_pudclk : s.enterFiq.pudclk = s.pudclk := rfl
@[simp] theorem enterFiq_puppdn : s.enterFiq.puppdn = s.puppdn := rfl
@[simp] theorem enterFiq_pullState : s.enterFiq.pullState = s.pullState := rfl
@[simp] theorem enterFiq_enc : s.enterFiq.enc = s.enc := rfl
@[simp] theorem enterFiq_ticks : s.enterFiq.ticks = s.ticks := rfl
@[simp] theorem enterFiq_timers : s.enterFiq.timers = s.timers := rfl
@[simp] theorem enterFiq_timerSeq : s.enterFiq.timerSeq = s.timerSeq := rfl
@[simp] theorem enterFiq_fault : s.enterFiq.fault = s.fault := rfl
@[simp] theorem enterFiq_logTrace : s.enterFiq.logTrace = s.logTrace := rfl
@[simp] theorem enterFiq_appTrace : s.enterFiq.appTrace = s.appTrace := rfl
@[simp] theorem enterFiq_callTrace : s.enterFiq.callTrace = s.callTrace := rfl
@[simp] theorem enterFiq_readTrace : s.enterFiq.readTrace = s.readTrace := rfl
@[simp] theorem enterFiq_cfg : s.enterFiq.cfg = s.cfg := rfl
@[simp] theorem enterFiq_port : s.enterFiq.port = s.port := rfl
@[simp] theorem enterFiq_turns : s.enterFiq.turns = s.turns := rfl
@[simp] theorem enterFiq_freeCount : s.enterFiq.freeCount = s.freeCount := rfl
@[simp] theorem enterFiq_busTrace : s.enterFiq.busTrace = s.busTrace := rfl

/-! ### leaveFiq -/

@[simp] theorem leaveFiq_lines : s.leaveFiq.lines = s.lines := rfl
@[simp] theorem leaveFiq_icActive : s.leaveFiq.icActive = s.icActive := rfl
@[simp] theorem leaveFiq_inIrq : s.leaveFiq.inIrq = s.inIrq := rfl
@[simp] theorem leaveFiq_inFiq : s.leaveFiq.inFiq = false := rfl
@[simp] theorem leaveFiq_gmBusy : s.leaveFiq.gmBusy = s.gmBusy := rfl
@[simp] theorem leaveFiq_invokeDepth : s.leaveFiq.invokeDepth = s.invokeDepth := rfl
@[simp] theorem leaveFiq_gmInitialized : s.leaveFiq.gmInitialized = s.gmInitialized := rfl
@[simp] theorem leaveFiq_pinTable : s.leaveFiq.pinTable = s.pinTable := rfl
@[simp] theorem leaveFiq_pinObj : s.leaveFiq.pinObj = s.pinObj := rfl
@[simp] theorem leaveFiq_lev : s.leaveFiq.lev = s.lev := rfl
@[simp] theorem leaveFiq_eds : s.leaveFiq.eds = s.eds := rfl
@[simp] theorem leaveFiq_ren : s.leaveFiq.ren = s.ren := rfl
@[simp] theorem leaveFiq_fen : s.leaveFiq.fen = s.fen := rfl
@[simp] theorem leaveFiq_hen : s.leaveFiq.hen = s.hen := rfl
@[simp] theorem leaveFiq_len : s.leaveFiq.len = s.len := rfl
@[simp] theorem leaveFiq_aren : s.leaveFiq.aren = s.aren := rfl
@[simp] theorem leaveFiq_afen : s.leaveFiq.afen = s.afen := rfl
@[simp] theorem leaveFiq_fsel : s.leaveFiq.fsel = s.fsel := rfl
@[simp] theorem leaveFiq_pud : s.leaveFiq.pud = s.pud := rfl
@[simp] theorem leaveFiq_pudclk : s.leaveFiq.pudclk = s.pudclk := rfl
@[simp] theorem leaveFiq_puppdn : s.leaveFiq.puppdn = s.puppdn := rfl
@[simp] theorem leaveFiq_pullState : s.leaveFiq.pullState = s.pullState := rfl
@[simp] theorem leaveFiq_enc : s.leaveFiq.enc = s.enc := rfl
@[simp] theorem leaveFiq_ticks : s.leaveFiq.ticks = s.ticks := rfl
@[simp] theorem leaveFiq_timers : s.leaveFiq.timers = s.timers := rfl
@[simp] theorem leaveFiq_timerSeq : s.leaveFiq.timerSeq = s.timerSeq := rfl
@[simp] theorem leaveFiq_fault : s.leaveFiq.fault = s.fault := rfl
@[simp] theorem leaveFiq_logTrace : s.leaveFiq.logTrace = s.logTrace := rfl
@[simp] theorem leaveFiq_appTrace : s.leaveFiq.appTrace = s.appTrace := rfl
@[simp] theorem leaveFiq_callTrace : s.leaveFiq.callTrace = s.callTrace := rfl
@[simp] theorem leaveFiq_readTrace : s.leaveFiq.readTrace = s.readTrace := rfl
@[simp] theorem leaveFiq_cfg : s.leaveFiq.cfg = s.cfg := rfl
@[simp] theorem leaveFiq_port : s.leaveFiq.port = s.port := rfl
@[simp] theorem leaveFiq_turns : s.leaveFiq.turns = s.turns := rfl
@[simp] theorem leaveFiq_freeCount : s.leaveFiq.freeCount = s.freeCount := rfl
@[simp] theorem leaveFiq_busTrace : s.leaveFiq.busTrace = s.busTrace := rfl

/-! ### placeOperation -/

@[simp] theorem placeOperation_lines (ws : List Word) : (placeOperation s ws).lines = s.lines := rfl
@[simp] theorem placeOperation_icActive (ws : List Word) : (placeOperation s ws).icActive = s.icActive := rfl
@[simp] theorem placeOperation_inIrq (ws : List Word) : (placeOperation s ws).inIrq = s.inIrq := rfl
@[simp] theorem placeOperation_inFiq (ws : List Word) : (placeOperation s ws).inFiq = s.inFiq := rfl
@[simp] theorem placeOperation_gmBusy (ws : List Word) : (placeOperation s ws).gmBusy = s.gmBusy := rfl
@[simp] theorem placeOperation_invokeDepth (ws : List Word) : (placeOperation s ws).invokeDepth = s.invokeDepth := rfl
@[simp] theorem placeOperation_gmInitialized (ws : List Word) :
    (placeOperation s ws).gmInitialized = s.gmInitialized := rfl
@[simp] theorem placeOperation_pinTable (ws : List Word) : (placeOperation s ws).pinTable = s.pinTable := rfl
@[simp] theorem placeOperation_pinObj (ws : List Word) : (placeOperation s ws).pinObj = s.pinObj := rfl
@[simp] theorem placeOperation_lev (ws : List Word) : (placeOperation s ws).lev = s.lev := rfl
@[simp] theorem placeOperation_eds (ws : List Word) : (placeOperation s ws).eds = s.eds := rfl
@[simp] theorem placeOperation_ren (ws : List Word) : (placeOperation s ws).ren = s.ren := rfl
@[simp] theorem placeOperation_fen (ws : List Word) : (placeOperation s ws).fen = s.fen := rfl
@[simp] theorem placeOperation_hen (ws : List Word) : (placeOperation s ws).hen = s.hen := rfl
@[simp] theorem placeOperation_len (ws : List Word) : (placeOperation s ws).len = s.len := rfl
@[simp] theorem placeOperation_aren (ws : List Word) : (placeOperation s ws).aren = s.aren := rfl
@[simp] theorem placeOperation_afen (ws : List Word) : (placeOperation s ws).afen = s.afen := rfl
@[simp] theorem placeOperation_fsel (ws : List Word) : (placeOperation s ws).fsel = s.fsel := rfl
@[simp] theorem placeOperation_pud (ws : List Word) : (placeOperation s ws).pud = s.pud := rfl
@[simp] theorem placeOperation_pudclk (ws : List Word) : (placeOperation s ws).pudclk = s.pudclk := rfl
@[simp] theorem placeOperation_puppdn (ws : List Word) : (placeOperation s ws).puppdn = s.puppdn := rfl
@[simp] theorem placeOperation_pullState (ws : List Word) : (placeOperation s ws).pullState = s.pullState := rfl
@[simp] theorem placeOperation_enc (ws : List Word) : (placeOperation s ws).enc = s.enc := rfl
@[simp] theorem placeOperation_ticks (ws : List Word) : (placeOperation s ws).ticks = s.ticks := rfl
@[simp] theorem placeOperation_timers (ws : List Word) : (placeOperation s ws).timers = s.timers := rfl
@[simp] theorem placeOperation_timerSeq (ws : List Word) : (placeOperation s ws).timerSeq = s.timerSeq := rfl
@[simp] theorem placeOperation_fault (ws : List Word) : (placeOperation s ws).fault = s.fault := rfl
@[simp] theorem placeOperation_logTrace (ws : List Word) : (placeOperation s ws).logTrace = s.logTrace := rfl
@[simp] theorem placeOperation_appTrace (ws : List Word) : (placeOperation s ws).appTrace = s.appTrace := rfl
@[simp] theorem placeOperation_callTrace (ws : List Word) : (placeOperation s ws).callTrace = s.callTrace := rfl
@[simp] theorem placeOperation_readTrace (ws : List Word) : (placeOperation s ws).readTrace = s.readTrace := rfl
@[simp] theorem placeOperation_cfg (ws : List Word) : (placeOperation s ws).cfg = s.cfg := rfl
@[simp] theorem placeOperation_port (ws : List Word) : (placeOperation s ws).port = ws := rfl
@[simp] theorem placeOperation_turns (ws : List Word) : (placeOperation s ws).turns = [] := rfl
@[simp] theorem placeOperation_freeCount (ws : List Word) : (placeOperation s ws).freeCount = s.freeCount := rfl
@[simp] theorem placeOperation_busTrace (ws : List Word) : (placeOperation s ws).busTrace = s.busTrace := rfl

/-! ### recordCall -/

@[simp] theorem recordCall_lines (h c : Word) : (recordCall h c s).lines = s.lines := rfl
@[simp] theorem recordCall_icActive (h c : Word) : (recordCall h c s).icActive = s.icActive := rfl
@[simp] theorem recordCall_inIrq (h c : Word) : (recordCall h c s).inIrq = s.inIrq := rfl
@[simp] theorem recordCall_inFiq (h c : Word) : (recordCall h c s).inFiq = s.inFiq := rfl
@[simp] theorem recordCall_gmBusy (h c : Word) : (recordCall h c s).gmBusy = s.gmBusy := rfl
@[simp] theorem recordCall_invokeDepth (h c : Word) : (recordCall h c s).invokeDepth = s.invokeDepth := rfl
@[simp] theorem recordCall_gmInitialized (h c : Word) : (recordCall h c s).gmInitialized = s.gmInitialized := rfl
@[simp] theorem recordCall_pinTable (h c : Word) : (recordCall h c s).pinTable = s.pinTable := rfl
@[simp] theorem recordCall_pinObj (h c : Word) : (recordCall h c s).pinObj = s.pinObj := rfl
@[simp] theorem recordCall_lev (h c : Word) : (recordCall h c s).lev = s.lev := rfl
@[simp] theorem recordCall_eds (h c : Word) : (recordCall h c s).eds = s.eds := rfl
@[simp] theorem recordCall_ren (h c : Word) : (recordCall h c s).ren = s.ren := rfl
@[simp] theorem recordCall_fen (h c : Word) : (recordCall h c s).fen = s.fen := rfl
@[simp] theorem recordCall_hen (h c : Word) : (recordCall h c s).hen = s.hen := rfl
@[simp] theorem recordCall_len (h c : Word) : (recordCall h c s).len = s.len := rfl
@[simp] theorem recordCall_aren (h c : Word) : (recordCall h c s).aren = s.aren := rfl
@[simp] theorem recordCall_afen (h c : Word) : (recordCall h c s).afen = s.afen := rfl
@[simp] theorem recordCall_fsel (h c : Word) : (recordCall h c s).fsel = s.fsel := rfl
@[simp] theorem recordCall_pud (h c : Word) : (recordCall h c s).pud = s.pud := rfl
@[simp] theorem recordCall_pudclk (h c : Word) : (recordCall h c s).pudclk = s.pudclk := rfl
@[simp] theorem recordCall_puppdn (h c : Word) : (recordCall h c s).puppdn = s.puppdn := rfl
@[simp] theorem recordCall_pullState (h c : Word) : (recordCall h c s).pullState = s.pullState := rfl
@[simp] theorem recordCall_enc (h c : Word) : (recordCall h c s).enc = s.enc := rfl
@[simp] theorem recordCall_ticks (h c : Word) : (recordCall h c s).ticks = s.ticks := rfl
@[simp] theorem recordCall_timers (h c : Word) : (recordCall h c s).timers = s.timers := rfl
@[simp] theorem recordCall_timerSeq (h c : Word) : (recordCall h c s).timerSeq = s.timerSeq := rfl
@[simp] theorem recordCall_fault (h c : Word) : (recordCall h c s).fault = s.fault := rfl
@[simp] theorem recordCall_logTrace (h c : Word) : (recordCall h c s).logTrace = s.logTrace := rfl
@[simp] theorem recordCall_appTrace (h c : Word) : (recordCall h c s).appTrace = s.appTrace := rfl
@[simp] theorem recordCall_callTrace (h c : Word) : (recordCall h c s).callTrace = s.callTrace ++ [⟨h, c⟩] := rfl
@[simp] theorem recordCall_readTrace (h c : Word) : (recordCall h c s).readTrace = s.readTrace := rfl
@[simp] theorem recordCall_cfg (h c : Word) : (recordCall h c s).cfg = s.cfg := rfl
@[simp] theorem recordCall_port (h c : Word) : (recordCall h c s).port = s.port := rfl
@[simp] theorem recordCall_turns (h c : Word) : (recordCall h c s).turns = s.turns := rfl
@[simp] theorem recordCall_freeCount (h c : Word) : (recordCall h c s).freeCount = s.freeCount := rfl
@[simp] theorem recordCall_busTrace (h c : Word) : (recordCall h c s).busTrace = s.busTrace := rfl

/-! ### startTimer -/

@[simp] theorem startTimer_lines (d : Nat) (h c : Word) : (startTimer s d h c).lines = s.lines := rfl
@[simp] theorem startTimer_icActive (d : Nat) (h c : Word) : (startTimer s d h c).icActive = s.icActive := rfl
@[simp] theorem startTimer_inIrq (d : Nat) (h c : Word) : (startTimer s d h c).inIrq = s.inIrq := rfl
@[simp] theorem startTimer_inFiq (d : Nat) (h c : Word) : (startTimer s d h c).inFiq = s.inFiq := rfl
@[simp] theorem startTimer_gmBusy (d : Nat) (h c : Word) : (startTimer s d h c).gmBusy = s.gmBusy := rfl
@[simp] theorem startTimer_invokeDepth (d : Nat) (h c : Word) :
    (startTimer s d h c).invokeDepth = s.invokeDepth := rfl
@[simp] theorem startTimer_gmInitialized (d : Nat) (h c : Word) :
    (startTimer s d h c).gmInitialized = s.gmInitialized := rfl
@[simp] theorem startTimer_pinTable (d : Nat) (h c : Word) : (startTimer s d h c).pinTable = s.pinTable := rfl
@[simp] theorem startTimer_pinObj (d : Nat) (h c : Word) : (startTimer s d h c).pinObj = s.pinObj := rfl
@[simp] theorem startTimer_lev (d : Nat) (h c : Word) : (startTimer s d h c).lev = s.lev := rfl
@[simp] theorem startTimer_eds (d : Nat) (h c : Word) : (startTimer s d h c).eds = s.eds := rfl
@[simp] theorem startTimer_ren (d : Nat) (h c : Word) : (startTimer s d h c).ren = s.ren := rfl
@[simp] theorem startTimer_fen (d : Nat) (h c : Word) : (startTimer s d h c).fen = s.fen := rfl
@[simp] theorem startTimer_hen (d : Nat) (h c : Word) : (startTimer s d h c).hen = s.hen := rfl
@[simp] theorem startTimer_len (d : Nat) (h c : Word) : (startTimer s d h c).len = s.len := rfl
@[simp] theorem startTimer_aren (d : Nat) (h c : Word) : (startTimer s d h c).aren = s.aren := rfl
@[simp] theorem startTimer_afen (d : Nat) (h c : Word) : (startTimer s d h c).afen = s.afen := rfl
@[simp] theorem startTimer_fsel (d : Nat) (h c : Word) : (startTimer s d h c).fsel = s.fsel := rfl
@[simp] theorem startTimer_pud (d : Nat) (h c : Word) : (startTimer s d h c).pud = s.pud := rfl
@[simp] theorem startTimer_pudclk (d : Nat) (h c : Word) : (startTimer s d h c).pudclk = s.pudclk := rfl
@[simp] theorem startTimer_puppdn (d : Nat) (h c : Word) : (startTimer s d h c).puppdn = s.puppdn := rfl
@[simp] theorem startTimer_pullState (d : Nat) (h c : Word) : (startTimer s d h c).pullState = s.pullState := rfl
@[simp] theorem startTimer_enc (d : Nat) (h c : Word) : (startTimer s d h c).enc = s.enc := rfl
@[simp] theorem startTimer_ticks (d : Nat) (h c : Word) : (startTimer s d h c).ticks = s.ticks := rfl
@[simp] theorem startTimer_timers (d : Nat) (h c : Word) :
    (startTimer s d h c).timers = s.timers ++ [⟨nextHandle s, deadlineAfter s d, h, c, s.timerSeq + 1⟩] := rfl
@[simp] theorem startTimer_timerSeq (d : Nat) (h c : Word) : (startTimer s d h c).timerSeq = s.timerSeq + 1 := rfl
@[simp] theorem startTimer_fault (d : Nat) (h c : Word) : (startTimer s d h c).fault = s.fault := rfl
@[simp] theorem startTimer_logTrace (d : Nat) (h c : Word) : (startTimer s d h c).logTrace = s.logTrace := rfl
@[simp] theorem startTimer_appTrace (d : Nat) (h c : Word) : (startTimer s d h c).appTrace = s.appTrace := rfl
@[simp] theorem startTimer_callTrace (d : Nat) (h c : Word) : (startTimer s d h c).callTrace = s.callTrace := rfl
@[simp] theorem startTimer_readTrace (d : Nat) (h c : Word) : (startTimer s d h c).readTrace = s.readTrace := rfl
@[simp] theorem startTimer_cfg (d : Nat) (h c : Word) : (startTimer s d h c).cfg = s.cfg := rfl
@[simp] theorem startTimer_port (d : Nat) (h c : Word) : (startTimer s d h c).port = s.port := rfl
@[simp] theorem startTimer_turns (d : Nat) (h c : Word) : (startTimer s d h c).turns = s.turns := rfl
@[simp] theorem startTimer_freeCount (d : Nat) (h c : Word) : (startTimer s d h c).freeCount = s.freeCount + 1 := rfl
@[simp] theorem startTimer_busTrace (d : Nat) (h c : Word) : (startTimer s d h c).busTrace = s.busTrace := rfl

/-! ### cancelTimer -/

@[simp] theorem cancelTimer_lines (hd : Word) : (cancelTimer s hd).lines = s.lines := rfl
@[simp] theorem cancelTimer_icActive (hd : Word) : (cancelTimer s hd).icActive = s.icActive := rfl
@[simp] theorem cancelTimer_inIrq (hd : Word) : (cancelTimer s hd).inIrq = s.inIrq := rfl
@[simp] theorem cancelTimer_inFiq (hd : Word) : (cancelTimer s hd).inFiq = s.inFiq := rfl
@[simp] theorem cancelTimer_gmBusy (hd : Word) : (cancelTimer s hd).gmBusy = s.gmBusy := rfl
@[simp] theorem cancelTimer_invokeDepth (hd : Word) : (cancelTimer s hd).invokeDepth = s.invokeDepth := rfl
@[simp] theorem cancelTimer_gmInitialized (hd : Word) : (cancelTimer s hd).gmInitialized = s.gmInitialized := rfl
@[simp] theorem cancelTimer_pinTable (hd : Word) : (cancelTimer s hd).pinTable = s.pinTable := rfl
@[simp] theorem cancelTimer_pinObj (hd : Word) : (cancelTimer s hd).pinObj = s.pinObj := rfl
@[simp] theorem cancelTimer_lev (hd : Word) : (cancelTimer s hd).lev = s.lev := rfl
@[simp] theorem cancelTimer_eds (hd : Word) : (cancelTimer s hd).eds = s.eds := rfl
@[simp] theorem cancelTimer_ren (hd : Word) : (cancelTimer s hd).ren = s.ren := rfl
@[simp] theorem cancelTimer_fen (hd : Word) : (cancelTimer s hd).fen = s.fen := rfl
@[simp] theorem cancelTimer_hen (hd : Word) : (cancelTimer s hd).hen = s.hen := rfl
@[simp] theorem cancelTimer_len (hd : Word) : (cancelTimer s hd).len = s.len := rfl
@[simp] theorem cancelTimer_aren (hd : Word) : (cancelTimer s hd).aren = s.aren := rfl
@[simp] theorem cancelTimer_afen (hd : Word) : (cancelTimer s hd).afen = s.afen := rfl
@[simp] theorem cancelTimer_fsel (hd : Word) : (cancelTimer s hd).fsel = s.fsel := rfl
@[simp] theorem cancelTimer_pud (hd : Word) : (cancelTimer s hd).pud = s.pud := rfl
@[simp] theorem cancelTimer_pudclk (hd : Word) : (cancelTimer s hd).pudclk = s.pudclk := rfl
@[simp] theorem cancelTimer_puppdn (hd : Word) : (cancelTimer s hd).puppdn = s.puppdn := rfl
@[simp] theorem cancelTimer_pullState (hd : Word) : (cancelTimer s hd).pullState = s.pullState := rfl
@[simp] theorem cancelTimer_enc (hd : Word) : (cancelTimer s hd).enc = s.enc := rfl
@[simp] theorem cancelTimer_ticks (hd : Word) : (cancelTimer s hd).ticks = s.ticks := rfl
@[simp] theorem cancelTimer_timers (hd : Word) :
    (cancelTimer s hd).timers = s.timers.eraseP (fun t => t.handle == hd) := rfl
@[simp] theorem cancelTimer_timerSeq (hd : Word) : (cancelTimer s hd).timerSeq = s.timerSeq := rfl
@[simp] theorem cancelTimer_fault (hd : Word) : (cancelTimer s hd).fault = s.fault := rfl
@[simp] theorem cancelTimer_logTrace (hd : Word) : (cancelTimer s hd).logTrace = s.logTrace := rfl
@[simp] theorem cancelTimer_appTrace (hd : Word) : (cancelTimer s hd).appTrace = s.appTrace := rfl
@[simp] theorem cancelTimer_callTrace (hd : Word) : (cancelTimer s hd).callTrace = s.callTrace := rfl
@[simp] theorem cancelTimer_readTrace (hd : Word) : (cancelTimer s hd).readTrace = s.readTrace := rfl
@[simp] theorem cancelTimer_cfg (hd : Word) : (cancelTimer s hd).cfg = s.cfg := rfl
@[simp] theorem cancelTimer_port (hd : Word) : (cancelTimer s hd).port = s.port := rfl
@[simp] theorem cancelTimer_turns (hd : Word) : (cancelTimer s hd).turns = s.turns := rfl
@[simp] theorem cancelTimer_freeCount (hd : Word) : (cancelTimer s hd).freeCount = s.freeCount := rfl
@[simp] theorem cancelTimer_busTrace (hd : Word) : (cancelTimer s hd).busTrace = s.busTrace := rfl

/-! ### tickOnce -/

@[simp] theorem tickOnce_lines :
    (tickOnce s).lines = s.lines.modify s.cfg.timerLine fun l => { l with pending := false } := rfl
@[simp] theorem tickOnce_icActive : (tickOnce s).icActive = s.icActive := rfl
@[simp] theorem tickOnce_inIrq : (tickOnce s).inIrq = s.inIrq := rfl
@[simp] theorem tickOnce_inFiq : (tickOnce s).inFiq = s.inFiq := rfl
@[simp] theorem tickOnce_gmBusy : (tickOnce s).gmBusy = s.gmBusy := rfl
@[simp] theorem tickOnce_invokeDepth : (tickOnce s).invokeDepth = s.invokeDepth := rfl
@[simp] theorem tickOnce_gmInitialized : (tickOnce s).gmInitialized = s.gmInitialized := rfl
@[simp] theorem tickOnce_pinTable : (tickOnce s).pinTable = s.pinTable := rfl
@[simp] theorem tickOnce_pinObj : (tickOnce s).pinObj = s.pinObj := rfl
@[simp] theorem tickOnce_lev : (tickOnce s).lev = s.lev := rfl
@[simp] theorem tickOnce_eds : (tickOnce s).eds = s.eds := rfl
@[simp] theorem tickOnce_ren : (tickOnce s).ren = s.ren := rfl
@[simp] theorem tickOnce_fen : (tickOnce s).fen = s.fen := rfl
@[simp] theorem tickOnce_hen : (tickOnce s).hen = s.hen := rfl
@[simp] theorem tickOnce_len : (tickOnce s).len = s.len := rfl
@[simp] theorem tickOnce_aren : (tickOnce s).aren = s.aren := rfl
@[simp] theorem tickOnce_afen : (tickOnce s).afen = s.afen := rfl
@[simp] theorem tickOnce_fsel : (tickOnce s).fsel = s.fsel := rfl
@[simp] theorem tickOnce_pud : (tickOnce s).pud = s.pud := rfl
@[simp] theorem tickOnce_pudclk : (tickOnce s).pudclk = s.pudclk := rfl
@[simp] theorem tickOnce_puppdn : (tickOnce s).puppdn = s.puppdn := rfl
@[simp] theorem tickOnce_pullState : (tickOnce s).pullState = s.pullState := rfl
@[simp] theorem tickOnce_enc : (tickOnce s).enc = s.enc := rfl
@[simp] theorem tickOnce_ticks : (tickOnce s).ticks = nextTicks s := rfl
@[simp] theorem tickOnce_timers : (tickOnce s).timers = s.timers := rfl
@[simp] theorem tickOnce_timerSeq : (tickOnce s).timerSeq = s.timerSeq := rfl
@[simp] theorem tickOnce_fault : (tickOnce s).fault = s.fault := rfl
@[simp] theorem tickOnce_logTrace : (tickOnce s).logTrace = s.logTrace := rfl
@[simp] theorem tickOnce_appTrace : (tickOnce s).appTrace = s.appTrace := rfl
@[simp] theorem tickOnce_callTrace : (tickOnce s).callTrace = s.callTrace := rfl
@[simp] theorem tickOnce_readTrace : (tickOnce s).readTrace = s.readTrace := rfl
@[simp] theorem tickOnce_cfg : (tickOnce s).cfg = s.cfg := rfl
@[simp] theorem tickOnce_port : (tickOnce s).port = s.port := rfl
@[simp] theorem tickOnce_turns : (tickOnce s).turns = s.turns := rfl
@[simp] theorem tickOnce_freeCount : (tickOnce s).freeCount = s.freeCount + 1 := rfl
@[simp] theorem tickOnce_busTrace : (tickOnce s).busTrace = s.busTrace := rfl

/-! ### setTrig -/

@[simp] theorem setTrig_lines (k : TrigKind) (b : PinBank) : (s.setTrig k b).lines = s.lines := by cases k <;> rfl
@[simp] theorem setTrig_icActive (k : TrigKind) (b : PinBank) : (s.setTrig k b).icActive = s.icActive := by cases k <;> rfl
@[simp] theorem setTrig_inIrq (k : TrigKind) (b : PinBank) : (s.setTrig k b).inIrq = s.inIrq := by cases k <;> rfl
@[simp] theorem setTrig_inFiq (k : TrigKind) (b : PinBank) : (s.setTrig k b).inFiq = s.inFiq := by cases k <;> rfl
@[simp] theorem setTrig_gmBusy (k : TrigKind) (b : PinBank) : (s.setTrig k b).gmBusy = s.gmBusy := by cases k <;> rfl
@[simp] theorem setTrig_invokeDepth (k : TrigKind) (b : PinBank) : (s.setTrig k b).invokeDepth = s.invokeDepth := by cases k <;> rfl
@[simp] theorem setTrig_gmInitialized (k : TrigKind) (b : PinBank) : (s.setTrig k b).gmInitialized = s.gmInitialized := by cases k <;> rfl
@[simp] theorem setTrig_pinTable (k : TrigKind) (b : PinBank) : (s.setTrig k b).pinTable = s.pinTable := by cases k <;> rfl
@[simp] theorem setTrig_pinObj (k : TrigKind) (b : PinBank) : (s.setTrig k b).pinObj = s.pinObj := by cases k <;> rfl
@[simp] theorem setTrig_lev (k : TrigKind) (b : PinBank) : (s.setTrig k b).lev = s.lev := by cases k <;> rfl
@[simp] theorem setTrig_eds (k : TrigKind) (b : PinBank) : (s.setTrig k b).eds = s.eds := by cases k <;> rfl
@[simp] theorem setTrig_fsel (k : TrigKind) (b : PinBank) : (s.setTrig k b).fsel = s.fsel := by cases k <;> rfl
@[simp] theorem setTrig_pud (k : TrigKind) (b : PinBank) : (s.setTrig k b).pud = s.pud := by cases k <;> rfl
@[simp] theorem setTrig_pudclk (k : TrigKind) (b : PinBank) : (s.setTrig k b).pudclk = s.pudclk := by cases k <;> rfl
@[simp] theorem setTrig_puppdn (k : TrigKind) (b : PinBank) : (s.setTrig k b).puppdn = s.puppdn := by cases k <;> rfl
@[simp] theorem setTrig_pullState (k : TrigKind) (b : PinBank) : (s.setTrig k b).pullState = s.pullState := by cases k <;> rfl
@[simp] theorem setTrig_enc (k : TrigKind) (b : PinBank) : (s.setTrig k b).enc = s.enc := by cases k <;> rfl
@[simp] theorem setTrig_ticks (k : TrigKind) (b : PinBank) : (s.setTrig k b).ticks = s.ticks := by cases k <;> rfl
@[simp] theorem setTrig_timers (k : TrigKind) (b : PinBank) : (s.setTrig k b).timers = s.timers := by cases k <;> rfl
@[simp] theorem setTrig_timerSeq (k : TrigKind) (b : PinBank) : (s.setTrig k b).timerSeq = s.timerSeq := by cases k <;> rfl
@[simp] theorem setTrig_fault (k : TrigKind) (b : PinBank) : (s.setTrig k b).fault = s.fault := by cases k <;> rfl
@[simp] theorem setTrig_logTrace (k : TrigKind) (b : PinBank) : (s.setTrig k b).logTrace = s.logTrace := by cases k <;> rfl
@[simp] theorem setTrig_appTrace (k : TrigKind) (b : PinBank) : (s.setTrig k b).appTrace = s.appTrace := by cases k <;> rfl
@[simp] theorem setTrig_callTrace (k : TrigKind) (b : PinBank) : (s.setTrig k b).callTrace = s.callTrace := by cases k <;> rfl
@[simp] theorem setTrig_readTrace (k : TrigKind) (b : PinBank) : (s.setTrig k b).readTrace = s.readTrace := by cases k <;> rfl
@[simp] theorem setTrig_cfg (k : TrigKind) (b : PinBank) : (s.setTrig k b).cfg = s.cfg := by cases k <;> rfl
@[simp] theorem setTrig_port (k : TrigKind) (b : PinBank) : (s.setTrig k b).port = s.port := by cases k <;> rfl
@[simp] theorem setTrig_turns (k : TrigKind) (b : PinBank) : (s.setTrig k b).turns = s.turns := by cases k <;> rfl
@[simp] theorem setTrig_freeCount (k : TrigKind) (b : PinBank) : (s.setTrig k b).freeCount = s.freeCount := by cases k <;> rfl
@[simp] theorem setTrig_busTrace (k : TrigKind) (b : PinBank) : (s.setTrig k b).busTrace = s.busTrace := by cases k <;> rfl

/-- The group of a kind after the group of a kind is replaced. -/
@[simp] theorem setTrig_trig (k j : TrigKind) (b : PinBank) :
    (s.setTrig k b).trig j = if j = k then b else s.trig j := by
  cases k <;> cases j <;> rfl

end Sys2Proof.Laws
end

