-- ==== Sys2Proof/Laws/Reach.lean ====
section
/-! SUPPORT. What a command can do, said once: every command is a sequence of the primitive updates listed in `Prim`,
so an invariant of the machine has to be checked for these updates only. -/

namespace Sys2Proof.Laws

open Sys2Proof.Machine

/-! ### Primitive updates -/

/-- The register exists under the state's configuration (rules R74, R84, R85). -/
def RegExists (s : State) (r : Reg) : Prop := r ∈ existingRegs s.cfg s.nIrq

/-- No object of the driver sits in the pin-table slot of its own pin number. -/
def EncSlotsFree (s : State) : Prop :=
  ∀ o ∈ [clkObj, dtObj, swObj], ∀ n, (s.obj o).pinNumber = some n → s.pinTable[n] ≠ some o

/-- The driver's three pin objects have pin numbers. -/
def EncPinsAssigned (s : State) : Prop := ∀ o ∈ [clkObj, dtObj, swObj], (s.obj o).pinNumber.isSome = true

/-- An update of the driver's record that neither starts nor stops the driver and starts no tick timer while the
switch is released. -/
def EncUpdate (e e' : Enc) : Prop :=
  e'.initialized = e.initialized ∧
    ((e'.tickTimer = e.tickTimer ∧ e'.swStable = e.swStable) ∨ e'.tickTimer = none ∨ e'.swStable = false)

/-- One primitive update of a command, with what is known where commands make it. -/
inductive Prim : State → State → Prop where
  | read (s : State) (r : Reg) (h : RegExists s r) : Prim s (memRead s r)
  | write (s : State) (r : Reg) (v : Word) (h : RegExists s r) : Prim s (memWrite s r v)
  | bind (s : State) (id : Nat) (r : Registration) (h : s.irqTable id = none) :
      Prim s (s.setLine id fun l => { l with handler := some r })
  | unbind (s : State) (id : Nat) : Prim s (s.setLine id fun l => { l with handler := none })
  | tick (s : State) : Prim s (tickOnce s)
  | enterIrq (s : State) : Prim s s.enterIrq
  | leaveIrq (s : State) : Prim s s.leaveIrq
  | enterFiq (s : State) : Prim s s.enterFiq
  | leaveFiq (s : State) : Prim s s.leaveFiq
  | gmBusy (s : State) (b : Bool) : Prim s { s with gmBusy := b }
  | depth (s : State) (n : Nat) : Prim s { s with invokeDepth := n }
  | gmInit (s : State) : Prim s { s with gmInitialized := true }
  | log (s : State) (c : LogCode) (a : Nat) : Prim s (s.log c a)
  | call (s : State) (h ctx : Word) : Prim s (recordCall h ctx s)
  | app (s : State) (r : AppRecord) : Prim s { s with appTrace := s.appTrace ++ [r] }
  | readTrace (s : State) (r : ReadRecord) : Prim s { s with readTrace := s.readTrace ++ [r] }
  | assign (s : State) (obj : Nat) (n : PinNo) (h : (s.obj obj).pinNumber = none) :
      Prim s (s.setObj obj { s.obj obj with pinNumber := some n })
  | record (s : State) (obj : Nat) (p : PinObj) (h : p.pinNumber = (s.obj obj).pinNumber) : Prim s (s.setObj obj p)
  | connect (s : State) (n : PinNo) (obj : Nat) (h : (s.obj obj).pinNumber = some n) (he : s.pinTable[n] = none) :
      Prim s (s.setSlot n (some obj))
  | disconnect (s : State) (n : PinNo) : Prim s (s.setSlot n none)
  | startTimer (s : State) (d : Nat) (h ctx : Word) : Prim s (startTimer s d h ctx)
  | cancelTimer (s : State) (hd : Word) : Prim s (cancelTimer s hd)
  | expire (s : State) (t : Timer) : Prim s { s with timers := s.timers.erase t }
  | enc (s : State) (f : Enc → Enc) (h : EncUpdate s.enc (f s.enc)) : Prim s (s.setEnc f)
  | encStart (s : State) (h : EncPinsAssigned s) : Prim s (s.setEnc encStarted)
  | encStop (s : State) (h : EncSlotsFree s) : Prim s ((destroyPins s).setEnc encStopped)

/-- Any number of primitive updates. -/
abbrev Reach : State → State → Prop := Relation.ReflTransGen Prim

/-- The flags that an operation leaves as it found them unless it raises (rules R25, R334). -/
def SameContext (s t : State) : Prop :=
  t.inIrq = s.inIrq ∧ t.inFiq = s.inFiq ∧ t.gmBusy = s.gmBusy ∧ t.invokeDepth = s.invokeDepth

/-- A result reached by primitive updates which, unless it is a raise, leaves the context flags as they were. -/
def Good (s : State) : Res → Prop
  | .ok t => Reach s t ∧ SameContext s t
  | .raised _ t => Reach s t
  | .unending _ => True

theorem SameContext.refl (s : State) : SameContext s s := ⟨rfl, rfl, rfl, rfl⟩

theorem SameContext.trans {s t u : State} (h : SameContext s t) (h' : SameContext t u) : SameContext s u :=
  ⟨h'.1.trans h.1, h'.2.1.trans h.2.1, h'.2.2.1.trans h.2.2.1, h'.2.2.2.trans h.2.2.2⟩

theorem good_ok (s : State) : Good s (.ok s) := ⟨.refl, .refl s⟩
theorem good_raised (e : ErrorCode) (s : State) : Good s (.raised e s) := .refl

/-- A good result after a stretch of primitive updates that leaves the context flags alone. -/
theorem good_of_reach {s u : State} {r : Res} (h : Reach s u) (hs : SameContext s u) (hr : Good u r) : Good s r := by
  cases r with
  | ok t => exact ⟨h.trans hr.1, hs.trans hr.2⟩
  | raised e t => exact h.trans hr
  | unending u => trivial

theorem good_of_prim {s u : State} {r : Res} (h : Prim s u) (hs : SameContext s u) (hr : Good u r) : Good s r :=
  good_of_reach (.single h) hs hr

/-- Sequencing keeps results good. -/
theorem good_andThen {s : State} {r : Res} {k : State → Res} (h : Good s r)
    (hk : ∀ t, r = .ok t → Reach s t → SameContext s t → Good t (k t)) : Good s (r.andThen k) := by
  cases r with
  | ok t => exact good_of_reach h.1 h.2 (hk t rfl h.1 h.2)
  | raised e t => exact h
  | unending u => trivial

/-! ### What no primitive update changes -/

theorem readEffect_cfg (s : State) (r : Reg) : (readEffect s r).cfg = s.cfg := by
  cases r <;> first | rfl | (simp only [readEffect]; split <;> rfl)

theorem writeEffect_cfg (s : State) (r : Reg) (v : Word) : (writeEffect s r v).cfg = s.cfg := by
  cases r <;> simp only [writeEffect] <;>
    first | rfl | (split <;> first | rfl | exact setTrig_cfg _ _ _)

theorem readEffect_context (s : State) (r : Reg) : SameContext s (readEffect s r) := by
  cases r <;> first | exact .refl _ | (simp only [readEffect]; split <;> exact ⟨rfl, rfl, rfl, rfl⟩)

theorem setTrig_context (s : State) (k : TrigKind) (b : PinBank) : SameContext s (s.setTrig k b) := by
  cases k <;> exact ⟨rfl, rfl, rfl, rfl⟩

theorem writeEffect_context (s : State) (r : Reg) (v : Word) : SameContext s (writeEffect s r v) := by
  cases r <;> simp only [writeEffect] <;>
    first
    | exact ⟨rfl, rfl, rfl, rfl⟩
    | (split <;> first | exact ⟨rfl, rfl, rfl, rfl⟩ | exact setTrig_context _ _ _)

theorem memRead_context (s : State) (r : Reg) : SameContext s (memRead s r) := readEffect_context s r
theorem memWrite_context (s : State) (r : Reg) (v : Word) : SameContext s (memWrite s r v) := writeEffect_context s r v

theorem readEffect_nIrq (s : State) (r : Reg) : (readEffect s r).nIrq = s.nIrq := by
  cases r <;> first | rfl | (simp only [readEffect]; split <;> rfl)

theorem writeEffect_nIrq (s : State) (r : Reg) (v : Word) : (writeEffect s r v).nIrq = s.nIrq := by
  cases r <;> simp only [writeEffect] <;>
    first
    | rfl
    | (split <;> first | rfl | simp [State.nIrq])
    | simp [State.writeEnable, State.nIrq]

/-- The configuration and the number of lines stay what they are. -/
theorem Prim.fixed {s t : State} (h : Prim s t) : t.cfg = s.cfg ∧ t.nIrq = s.nIrq := by
  cases h <;>
    first
    | exact ⟨rfl, rfl⟩
    | exact ⟨readEffect_cfg _ _, readEffect_nIrq _ _⟩
    | exact ⟨writeEffect_cfg _ _ _, writeEffect_nIrq _ _ _⟩
    | exact ⟨rfl, setLine_nIrq _ _ _⟩

theorem Reach.fixed {s t : State} (h : Reach s t) : t.cfg = s.cfg ∧ t.nIrq = s.nIrq := by
  induction h with
  | refl => exact ⟨rfl, rfl⟩
  | tail _ hp ih => exact ⟨hp.fixed.1.trans ih.1, hp.fixed.2.trans ih.2⟩

theorem RegExists.mono {s t : State} {r : Reg} (h : RegExists s r) (hst : Reach s t) : RegExists t r := by
  unfold RegExists; rw [hst.fixed.1, hst.fixed.2]; exact h

/-! ### Registers that exist -/

theorem exists_lev (s : State) (w : Fin 2) : RegExists s (.lev w) := by
  fin_cases w <;> simp [RegExists, existingRegs, bothWords]
theorem exists_eds (s : State) (w : Fin 2) : RegExists s (.eds w) := by
  fin_cases w <;> simp [RegExists, existingRegs, bothWords]
theorem exists_fsel (s : State) (k : Fin 6) : RegExists s (.fsel k) := by
  fin_cases k <;> simp [RegExists, existingRegs]
theorem exists_trig (s : State) (k : TrigKind) (w : Fin 2) : RegExists s (.trig k w) := by
  fin_cases w <;> cases k <;> simp [RegExists, existingRegs, bothWords, trigKinds]
theorem exists_pud (s : State) (h : s.cfg.pullStyle = .legacyStrobe) : RegExists s .pud := by
  simp [RegExists, existingRegs, h]
theorem exists_pudclk (s : State) (w : Fin 2) (h : s.cfg.pullStyle = .legacyStrobe) : RegExists s (.pudclk w) := by
  fin_cases w <;> simp [RegExists, existingRegs, h, bothWords]
theorem exists_puppdn (s : State) (j : Fin 4) (h : s.cfg.pullStyle = .combined2Bit) : RegExists s (.puppdn j) := by
  fin_cases j <;> simp [RegExists, existingRegs, h]
theorem exists_icPend (s : State) (w : Nat) (hw : w < icWords s.nIrq) (h : s.cfg.platformIc = .pendingMask) :
    RegExists s (.icPend w) := by simp [RegExists, existingRegs, h, hw]
theorem exists_icEnset (s : State) (w : Nat) (hw : w < icWords s.nIrq) : RegExists s (.icEnset w) := by
  simp [RegExists, existingRegs, hw]
theorem exists_icEnclr (s : State) (w : Nat) (hw : w < icWords s.nIrq) : RegExists s (.icEnclr w) := by
  simp [RegExists, existingRegs, hw]
theorem exists_icIar (s : State) (h : s.cfg.platformIc = .ackRegister) : RegExists s .icIar := by
  simp [RegExists, existingRegs, h]
theorem exists_icEoir (s : State) (h : s.cfg.platformIc = .ackRegister) : RegExists s .icEoir := by
  simp [RegExists, existingRegs, h]

/-- The word of a line is one of the words of its group (rule R85). -/
theorem word_lt_icWords {n id : Nat} (h : id < n) : id / 32 < icWords n := by unfold icWords; omega

theorem exists_of_regAt {s : State} {a : Word} {r : Reg} (h : regAt s a = some r) : RegExists s r :=
  List.mem_of_find?_eq_some h

/-! ### Results of the register sequences -/

/-- A state reached with the context flags as they were. -/
def Calm (s t : State) : Prop := Reach s t ∧ SameContext s t

theorem Calm.refl (s : State) : Calm s s := ⟨.refl, .refl s⟩
theorem Calm.trans {s t u : State} (h : Calm s t) (h' : Calm t u) : Calm s u := ⟨h.1.trans h'.1, h.2.trans h'.2⟩
theorem Calm.good {s u : State} {r : Res} (h : Calm s u) (hr : Good u r) : Good s r := good_of_reach h.1 h.2 hr
theorem Calm.ok {s t : State} (h : Calm s t) : Good s (.ok t) := h
theorem Calm.of {s t : State} (h : Prim s t) (hs : SameContext s t) : Calm s t := ⟨.single h, hs⟩

theorem calm_read {s : State} {r : Reg} (h : RegExists s r) : Calm s (memRead s r) :=
  .of (.read s r h) (memRead_context s r)
theorem calm_write {s : State} {r : Reg} {v : Word} (h : RegExists s r) : Calm s (memWrite s r v) :=
  .of (.write s r v h) (memWrite_context s r v)
theorem calm_modify {s : State} {r : Reg} {f : Word → Word} (h : RegExists s r) : Calm s (memModify s r f) :=
  (calm_read h).trans (calm_write (h.mono (calm_read h).1))

theorem calm_enset {s : State} {id : Nat} (h : id < s.nIrq) : Calm s (enset s id) :=
  calm_write (exists_icEnset s _ (word_lt_icWords h))
theorem calm_enclr {s : State} {id : Nat} (h : id < s.nIrq) : Calm s (enclr s id) :=
  calm_write (exists_icEnclr s _ (word_lt_icWords h))

theorem calm_ackPin (s : State) (n : PinNo) : Calm s (ackPin s n) := calm_write (exists_eds s _)

theorem calm_cancelOptional (s : State) (h : Option Word) : Calm s (cancelOptional s h) := by
  cases h with
  | none => exact .refl s
  | some hd => exact .of (.cancelTimer s hd) ⟨rfl, rfl, rfl, rfl⟩

theorem calm_enc {s : State} {f : Enc → Enc} (h : EncUpdate s.enc (f s.enc)) : Calm s (s.setEnc f) :=
  .of (.enc s f h) ⟨rfl, rfl, rfl, rfl⟩

/-! ### IC -/

theorem good_icRegisterHandler (id : Nat) (h c : Word) (s : State) : Good s (ruleIcRegisterHandler id h c s) := by
  unfold ruleIcRegisterHandler
  split
  · rename_i hid
    split
    · exact good_raised _ _
    · rename_i hb
      exact ((Calm.of (.bind s id ⟨h, c⟩ hb) ⟨rfl, rfl, rfl, rfl⟩).trans (calm_enset (by simpa using hid))).ok
  · exact good_raised _ _

theorem good_icUnregisterHandler (id : Nat) (s : State) : Good s (ruleIcUnregisterHandler id s) := by
  unfold ruleIcUnregisterHandler
  split
  · rename_i hid
    split
    · exact ((calm_enclr hid).trans (.of (.unbind _ id) ⟨rfl, rfl, rfl, rfl⟩)).ok
    · exact good_raised _ _
  · exact good_raised _ _

theorem good_icEnableLine (id : Nat) (s : State) : Good s (ruleIcEnableLine id s) := by
  unfold ruleIcEnableLine
  split
  · exact (calm_enset ‹_›).ok
  · exact good_raised _ _

theorem good_icDisableLine (id : Nat) (s : State) : Good s (ruleIcDisableLine id s) := by
  unfold ruleIcDisableLine
  split
  · exact (calm_enclr ‹_›).ok
  · exact good_raised _ _

theorem calm_clearEnableWords (s : State) (n : Nat) (hn : n ≤ icWords s.nIrq) : Calm s (clearEnableWords s n) := by
  induction n with
  | zero => exact .refl s
  | succ n ih =>
    have h := ih (by omega)
    exact h.trans (calm_write ((exists_icEnclr s n (by omega)).mono h.1))

theorem good_icDisableAllLines (s : State) : Good s (ruleIcDisableAllLines s) :=
  (calm_clearEnableWords s _ (Nat.le_refl _)).ok

theorem calm_readPendWords (s : State) (n : Nat) (hn : n ≤ icWords s.nIrq) (h : s.cfg.platformIc = .pendingMask) :
    Calm s (readPendWords s n) := by
  induction n with
  | zero => exact .refl s
  | succ n ih =>
    have hr := ih (by omega)
    exact hr.trans (calm_read ((exists_icPend s n (by omega) h).mono hr.1))

theorem calm_afterSelect (s : State) : Calm s (afterSelect s) := by
  unfold afterSelect
  split
  · exact calm_readPendWords s _ (Nat.le_refl _) ‹_›
  · exact calm_read (exists_icIar s ‹_›)

theorem calm_complete (s : State) (id : Nat) : Calm s (complete s id) := by
  unfold complete
  split
  · exact .refl s
  · exact calm_write (exists_icEoir s ‹_›)

/-- The calls of handler words are good at every state. -/
def GoodInvoker (inv : Invoker) : Prop := ∀ h ctx arg s, Good s (inv h ctx arg s)

theorem pendBit_lt {s : State} {id : Nat} (h : pendBit s id = true) : s.eff id = true := by
  simpa [pendBit, regValue, getLsbD_idWord] using h

/-- A selected line is one of the lines (rules R146, R147). -/
theorem selectLine_lt {s : State} {id : Nat} (h : selectLine s = some id) : id < s.nIrq := by
  unfold selectLine at h
  split at h
  · unfold pickPending at h
    dsimp only at h
    split at h
    · rename_i hb; cases h; simp at hb; exact lt_of_eff (pendBit_lt hb.1)
    · have := List.mem_of_find?_eq_some h; simpa using this
  · unfold ackedLine at h
    split at h
    · cases h; assumption
    · cases h

theorem good_unhandled {s : State} {id : Nat} (h : id < s.nIrq) : Good s (.ok (unhandled s id)) :=
  ((Calm.of (.log s .unhandledIrq id) ⟨rfl, rfl, rfl, rfl⟩).trans (calm_enclr h)).ok

theorem good_serveLine {inv : Invoker} (hi : GoodInvoker inv) {s : State} {id : Nat} (h : id < s.nIrq) :
    Good s (serveLine inv id s) := by
  unfold serveLine
  split
  · exact hi _ _ _ _
  · exact good_unhandled h

/-- A dispatch that ends leaves the flag it set as it was before it: cleared. -/
theorem good_icDispatch {inv : Invoker} (hi : GoodInvoker inv) (s : State) : Good s (ruleIcDispatch inv s) := by
  unfold ruleIcDispatch
  split
  · exact good_raised _ _
  · rename_i hd
    have hq : s.inIrq = false := by simp [State.inDispatch] at hd; exact hd.1
    have he : Reach s s.enterIrq := .single (.enterIrq s)
    have ha := calm_afterSelect s.enterIrq
    split
    · refine ⟨(he.trans ha.1).tail (.leaveIrq _), ?_⟩
      exact ⟨hq.symm, ha.2.2.1, ha.2.2.2.1, ha.2.2.2.2⟩
    · rename_i id hsel
      have hlt : id < (afterSelect s.enterIrq).nIrq := by
        rw [ha.1.fixed.2]; exact selectLine_lt hsel
      have hg := good_serveLine hi hlt
      cases hr : serveLine inv id (afterSelect s.enterIrq) with
      | ok t =>
        rw [hr] at hg
        have hc := calm_complete t id
        have hsc := (ha.2.trans hg.2).trans hc.2
        refine ⟨((he.trans ha.1).trans (hg.1.trans hc.1)).tail (.leaveIrq _), ?_⟩
        exact ⟨hq.symm, hsc.2.1, hsc.2.2.1, hsc.2.2.2⟩
      | raised e t =>
        rw [hr] at hg
        exact (he.trans ha.1).trans hg
      | unending u => trivial

theorem good_icDispatchFiq {inv : Invoker} (hi : GoodInvoker inv) (s : State) : Good s (ruleIcDispatchFiq inv s) := by
  unfold ruleIcDispatchFiq
  split
  · exact good_raised _ _
  · rename_i hd
    have hq : s.inFiq = false := by simp [State.inDispatch] at hd; exact hd.2
    have he : Reach s s.enterFiq := .single (.enterFiq s)
    split
    · exact good_ok s
    · rename_i f _
      split
      · rename_i hf
        have hg := good_serveLine hi (s := s.enterFiq) (id := f) (lt_of_eff hf)
        cases hr : serveLine inv f s.enterFiq with
        | ok t =>
          rw [hr] at hg
          refine ⟨(he.trans hg.1).tail (.leaveFiq _), ?_⟩
          exact ⟨hg.2.1, hq.symm, hg.2.2.2.1, hg.2.2.2.2⟩
        | raised e t => rw [hr] at hg; exact he.trans hg
        | unending u => trivial
      · exact good_ok s

/-! ### Pin table and Pin -/

theorem good_checkObj {obj : Nat} {s : State} {k : State → Res} (h : Good s (k s)) : Good s (checkObj obj s k) := by
  unfold checkObj
  split
  · exact h
  · exact good_raised _ _

theorem good_checkAssigned {obj : Nat} {s : State} {k : PinNo → State → Res}
    (h : ∀ n, (s.obj obj).pinNumber = some n → Good s (k n s)) : Good s (checkAssigned obj s k) := by
  refine good_checkObj ?_
  split
  · exact good_raised _ _
  · exact h _ ‹_›

theorem good_gmConnectInterrupt (obj : Nat) (s : State) : Good s (ruleGmConnectInterrupt obj s) := by
  refine good_checkAssigned fun n hn => ?_
  split
  · exact good_raised _ _
  · exact (Calm.of (.connect s n obj hn ‹_›) ⟨rfl, rfl, rfl, rfl⟩).ok

theorem good_gmDisconnectInterrupt (obj : Nat) (s : State) : Good s (ruleGmDisconnectInterrupt obj s) := by
  refine good_checkAssigned fun n _ => ?_
  split
  · exact (Calm.of (.disconnect s n) ⟨rfl, rfl, rfl, rfl⟩).ok
  · exact good_raised _ _

theorem good_pinAssignPin (obj n : Nat) (s : State) : Good s (rulePinAssignPin obj n s) := by
  refine good_checkObj ?_
  split
  · split
    · exact good_raised _ _
    · exact (Calm.of (.assign s obj _ ‹_›) ⟨rfl, rfl, rfl, rfl⟩).ok
  · exact good_raised _ _

theorem calm_applyFunction (s : State) (n : PinNo) (fn : PinFunction) : Calm s (applyFunction s n fn) :=
  calm_modify (exists_fsel s _)

theorem calm_applyPull (s : State) (n : PinNo) (p : Pull) : Calm s (applyPull s n p) := by
  unfold applyPull
  split
  · rename_i hl
    have h1 : Calm s (strobeWait (memWrite s .pud ((pudCode p).setWidth 32))) := calm_write (exists_pud s hl)
    have h2 := h1.trans (calm_write (v := pinMask n) ((exists_pudclk s (pinWord n) hl).mono h1.1))
    exact h2.trans (calm_write ((exists_pudclk s (pinWord n) hl).mono h2.1))
  · exact calm_modify (exists_puppdn s _ ‹_›)

theorem memRead_pinObj (s : State) (r : Reg) : (memRead s r).pinObj = s.pinObj := by
  cases r <;> first | rfl | (simp only [memRead, readEffect]; split <;> rfl)

theorem memWrite_pinObj (s : State) (r : Reg) (v : Word) : (memWrite s r v).pinObj = s.pinObj := by
  cases r <;> simp only [memWrite, writeEffect] <;>
    first | rfl | (split <;> first | rfl | exact setTrig_pinObj _ _ _)

theorem memModify_pinObj (s : State) (r : Reg) (f : Word → Word) : (memModify s r f).pinObj = s.pinObj := by
  simp [memModify, memWrite_pinObj, memRead_pinObj]

theorem applyPull_pinObj (s : State) (n : PinNo) (p : Pull) : (applyPull s n p).pinObj = s.pinObj := by
  unfold applyPull
  split <;> simp [strobeWait, memModify_pinObj, memWrite_pinObj]

theorem applyFunction_pinObj (s : State) (n : PinNo) (fn : PinFunction) : (applyFunction s n fn).pinObj = s.pinObj :=
  memModify_pinObj _ _ _

theorem modifyKinds_pinObj (n : PinNo) (f : Word → Word) (ks : List TrigKind) (s : State) :
    (modifyKinds n f ks s).pinObj = s.pinObj := by
  induction ks generalizing s with
  | nil => rfl
  | cons k ks ih => rw [modifyKinds, ih, memModify_pinObj]

/-- Objects read the same where the list of objects is the same. -/
theorem obj_congr {s t : State} (h : t.pinObj = s.pinObj) (o : Nat) : t.obj o = s.obj o := by simp [State.obj, h]

/-- A record update that keeps the pin number, after register accesses. -/
theorem good_record {s t : State} {obj : Nat} {p : PinObj} (h : Calm s t) (ht : t.pinObj = s.pinObj)
    (hp : p.pinNumber = (s.obj obj).pinNumber) : Good s (.ok (t.setObj obj p)) :=
  (h.trans (.of (.record t obj p (by rw [hp, obj_congr ht])) ⟨rfl, rfl, rfl, rfl⟩)).ok

theorem good_pinSetMode (obj : Nat) (fn : PinFunction) (pc : BitVec 2) (s : State) :
    Good s (rulePinSetMode obj fn pc s) := by
  refine good_checkAssigned fun n _ => ?_
  split
  · exact good_raised _ _
  · refine good_record ((calm_applyFunction s n fn).trans (calm_applyPull _ n _)) ?_ rfl
    rw [applyPull_pinObj, applyFunction_pinObj]

theorem calm_modifyKinds (n : PinNo) (f : Word → Word) (ks : List TrigKind) (s : State) :
    Calm s (modifyKinds n f ks s) := by
  induction ks generalizing s with
  | nil => exact .refl s
  | cons k ks ih => exact (calm_modify (exists_trig s k _)).trans (ih _)

theorem good_pinEnableInterrupt (obj : Nat) (types : BitVec 6) (s : State) :
    Good s (rulePinEnableInterrupt obj types s) :=
  good_checkAssigned fun _ _ => good_record (calm_modifyKinds _ _ _ s) (modifyKinds_pinObj _ _ _ s) rfl

theorem good_pinDisableInterrupt (obj : Nat) (types : BitVec 6) (s : State) :
    Good s (rulePinDisableInterrupt obj types s) :=
  good_checkAssigned fun _ _ => good_record (calm_modifyKinds _ _ _ s) (modifyKinds_pinObj _ _ _ s) rfl

theorem good_pinConnectInterrupt (obj : Nat) (a : Bool) (h c : Word) (s : State) :
    Good s (rulePinConnectInterrupt obj a h c s) := by
  refine good_checkAssigned fun n _ => ?_
  split
  · exact good_raised _ _
  · refine good_andThen (good_gmConnectInterrupt obj s) fun t _ _ _ => ?_
    exact good_record (.refl t) rfl rfl

theorem good_pinDisconnectInterrupt (obj : Nat) (s : State) : Good s (rulePinDisconnectInterrupt obj s) := by
  refine good_checkAssigned fun n _ => ?_
  split
  · exact good_raised _ _
  · refine good_andThen (good_gmDisconnectInterrupt obj s) fun t _ _ _ => ?_
    exact good_record (.refl t) rfl rfl

theorem good_pinAcknowledgeInterrupt (obj : Nat) (s : State) : Good s (rulePinAcknowledgeInterrupt obj s) :=
  good_checkAssigned fun n _ => (calm_ackPin s n).ok

theorem good_pinDispatch {inv : Invoker} (hi : GoodInvoker inv) (obj : Nat) (s : State) :
    Good s (rulePinDispatch inv obj s) := by
  refine good_checkObj ?_
  split
  · exact good_ok s
  · split
    · exact hi _ _ _ _
    · exact good_ok s

/-! ### GM -/

theorem good_gmInitialize (s : State) : Good s (ruleGmInitialize s) := by
  unfold ruleGmInitialize
  split
  · exact good_ok s
  · exact good_andThen (good_icRegisterHandler _ _ _ s) fun t _ _ _ =>
      (Calm.of (.gmInit t) ⟨rfl, rfl, rfl, rfl⟩).ok

theorem calm_readStatus (s : State) : Calm s (readStatus s) := by
  unfold readStatus
  have h := calm_read (exists_eds s 0)
  split
  · exact h.trans (calm_read (exists_eds _ 1))
  · exact h

theorem good_servePin {inv : Invoker} (hi : GoodInvoker inv) (n : PinNo) (s : State) : Good s (servePin inv n s) := by
  unfold servePin
  split
  · exact ((Calm.of (.log s .unregisteredPin n.val) ⟨rfl, rfl, rfl, rfl⟩).trans (calm_ackPin _ n)).ok
  · refine good_andThen (good_pinDispatch hi _ s) fun t _ _ _ => ?_
    split
    · exact (calm_ackPin t n).ok
    · exact good_ok t

theorem good_gmDispatch {inv : Invoker} (hi : GoodInvoker inv) (s : State) : Good s (ruleGmDispatch inv s) := by
  unfold ruleGmDispatch
  split
  · exact good_raised _ _
  · rename_i hb
    have hq : s.gmBusy = false := by simpa using hb
    have he : Reach s { s with gmBusy := true } := .single (.gmBusy s true)
    have ha := calm_readStatus { s with gmBusy := true }
    dsimp only
    split
    · refine ⟨(he.trans ha.1).tail (.gmBusy _ false), ?_⟩
      exact ⟨ha.2.1, ha.2.2.1, hq.symm, ha.2.2.2.2⟩
    · rename_i n _
      have hg := good_servePin hi n (readStatus { s with gmBusy := true })
      cases hr : servePin inv n (readStatus { s with gmBusy := true }) with
      | ok t =>
        rw [hr] at hg
        have hsc := ha.2.trans hg.2
        refine ⟨((he.trans ha.1).trans hg.1).tail (.gmBusy _ false), ?_⟩
        exact ⟨hsc.1, hsc.2.1, hq.symm, hsc.2.2.2⟩
      | raised e t => rw [hr] at hg; exact (he.trans ha.1).trans hg
      | unending u => trivial

theorem calm_clearFsel (ks : List (Fin 6)) (s : State) : Calm s (clearFsel s ks) := by
  induction ks generalizing s with
  | nil => exact .refl s
  | cons k ks ih => exact (calm_write (exists_fsel s k)).trans (ih _)

theorem calm_clearPuppdn (js : List (Fin 4)) (s : State) (h : s.cfg.pullStyle = .combined2Bit) :
    Calm s (clearPuppdn s js) := by
  induction js generalizing s with
  | nil => exact .refl s
  | cons j js ih =>
    have hw : Calm s (memWrite s (.puppdn j) 0) := calm_write (exists_puppdn s j h)
    exact hw.trans (ih _ (by rw [hw.1.fixed.1]; exact h))

theorem calm_strobeAllOff (s : State) (h : s.cfg.pullStyle = .legacyStrobe) : Calm s (strobeAllOff s) := by
  have h1 : Calm s (strobeWait (memWrite s .pud 0)) := calm_write (exists_pud s h)
  have h2 := h1.trans (calm_write (v := 0xFFFFFFFF) ((exists_pudclk s 0 h).mono h1.1))
  have h3 := h2.trans (calm_write (v := 0xFFFFFFFF) ((exists_pudclk s 1 h).mono h2.1))
  have h4 := h3.trans (calm_write (v := 0) ((exists_pudclk s 0 h).mono h3.1))
  exact h4.trans (calm_write ((exists_pudclk s 1 h).mono h4.1))

theorem good_gmAllOff (s : State) : Good s (ruleGmAllOff s) := by
  have hf := calm_clearFsel [0, 1, 2, 3, 4, 5] s
  unfold ruleGmAllOff
  dsimp only
  split
  · exact (hf.trans (calm_strobeAllOff _ ‹_›)).ok
  · exact (hf.trans (calm_clearPuppdn _ _ ‹_›)).ok

/-! ### Enc -/

theorem good_emitOutput {inv : Invoker} (hi : GoodInvoker inv) (o : Option AppEvent) (s : State) :
    Good s (emitOutput inv o s) := by
  unfold emitOutput
  split
  · exact good_ok s
  · unfold emitEvent
    split
    · exact good_ok s
    · exact good_of_prim (.app s _) ⟨rfl, rfl, rfl, rfl⟩ (hi _ _ _ _)

theorem good_pinLevel {obj : Nat} {s : State} {k : Bool → State → Res} (h : ∀ b n, Good (memRead s (.lev n)) (k b (memRead s (.lev n)))) :
    Good s (pinLevel obj s k) := by
  unfold pinLevel
  split
  · exact good_raised _ _
  · exact (calm_read (exists_lev s _)).good (h _ _)

theorem good_encClkDt {inv : Invoker} (hi : GoodInvoker inv) (s : State) : Good s (ruleEncClkDt inv s) := by
  unfold ruleEncClkDt
  split
  · refine good_pinLevel fun _ _ => good_pinLevel fun _ _ => ?_
    exact (calm_enc ⟨rfl, .inl ⟨rfl, rfl⟩⟩).good (good_emitOutput hi _ _)
  · exact good_ok s

theorem good_btnStep {inv : Invoker} (hi : GoodInvoker inv) (ev : ButtonEvent) (s : State) :
    Good s (btnStep inv ev s) :=
  (calm_enc ⟨rfl, .inl ⟨rfl, rfl⟩⟩).good (good_emitOutput hi _ _)

theorem calm_startTimer (s : State) (d : Nat) (h c : Word) : Calm s (startTimer s d h c) :=
  .of (.startTimer s d h c) ⟨rfl, rfl, rfl, rfl⟩

theorem good_encSw (s : State) : Good s (ruleEncSw s) := by
  unfold ruleEncSw
  split
  · exact ((calm_cancelOptional s _).trans ((calm_startTimer _ _ _ _).trans (calm_enc ⟨rfl, .inl ⟨rfl, rfl⟩⟩))).ok
  · exact good_ok s

/-- The tick timer is started only while the switch is pressed. -/
theorem calm_startTick (s : State) (h : s.enc.swStable = false) : Calm s (startTick s) :=
  (calm_startTimer s _ _ _).trans (calm_enc ⟨rfl, .inr (.inr h)⟩)

@[simp] theorem cancelOptional_enc (s : State) (h : Option Word) : (cancelOptional s h).enc = s.enc := by
  cases h <;> rfl

theorem good_classifyPress {inv : Invoker} (hi : GoodInvoker inv) (s : State) (h : s.enc.swStable = false) :
    Good s (classifyPress inv s) := by
  have h1 : Calm s (s.setEnc fun e => { e with lastPress := s.ticks, pressSeen := true }) :=
    calm_enc ⟨rfl, .inl ⟨rfl, rfl⟩⟩
  have h2 := h1.trans (calm_cancelOptional _ (s.setEnc fun e => { e with lastPress := s.ticks, pressSeen := true }).enc.tickTimer)
  exact (h2.trans (calm_startTick _ (by simpa [State.setEnc] using h))).good (good_btnStep hi _ _)

/-- The release writes, gathered: the tick timer cancelled, then the driver's record. -/
theorem release_gathered (s : State) :
    ((cancelTick ((s.setEnc fun e => { e with swStable := true }).setEnc fun e => { e with lastRelease := s.ticks })).setEnc
        fun e => { e with tickTimer := none }) =
      (cancelTick s).setEnc fun e => { e with swStable := true, lastRelease := s.ticks, tickTimer := none } := by
  cases h : s.enc.tickTimer <;> simp [cancelTick, State.setEnc, h, cancelOptional, cancelTimer]

theorem good_encDebounce {inv : Invoker} (hi : GoodInvoker inv) (s : State) : Good s (ruleEncDebounce inv s) := by
  unfold ruleEncDebounce
  dsimp only
  refine (calm_enc (f := fun e => { e with debounceTimer := none }) ⟨rfl, .inl ⟨rfl, rfl⟩⟩).good ?_
  split
  · refine good_pinLevel fun b n => ?_
    generalize memRead _ _ = u
    split
    · exact good_ok u
    · cases b
      · exact (calm_enc ⟨rfl, .inr (.inr rfl)⟩).good (good_classifyPress hi _ rfl)
      · simp only [if_true]
        unfold classifyRelease
        have hg := release_gathered u
        simp only [show (u.setEnc fun e => { e with swStable := true }).ticks = u.ticks from rfl]
        rw [hg]
        refine Calm.good ((calm_cancelOptional u _).trans (calm_enc ?_)) (good_btnStep hi _ _)
        exact ⟨rfl, .inr (.inl rfl)⟩
  · exact good_ok _

theorem good_encTick {inv : Invoker} (hi : GoodInvoker inv) (s : State) : Good s (ruleEncTick inv s) := by
  unfold ruleEncTick
  dsimp only
  refine (calm_enc (f := fun e => { e with tickTimer := none }) ⟨rfl, .inr (.inl rfl)⟩).good ?_
  generalize s.setEnc _ = u
  split
  · split
    · exact good_btnStep hi _ _
    · rename_i hsw
      exact (calm_startTick u (by simpa using hsw)).good (good_btnStep hi _ _)
  · exact good_ok _

/-! ### The driver's lifecycle -/

/-- Objects with a pin number keep having one. -/
def KeepsPins (s t : State) : Prop := ∀ o, (s.obj o).pinNumber.isSome = true → (t.obj o).pinNumber.isSome = true

theorem KeepsPins.refl (s : State) : KeepsPins s s := fun _ h => h
theorem KeepsPins.trans {s t u : State} (h : KeepsPins s t) (h' : KeepsPins t u) : KeepsPins s u :=
  fun o ho => h' o (h o ho)

theorem keepsPins_setObj {s t : State} {obj : Nat} {p : PinObj} (ht : t.pinObj = s.pinObj)
    (hp : (s.obj obj).pinNumber.isSome = true → p.pinNumber.isSome = true) : KeepsPins s (t.setObj obj p) := by
  intro o ho
  rw [setObj_obj, obj_congr ht]
  split
  · rename_i h; rw [h.1] at ho; exact hp ho
  · exact ho

/-- Pin.AssignPin that ends well gives the object a pin number (rule R200). -/
theorem pinAssignPin_ok {obj n : Nat} {s t : State} (h : rulePinAssignPin obj n s = .ok t) :
    KeepsPins s t ∧ (t.obj obj).pinNumber.isSome = true := by
  unfold rulePinAssignPin checkObj at h
  split at h
  · rename_i hlt
    dsimp only at h
    split at h
    · split at h
      · cases h
      · cases h
        refine ⟨keepsPins_setObj rfl fun _ => rfl, ?_⟩
        rw [setObj_obj]; simp [hlt]
    · cases h
  · cases h

theorem checkAssigned_ok {obj : Nat} {s t : State} {k : PinNo → State → Res} (h : checkAssigned obj s k = .ok t) :
    obj < s.nPinObj ∧ ∃ n, (s.obj obj).pinNumber = some n ∧ k n s = .ok t := by
  unfold checkAssigned checkObj at h
  split at h
  · dsimp only at h
    split at h
    · cases h
    · exact ⟨‹_›, _, ‹_›, h⟩
  · cases h

theorem pinSetMode_ok {obj : Nat} {fn : PinFunction} {pc : BitVec 2} {s t : State}
    (h : rulePinSetMode obj fn pc s = .ok t) : KeepsPins s t := by
  obtain ⟨_, n, _, h⟩ := checkAssigned_ok h
  split at h
  · cases h
  · cases h
    exact keepsPins_setObj (by rw [applyPull_pinObj, applyFunction_pinObj]) fun h => h

theorem pinConnectInterrupt_ok {obj : Nat} {a : Bool} {hd c : Word} {s t : State}
    (h : rulePinConnectInterrupt obj a hd c s = .ok t) : KeepsPins s t := by
  obtain ⟨_, n, _, h⟩ := checkAssigned_ok h
  split at h
  · cases h
  · obtain ⟨u, hu, h⟩ := andThen_eq_ok.1 h
    obtain ⟨_, m, _, hu⟩ := checkAssigned_ok hu
    split at hu
    · cases hu
    · cases hu; cases h
      exact keepsPins_setObj rfl fun h => h

theorem pinEnableInterrupt_ok {obj : Nat} {types : BitVec 6} {s t : State}
    (h : rulePinEnableInterrupt obj types s = .ok t) : KeepsPins s t := by
  obtain ⟨_, n, _, h⟩ := checkAssigned_ok h
  cases h
  exact keepsPins_setObj (modifyKinds_pinObj _ _ _ s) fun h => h

/-- The driver starts only with a pin number at each of its objects (rule R240). -/
theorem good_encInitialize (sw dt clk : Nat) (s : State) : Good s (ruleEncInitialize sw dt clk s) := by
  unfold ruleEncInitialize
  split
  · exact good_raised _ _
  split
  · exact good_raised _ _
  split
  · exact good_raised _ _
  have step : ∀ {r : Res} {k : State → Res} (P Q : State → Prop), (∀ t, r = .ok t → P t) → Good s r →
      (∀ t, P t → Good t (k t)) → (∀ t u, P t → k t = .ok u → Q u) →
      Good s (r.andThen k) ∧ ∀ t, r.andThen k = .ok t → Q t := by
    intro r k P Q hp hg hk hq
    refine ⟨good_andThen hg fun t ht _ _ => hk t (hp t ht), fun t ht => ?_⟩
    obtain ⟨u, hu, ht⟩ := andThen_eq_ok.1 ht
    exact hq u t (hp u hu) ht
  have a0 : ∀ t, rulePinAssignPin clkObj clk s = .ok t → (t.obj clkObj).pinNumber.isSome = true :=
    fun t h => (pinAssignPin_ok h).2
  obtain ⟨g1, p1⟩ := step _ (fun t => (t.obj clkObj).pinNumber.isSome = true ∧ (t.obj dtObj).pinNumber.isSome = true)
    a0 (good_pinAssignPin clkObj clk s) (fun t _ => good_pinAssignPin dtObj dt t)
    fun t u hp h => ⟨(pinAssignPin_ok h).1 _ hp, (pinAssignPin_ok h).2⟩
  obtain ⟨g2, p2⟩ := step _ EncPinsAssigned p1 g1 (fun t _ => good_pinAssignPin swObj sw t) fun t u hp h => by
    intro o ho
    simp only [List.mem_cons, List.not_mem_nil, or_false] at ho
    rcases ho with rfl | rfl | rfl
    · exact (pinAssignPin_ok h).1 _ hp.1
    · exact (pinAssignPin_ok h).1 _ hp.2
    · exact (pinAssignPin_ok h).2
  have keep : ∀ {t u : State}, EncPinsAssigned t → KeepsPins t u → EncPinsAssigned u :=
    fun hp hk o ho => hk o (hp o ho)
  obtain ⟨g3, p3⟩ := step _ EncPinsAssigned p2 g2 (fun t _ => good_pinSetMode clkObj .input 1 t)
    fun t u hp h => keep hp (pinSetMode_ok h)
  obtain ⟨g4, p4⟩ := step _ EncPinsAssigned p3 g3 (fun t _ => good_pinSetMode dtObj .input 1 t)
    fun t u hp h => keep hp (pinSetMode_ok h)
  obtain ⟨g5, p5⟩ := step _ EncPinsAssigned p4 g4 (fun t _ => good_pinSetMode swObj .input 1 t)
    fun t u hp h => keep hp (pinSetMode_ok h)
  obtain ⟨g6, p6⟩ := step _ EncPinsAssigned p5 g5 (fun t _ => good_pinConnectInterrupt clkObj true (builtinWord .encClkDt) 0 t)
    fun t u hp h => keep hp (pinConnectInterrupt_ok h)
  obtain ⟨g7, p7⟩ := step _ EncPinsAssigned p6 g6 (fun t _ => good_pinConnectInterrupt dtObj true (builtinWord .encClkDt) 0 t)
    fun t u hp h => keep hp (pinConnectInterrupt_ok h)
  obtain ⟨g8, p8⟩ := step _ EncPinsAssigned p7 g7 (fun t _ => good_pinConnectInterrupt swObj true (builtinWord .encSw) 0 t)
    fun t u hp h => keep hp (pinConnectInterrupt_ok h)
  obtain ⟨g9, p9⟩ := step _ EncPinsAssigned p8 g8 (fun t _ => good_pinEnableInterrupt clkObj bothEdges t)
    fun t u hp h => keep hp (pinEnableInterrupt_ok h)
  obtain ⟨g10, p10⟩ := step _ EncPinsAssigned p9 g9 (fun t _ => good_pinEnableInterrupt dtObj bothEdges t)
    fun t u hp h => keep hp (pinEnableInterrupt_ok h)
  obtain ⟨g11, p11⟩ := step _ EncPinsAssigned p10 g10 (fun t _ => good_pinEnableInterrupt swObj bothEdges t)
    fun t u hp h => keep hp (pinEnableInterrupt_ok h)
  exact (step _ (fun _ => True) p11 g11
    (fun t hp => (Calm.of (.encStart t hp) ⟨rfl, rfl, rfl, rfl⟩).ok) fun _ _ _ _ => trivial).1

theorem good_encRegisterEventHandler (h c : Word) (s : State) : Good s (ruleEncRegisterEventHandler h c s) := by
  unfold ruleEncRegisterEventHandler
  split
  · exact good_raised _ _
  · exact (calm_enc ⟨rfl, .inl ⟨rfl, rfl⟩⟩).ok

/-- Pin numbers stay and pin-table slots only become empty. -/
def SlotsShrink (s t : State) : Prop :=
  (∀ o, (t.obj o).pinNumber = (s.obj o).pinNumber) ∧ ∀ (n : PinNo) (o : Nat), t.pinTable[n] = some o → s.pinTable[n] = some o

theorem SlotsShrink.trans {s t u : State} (h : SlotsShrink s t) (h' : SlotsShrink t u) : SlotsShrink s u :=
  ⟨fun o => (h'.1 o).trans (h.1 o), fun n o ho => h.2 n o (h'.2 n o ho)⟩

/-- Reading a slot after replacing one. -/
theorem setSlot_slot (s : State) (n m : PinNo) (v : Option Nat) :
    (s.setSlot n v).pinTable[m] = if m = n then v else s.pinTable[m] := by
  simp only [State.setSlot, Fin.getElem_fin, Vector.getElem_set]
  by_cases h : m = n
  · subst h; simp
  · have : ¬ n.val = m.val := fun e => h (Fin.ext e.symm)
    simp [h, this]

/-- Pin.DisconnectInterrupt that ends well empties the object's slot (rules R175, R208). -/
theorem pinDisconnectInterrupt_ok {obj : Nat} {s t : State} (h : rulePinDisconnectInterrupt obj s = .ok t) :
    SlotsShrink s t ∧ ∀ n, (t.obj obj).pinNumber = some n → t.pinTable[n] ≠ some obj := by
  obtain ⟨hlt, n, hn, h⟩ := checkAssigned_ok h
  split at h
  · cases h
  · obtain ⟨u, hu, h⟩ := andThen_eq_ok.1 h
    obtain ⟨_, m, hm, hu⟩ := checkAssigned_ok hu
    rw [hn] at hm; cases hm
    split at hu
    · cases hu; cases h
      have hobj : ∀ o, (((s.setSlot n none).setObj obj { (s.setSlot n none).obj obj with handler := none }).obj o).pinNumber
          = (s.obj o).pinNumber := by
        intro o
        rw [setObj_obj]
        split
        · rename_i ho; rw [ho.1]; rfl
        · rfl
      refine ⟨⟨hobj, fun k o ho => ?_⟩, fun k hk => ?_⟩
      · have ho : (s.setSlot n none).pinTable[k] = some o := ho
        rw [setSlot_slot] at ho
        split at ho
        · cases ho
        · exact ho
      · rw [hobj, hn] at hk
        cases hk
        show (s.setSlot n none).pinTable[n] ≠ some obj
        rw [setSlot_slot]; simp
    · cases hu

/-- The driver's pins are destroyed only when no slot holds them (rule R242). -/
theorem good_encUninitialize (s : State) : Good s (ruleEncUninitialize s) := by
  unfold ruleEncUninitialize
  split
  · have hc : Calm s (cancelEncTimers s) := by
      unfold cancelEncTimers
      dsimp only
      refine ((calm_cancelOptional s s.enc.debounceTimer).trans
        (calm_enc (f := fun e => { e with debounceTimer := none }) ⟨rfl, .inl ⟨rfl, rfl⟩⟩)).trans ?_
      exact (calm_cancelOptional _ _).trans
        (calm_enc (f := fun e => { e with tickTimer := none }) ⟨rfl, .inr (.inl rfl)⟩)
    refine hc.good ?_
    generalize cancelEncTimers s = u
    have hd : Good u (((rulePinDisconnectInterrupt clkObj u).andThen (rulePinDisconnectInterrupt dtObj)).andThen
        (rulePinDisconnectInterrupt swObj)) :=
      good_andThen (good_andThen (good_pinDisconnectInterrupt _ _) fun t _ _ _ => good_pinDisconnectInterrupt _ t)
        fun t _ _ _ => good_pinDisconnectInterrupt _ t
    refine good_andThen hd fun t ht _ _ => ?_
    obtain ⟨b, hb, ht⟩ := andThen_eq_ok.1 ht
    obtain ⟨a, ha, hb⟩ := andThen_eq_ok.1 hb
    have ha := pinDisconnectInterrupt_ok ha
    have hb := pinDisconnectInterrupt_ok hb
    have ht := pinDisconnectInterrupt_ok ht
    refine (Calm.of (.encStop t ?_) ⟨rfl, rfl, rfl, rfl⟩).ok
    intro o ho n hn
    simp only [List.mem_cons, List.not_mem_nil, or_false] at ho
    rcases ho with rfl | rfl | rfl
    · intro hs
      have hbt := hb.1.trans ht.1
      exact ha.2 n (by rw [← hbt.1]; exact hn) (hbt.2 _ _ hs)
    · intro hs
      exact hb.2 n (by rw [← ht.1.1]; exact hn) (ht.1.2 _ _ hs)
    · exact ht.2 n hn
  · exact good_raised _ _

/-! ### Raw register commands and the timer line -/

theorem good_checkAccess {a : Word} {w : Nat} {s : State} {k : Reg → Res} (h : ∀ r, RegExists s r → Good s (k r)) :
    Good s (checkAccess a w s k) := by
  unfold checkAccess
  split
  · split
    · exact h _ (exists_of_regAt ‹_›)
    · exact good_raised _ _
  · exact good_raised _ _

theorem good_memRead32 (a : Word) (s : State) : Good s (ruleMemRead32 a s) := by
  refine good_checkAccess fun r hr => ?_
  have h := calm_read hr
  have : s.readTrace = (memRead s r).readTrace := by
    cases r <;> first | rfl | (simp only [memRead, readEffect]; split <;> rfl)
  rw [this]
  exact (h.trans (.of (.readTrace _ _) ⟨rfl, rfl, rfl, rfl⟩)).ok

theorem good_memWrite32 (a v : Word) (s : State) : Good s (ruleMemWrite32 a v s) :=
  good_checkAccess fun _ hr => (calm_write hr).ok

theorem good_fireTimers {inv : Invoker} (hi : GoodInvoker inv) (ts : List Timer) (s : State) :
    Good s (fireTimers inv ts s) := by
  induction ts generalizing s with
  | nil => exact good_ok s
  | cons t ts ih =>
    refine good_andThen ?_ fun u _ _ _ => ih u
    unfold fireTimer
    split
    · exact good_of_prim (.expire s t) ⟨rfl, rfl, rfl, rfl⟩ (hi _ _ _ _)
    · exact good_ok s

theorem good_timer {inv : Invoker} (hi : GoodInvoker inv) (s : State) : Good s (ruleTimer inv s) :=
  good_of_prim (.tick s) ⟨rfl, rfl, rfl, rfl⟩ (good_fireTimers hi _ _)

/-! ### Invoking handlers, and the commands -/

theorem good_command {inv : Invoker} (hi : GoodInvoker inv) (i : Instr) (s : State) : Good s (command inv i s) := by
  cases i with
  | icRegisterHandler id h c => exact good_icRegisterHandler id h c s
  | icUnregisterHandler id => exact good_icUnregisterHandler id s
  | icEnableLine id => exact good_icEnableLine id s
  | icDisableLine id => exact good_icDisableLine id s
  | icDisableAllLines => exact good_icDisableAllLines s
  | icDispatch => exact good_icDispatch hi s
  | icDispatchFiq => exact good_icDispatchFiq hi s
  | gmInitialize => exact good_gmInitialize s
  | gmConnectInterrupt obj => exact good_gmConnectInterrupt obj s
  | gmDisconnectInterrupt obj => exact good_gmDisconnectInterrupt obj s
  | gmDispatch => exact good_gmDispatch hi s
  | gmAllOff => exact good_gmAllOff s
  | pinAssignPin obj n => exact good_pinAssignPin obj n s
  | pinSetMode obj fn p => exact good_pinSetMode obj fn p s
  | pinEnableInterrupt obj ts => exact good_pinEnableInterrupt obj ts s
  | pinDisableInterrupt obj ts => exact good_pinDisableInterrupt obj ts s
  | pinConnectInterrupt obj a h c => exact good_pinConnectInterrupt obj a h c s
  | pinDisconnectInterrupt obj => exact good_pinDisconnectInterrupt obj s
  | pinAcknowledgeInterrupt obj => exact good_pinAcknowledgeInterrupt obj s
  | pinDispatch obj => exact good_pinDispatch hi obj s
  | encInitialize sw dt clk => exact good_encInitialize sw dt clk s
  | encRegisterEventHandler h c => exact good_encRegisterEventHandler h c s
  | encUninitialize => exact good_encUninitialize s
  | memRead32 a => exact good_memRead32 a s
  | memWrite32 a v => exact good_memWrite32 a v s
  | evPinLevel n l => exact good_ok s
  | evIrqLine id l => exact good_ok s
  | evTimerPeriod => exact good_ok s

theorem good_runBody {inv : Invoker} (hi : GoodInvoker inv) (is : List Instr) (s : State) :
    Good s (runBody inv is s) := by
  induction is generalizing s with
  | nil => exact good_ok s
  | cons i is ih => exact good_andThen (good_command hi i s) fun t _ _ _ => ih t

theorem good_runExternal {inv : Invoker} (hi : GoodInvoker inv) (h ctx : Word) (arg : Option AppEvent) (s : State) :
    Good s (runExternal inv h ctx arg s) := by
  unfold runExternal
  dsimp only
  refine good_of_prim (.call s h ctx) ⟨rfl, rfl, rfl, rfl⟩ ?_
  generalize recordCall h ctx s = u
  split
  · exact good_raised _ _
  · have hb := good_runBody hi (handlerBody u.cfg h ctx arg) { u with invokeDepth := u.invokeDepth + 1 }
    have he : Reach u { u with invokeDepth := u.invokeDepth + 1 } := .single (.depth u _)
    cases hr : runBody inv (handlerBody u.cfg h ctx arg) { u with invokeDepth := u.invokeDepth + 1 } with
    | ok t =>
      rw [hr] at hb
      refine ⟨(he.trans hb.1).tail (.depth _ _), hb.2.1, hb.2.2.1, hb.2.2.2.1, ?_⟩
      show t.invokeDepth - 1 = u.invokeDepth
      rw [hb.2.2.2.2]; rfl
    | raised e t => rw [hr] at hb; exact he.trans hb
    | unending u => trivial

theorem good_runBuiltin {inv : Invoker} (hi : GoodInvoker inv) (b : Builtin) (s : State) :
    Good s (runBuiltin inv b s) := by
  cases b with
  | gm => exact good_gmDispatch hi s
  | timer => exact good_timer hi s
  | encClkDt => exact good_encClkDt hi s
  | encSw => exact good_encSw s
  | encDebounce => exact good_encDebounce hi s
  | encTick => exact good_encTick hi s

/-- A call over good calls is good (rule R334). -/
theorem good_invokeWith {inv : Invoker} (hi : GoodInvoker inv) : GoodInvoker (invokeWith inv) := by
  intro h ctx arg s
  unfold invokeWith
  split
  · exact good_runBuiltin hi _ s
  · exact good_raised _ _
  · exact good_runExternal hi h ctx arg s

theorem good_splitCall {runs calls : Invoker} (hr : GoodInvoker runs) (hc : GoodInvoker calls) :
    GoodInvoker (splitCall runs calls) := by
  intro h ctx arg s
  unfold splitCall
  split
  · exact hr _ _ _ _
  · exact hc _ _ _ _

theorem good_nestedCall {runs : Invoker} (hr : GoodInvoker runs) (n : Nat) : GoodInvoker (nestedCall runs n) := by
  induction n with
  | zero => intro h ctx arg s; trivial
  | succ n ih => exact good_invokeWith (good_splitCall hr ih)

theorem good_timedCall (n : Nat) : GoodInvoker (timedCall n) := by
  induction n with
  | zero => intro h ctx arg s; trivial
  | succ n ih => intro h ctx arg s; exact good_nestedCall ih _ h ctx arg s

/-- Every call of a handler word is good (rule R334). -/
theorem good_invoke : GoodInvoker invoke := good_timedCall _

/-! ### Every operation -/

/-- The rule of an operation (rule R104). -/
def ruleOf : Instr → State → Res
  | .evPinLevel n level => ruleEvPinLevel n level
  | .evIrqLine id level => ruleEvIrqLine id level
  | .evTimerPeriod => ruleEvTimerPeriod
  | i => command invoke i

/-- Every operation is its rule in the operation frame. -/
theorem exec_eq_perform (i : Instr) (s : State) : exec i s = perform i.opword (ruleOf i) s := by cases i <;> rfl

/-- What a step of a command can do: it runs only from a state without a fault; it answers a state reached by primitive
updates that leaves the context flags as they were, or such a state (whatever its context flags) with the fault record
set to the command's operation word. -/
theorem exec_command {i : Instr} {s t : State} (hc : i.isCommand = true) (h : exec i s = .next t) :
    s.fault = none ∧ ((Reach s t ∧ SameContext s t) ∨ ∃ e u, Reach s u ∧ t = u.raiseFault e i.opword) := by
  rw [exec_eq_perform] at h
  obtain ⟨hf, hp⟩ := perform_next h
  have hr : ruleOf i s = command invoke i s := by cases i <;> first | rfl | cases hc
  rw [hr] at hp
  have hg := good_command good_invoke i s
  change Good s (command invoke i s) at hg
  refine ⟨hf, ?_⟩
  rcases hp with hp | ⟨e, u, hp, rfl⟩
  · rw [hp] at hg; exact .inl hg
  · rw [hp] at hg; exact .inr ⟨e, u, hg, rfl⟩

end Sys2Proof.Laws
end

