-- ==== Sys2Proof/Laws/Calls.lean ====
section
/-! SUPPORT. The bound on nested calls cuts off no operation that ends: a call is the recursion of rule R334, whatever
word it calls, and only the runs of the timer handler inside each other are counted (log entries 11 and 23). -/

namespace Sys2Proof.Laws

open Sys2Proof.Machine

/-! ### Calls that agree -/

/-- How many external handlers and pin dispatches can still nest in each other (rules R176, R334). -/
def nestingLeft (s : State) : Nat := (s.cfg.maxNest - s.invokeDepth) + (if s.gmBusy then 0 else 1)

/-- Two calls of handler words do the same at the states of a configuration where at most `k` frames can still nest. -/
def Agree (c : Config) (k : Nat) (inv inv' : Invoker) : Prop :=
  ∀ h ctx arg u, u.cfg = c → nestingLeft u ≤ k → inv h ctx arg u = inv' h ctx arg u

theorem nestingLeft_calm {s t : State} (h : Calm s t) : nestingLeft t = nestingLeft s := by
  simp [nestingLeft, h.1.fixed.1, h.2.2.2.1, h.2.2.2.2]

theorem Agree.calm {c : Config} {k : Nat} {inv inv' : Invoker} (h : Agree c k inv inv') {s t : State} (hc : s.cfg = c)
    (hk : nestingLeft s ≤ k) (hst : Calm s t) (w ctx : Word) (arg : Option AppEvent) :
    inv w ctx arg t = inv' w ctx arg t :=
  h w ctx arg t (hst.1.fixed.1.trans hc) (by rw [nestingLeft_calm hst]; exact hk)

theorem Agree.mono {c : Config} {k k' : Nat} {inv inv' : Invoker} (h : Agree c k inv inv') (hk : k' ≤ k) :
    Agree c k' inv inv' := fun w ctx arg u hc hu => h w ctx arg u hc (hu.trans hk)

/-! ### Rules over calls that agree -/

section Congruence

variable {c : Config} {k : Nat} {inv inv' : Invoker}

theorem serveLine_congr (ha : Agree c k inv inv') {s t : State} (hc : s.cfg = c) (hk : nestingLeft s ≤ k)
    (hst : Calm s t) (id : Nat) : serveLine inv id t = serveLine inv' id t := by
  unfold serveLine
  split
  · exact ha.calm hc hk hst _ _ _
  · rfl

theorem pinDispatch_congr (ha : Agree c k inv inv') {s t : State} (hc : s.cfg = c) (hk : nestingLeft s ≤ k)
    (hst : Calm s t) (obj : Nat) : rulePinDispatch inv obj t = rulePinDispatch inv' obj t := by
  unfold rulePinDispatch checkObj
  split
  · dsimp only
    split
    · rfl
    · split
      · exact ha.calm hc hk hst _ _ _
      · rfl
  · rfl

theorem servePin_congr (ha : Agree c k inv inv') {s t : State} (hc : s.cfg = c) (hk : nestingLeft s ≤ k)
    (hst : Calm s t) (n : PinNo) : servePin inv n t = servePin inv' n t := by
  unfold servePin
  split
  · rfl
  · dsimp only
    rw [pinDispatch_congr ha hc hk hst]

/-- A pin dispatch uses up one of the frames that can nest (rule R176). -/
theorem gmDispatch_congr (ha : Agree c k inv inv') {s : State} (hc : s.cfg = c) (hk : nestingLeft s ≤ k + 1) :
    ruleGmDispatch inv s = ruleGmDispatch inv' s := by
  unfold ruleGmDispatch
  split
  · rfl
  · rename_i hb
    have hb : s.gmBusy = false := by simpa using hb
    have hk' : nestingLeft { s with gmBusy := true } ≤ k := by simp [nestingLeft, hb] at hk ⊢; omega
    dsimp only
    split
    · rfl
    · rw [servePin_congr (s := { s with gmBusy := true }) ha hc hk' (calm_readStatus _)]

theorem icDispatch_congr (ha : Agree c k inv inv') {s : State} (hc : s.cfg = c) (hk : nestingLeft s ≤ k) :
    ruleIcDispatch inv s = ruleIcDispatch inv' s := by
  unfold ruleIcDispatch
  split
  · rfl
  · split
    · rfl
    · rw [serveLine_congr (s := s.enterIrq) ha hc hk (calm_afterSelect _)]

theorem icDispatchFiq_congr (ha : Agree c k inv inv') {s : State} (hc : s.cfg = c) (hk : nestingLeft s ≤ k) :
    ruleIcDispatchFiq inv s = ruleIcDispatchFiq inv' s := by
  unfold ruleIcDispatchFiq
  split
  · rfl
  · split
    · rfl
    · split
      · rw [serveLine_congr (s := s.enterFiq) ha hc hk (.refl _)]
      · rfl

theorem command_congr (ha : Agree c k inv inv') {s : State} (hc : s.cfg = c) (hk : nestingLeft s ≤ k) (i : Instr) :
    command inv i s = command inv' i s := by
  cases i <;>
    first
    | rfl
    | exact icDispatch_congr ha hc hk
    | exact icDispatchFiq_congr ha hc hk
    | exact gmDispatch_congr ha hc (by omega)
    | exact pinDispatch_congr ha hc hk (.refl s) _

theorem runBody_congr (hg : GoodInvoker inv) (ha : Agree c k inv inv') {s : State} (hc : s.cfg = c)
    (hk : nestingLeft s ≤ k) (is : List Instr) : runBody inv is s = runBody inv' is s := by
  induction is generalizing s with
  | nil => rfl
  | cons i is ih =>
    have h := good_command hg i s
    rw [runBody, runBody, ← command_congr ha hc hk i]
    cases hr : command inv i s with
    | ok t =>
      rw [hr] at h
      exact ih (h.1.fixed.1.trans hc) (by rw [nestingLeft_calm h]; exact hk)
    | raised e t => rfl
    | unending u => rfl

theorem fireTimers_congr (hg : GoodInvoker inv) (ha : Agree c k inv inv') {s : State} (hc : s.cfg = c)
    (hk : nestingLeft s ≤ k) (ts : List Timer) : fireTimers inv ts s = fireTimers inv' ts s := by
  induction ts generalizing s with
  | nil => rfl
  | cons x ts ih =>
    rw [fireTimers, fireTimers]
    unfold fireTimer
    split
    · have he : Calm s { s with timers := s.timers.erase x } := .of (.expire s x) ⟨rfl, rfl, rfl, rfl⟩
      have h := he.good (hg x.callback x.ctx none { s with timers := s.timers.erase x })
      rw [← ha.calm hc hk he]
      cases hr : inv x.callback x.ctx none { s with timers := s.timers.erase x } with
      | ok t =>
        rw [hr] at h
        exact ih (h.1.fixed.1.trans hc) (by rw [nestingLeft_calm h]; exact hk)
      | raised e t => rfl
      | unending u => rfl
    · exact ih hc hk

/-- An external handler uses up one of the frames that can nest (rule R334). -/
theorem runExternal_congr (hg : GoodInvoker inv) (ha : Agree c k inv inv') {s : State} (hc : s.cfg = c)
    (hk : nestingLeft s ≤ k + 1) (h ctx : Word) (arg : Option AppEvent) :
    runExternal inv h ctx arg s = runExternal inv' h ctx arg s := by
  unfold runExternal
  dsimp only
  split
  · rfl
  · rename_i hd
    have hd : s.invokeDepth < s.cfg.maxNest := Nat.lt_of_not_le hd
    rw [runBody_congr (s := { recordCall h ctx s with invokeDepth := (recordCall h ctx s).invokeDepth + 1 }) hg ha hc]
    change (s.cfg.maxNest - s.invokeDepth) + (if s.gmBusy then 0 else 1) ≤ k + 1 at hk
    change (s.cfg.maxNest - (s.invokeDepth + 1)) + (if s.gmBusy then 0 else 1) ≤ k
    omega

end Congruence

/-! ### Handlers of the encoder driver -/

/-- A result of a driver handler over a call: the same whatever the call, or one call of the application callback as its
last act, at a state with the same configuration, frames and callback and with `P`. -/
def CallsLast (s : State) (f : Invoker → Res) (P : State → Prop) : Prop :=
  (∃ r, ∀ inv, f inv = r) ∨
    ∃ e cb u, (∀ inv, f inv = inv cb.handler cb.ctx (some e) u) ∧ s.enc.appCallback = some cb ∧
      u.enc.appCallback = some cb ∧ u.cfg = s.cfg ∧ nestingLeft u = nestingLeft s ∧ P u

/-- The same configuration and the same frames in progress. -/
def SameFrames (s t : State) : Prop := t.cfg = s.cfg ∧ t.gmBusy = s.gmBusy ∧ t.invokeDepth = s.invokeDepth

theorem SameFrames.trans {s t u : State} (h : SameFrames s t) (h' : SameFrames t u) : SameFrames s u :=
  ⟨h'.1.trans h.1, h'.2.1.trans h.2.1, h'.2.2.trans h.2.2⟩

theorem SameFrames.nestingLeft {s t : State} (h : SameFrames s t) : nestingLeft t = nestingLeft s := by
  simp [Laws.nestingLeft, h.1, h.2.1, h.2.2]

theorem CallsLast.imp {s : State} {f : Invoker → Res} {P Q : State → Prop} (h : ∀ u, P u → Q u) :
    CallsLast s f P → CallsLast s f Q := by
  rintro (h0 | ⟨e, cb, u, h1, h2, h3, h4, h5, h6⟩)
  · exact .inl h0
  · exact .inr ⟨e, cb, u, h1, h2, h3, h4, h5, h u h6⟩

theorem emitOutput_callsLast {s t : State} {out : Option AppEvent} {P : State → Prop} (ht : SameFrames s t)
    (hcb : t.enc.appCallback = s.enc.appCallback)
    (hP : ∀ e l, out = some e → P { t with appTrace := l }) :
    CallsLast s (fun inv => emitOutput inv out t) P := by
  unfold emitOutput
  cases out with
  | none => exact .inl ⟨.ok t, fun _ => rfl⟩
  | some e =>
    unfold emitEvent
    cases h : t.enc.appCallback with
    | none => exact .inl ⟨.ok t, fun _ => by simp⟩
    | some cb =>
      exact .inr ⟨e, cb, { t with appTrace := t.appTrace ++ [⟨e, cb.ctx⟩] }, fun _ => by simp, by rw [← hcb, h], h,
        ht.1, ht.nestingLeft, hP e _ rfl⟩

/-- The result of a rule over a call does not depend on the call. -/
def Callless (f : Invoker → Res) : Prop := ∃ r, ∀ inv, f inv = r

/-- A rotation is emitted on the neutral input and leaves the decoder in Start, where that input emits nothing (rules
R245, R246). -/
theorem qdecOut_some {c : Config} {st : EncState} {q : Nat} {e : AppEvent} (h : qdecOut st q = some e) :
    qdecNext c st q = .start ∧ qdecOut .start q = none := by
  unfold qdecOut at h
  split at h <;> first | exact ⟨rfl, rfl⟩ | cases h

/-- The input that the decoder reads, the pins being known (rule R112). -/
def quadInput (s : State) (clk dt : PinNo) : Nat :=
  qin ((regValue s (.lev (pinWord clk))).getLsbD (clk.val % 32)) ((regValue s (.lev (pinWord dt))).getLsbD (dt.val % 32))

/-- The state in which the CLK/DT handler emits its event, the pins being known (rule R243). -/
def afterClkDt (s : State) (clk dt : PinNo) : State :=
  (memRead (memRead s (.lev (pinWord clk))) (.lev (pinWord dt))).setEnc fun e =>
    { e with encState := qdecNext s.cfg e.encState (quadInput s clk dt) }

theorem afterClkDt_fields (s : State) (clk dt : PinNo) :
    SameFrames s (afterClkDt s clk dt) ∧ (afterClkDt s clk dt).lev = s.lev ∧
      (afterClkDt s clk dt).pinObj = s.pinObj ∧ (afterClkDt s clk dt).enc.initialized = s.enc.initialized ∧
      (afterClkDt s clk dt).enc.encState = qdecNext s.cfg s.enc.encState (quadInput s clk dt) ∧
      (afterClkDt s clk dt).enc.appCallback = s.enc.appCallback := by
  simp [afterClkDt, SameFrames, State.setEnc, memRead, readEffect, State.pushBus]

theorem ruleEncClkDt_eq {s : State} {clk dt : PinNo} (hi : s.enc.initialized = true)
    (hc : (s.obj clkObj).pinNumber = some clk) (hd : (s.obj dtObj).pinNumber = some dt) (inv : Invoker) :
    ruleEncClkDt inv s = emitOutput inv (qdecOut s.enc.encState (quadInput s clk dt)) (afterClkDt s clk dt) := by
  have ho : (memRead s (.lev (pinWord clk))).obj dtObj = s.obj dtObj := rfl
  simp only [ruleEncClkDt, hi, if_true, pinLevel, hc, ho, hd]
  rfl

theorem encClkDt_callless {s : State} {clk dt : PinNo} (hi : s.enc.initialized = true)
    (hc : (s.obj clkObj).pinNumber = some clk) (hd : (s.obj dtObj).pinNumber = some dt)
    (hq : qdecOut s.enc.encState (quadInput s clk dt) = none) : Callless fun inv => ruleEncClkDt inv s :=
  ⟨.ok (afterClkDt s clk dt), fun inv => by dsimp only; rw [ruleEncClkDt_eq hi hc hd, hq]; rfl⟩

theorem quadInput_congr {s t : State} (h : t.lev = s.lev) (clk dt : PinNo) : quadInput t clk dt = quadInput s clk dt := by
  simp [quadInput, regValue, h]

/-- The CLK/DT handler calls the callback last, at a state where it would itself call nothing (rule R243). -/
theorem encClkDt_callsLast (s : State) :
    CallsLast s (fun inv => ruleEncClkDt inv s) fun u => Callless fun inv => ruleEncClkDt inv u := by
  by_cases hi : s.enc.initialized = true
  · cases hc : (s.obj clkObj).pinNumber with
    | none => exact .inl ⟨.raised .pinUnassigned s, fun _ => by simp [ruleEncClkDt, hi, pinLevel, hc]⟩
    | some clk =>
      cases hd : (s.obj dtObj).pinNumber with
      | none =>
        have ho : (memRead s (.lev (pinWord clk))).obj dtObj = s.obj dtObj := rfl
        exact .inl ⟨.raised .pinUnassigned (memRead s (.lev (pinWord clk))), fun _ => by
          simp [ruleEncClkDt, hi, pinLevel, hc, ho, hd]⟩
      | some dt =>
        simp only [ruleEncClkDt_eq hi hc hd]
        obtain ⟨ht, h1, h2, h3, h4, h5⟩ := afterClkDt_fields s clk dt
        generalize afterClkDt s clk dt = t at *
        refine emitOutput_callsLast ht h5 fun e l he => ?_
        have hs := qdecOut_some (c := s.cfg) he
        have hobj : ∀ o, ({ t with appTrace := l } : State).obj o = s.obj o := obj_congr h2
        refine encClkDt_callless (clk := clk) (dt := dt) (h3.trans hi) (by rw [hobj, hc]) (by rw [hobj, hd]) ?_
        rw [quadInput_congr (t := { t with appTrace := l }) h1]
        change qdecOut t.enc.encState _ = none
        rw [h4, hs.1, hs.2]
  · exact .inl ⟨.ok s, fun _ => by simp [ruleEncClkDt, hi]⟩

/-- The level of a pin (rule R212). -/
def levelOf (s : State) (n : PinNo) : Bool := (regValue s (.lev (pinWord n))).getLsbD (n.val % 32)

/-- The state in which a debounce expiry classifies a new level of the switch's pin (rule R271). -/
def atNewLevel (s : State) (sw : PinNo) : State :=
  (memRead (s.setEnc fun e => { e with debounceTimer := none }) (.lev (pinWord sw))).setEnc fun e =>
    { e with swStable := levelOf s sw }

theorem ruleEncDebounce_eq {s : State} {sw : PinNo} (hi : s.enc.initialized = true)
    (hp : (s.obj swObj).pinNumber = some sw) (inv : Invoker) :
    ruleEncDebounce inv s =
      if levelOf s sw = s.enc.swStable then
        .ok (memRead (s.setEnc fun e => { e with debounceTimer := none }) (.lev (pinWord sw)))
      else if levelOf s sw then classifyRelease inv (atNewLevel s sw)
      else classifyPress inv (atNewLevel s sw) := by
  have h1 : (s.setEnc fun e => { e with debounceTimer := none }).enc.initialized = true := hi
  have h2 : ((s.setEnc fun e => { e with debounceTimer := none }).obj swObj).pinNumber = some sw := hp
  simp only [ruleEncDebounce, h1, if_true, pinLevel, h2]
  rfl

theorem encDebounce_callless {s : State} {sw : PinNo} (hi : s.enc.initialized = true)
    (hp : (s.obj swObj).pinNumber = some sw) (hl : levelOf s sw = s.enc.swStable) :
    Callless fun inv => ruleEncDebounce inv s :=
  ⟨.ok (memRead (s.setEnc fun e => { e with debounceTimer := none }) (.lev (pinWord sw))), fun inv => by
    dsimp only; rw [ruleEncDebounce_eq hi hp, if_pos hl]⟩

/-- What a step of the button machine keeps: the levels, the pin objects and the driver's record but for the button's
state (rule R275). -/
theorem btnStep_callsLast {s t : State} (ev : ButtonEvent) (ht : SameFrames s t)
    (hcb : t.enc.appCallback = s.enc.appCallback) :
    CallsLast s (fun inv => btnStep inv ev t) fun u => u.lev = t.lev ∧ u.pinObj = t.pinObj ∧
      u.enc = { t.enc with btnState := btnNext t.cfg t.enc.btnState ev } ∧
      btnOut t.cfg t.enc.btnState ev ≠ none := by
  unfold btnStep
  refine emitOutput_callsLast (ht.trans ⟨rfl, rfl, rfl⟩) hcb fun e l he => ⟨rfl, rfl, rfl, ?_⟩
  rw [he]; simp

/-- The debounce handler calls the callback last, at a state where it would itself call nothing (rule R271). -/
theorem encDebounce_callsLast (s : State) :
    CallsLast s (fun inv => ruleEncDebounce inv s) fun u => Callless fun inv => ruleEncDebounce inv u := by
  by_cases hi : s.enc.initialized = true
  · cases hp : (s.obj swObj).pinNumber with
    | none => 
      have h1 : (s.setEnc fun e => { e with debounceTimer := none }).enc.initialized = true := hi
      have h2 : ((s.setEnc fun e => { e with debounceTimer := none }).obj swObj).pinNumber = none := hp
      exact .inl ⟨.raised .pinUnassigned (s.setEnc fun e => { e with debounceTimer := none }), fun _ => by
        simp only [ruleEncDebounce, h1, if_true, pinLevel, h2]⟩
    | some sw =>
      simp only [ruleEncDebounce_eq hi hp]
      by_cases hl : levelOf s sw = s.enc.swStable
      · exact .inl ⟨.ok (memRead (s.setEnc fun e => { e with debounceTimer := none }) (.lev (pinWord sw))), fun inv => by
          simp only [if_pos hl]⟩
      · simp only [if_neg hl]
        have key : ∀ {t : State} (ev : ButtonEvent), SameFrames s t → t.enc.appCallback = s.enc.appCallback →
            t.lev = s.lev → t.pinObj = s.pinObj → t.enc.initialized = true → t.enc.swStable = levelOf s sw →
            CallsLast s (fun inv => btnStep inv ev t) fun u => Callless fun inv => ruleEncDebounce inv u := by
          intro t ev hc hcb hlev hobj hin hsw
          refine CallsLast.imp ?_ (btnStep_callsLast ev hc hcb)
          rintro u ⟨h1, h2, h3, -⟩
          refine encDebounce_callless (sw := sw) (by rw [h3]; exact hin) (by rw [obj_congr (h2.trans hobj), hp]) ?_
          rw [h3]
          simp only [hsw, levelOf, regValue, h1.trans hlev]
        split
        · refine key _ ?_ ?_ ?_ ?_ ?_ ?_ <;>
            cases h : s.enc.tickTimer <;>
              simp [h, hi, SameFrames, cancelTick, cancelOptional, cancelTimer, atNewLevel, State.setEnc, memRead, readEffect,
                State.pushBus]
        · refine key _ ?_ ?_ ?_ ?_ ?_ ?_ <;>
            cases h : s.enc.tickTimer <;>
              simp [h, hi, SameFrames, cancelTick, cancelOptional, cancelTimer, atNewLevel, State.setEnc, memRead, readEffect,
                State.pushBus, startTick, startTimer]
  · refine .inl ⟨.ok (s.setEnc fun e => { e with debounceTimer := none }), fun _ => ?_⟩
    simp [ruleEncDebounce, hi]

/-- The tick handler calls the callback last, at a state whose button is one tick further; it calls it at all exactly if
the button emits on a tick (rule R274). -/
theorem encTick_callsLast {s : State} (hi : s.enc.initialized = true) :
    CallsLast s (fun inv => ruleEncTick inv s) fun u => u.enc.initialized = true ∧
      u.enc.btnState = btnNext s.cfg s.enc.btnState .tick ∧ btnOut s.cfg s.enc.btnState .tick ≠ none := by
  have h1 : (s.setEnc fun e => { e with tickTimer := none }).enc.initialized = true := hi
  simp only [ruleEncTick, h1, if_true]
  have key : ∀ t : State, SameFrames s t → t.enc.appCallback = s.enc.appCallback → t.enc.initialized = true →
      t.enc.btnState = s.enc.btnState → CallsLast s (fun inv => btnStep inv .tick t) fun u =>
        u.enc.initialized = true ∧ u.enc.btnState = btnNext s.cfg s.enc.btnState .tick ∧
          btnOut s.cfg s.enc.btnState .tick ≠ none := by
    intro t hf hcb hin hb
    refine CallsLast.imp ?_ (btnStep_callsLast _ hf hcb)
    rintro u ⟨-, -, h3, h4⟩
    rw [h3]
    rw [hf.1, hb] at h4
    exact ⟨hin, by rw [← hf.1, ← hb], h4⟩
  split
  · exact key _ ⟨rfl, rfl, rfl⟩ rfl hi rfl
  · exact key _ ⟨rfl, rfl, rfl⟩ rfl hi rfl

theorem encTick_silent {s : State} (hi : s.enc.initialized = true) (h : btnOut s.cfg s.enc.btnState .tick = none) :
    Callless fun inv => ruleEncTick inv s := by
  rcases encTick_callsLast hi with h' | ⟨e, cb, u, -, -, -, -, -, -, -, h'⟩
  · exact h'
  · exact absurd h h'

theorem encTick_off {s : State} (hi : ¬ s.enc.initialized = true) : Callless fun inv => ruleEncTick inv s := by
  have h1 : ¬ (s.setEnc fun e => { e with tickTimer := none }).enc.initialized = true := hi
  exact ⟨.ok (s.setEnc fun e => { e with tickTimer := none }), fun inv => by simp only [ruleEncTick, if_neg h1]⟩

/-! ### Chains of driver handlers that call each other through the callback -/

/-- The button's state after `n` ticks. -/
def afterTicks (c : Config) (st : ButtonState) : Nat → ButtonState
  | 0 => st
  | n + 1 => btnNext c (afterTicks c st n) .tick

/-- Seven states: the button falls silent within seven ticks or emits on every one. -/
theorem silent_or_endless (c : Config) (st : ButtonState) :
    (∃ n < 7, btnOut c (afterTicks c st n) .tick = none) ∨ ∀ n, btnOut c (afterTicks c st n) .tick ≠ none := by
  by_contra hcon
  push Not at hcon
  obtain ⟨hout, m, hm⟩ := hcon
  have hcode : ∀ b, btnCode b < 7 := by intro b; cases b <;> decide
  have hinj : ∀ a b, btnCode a = btnCode b → a = b := by intro a b; cases a <;> cases b <;> simp [btnCode]
  obtain ⟨i, j, hne, hij⟩ := Fintype.exists_ne_map_eq_of_card_lt
    (fun i : Fin 8 => (⟨btnCode (afterTicks c st i.val), hcode _⟩ : Fin 7)) (by simp)
  have hij := hinj _ _ (Fin.mk.inj_iff.1 hij)
  have hshift : ∀ a b, afterTicks c st a = afterTicks c st b → ∀ k, afterTicks c st (a + k) = afterTicks c st (b + k) := by
    intro a b h k
    induction k with
    | zero => exact h
    | succ k ih => rw [← Nat.add_assoc, ← Nat.add_assoc, afterTicks, afterTicks, ih]
  have hall : ∀ a b, a < b → b ≤ 7 → afterTicks c st a = afterTicks c st b → ∀ n, ∃ k < 7, afterTicks c st n = afterTicks c st k := by
    intro a b hab hb h n
    induction n with
    | zero => exact ⟨0, by omega, rfl⟩
    | succ n ih =>
      obtain ⟨k, hk, he⟩ := ih
      by_cases h7 : k + 1 < 7
      · exact ⟨k + 1, h7, by rw [afterTicks, he, afterTicks]⟩
      · have := hshift a b h (7 - b)
        refine ⟨a + (7 - b), by omega, ?_⟩
        rw [this, show b + (7 - b) = k + 1 by omega, afterTicks, he, afterTicks]
  have hfin : ∀ n, ∃ k < 7, afterTicks c st n = afterTicks c st k := by
    rcases Nat.lt_or_gt_of_ne (fun h => hne (Fin.ext h) : i.val ≠ j.val) with h | h
    · exact hall _ _ h (by omega) hij
    · exact hall _ _ h (by omega) hij.symm
  obtain ⟨k, hk, he⟩ := hfin m
  rw [he] at hm
  exact hout k hk hm

/-! ### Enough calls -/

/-- From `N` calls on, one more call in each other makes no difference. -/
def Stable (runs : Invoker) (N : Nat) (h : Word) (s : State) : Prop :=
  ∀ n, N ≤ n → ∀ ctx arg, nestedCall runs n h ctx arg s = nestedCall runs (n + 1) h ctx arg s

theorem Stable.mono {runs : Invoker} {N M : Nat} {h : Word} {s : State} (hs : Stable runs N h s) (hNM : N ≤ M) :
    Stable runs M h s := fun n hn => hs n (hNM.trans hn)

/-- The word that a built-in handler has is the only one (rule R113). -/
theorem handlerClass_builtin {h : Word} {b : Builtin} : handlerClass h = .builtin b ↔ h = builtinWord b := by
  constructor
  · intro hb
    unfold handlerClass at hb
    repeat' split at hb
    all_goals first | (cases hb; assumption) | cases hb
  · rintro rfl
    cases b <;> decide

theorem splitCall_timer (runs calls : Invoker) : splitCall runs calls (builtinWord .timer) = runs (builtinWord .timer) :=
  if_pos rfl

theorem splitCall_other {runs calls : Invoker} {h : Word} (hh : h ≠ builtinWord .timer) :
    splitCall runs calls h = calls h := if_neg hh

theorem nestedCall_builtin (runs : Invoker) (n : Nat) (b : Builtin) (ctx : Word) (arg : Option AppEvent) (s : State) :
    nestedCall runs (n + 1) (builtinWord b) ctx arg s = runBuiltin (splitCall runs (nestedCall runs n)) b s := by
  rw [nestedCall, invokeWith, handlerClass_builtin.2 rfl]

/-- A handler that calls nothing needs one call. -/
theorem stable_of_callless {runs : Invoker} {b : Builtin} {s : State} (h : Callless fun inv => runBuiltin inv b s) :
    Stable runs 1 (builtinWord b) s := by
  obtain ⟨r, hr⟩ := h
  intro n hn ctx arg
  obtain ⟨m, rfl⟩ : ∃ m, n = m + 1 := ⟨n - 1, by omega⟩
  rw [nestedCall_builtin, nestedCall_builtin]
  exact (hr _).trans (hr _).symm

/-- A driver handler needs one call more than the callback that it calls last. -/
theorem stable_of_callsLast {runs : Invoker} {b : Builtin} {s : State} {P : State → Prop} {N : Nat}
    (h : CallsLast s (fun inv => runBuiltin inv b s) P)
    (hN : ∀ cb u, s.enc.appCallback = some cb → u.enc.appCallback = some cb → u.cfg = s.cfg →
      nestingLeft u = nestingLeft s → P u → cb.handler ≠ builtinWord .timer → Stable runs N cb.handler u) :
    Stable runs (N + 1) (builtinWord b) s := by
  rcases h with h | ⟨e, cb, u, h1, h2, h3, h4, h5, h6⟩
  · exact (stable_of_callless h).mono (by omega)
  · intro n hn ctx arg
    obtain ⟨m, rfl⟩ : ∃ m, n = m + 1 := ⟨n - 1, by omega⟩
    rw [nestedCall_builtin, nestedCall_builtin]
    refine (h1 _).trans (Eq.trans ?_ (h1 _).symm)
    by_cases ht : cb.handler = builtinWord .timer
    · rw [ht, splitCall_timer, splitCall_timer]
    · rw [splitCall_other ht, splitCall_other ht]
      exact hN cb u h2 h3 h4 h5 h6 ht m (by omega) _ _

theorem afterTicks_next (c : Config) (st : ButtonState) (n : Nat) :
    afterTicks c (btnNext c st .tick) n = afterTicks c st (n + 1) := by
  induction n with
  | zero => rfl
  | succ n ih => rw [afterTicks, ih]; rfl

/-- A tick on which the button emits calls the callback (rules R244, R274, R275). -/
theorem encTick_emits {s : State} {cb : Registration} (hi : s.enc.initialized = true)
    (hcb : s.enc.appCallback = some cb) (ho : btnOut s.cfg s.enc.btnState .tick ≠ none) :
    ∃ e u, (∀ inv, ruleEncTick inv s = inv cb.handler cb.ctx (some e) u) ∧ u.enc.appCallback = some cb ∧
      u.enc.initialized = true ∧ u.cfg = s.cfg ∧ u.enc.btnState = btnNext s.cfg s.enc.btnState .tick := by
  obtain ⟨e, he⟩ := Option.ne_none_iff_exists'.1 ho
  have h1 : (s.setEnc fun e => { e with tickTimer := none }).enc.initialized = true := hi
  have key : ∀ t : State, t.cfg = s.cfg → t.enc.appCallback = some cb → t.enc.initialized = true →
      t.enc.btnState = s.enc.btnState → ∃ u, (∀ inv, btnStep inv .tick t = inv cb.handler cb.ctx (some e) u) ∧
        u.enc.appCallback = some cb ∧ u.enc.initialized = true ∧ u.cfg = s.cfg ∧
        u.enc.btnState = btnNext s.cfg s.enc.btnState .tick := by
    intro t hc ht hin hb
    let t' := t.setEnc fun e => { e with btnState := btnNext t.cfg e.btnState .tick }
    refine ⟨{ t' with appTrace := t'.appTrace ++ [⟨e, cb.ctx⟩] }, fun inv => ?_, ht, hin, hc, by rw [← hc, ← hb]; rfl⟩
    have ht' : (t.setEnc fun e => { e with btnState := btnNext t.cfg e.btnState .tick }).enc.appCallback = some cb := ht
    simp only [btnStep, hb, hc, he, emitOutput, emitEvent]
    rw [← hc, ht']
  simp only [ruleEncTick, h1, if_true]
  split
  · obtain ⟨u, hu⟩ := key (s.setEnc fun e => { e with tickTimer := none }) rfl hcb hi rfl
    exact ⟨e, u, hu⟩
  · obtain ⟨u, hu⟩ := key (startTick (s.setEnc fun e => { e with tickTimer := none })) rfl hcb hi rfl
    exact ⟨e, u, hu⟩

/-- The tick handler as the callback of a button that falls silent. -/
theorem stable_tickChain_silent {runs : Invoker} {cb : Registration} (hcb : cb.handler = builtinWord .encTick) (m : Nat) :
    ∀ {s : State}, s.enc.appCallback = some cb → s.enc.initialized = true →
      btnOut s.cfg (afterTicks s.cfg s.enc.btnState m) .tick = none → Stable runs (m + 1) cb.handler s := by
  induction m with
  | zero =>
    intro s _ hi ho
    rw [hcb]
    exact stable_of_callless (b := .encTick) (encTick_silent hi ho)
  | succ m ih =>
    intro s ha hi ho
    rw [hcb]
    refine stable_of_callsLast (b := .encTick) (encTick_callsLast hi) ?_
    rintro cb' u hs hu hc - ⟨h1, h2, -⟩ -
    rw [ha] at hs
    cases hs
    exact ih hu h1 (by rw [hc, h2, afterTicks_next]; exact ho)

/-- The tick handler as the callback of a button that emits on every tick never ends. -/
theorem tickChain_endless {runs : Invoker} {cb : Registration} (hcb : cb.handler = builtinWord .encTick) (n : Nat) :
    ∀ {s : State}, s.enc.appCallback = some cb → s.enc.initialized = true →
      (∀ m, btnOut s.cfg (afterTicks s.cfg s.enc.btnState m) .tick ≠ none) →
      ∀ ctx arg, nestedCall runs n cb.handler ctx arg s = .unending .calls := by
  induction n with
  | zero => intro s _ _ _ ctx arg; rfl
  | succ n ih =>
    intro s ha hi ho ctx arg
    obtain ⟨e, u, hu, h1, h2, h3, h4⟩ := encTick_emits hi ha (ho 0)
    rw [hcb, nestedCall_builtin]
    change ruleEncTick _ s = _
    rw [hu, splitCall_other (by rw [hcb]; decide)]
    exact ih h1 h2 (fun m => by rw [h3, h4, afterTicks_next]; exact ho (m + 1)) _ _

/-- The tick handler as the callback: seven calls, or no end. -/
theorem stable_tickChain {runs : Invoker} {cb : Registration} (hcb : cb.handler = builtinWord .encTick) {s : State}
    (ha : s.enc.appCallback = some cb) : Stable runs 7 cb.handler s := by
  by_cases hi : s.enc.initialized = true
  · rcases silent_or_endless s.cfg s.enc.btnState with ⟨m, hm, ho⟩ | ho
    · exact (stable_tickChain_silent hcb m ha hi ho).mono (by omega)
    · intro n _ ctx arg
      rw [tickChain_endless hcb n ha hi ho, tickChain_endless hcb (n + 1) ha hi ho]
  · rw [hcb]
    exact (stable_of_callless (b := .encTick) (encTick_off hi)).mono (by omega)

/-- The callback as a driver handler: eight calls, or no end. -/
theorem stable_chain {runs : Invoker} {cb : Registration} {b : Builtin} (hcb : cb.handler = builtinWord b)
    (hg : b ≠ .gm) (ht : b ≠ .timer) {s : State} (ha : s.enc.appCallback = some cb) : Stable runs 8 cb.handler s := by
  have two : ∀ {P : State → Prop}, CallsLast s (fun inv => runBuiltin inv b s) P →
      (∀ u, P u → Callless fun inv => runBuiltin inv b u) → Stable runs 8 cb.handler s := by
    intro P h hP
    rw [hcb]
    refine (stable_of_callsLast h (N := 1) fun cb' u hs _ _ _ hu _ => ?_).mono (by omega)
    rw [ha] at hs
    cases hs
    rw [hcb]
    exact stable_of_callless (hP u hu)
  cases b with
  | gm => exact absurd rfl hg
  | timer => exact absurd rfl ht
  | encClkDt => exact two (encClkDt_callsLast s) fun _ h => h
  | encDebounce => exact two (encDebounce_callsLast s) fun _ h => h
  | encSw =>
    rw [hcb]
    exact (stable_of_callless (b := .encSw) ⟨ruleEncSw s, fun _ => rfl⟩).mono (by omega)
  | encTick => exact (stable_tickChain hcb ha).mono (by omega)

/-- A reserved word calls nothing. -/
theorem stable_reserved {runs : Invoker} {h : Word} (hh : handlerClass h = .reserved) (s : State) : Stable runs 1 h s := by
  intro n hn ctx arg
  obtain ⟨m, rfl⟩ : ∃ m, n = m + 1 := ⟨n - 1, by omega⟩
  simp only [nestedCall, invokeWith, hh]

theorem agree_splitCall {runs calls calls' : Invoker} {c : Config} {k : Nat}
    (h : ∀ w ctx arg u, w ≠ builtinWord .timer → u.cfg = c → nestingLeft u ≤ k → calls w ctx arg u = calls' w ctx arg u) :
    Agree c k (splitCall runs calls) (splitCall runs calls') := by
  intro w ctx arg u hc hu
  by_cases hw : w = builtinWord .timer
  · rw [hw, splitCall_timer, splitCall_timer]
  · rw [splitCall_other hw, splitCall_other hw]
    exact h w ctx arg u hw hc hu

/-- A pin dispatch or an external handler needs one call more than what can run inside it. -/
theorem stable_frame {runs : Invoker} (hr : GoodInvoker runs) {N : Nat} {h : Word} {s : State}
    (hh : h = builtinWord .gm ∨ handlerClass h = .external)
    (hN : ∀ w u, w ≠ builtinWord .timer → nestingLeft u < nestingLeft s → Stable runs N w u) :
    Stable runs (N + 1) h s := by
  intro n hn ctx arg
  obtain ⟨m, rfl⟩ : ∃ m, n = m + 1 := ⟨n - 1, by omega⟩
  cases hk : nestingLeft s with
  | zero =>
    rcases hh with rfl | hh
    · have hb : s.gmBusy = true := by
        by_contra hb
        simp [nestingLeft, hb] at hk
      rw [nestedCall_builtin, nestedCall_builtin]
      simp [runBuiltin, ruleGmDispatch, hb]
    · have hd : (recordCall h ctx s).cfg.maxNest ≤ (recordCall h ctx s).invokeDepth := by
        simp only [nestingLeft] at hk
        exact Nat.sub_eq_zero_iff_le.1 (Nat.eq_zero_of_add_eq_zero_right hk)
      simp only [nestedCall, invokeWith, hh, runExternal, ge_iff_le, hd, if_true]
  | succ k =>
    have ha : Agree s.cfg k (splitCall runs (nestedCall runs m)) (splitCall runs (nestedCall runs (m + 1))) :=
      agree_splitCall fun w ctx arg u hw _ hu => hN w u hw (by omega) m (by omega) ctx arg
    rcases hh with rfl | hh
    · rw [nestedCall_builtin, nestedCall_builtin]
      exact gmDispatch_congr ha rfl hk.le
    · rw [nestedCall, nestedCall]
      simp only [invokeWith, hh]
      exact runExternal_congr (good_splitCall hr (good_nestedCall hr m)) ha rfl hk.le h ctx arg

/-- Enough calls for every word but the timer handler's, by the frames that can still nest. -/
theorem stable_all {runs : Invoker} (hr : GoodInvoker runs) (k : Nat) :
    ∀ {h : Word} {s : State}, h ≠ builtinWord .timer → nestingLeft s ≤ k → Stable runs (2 * k + 10) h s := by
  induction k using Nat.strong_induction_on with
  | _ k ih =>
    intro h s hh hk
    have frame : ∀ {w : Word} {u : State}, (w = builtinWord .gm ∨ handlerClass w = .external) → nestingLeft u ≤ k →
        Stable runs (2 * k + 9) w u := fun hw hu =>
      stable_frame hr hw fun w' u' hw' hu' => (ih (nestingLeft u') (by omega) hw' le_rfl).mono (by omega)
    have link : ∀ {b : Builtin} {P : State → Prop}, CallsLast s (fun inv => runBuiltin inv b s) P →
        Stable runs (2 * k + 10) (builtinWord b) s := by
      intro b P hc
      refine stable_of_callsLast hc fun cb u hs hu _ hl _ ht => ?_
      cases hcl : handlerClass cb.handler with
      | external => exact frame (.inr hcl) (hl.trans_le hk)
      | reserved => exact (stable_reserved hcl u).mono (by omega)
      | builtin b' =>
        have hw := handlerClass_builtin.1 hcl
        by_cases hg : b' = .gm
        · exact frame (.inl (by rw [hw, hg])) (hl.trans_le hk)
        · exact (stable_chain hw hg (fun h => ht (by rw [hw, h])) hu).mono (by omega)
    cases hcl : handlerClass h with
    | external => exact (frame (.inr hcl) hk).mono (by omega)
    | reserved => exact (stable_reserved hcl s).mono (by omega)
    | builtin b =>
      have hw := handlerClass_builtin.1 hcl
      subst hw
      cases b with
      | gm => exact (frame (.inl rfl) hk).mono (by omega)
      | timer => exact absurd rfl hh
      | encClkDt => exact link (encClkDt_callsLast s)
      | encSw => exact (stable_of_callless (b := .encSw) ⟨ruleEncSw s, fun _ => rfl⟩).mono (by omega)
      | encDebounce => exact link (encDebounce_callsLast s)
      | encTick =>
        by_cases hi : s.enc.initialized = true
        · exact link (encTick_callsLast hi)
        · exact (stable_of_callless (b := .encTick) (encTick_off hi)).mono (by omega)

/-! ### Calls are rule R334's -/

theorem invokeWith_congr {c : Config} {k : Nat} {inv inv' : Invoker} (hg : GoodInvoker inv) (ha : Agree c k inv inv')
    {s : State} (hc : s.cfg = c) (hk : nestingLeft s ≤ k) (h ctx : Word) (arg : Option AppEvent) :
    invokeWith inv h ctx arg s = invokeWith inv' h ctx arg s := by
  unfold invokeWith
  cases handlerClass h with
  | reserved => rfl
  | external => exact runExternal_congr hg ha hc (by omega) h ctx arg
  | builtin b =>
    have link : ∀ {P : State → Prop}, CallsLast s (fun inv => runBuiltin inv b s) P →
        runBuiltin inv b s = runBuiltin inv' b s := by
      rintro P (⟨r, hr⟩ | ⟨e, cb, u, h1, -, -, h4, h5, -⟩)
      · exact (hr inv).trans (hr inv').symm
      · exact (h1 inv).trans ((ha _ _ _ u (h4.trans hc) (h5.trans_le hk)).trans (h1 inv').symm)
    cases b with
    | gm => exact gmDispatch_congr ha hc (by omega)
    | timer =>
      have ht : Calm s (tickOnce s) := .of (.tick s) ⟨rfl, rfl, rfl, rfl⟩
      exact fireTimers_congr hg ha (ht.1.fixed.1.trans hc) (by rw [nestingLeft_calm ht]; exact hk) _
    | encClkDt => exact link (encClkDt_callsLast s)
    | encSw => rfl
    | encDebounce => exact link (encDebounce_callsLast s)
    | encTick =>
      by_cases hi : s.enc.initialized = true
      · exact link (encTick_callsLast hi)
      · obtain ⟨r, hr⟩ := encTick_off hi
        exact (hr inv).trans (hr inv').symm

theorem nestingLeft_le (s : State) : nestingLeft s ≤ s.cfg.maxNest + 1 := by
  unfold nestingLeft
  split <;> omega

/-- A call is the recursion of rule R334: it runs the rule that its word names over calls of the same kind, only the
runs of the timer handler inside it are one fewer. No bound but the one on those runs is ever met by calls that end. -/
theorem timedCall_eq (n : Nat) (h ctx : Word) (arg : Option AppEvent) (s : State) :
    timedCall (n + 1) h ctx arg s = invokeWith (splitCall (timedCall n) (timedCall (n + 1))) h ctx arg s := by
  have hr := good_timedCall n
  change invokeWith (splitCall (timedCall n) (nestedCall (timedCall n) (2 * s.cfg.maxNest + 15))) h ctx arg s = _
  refine invokeWith_congr (k := s.cfg.maxNest + 1) (good_splitCall hr (good_nestedCall hr _)) (agree_splitCall ?_) rfl
    (nestingLeft_le s) h ctx arg
  intro w ctx arg u hw hc hu
  change _ = nestedCall (timedCall n) (callBound u.cfg) w ctx arg u
  rw [callBound, hc]
  exact stable_all hr _ hw hu _ (by omega) ctx arg

/-- The call that the operations of an agent make. -/
theorem invoke_eq (h ctx : Word) (arg : Option AppEvent) (s : State) :
    invoke h ctx arg s = invokeWith (splitCall (timedCall (tickLimit - 1)) invoke) h ctx arg s :=
  timedCall_eq (tickLimit - 1) h ctx arg s

end Sys2Proof.Laws
end

