-- ==== Sys2Proof/Laws/Codec.lean ====
section
/-! SUPPORT. Laws of operation words: the bytes of a word, the row of an opcode, the codes of operand fields. -/

namespace Sys2Proof.Laws

/-! ### Bytes of an operation word -/

theorem byteOf_eq (w : Word) (k : Nat) (i : Nat) :
    (byteOf w k).getLsbD i = (decide (i < 8) && w.getLsbD (8 * k + i)) := by
  simp [byteOf, BitVec.getLsbD_extractLsb']

@[simp] theorem byteOf_opWord_3 (op f b1 b0 : BitVec 8) : byteOf (opWord op f b1 b0) 3 = op := by
  apply BitVec.eq_of_getLsbD_eq
  intro i hi
  have h1 : ¬ (24 + i < 8) := by omega
  have h2 : ¬ (24 + i - 8 < 8) := by omega
  have h3 : ¬ (24 + i - 8 - 8 < 8) := by omega
  have h4 : 24 + i - 8 - 8 - 8 = i := by omega
  rw [byteOf_eq]
  simp only [opWord, BitVec.getLsbD_append]
  simp [hi, show ¬ (24 + i < 24) by omega]

@[simp] theorem byteOf_opWord_2 (op f b1 b0 : BitVec 8) : byteOf (opWord op f b1 b0) 2 = f := by
  apply BitVec.eq_of_getLsbD_eq
  intro i hi
  rw [byteOf_eq]
  simp only [opWord, BitVec.getLsbD_append]
  simp [hi, show 16 + i < 24 by omega]

@[simp] theorem byteOf_opWord_1 (op f b1 b0 : BitVec 8) : byteOf (opWord op f b1 b0) 1 = b1 := by
  apply BitVec.eq_of_getLsbD_eq
  intro i hi
  rw [byteOf_eq]
  simp only [opWord, BitVec.getLsbD_append]
  simp [hi, show 8 + i < 24 by omega, show 8 + i < 16 by omega]

@[simp] theorem byteOf_opWord_0 (op f b1 b0 : BitVec 8) : byteOf (opWord op f b1 b0) 0 = b0 := by
  apply BitVec.eq_of_getLsbD_eq
  intro i hi
  rw [byteOf_eq]
  simp only [opWord, BitVec.getLsbD_append]
  simp [hi, show i < 24 by omega, show i < 16 by omega]

/-- A word is its four bytes. -/
theorem opWord_byteOf (w : Word) : opWord (byteOf w 3) (byteOf w 2) (byteOf w 1) (byteOf w 0) = w := by
  apply BitVec.eq_of_getLsbD_eq
  intro i hi
  simp only [opWord, BitVec.getLsbD_append, byteOf_eq]
  by_cases h0 : i < 8
  · simp [h0, show i < 16 by omega, show i < 24 by omega]
  · by_cases h1 : i < 16
    · simp [h0, h1, show i < 24 by omega, show i - 8 < 8 by omega, show 8 + (i - 8) = i by omega]
    · by_cases h2 : i < 24
      · simp [h1, h2, show i - 16 < 8 by omega, show 16 + (i - 16) = i by omega]
      · simp [h2, show i - 24 < 8 by omega, show 24 + (i - 24) = i by omega]

/-! ### Operand fields -/

/-- An id of 16 bits is read back from its two bytes (rule R102). -/
theorem id_bytes {id : Nat} (h : id < 65536) : (hiByte id ++ loByte id : BitVec 16).toNat = id := by
  rw [BitVec.toNat_append, ← Nat.shiftLeft_add_eq_or_of_lt (loByte id).isLt]
  simp only [hiByte, loByte, BitVec.toNat_ofNat, Nat.shiftLeft_eq]
  omega

/-- A number of 8 bits is read back from its byte (rule R102). -/
theorem lo_byte {n : Nat} (h : n < 256) : (loByte n).toNat = n := by
  simp [loByte]; omega

theorem flagByte_bit (b : Bool) : (flagByte b).getLsbD 0 = b := by cases b <;> rfl

theorem flagByte_zero (b : Bool) : flagByte b &&& 0xFE = 0 := by cases b <;> rfl

theorem pinFunctionOf_code (fn : PinFunction) : pinFunctionOf fn.code = fn := by cases fn <;> rfl

theorem code_pinFunctionOf (c : BitVec 3) : (pinFunctionOf c).code = c := by revert c; decide

theorem modeByte_fn (fn : PinFunction) (pull : BitVec 2) :
    pinFunctionOf ((modeByte fn pull).extractLsb' 0 3) = fn := by cases fn <;> revert pull <;> decide

theorem modeByte_pull (fn : PinFunction) (pull : BitVec 2) : (modeByte fn pull).extractLsb' 4 2 = pull := by
  cases fn <;> revert pull <;> decide

theorem modeByte_zero (fn : PinFunction) (pull : BitVec 2) : modeByte fn pull &&& 0xC8 = 0 := by
  cases fn <;> revert pull <;> decide

theorem typesByte_types (types : BitVec 6) : (typesByte types).extractLsb' 0 6 = types := by revert types; decide

theorem typesByte_zero (types : BitVec 6) : typesByte types &&& 0xC0 = 0 := by revert types; decide

/-! ### Rows of the table -/

/-- A row found for an opcode is a row of the table with that opcode (rule R104). -/
theorem rowOf_some {op : BitVec 8} {r : OpRow} (h : rowOf op = some r) : r ∈ opTable ∧ r.opcode = op := by
  refine ⟨List.mem_of_find?_eq_some h, ?_⟩
  simpa using List.find?_some h

/-- The opcodes of the table are pairwise different: no word matches two rows (rule R104). -/
theorem opTable_opcodes_nodup : (opTable.map OpRow.opcode).Nodup := by decide

end Sys2Proof.Laws
end

