-- ==== Sys2Proof/Laws/Fields.lean ====
section
/-! SUPPORT. The multi-bit fields of the registers: function select and combined pulls, field by field, and what a
read-modify-write of one field leaves alone. -/

namespace Sys2Proof.Laws

open Sys2Proof.Machine Sys2Proof.Safety

theorem getLsbD_ones (i : Nat) : (0xFFFFFFFF : Word).getLsbD i = decide (i < 32) := by
  rw [show (0xFFFFFFFF : Word) = BitVec.allOnes 32 from rfl, BitVec.getLsbD_allOnes]

/-! ### Function select (rules R34, R77) -/

/-- Bit `i` of the function-select bits after a word is replaced. -/
theorem getLsbD_setFselWord (f : BitVec 162) (k : Fin 6) (v : Word) (i : Nat) :
    (setFselWord f k v).getLsbD i =
      if i < 162 ∧ 30 * k.val ≤ i ∧ i < 30 * k.val + 30 then v.getLsbD (i - 30 * k.val) else f.getLsbD i := by
  unfold setFselWord
  simp only [BitVec.getLsbD_or, BitVec.getLsbD_and, BitVec.getLsbD_not, BitVec.getLsbD_shiftLeft, BitVec.getLsbD_setWidth,
    getLsbD_ones]
  by_cases h1 : i < 162
  · by_cases h2 : i < 30 * k.val
    · simp [h1, h2, show ¬ 30 * k.val ≤ i by omega]
    · by_cases h3 : i < 30 * k.val + 30
      · have a : i - 30 * k.val < 30 := by omega
        simp [h1, h2, show 30 * k.val ≤ i by omega, h3, a, show i - 30 * k.val < 162 by omega,
          show i - 30 * k.val < 32 by omega]
      · have a : ¬ i - 30 * k.val < 30 := by omega
        simp [h1, h2, h3, a]
  · simp [h1, BitVec.getLsbD_of_ge f i (by omega)]

/-- Bit `i` of a function-select word. -/
theorem getLsbD_fselWord (f : BitVec 162) (k : Fin 6) (i : Nat) :
    (fselWord f k).getLsbD i = (decide (i < 30) && f.getLsbD (30 * k.val + i)) := by
  unfold fselWord
  simp only [BitVec.getLsbD_setWidth, BitVec.getLsbD_extractLsb']
  by_cases h : i < 30
  · simp [h, show i < 32 by omega]
  · simp [h]

/-- Bit `i` of a pin's function-select field. -/
theorem getLsbD_fselField (f : BitVec 162) (n : PinNo) (i : Nat) :
    (fselField f n).getLsbD i = (decide (i < 3) && f.getLsbD (3 * n.val + i)) := by
  simp [fselField, BitVec.getLsbD_extractLsb']

/-- A pin's field lies in its word. -/
theorem fsel_place (n : PinNo) : 30 * (fselIndex n).val + fselShift n = 3 * n.val := by
  simp only [fselIndex, fselShift]; omega

/-- A pin's function after a word is replaced (rule R34). -/
theorem fselField_setFselWord (f : BitVec 162) (k : Fin 6) (v : Word) (m : PinNo) :
    fselField (setFselWord f k v) m =
      if fselIndex m = k then v.extractLsb' (fselShift m) 3 else fselField f m := by
  apply BitVec.eq_of_getLsbD_eq
  intro i hi
  rw [getLsbD_fselField, getLsbD_setFselWord]
  have hp := fsel_place m
  have hs : fselShift m ≤ 27 := by simp only [fselShift]; omega
  have hm := m.isLt
  by_cases h : fselIndex m = k
  · subst h
    have h1 : 3 * m.val + i < 162 ∧ 30 * (fselIndex m).val ≤ 3 * m.val + i ∧
        3 * m.val + i < 30 * (fselIndex m).val + 30 := by omega
    have h2 : 3 * m.val + i - 30 * (fselIndex m).val = fselShift m + i := by omega
    simp only [h1, and_self, if_true, h2, hi, decide_true, Bool.true_and, BitVec.getLsbD_extractLsb']
  · have hne : (fselIndex m).val ≠ k.val := fun e => h (Fin.ext e)
    have h1 : ¬ (3 * m.val + i < 162 ∧ 30 * k.val ≤ 3 * m.val + i ∧ 3 * m.val + i < 30 * k.val + 30) := by
      intro hc; apply hne; omega
    simp only [h1, h, if_false, getLsbD_fselField]

/-- A read-modify-write of one pin's function changes that pin's field only (rule R201). -/
theorem fselField_insert (f : BitVec 162) (n m : PinNo) (c : BitVec 3) :
    fselField (setFselWord f (fselIndex n) (insertField (fselWord f (fselIndex n)) 3 (fselShift n) (c.setWidth 32))) m
      = if m = n then c else fselField f m := by
  rw [fselField_setFselWord]
  have hn : fselShift n ≤ 27 := by simp only [fselShift]; omega
  have hm : fselShift m ≤ 27 := by simp only [fselShift]; omega
  have hpm := fsel_place m
  by_cases h : fselIndex m = fselIndex n
  · rw [if_pos h]
    apply BitVec.eq_of_getLsbD_eq
    intro i hi
    have h7 : ∀ j, (BitVec.ofNat 32 (2 ^ 3 - 1)).getLsbD j = decide (j < 3) := by
      intro j
      rw [BitVec.getLsbD_ofNat, Nat.testBit_two_pow_sub_one]
      by_cases hj : j < 3 <;> simp [hj]; omega
    simp only [BitVec.getLsbD_extractLsb', insertField, BitVec.getLsbD_or, BitVec.getLsbD_and, BitVec.getLsbD_not,
      BitVec.getLsbD_shiftLeft, h7, BitVec.getLsbD_setWidth, getLsbD_fselWord, hi, decide_true, Bool.true_and]
    by_cases e : m = n
    · subst e
      simp [hi, show fselShift m + i < 32 by omega, show i < 32 by omega]
    · have hne : fselShift m ≠ fselShift n := by
        intro hc
        apply e
        apply Fin.ext
        simp only [fselShift, fselIndex, Fin.mk.injEq] at hc h
        omega
      have h3 : fselShift m + i < fselShift n ∨ ¬ fselShift m + i - fselShift n < 3 := by
        simp only [fselShift] at hne ⊢; omega
      have hw : 30 * (fselIndex n).val + (fselShift m + i) = 3 * m.val + i := by rw [← h]; omega
      simp only [e, if_false, getLsbD_fselField, hi, decide_true, Bool.true_and, hw]
      rcases h3 with h3 | h3
      · simp [h3, show fselShift m + i < 32 by omega, show fselShift m + i < 30 by omega]
      · have : c.getLsbD (fselShift m + i - fselShift n) = false := BitVec.getLsbD_of_ge _ _ (by omega)
        simp [h3, this, show fselShift m + i < 32 by omega, show fselShift m + i < 30 by omega]
  · rw [if_neg h, if_neg (fun e => h (by rw [e]))]

/-! ### Combined pulls (rules R35, R77) -/

theorem getLsbD_setPuppdnWord (p : BitVec 108) (j : Fin 4) (v : Word) (i : Nat) :
    (setPuppdnWord p j v).getLsbD i =
      if i < 108 ∧ 32 * j.val ≤ i ∧ i < 32 * j.val + 32 then v.getLsbD (i - 32 * j.val) else p.getLsbD i := by
  unfold setPuppdnWord
  simp only [BitVec.getLsbD_or, BitVec.getLsbD_and, BitVec.getLsbD_not, BitVec.getLsbD_shiftLeft, BitVec.getLsbD_setWidth,
    getLsbD_ones]
  by_cases h1 : i < 108
  · by_cases h2 : i < 32 * j.val
    · simp [h1, h2, show ¬ 32 * j.val ≤ i by omega]
    · by_cases h3 : i < 32 * j.val + 32
      · simp [h1, h2, show 32 * j.val ≤ i by omega, h3, show i - 32 * j.val < 108 by omega,
          show i - 32 * j.val < 32 by omega]
      · have a : ¬ i - 32 * j.val < 32 := by omega
        simp [h1, h2, h3, a, BitVec.getLsbD_of_ge v _ (by omega : 32 ≤ i - 32 * j.val)]
  · simp [h1, BitVec.getLsbD_of_ge p i (by omega)]

theorem getLsbD_puppdnWord (p : BitVec 108) (j : Fin 4) (i : Nat) :
    (puppdnWord p j).getLsbD i = (decide (i < 32) && p.getLsbD (32 * j.val + i)) := by
  simp [puppdnWord, BitVec.getLsbD_extractLsb']

theorem getLsbD_puppdnField (p : BitVec 108) (n : PinNo) (i : Nat) :
    (puppdnField p n).getLsbD i = (decide (i < 2) && p.getLsbD (2 * n.val + i)) := by
  simp [puppdnField, BitVec.getLsbD_extractLsb']

theorem puppdn_place (n : PinNo) : 32 * (puppdnIndex n).val + puppdnShift n = 2 * n.val := by
  simp only [puppdnIndex, puppdnShift]; omega

/-- A pin's pull field after a word is replaced (rule R35). -/
theorem puppdnField_setPuppdnWord (p : BitVec 108) (j : Fin 4) (v : Word) (m : PinNo) :
    puppdnField (setPuppdnWord p j v) m =
      if puppdnIndex m = j then v.extractLsb' (puppdnShift m) 2 else puppdnField p m := by
  apply BitVec.eq_of_getLsbD_eq
  intro i hi
  rw [getLsbD_puppdnField, getLsbD_setPuppdnWord]
  have hp := puppdn_place m
  have hs : puppdnShift m ≤ 30 := by simp only [puppdnShift]; omega
  have hm := m.isLt
  by_cases h : puppdnIndex m = j
  · subst h
    have h1 : 2 * m.val + i < 108 ∧ 32 * (puppdnIndex m).val ≤ 2 * m.val + i ∧
        2 * m.val + i < 32 * (puppdnIndex m).val + 32 := by omega
    have h2 : 2 * m.val + i - 32 * (puppdnIndex m).val = puppdnShift m + i := by omega
    simp only [h1, and_self, if_true, h2, hi, decide_true, Bool.true_and, BitVec.getLsbD_extractLsb']
  · have hne : (puppdnIndex m).val ≠ j.val := fun e => h (Fin.ext e)
    have h1 : ¬ (2 * m.val + i < 108 ∧ 32 * j.val ≤ 2 * m.val + i ∧ 2 * m.val + i < 32 * j.val + 32) := by
      intro hc; apply hne; omega
    simp only [h1, h, if_false, getLsbD_puppdnField]

/-- A read-modify-write of one pin's pull changes that pin's field only (rule R202). -/
theorem puppdnField_insert (p : BitVec 108) (n m : PinNo) (c : BitVec 2) :
    puppdnField (setPuppdnWord p (puppdnIndex n)
      (insertField (puppdnWord p (puppdnIndex n)) 2 (puppdnShift n) (c.setWidth 32))) m
      = if m = n then c else puppdnField p m := by
  rw [puppdnField_setPuppdnWord]
  have hn : puppdnShift n ≤ 30 := by simp only [puppdnShift]; omega
  have hm : puppdnShift m ≤ 30 := by simp only [puppdnShift]; omega
  have hpm := puppdn_place m
  by_cases h : puppdnIndex m = puppdnIndex n
  · rw [if_pos h]
    apply BitVec.eq_of_getLsbD_eq
    intro i hi
    have h7 : ∀ j, (BitVec.ofNat 32 (2 ^ 2 - 1)).getLsbD j = decide (j < 2) := by
      intro j
      rw [BitVec.getLsbD_ofNat, Nat.testBit_two_pow_sub_one]
      by_cases hj : j < 2 <;> simp [hj]; omega
    simp only [BitVec.getLsbD_extractLsb', insertField, BitVec.getLsbD_or, BitVec.getLsbD_and, BitVec.getLsbD_not,
      BitVec.getLsbD_shiftLeft, h7, BitVec.getLsbD_setWidth, getLsbD_puppdnWord, hi, decide_true, Bool.true_and]
    by_cases e : m = n
    · subst e
      simp [hi, show puppdnShift m + i < 32 by omega, show i < 32 by omega]
    · have hne : puppdnShift m ≠ puppdnShift n := by
        intro hc
        apply e
        apply Fin.ext
        simp only [puppdnShift, puppdnIndex, Fin.mk.injEq] at hc h
        omega
      have h3 : puppdnShift m + i < puppdnShift n ∨ ¬ puppdnShift m + i - puppdnShift n < 2 := by
        simp only [puppdnShift] at hne ⊢; omega
      have hw : 32 * (puppdnIndex n).val + (puppdnShift m + i) = 2 * m.val + i := by rw [← h]; omega
      simp only [e, if_false, getLsbD_puppdnField, hi, decide_true, Bool.true_and, hw]
      rcases h3 with h3 | h3
      · simp [h3, show puppdnShift m + i < 32 by omega]
      · have : c.getLsbD (puppdnShift m + i - puppdnShift n) = false := BitVec.getLsbD_of_ge _ _ (by omega)
        simp [h3, this, show puppdnShift m + i < 32 by omega]
  · rw [if_neg h, if_neg (fun e => h (by rw [e]))]

/-! ### Pull codes (rule R116) -/

@[simp] theorem pudPull_pudCode (p : Pull) : pudPull (pudCode p) = some p := by cases p <;> rfl
@[simp] theorem pupPull_pupCode (p : Pull) : pupPull (pupCode p) = some p := by cases p <;> rfl

theorem pudCode_roundtrip (p : Pull) : (((pudCode p).setWidth 32 : Word).setWidth 2 : BitVec 2) = pudCode p := by
  cases p <;> rfl

end Sys2Proof.Laws
end

