-- ==== Sys2Proof/Laws/Effects.lean ====
section
/-! SUPPORT. The effect of each shared operation as one update of the state it starts from. -/

namespace Sys2Proof.Laws

open Sys2Proof.Machine Sys2Proof.Safety

/-! ### The access record -/

@[simp] theorem withBus_nil (s : State) : withBus s [] = s := by simp [withBus]
@[simp] theorem withBus_withBus (s : State) (l l' : List BusAccess) :
    withBus (withBus s l) l' = withBus s (l ++ l') := by simp [withBus]
theorem pushBus_eq (s : State) (a : BusAccess) : s.pushBus a = withBus s [a] := rfl

/-- The access record feeds no register. -/
@[simp] theorem withBus_regValue (s : State) (l : List BusAccess) (r : Reg) :
    regValue (withBus s l) r = regValue s r := by
  cases r <;> rfl

@[simp] theorem withBus_cfg (s : State) (l : List BusAccess) : (withBus s l).cfg = s.cfg := rfl
@[simp] theorem withBus_nIrq (s : State) (l : List BusAccess) : (withBus s l).nIrq = s.nIrq := rfl
@[simp] theorem withBus_nPinObj (s : State) (l : List BusAccess) : (withBus s l).nPinObj = s.nPinObj := rfl
@[simp] theorem withBus_fault (s : State) (l : List BusAccess) : (withBus s l).fault = s.fault := rfl
@[simp] theorem withBus_eds (s : State) (l : List BusAccess) : (withBus s l).eds = s.eds := rfl
@[simp] theorem withBus_enc (s : State) (l : List BusAccess) : (withBus s l).enc = s.enc := rfl
@[simp] theorem withBus_obj (s : State) (l : List BusAccess) (o : Nat) : (withBus s l).obj o = s.obj o := rfl
@[simp] theorem withBus_irqTable (s : State) (l : List BusAccess) (i : Nat) : (withBus s l).irqTable i = s.irqTable i := rfl
@[simp] theorem withBus_irqCandidate (s : State) (l : List BusAccess) (i : Nat) :
    (withBus s l).irqCandidate i = s.irqCandidate i := rfl

/-- A register read as one update (rules R75, R76, R78). -/
theorem memRead_withBus (s : State) (r : Reg) (h : r ≠ .icIar) : memRead s r = withBus s [readOf s.cfg r (regValue s r)] :=
  memRead_eq s r h

/-- The access record feeds no write effect. -/
theorem writeEffect_withBus (s : State) (r : Reg) (v : Word) (l : List BusAccess) :
    writeEffect (withBus s l) r v = withBus (writeEffect s r v) l := by
  cases r with
  | trig k w => cases k <;> rfl
  | icEoir =>
    have h : (withBus s l).icActive = s.icActive := rfl
    simp only [writeEffect, h]
    split <;> rfl
  | _ => rfl

/-- A register write as one update. -/
theorem memWrite_eq (s : State) (r : Reg) (v : Word) : memWrite s r v = withBus (writeEffect s r v) [writeOf s.cfg r v] := by
  rw [memWrite, pushBus_eq]
  rfl

/-- A write after other accesses. -/
theorem memWrite_withBus (s : State) (r : Reg) (v : Word) (l : List BusAccess) :
    memWrite (withBus s l) r v = withBus (writeEffect s r v) (l ++ [writeOf s.cfg r v]) := by
  rw [memWrite_eq, writeEffect_withBus, withBus_withBus, withBus_cfg]

/-- A read-modify-write as one update (rules R79, R387). -/
theorem memModify_eq (s : State) (r : Reg) (f : Word → Word) (h : r ≠ .icIar) :
    memModify s r f = withBus (writeEffect s r (f (regValue s r)))
      [readOf s.cfg r (regValue s r), writeOf s.cfg r (f (regValue s r))] := by
  rw [memModify, memRead_withBus s r h, memWrite_withBus]
  rfl

/-! ### Words and bits -/

theorem pinWord_val (n : PinNo) : (pinWord n).val = n.val / 32 := rfl

/-- A pin's bit in the word read from its group (rule R114). -/
theorem bankWord_pin (b : PinBank) (n : PinNo) : (bankWord b (pinWord n)).getLsbD (n.val % 32) = pinBit b n := by
  have hn := n.isLt
  rw [getLsbD_bankWord, pinWord_val, pinBit, Nat.div_add_mod]
  simp [show n.val % 32 < 32 by omega]

theorem pinBit_onePin (n m : PinNo) : pinBit (onePin n) m = decide (m = n) := by
  have hm := m.isLt
  simp only [pinBit, onePin, BitVec.getLsbD_shiftLeft, hm, decide_true, Bool.true_and]
  by_cases h : m = n
  · subst h; simp
  · have : m.val ≠ n.val := fun e => h (Fin.ext e)
    by_cases h2 : m.val < n.val
    · simp [h2, h]
    · have : m.val - n.val ≠ 0 := by omega
      simp [h2, h, this]

theorem pinBit_ext {b c : PinBank} (h : ∀ m, pinBit b m = pinBit c m) : b = c := by
  apply BitVec.eq_of_getLsbD_eq
  intro i hi
  exact h ⟨i, hi⟩

@[simp] theorem pinBit_or (b c : PinBank) (m : PinNo) : pinBit (b ||| c) m = (pinBit b m || pinBit c m) := by
  simp [pinBit]
@[simp] theorem pinBit_and (b c : PinBank) (m : PinNo) : pinBit (b &&& c) m = (pinBit b m && pinBit c m) := by
  simp [pinBit]
@[simp] theorem pinBit_not (b : PinBank) (m : PinNo) : pinBit (~~~b) m = !pinBit b m := by simp [pinBit]
@[simp] theorem pinBit_zero (m : PinNo) : pinBit 0 m = false := by simp [pinBit]

theorem pinBit_levelPins (l h n : PinBank) (m : PinNo) :
    pinBit (levelPins l h n) m = (pinBit l m && pinBit h m || !pinBit l m && pinBit n m) := by
  simp [levelPins]

theorem pinBit_setPinBit (b : PinBank) (n m : PinNo) (v : Bool) :
    pinBit (setPinBit b n v) m = if m = n then v else pinBit b m := by
  have h := pinBit_onePin n m
  unfold onePin at h
  unfold setPinBit
  cases v
  · rw [if_neg (by simp), pinBit_and, pinBit_not, h]
    by_cases e : m = n <;> simp [e]
  · rw [if_pos rfl, pinBit_or, h]
    by_cases e : m = n <;> simp [e]

/-- The status bits after a one-pin clear (rules R75, R171). -/
theorem pinBit_cleared (s : State) (n m : PinNo) :
    pinBit (cleared s n) m = (pinBit s.eds m && decide (m ≠ n) || pinBit (levelPins s.lev s.hen s.len) m) := by
  by_cases e : m = n <;> simp [cleared, pinBit_onePin, e]

/-- The acknowledge write as one update (rules R75, R171, R209). -/
theorem ackPin_cleared (s : State) (n : PinNo) :
    ackPin s n = withBus { s with eds := cleared s n } [writeOf s.cfg (.eds (pinWord n)) (pinMask n)] := by
  rw [ackPin_eq]; rfl

/-! ### Selecting and completing a line -/

theorem readPendWords_eq (s : State) (n : Nat) : readPendWords s n = withBus s (pendReads s n) := by
  induction n with
  | zero => simp [readPendWords, pendReads]
  | succ n ih =>
    rw [readPendWords, ih, memRead_withBus _ _ (by simp)]
    simp [pendReads, List.range_succ]

/-- A bit of the pending words read is the line's pending-and-enabled bit (rules R26, R85). -/
theorem pendBit_eq (s : State) (id : Nat) : pendBit s id = s.eff id := by simp [pendBit, regValue, getLsbD_idWord]

/-- Nothing about lines depends on the trap flag. -/
theorem enterIrq_regValue (s : State) (r : Reg) : regValue s.enterIrq r = regValue s r := by cases r <;> rfl

/-- `SelectLine` under PendingMask only reads (rule R146). -/
theorem afterSelect_pendingMask {s : State} (h : s.cfg.platformIc = .pendingMask) :
    afterSelect s = withBus s (selectReads s) := by
  simp [afterSelect, selectReads, h, readPendWords_eq]

/-- `SelectLine` under AckRegister reads the acknowledge register, which may mark a line active (rules R78, R147). -/
theorem afterSelect_ackRegister {s : State} (h : s.cfg.platformIc = .ackRegister) :
    afterSelect s = withBus { s with icActive := match s.ackSelect with | some id => some id | none => s.icActive }
      (selectReads s) := by
  simp only [afterSelect, selectReads, h, memRead_icIar]
  rfl

/-! ### GM -/

theorem readStatus_eq (s : State) : readStatus s = withBus s (statusReads s) := by
  unfold readStatus statusReads
  have h0 : regValue s (.eds 0) = bankWord s.eds 0 := rfl
  rw [h0]
  split
  · rename_i h
    rw [memRead_withBus _ _ (by simp), memRead_withBus _ _ (by simp), withBus_withBus, withBus_regValue, h0, h]
    rfl
  · rw [memRead_withBus _ _ (by simp), h0]

theorem lowestBit_some {v : Word} {b : Nat} :
    lowestBit v = some b ↔ b < 32 ∧ v.getLsbD b = true ∧ ∀ j < b, v.getLsbD j = false := by
  simp only [lowestBit, List.find?_range_eq_some, List.mem_range]
  constructor
  · rintro ⟨h1, h2, h3⟩
    exact ⟨h2, h1, fun j hj => by simpa using h3 j hj⟩
  · rintro ⟨h1, h2, h3⟩
    exact ⟨h2, h1, fun j hj => by simpa using h3 j hj⟩

theorem lowestBit_none {v : Word} : lowestBit v = none ↔ v = 0 := by
  simp only [lowestBit, List.find?_eq_none, List.mem_range]
  constructor
  · intro h
    apply BitVec.eq_of_getLsbD_eq
    intro i hi
    simpa using h i hi
  · rintro rfl j _
    simp

/-- The pin that `GM.Dispatch` serves is the first pending one (rule R176). -/
theorem firstStatusPin_some (s : State) (n : PinNo) : firstStatusPin s = some n ↔ FirstPending s n := by
  have h0 : regValue s (.eds 0) = bankWord s.eds 0 := rfl
  have h1 : regValue s (.eds 1) = bankWord s.eds 1 := rfl
  have b0 : ∀ i, i < 32 → (bankWord s.eds 0).getLsbD i = s.eds.getLsbD i := by
    intro i hi; rw [getLsbD_bankWord]; simp [hi]
  have b1 : ∀ i, i < 32 → (bankWord s.eds 1).getLsbD i = s.eds.getLsbD (32 + i) := by
    intro i hi; rw [getLsbD_bankWord]; simp [hi]
  unfold firstStatusPin FirstPending
  rw [h0, h1]
  cases hl : lowestBit (bankWord s.eds 0) with
  | some b =>
    obtain ⟨hb, hv, hj⟩ := lowestBit_some.1 hl
    rw [b0 b hb] at hv
    simp only [show b < 54 by omega, dif_pos, Option.some.injEq]
    constructor
    · rintro rfl
      refine ⟨hv, fun m hm => ?_⟩
      have hm : m.val < b := hm
      rw [pinBit, ← b0 _ (by omega)]; exact hj _ hm
    · rintro ⟨hn, hmin⟩
      apply Fin.ext
      by_contra hc
      rcases Nat.lt_or_gt_of_ne hc with h | h
      · have := hmin ⟨b, by omega⟩ h
        simp [pinBit, hv] at this
      · have h : n.val < b := h
        have := hj n.val h
        rw [b0 _ (by omega)] at this
        rw [pinBit, this] at hn
        cases hn
  | none =>
    have hz := lowestBit_none.1 hl
    have hlow : ∀ i, i < 32 → s.eds.getLsbD i = false := by
      intro i hi; rw [← b0 i hi, hz]; simp
    cases hl1 : lowestBit (bankWord s.eds 1) with
    | some b =>
      obtain ⟨hb, hv, hj⟩ := lowestBit_some.1 hl1
      rw [b1 b hb] at hv
      have h54 : 32 + b < 54 := by
        by_contra hc
        rw [BitVec.getLsbD_of_ge _ _ (by omega)] at hv; cases hv
      simp only [h54, dif_pos, Option.some.injEq]
      constructor
      · rintro rfl
        refine ⟨hv, fun m hm => ?_⟩
        have hm : m.val < 32 + b := hm
        rw [pinBit]
        by_cases h32 : m.val < 32
        · exact hlow _ h32
        · have := hj (m.val - 32) (by omega)
          rw [b1 _ (by omega)] at this
          rwa [show 32 + (m.val - 32) = m.val by omega] at this
      · rintro ⟨hn, hmin⟩
        apply Fin.ext
        by_contra hc
        rcases Nat.lt_or_gt_of_ne hc with h | h
        · have := hmin ⟨32 + b, h54⟩ h
          simp [pinBit, hv] at this
        · have h : n.val < 32 + b := h
          by_cases h32 : n.val < 32
          · rw [pinBit, hlow _ h32] at hn
            cases hn
          · have := hj (n.val - 32) (by omega)
            rw [b1 _ (by omega), show 32 + (n.val - 32) = n.val by omega] at this
            rw [pinBit, this] at hn
            cases hn
    | none =>
      have hz1 := lowestBit_none.1 hl1
      simp only [reduceCtorEq, false_iff, not_and]
      intro hn
      exfalso
      have hn54 := n.isLt
      by_cases h32 : n.val < 32
      · rw [pinBit, hlow _ h32] at hn
        cases hn
      · have := b1 (n.val - 32) (by omega)
        rw [hz1, show 32 + (n.val - 32) = n.val by omega] at this
        rw [pinBit, ← this] at hn
        simp at hn

/-- No pin is served exactly when no status bit is set (rule R176). -/
theorem firstStatusPin_none (s : State) : firstStatusPin s = none ↔ s.eds = 0 := by
  constructor
  · intro h
    by_contra hc
    have hex : ∃ i, ∃ hi : i < 54, pinBit s.eds ⟨i, hi⟩ = true := by
      by_contra hno
      apply hc
      apply pinBit_ext
      intro m
      rw [pinBit_zero]
      by_contra hm
      exact hno ⟨m.val, m.isLt, by simpa using hm⟩
    have hmin := Nat.find_spec hex
    obtain ⟨hi, hb⟩ := hmin
    have : FirstPending s ⟨Nat.find hex, hi⟩ := by
      refine ⟨hb, fun m hm => ?_⟩
      have := Nat.find_min hex (m := m.val) hm
      simp only [not_exists] at this
      simpa using this m.isLt
    rw [(firstStatusPin_some s _).2 this] at h
    cases h
  · intro h
    by_contra hc
    obtain ⟨n, hn⟩ := Option.ne_none_iff_exists'.1 hc
    have := (firstStatusPin_some s n).1 hn
    rw [FirstPending, h] at this
    have hz := this.1
    rw [pinBit_zero] at hz
    cases hz

/-! ### Pin -/

/-- The function half of `Pin.SetMode` as one update (rule R201). -/
theorem applyFunction_eq (s : State) (n : PinNo) (fn : PinFunction) :
    applyFunction s n fn =
      let v := insertField (fselWord s.fsel (fselIndex n)) 3 (fselShift n) ((fselCode fn).setWidth 32)
      withBus { s with fsel := setFselWord s.fsel (fselIndex n) v }
        [readOf s.cfg (.fsel (fselIndex n)) (fselWord s.fsel (fselIndex n)), writeOf s.cfg (.fsel (fselIndex n)) v] := by
  rw [applyFunction, memModify_eq _ _ _ (by simp)]
  rfl

theorem strobePulls_one (old : Vector Pull 54) (p : Pull) (n : PinNo) :
    strobePulls old (pudCode p) (pinWord n) (pinMask n) = old.set n p := by
  simp only [strobePulls, pudPull_pudCode, wordPins_pinMask]
  apply Vector.ext
  intro i hi
  have h := pinBit_onePin n ⟨i, hi⟩
  unfold onePin at h
  simp only [Vector.getElem_ofFn, Vector.getElem_set, h]
  by_cases e : n.val = i
  · subst e; simp
  · have : (⟨i, hi⟩ : PinNo) ≠ n := fun h => e (by rw [← h])
    simp [e, this]

theorem strobePulls_none (old : Vector Pull 54) (c : BitVec 2) (w : Fin 2) : strobePulls old c w 0 = old := by
  have hz : wordPins w 0 = 0 := by fin_cases w <;> decide
  unfold strobePulls
  split
  · rfl
  · apply Vector.ext
    intro i hi
    simp only [Vector.getElem_ofFn, hz, pinBit_zero]
    rfl

/-- `ApplyPull` under LegacyStrobe as one update (rules R202, R203). -/
theorem applyPull_legacy {s : State} (h : s.cfg.pullStyle = .legacyStrobe) (n : PinNo) (p : Pull) :
    applyPull s n p =
      withBus
        { s with
          pud := pudCode p
          pudclk := setBankWord s.pudclk (pinWord n) 0
          pullState := s.pullState.set n p }
        [writeOf s.cfg .pud ((pudCode p).setWidth 32), writeOf s.cfg (.pudclk (pinWord n)) (pinMask n),
          writeOf s.cfg (.pudclk (pinWord n)) 0] := by
  have hb : ∀ b : PinBank, ∀ w v, setBankWord (setBankWord b w v) w 0 = setBankWord b w 0 := by
    intro b w v
    apply pinBit_ext
    intro m
    simp only [pinBit_setBankWord]
    split <;> rfl
  simp only [applyPull, h, strobeWait, memWrite, writeEffect, State.pushBus, pudCode_roundtrip, strobePulls_one,
    strobePulls_none, hb, withBus, writeOf, List.append_assoc, List.cons_append, List.nil_append]

/-- `ApplyPull` under Combined2Bit as one update (rules R202, R203). -/
theorem applyPull_combined {s : State} (h : s.cfg.pullStyle = .combined2Bit) (n : PinNo) (p : Pull) :
    applyPull s n p =
      let v := insertField (puppdnWord s.puppdn (puppdnIndex n)) 2 (puppdnShift n) ((pupCode p).setWidth 32)
      withBus
        { s with
          puppdn := setPuppdnWord s.puppdn (puppdnIndex n) v
          pullState := combinedPulls s.pullState (setPuppdnWord s.puppdn (puppdnIndex n) v) (puppdnIndex n) }
        [readOf s.cfg (.puppdn (puppdnIndex n)) (puppdnWord s.puppdn (puppdnIndex n)),
          writeOf s.cfg (.puppdn (puppdnIndex n)) v] := by
  simp [applyPull, h, memModify, memWrite, writeEffect, memRead, readEffect, State.pushBus, withBus, readOf, writeOf, regValue]

/-- One pin's pull under Combined2Bit, where every pull is its decoded field already (rules R35, R203). -/
theorem combinedPulls_one {s : State} (hm : PullMirror s) (hs : s.cfg.pullStyle = .combined2Bit) (n : PinNo) (p : Pull) :
    combinedPulls s.pullState (setPuppdnWord s.puppdn (puppdnIndex n)
      (insertField (puppdnWord s.puppdn (puppdnIndex n)) 2 (puppdnShift n) ((pupCode p).setWidth 32))) (puppdnIndex n)
      = s.pullState.set n p := by
  apply Vector.ext
  intro i hi
  simp only [combinedPulls, Vector.getElem_ofFn, Vector.getElem_set, puppdnField_insert]
  by_cases e : n.val = i
  · subst e; simp
  · have e' : (⟨i, hi⟩ : PinNo) ≠ n := fun h => e (by rw [← h])
    simp only [e, e', if_false]
    split
    · cases hq : pupPull (puppdnField s.puppdn ⟨i, hi⟩) with
      | none => rfl
      | some q => exact (hm hs ⟨i, hi⟩ q hq).symm
    · rfl

/-! ### Trigger enables -/

/-- The frame of a change of a trigger-enable group. -/
theorem setTrig_frame (s : State) (k : TrigKind) (b : PinBank) :
    { s.setTrig k b with ren := s.ren, fen := s.fen, hen := s.hen, len := s.len, aren := s.aren, afen := s.afen } = s := by
  cases k <;> rfl

/-- A group after the read-modify-write of a pin's word. -/
def modifiedBank (n : PinNo) (f : Word → Word) (b : PinBank) : PinBank :=
  setBankWord b (pinWord n) (f (bankWord b (pinWord n)))

/-- One read-modify-write of a trigger-enable group as one update (rules R76, R171, R204, R205). -/
theorem memModify_trig_eq (s : State) (k : TrigKind) (n : PinNo) (f : Word → Word) :
    memModify s (.trig k (pinWord n)) f =
      withBus
        (if isLevelKind k then (s.setTrig k (modifiedBank n f (s.trig k))).levelDetect
          else s.setTrig k (modifiedBank n f (s.trig k)))
        (kindAccesses s n f [k]) := by
  rw [memModify_eq _ _ _ (by simp)]
  rfl

/-- The groups, the accesses, and the frame. -/
theorem memModify_trig (s : State) (k : TrigKind) (n : PinNo) (f : Word → Word) :
    let t := memModify s (.trig k (pinWord n)) f
    (∀ k', t.trig k' = if k' = k then modifiedBank n f (s.trig k) else s.trig k') ∧
    t.eds = (if isLevelKind k then s.eds ||| levelPins s.lev t.hen t.len else s.eds) ∧
    t.busTrace = s.busTrace ++ kindAccesses s n f [k] ∧
    { t with
      ren := s.ren, fen := s.fen, hen := s.hen, len := s.len, aren := s.aren, afen := s.afen, eds := s.eds
      busTrace := s.busTrace } = s := by
  intro t
  have ht : t = _ := memModify_trig_eq s k n f
  generalize modifiedBank n f (s.trig k) = b at ht ⊢
  generalize kindAccesses s n f [k] = l at ht ⊢
  clear_value t
  subst ht
  refine ⟨fun k' => ?_, ?_, ?_, ?_⟩
  · cases k <;> cases k' <;> rfl
  · cases k <;> rfl
  · cases k <;> rfl
  · cases k <;> rfl

/-- What stays the same through read-modify-writes of trigger-enable groups. -/
theorem memModify_trig_fields (s : State) (k : TrigKind) (n : PinNo) (f : Word → Word) :
    (memModify s (.trig k (pinWord n)) f).cfg = s.cfg ∧ (memModify s (.trig k (pinWord n)) f).lev = s.lev := by
  rw [memModify_trig_eq]
  generalize modifiedBank n f (s.trig k) = b
  cases k <;> exact ⟨rfl, rfl⟩

/-- The read-modify-writes of several kinds, each named once (rules R204, R205). -/
theorem modifyKinds_effect (n : PinNo) (f : Word → Word) (ks : List TrigKind) (hks : ks.Nodup) (s : State) :
    let t := modifyKinds n f ks s
    (∀ k, t.trig k = if k ∈ ks then modifiedBank n f (s.trig k) else s.trig k) ∧
    t.busTrace = s.busTrace ++ kindAccesses s n f ks ∧
    { t with
      ren := s.ren, fen := s.fen, hen := s.hen, len := s.len, aren := s.aren, afen := s.afen, eds := s.eds
      busTrace := s.busTrace } = s := by
  induction ks generalizing s with
  | nil => exact ⟨fun k => by simp [modifyKinds], by simp [modifyKinds, kindAccesses], rfl⟩
  | cons k ks ih =>
    obtain ⟨hk, hks⟩ := List.nodup_cons.1 hks
    obtain ⟨a1, _, a3, a4⟩ := memModify_trig s k n f
    obtain ⟨b1, b2, b3⟩ := ih hks (memModify s (.trig k (pinWord n)) f)
    have hcfg := (memModify_trig_fields s k n f).1
    refine ⟨fun k' => ?_, ?_, ?_⟩
    · rw [modifyKinds, b1, a1]
      by_cases e : k' = k
      · subst e; simp [hk]
      · simp [e]
    · rw [modifyKinds, b2, a3]
      have : kindAccesses (memModify s (.trig k (pinWord n)) f) n f ks = kindAccesses s n f ks := by
        unfold kindAccesses
        apply List.flatMap_congr
        intro k' hk'
        have hne : k' ≠ k := fun e => hk (e ▸ hk')
        rw [a1, if_neg hne, hcfg]
      rw [this, List.append_assoc]
      simp [kindAccesses]
    · rw [modifyKinds]
      generalize memModify s (.trig k (pinWord n)) f = u at *
      generalize modifyKinds n f ks u = t at *
      rw [← b3] at a4
      exact a4

theorem kindsOf_nodup (types : BitVec 6) : (kindsOf types).Nodup := by
  unfold kindsOf
  exact List.Nodup.filter _ (by decide)

theorem mem_kindsOf (types : BitVec 6) (k : TrigKind) : k ∈ kindsOf types ↔ types.getLsbD (trigBit k) = true := by
  cases k <;> simp [kindsOf, trigKinds]

theorem modifiedBank_or (n : PinNo) (b : PinBank) : modifiedBank n (fun v => v ||| pinMask n) b = b ||| onePin n :=
  setBankWord_or_pinMask b n
theorem modifiedBank_and (n : PinNo) (b : PinBank) : modifiedBank n (fun v => v &&& ~~~(pinMask n)) b = b &&& ~~~(onePin n) :=
  setBankWord_and_pinMask b n

theorem levelPins_mono {l h h' n n' : PinBank} (hh : ∀ m, pinBit h m = true → pinBit h' m = true) (hn : ∀ m, pinBit n m = true → pinBit n' m = true) :
  levelPins l h n ||| levelPins l h' n' = levelPins l h' n' := by
  apply pinBit_ext; intro m
  simp only [pinBit_or, pinBit_levelPins]
  have := hh m; have := hn m
  cases pinBit l m <;> cases e1 : pinBit h m <;> cases e2: pinBit n m <;> simp_all

/-- Without a level kind the status bits stay (rule R76). -/
theorem modifyKinds_eds_edge (n : PinNo) (f : Word → Word) (ks : List TrigKind) (s : State) (h : ∀ k ∈ ks, isLevelKind k = false) :
  (modifyKinds n f ks s).eds = s.eds := by
  induction ks generalizing s with
  | nil => rfl
  | cons k ks ih =>
    rw [modifyKinds, ih _ (fun k' hk' => h k' (by simp [hk']))]
    rw [(memModify_trig s k n f).2.1, h k (by simp)]; rfl

theorem modifyKinds_append (n : PinNo) (f : Word → Word) (ks ks' : List TrigKind) (s : State) :
    modifyKinds n f (ks ++ ks') s = modifyKinds n f ks' (modifyKinds n f ks s) := by
  induction ks generalizing s with
  | nil => rfl
  | cons k ks ih => rw [List.cons_append, modifyKinds, ih]; rfl

theorem trigFrame_fields {t s : State} (h : { t with
      ren := s.ren, fen := s.fen, hen := s.hen, len := s.len, aren := s.aren, afen := s.afen, eds := s.eds
      busTrace := s.busTrace } = s) : t.lev = s.lev ∧ t.cfg = s.cfg ∧ t.pinObj = s.pinObj := by
  constructor
  · have := congrArg State.lev h; exact this
  · exact ⟨by have := congrArg State.cfg h; exact this, by have := congrArg State.pinObj h; exact this⟩

/-- The status bits after the read-modify-writes: level detection after each level group (rules R76, R171). -/
theorem modifyKinds_eds (n : PinNo) (f : Word → Word) (types : BitVec 6) (s : State) :
   (modifyKinds n f (kindsOf types) s).eds =
     (s.eds ||| (if types.getLsbD 2 then levelPins s.lev (modifiedBank n f s.hen) s.len else 0)) |||
      (if types.getLsbD 3 then levelPins s.lev (if types.getLsbD 2 then modifiedBank n f s.hen else s.hen) (modifiedBank n f s.len) else 0) := by
  have hsplit : kindsOf types = (kindsOf (types &&& 3)) ++ ((if types.getLsbD 2 then [.highLevel] else []) ++ ((if types.getLsbD 3 then [.lowLevel] else []) ++ kindsOf (types &&& 0x30))) := by
    revert types; decide
  have hm1 : TrigKind.highLevel ∉ kindsOf (types &&& 3) := by clear hsplit; revert types; decide
  have hm2 : TrigKind.lowLevel ∉ kindsOf (types &&& 3) := by clear hsplit hm1; revert types; decide
  have hA : ∀ k ∈ kindsOf (types &&& 3), isLevelKind k = false := by clear hsplit hm1 hm2; revert types; decide
  have hB : ∀ k ∈ kindsOf (types &&& 0x30), isLevelKind k = false := by clear hsplit hm1 hm2 hA; revert types; decide
  rw [hsplit, modifyKinds_append, modifyKinds_append, modifyKinds_append]
  rw [modifyKinds_eds_edge _ _ _ _ hB]
  obtain ⟨a1, a2, a3⟩ := modifyKinds_effect n f _ (kindsOf_nodup (types &&& 3)) s
  have ae := modifyKinds_eds_edge n f _ s hA
  generalize modifyKinds n f (kindsOf (types &&& 3)) s = u at *
  obtain ⟨l1, l2, l3⟩ := trigFrame_fields a3
  have uh : u.hen = s.hen := by
    have := a1 .highLevel; rw [if_neg hm1] at this; exact this
  have ul : u.len = s.len := by
    have := a1 .lowLevel; rw [if_neg hm2] at this; exact this
  cases h2 : types.getLsbD 2 <;> cases h3 : types.getLsbD 3
  · simp [modifyKinds, ae]
  · simp only [modifyKinds, if_true, Bool.false_eq_true, if_false]
    obtain ⟨b1, b2, b3, b4⟩ := memModify_trig u .lowLevel n f
    have hh : (memModify u (Reg.trig .lowLevel (pinWord n)) f).hen = s.hen := by rw [← uh]; exact b1 .highLevel
    have hl : (memModify u (Reg.trig .lowLevel (pinWord n)) f).len = modifiedBank n f s.len := by rw [← ul]; exact b1 .lowLevel
    rw [b2, hh, hl, ae, l1]; simp [isLevelKind]
  · simp only [modifyKinds, if_true, Bool.false_eq_true, if_false]
    obtain ⟨b1, b2, b3, b4⟩ := memModify_trig u .highLevel n f
    have hh : (memModify u (Reg.trig .highLevel (pinWord n)) f).hen = modifiedBank n f s.hen := by rw [← uh]; exact b1 .highLevel
    have hl : (memModify u (Reg.trig .highLevel (pinWord n)) f).len = s.len := by rw [← ul]; exact b1 .lowLevel
    rw [b2, hh, hl, ae, l1]; simp [isLevelKind]
  · simp only [modifyKinds, if_true]
    obtain ⟨b1, b2, b3, b4⟩ := memModify_trig u .highLevel n f
    have hh : (memModify u (Reg.trig .highLevel (pinWord n)) f).hen = modifiedBank n f s.hen := by rw [← uh]; exact b1 .highLevel
    have hl : (memModify u (Reg.trig .highLevel (pinWord n)) f).len = s.len := by rw [← ul]; exact b1 .lowLevel
    rw [hh, hl, ae, l1] at b2
    have hlev := (memModify_trig_fields u .highLevel n f).2
    generalize memModify u (Reg.trig .highLevel (pinWord n)) f = w at *
    obtain ⟨c1, c2, c3, c4⟩ := memModify_trig w .lowLevel n f
    have hh' : (memModify w (Reg.trig .lowLevel (pinWord n)) f).hen = modifiedBank n f s.hen := by rw [← hh]; exact c1 .highLevel
    have hl' : (memModify w (Reg.trig .lowLevel (pinWord n)) f).len = modifiedBank n f s.len := by rw [← hl]; exact c1 .lowLevel
    rw [c2, hh', hl', b2, hlev, l1]; simp [isLevelKind]

/-! ### Handlers -/

/-- A call of an external handler with an empty body records the call and does nothing else (rule R334). -/
theorem invokeWith_quiet {s : State} {h ctx : Word} {arg : Option AppEvent} (hq : CallableQuietly s h ctx arg)
    (inv : Invoker) : invokeWith inv h ctx arg s = .ok { s with callTrace := s.callTrace ++ [⟨h, ctx⟩] } := by
  obtain ⟨hc, hb, hd⟩ := hq
  have hb' : handlerBody (recordCall h ctx s).cfg h ctx arg = [] := hb
  have hd' : ¬ (recordCall h ctx s).cfg.maxNest ≤ (recordCall h ctx s).invokeDepth := Nat.not_le.2 hd
  simp only [invokeWith, hc, runExternal, hb', hd', if_false, runBody, andThen_ok]
  rfl

/-- The same call from an operation. -/
theorem invoke_quiet {s : State} {h ctx : Word} {arg : Option AppEvent} (hq : CallableQuietly s h ctx arg) :
    invoke h ctx arg s = .ok { s with callTrace := s.callTrace ++ [⟨h, ctx⟩] } := by
  rw [invoke_eq]
  exact invokeWith_quiet hq _

/-- The same call inside a called handler. -/
theorem innerCall_quiet {s : State} {h ctx : Word} {arg : Option AppEvent} (hq : CallableQuietly s h ctx arg) :
    innerCall h ctx arg s = .ok { s with callTrace := s.callTrace ++ [⟨h, ctx⟩] } := by
  rw [innerCall, splitCall_other]
  · exact invoke_quiet hq
  · rintro rfl
    cases hq.1

/-- A call of a built-in word runs its rule over the inner calls (rule R334). -/
theorem invoke_builtin (b : Builtin) (ctx : Word) (arg : Option AppEvent) (s : State) :
    invoke (builtinWord b) ctx arg s = runBuiltin innerCall b s := by
  rw [invoke_eq, invokeWith, handlerClass_builtin.2 rfl]
  rfl

/-- A call of an external word runs its body over the inner calls (rule R334). -/
theorem invoke_external {h : Word} (hh : handlerClass h = .external) (ctx : Word) (arg : Option AppEvent) (s : State) :
    invoke h ctx arg s = runExternal innerCall h ctx arg s := by
  rw [invoke_eq, invokeWith, hh]
  rfl

/-- Firing a list of timers ends exactly in the states that the calls of its timers lead to (rule R307). -/
theorem fireTimers_ok_iff (l : List Timer) (s t : State) : fireTimers innerCall l s = .ok t ↔ FiresTo l s t := by
  induction l generalizing s with
  | nil => simp [fireTimers, FiresTo, eq_comm]
  | cons x xs ih =>
    rw [fireTimers, andThen_eq_ok, fireTimer, FiresTo]
    split
    · simp only [ih]
    · simp [ih]

/-- A body ends exactly in the states that its commands lead to (rule R334). -/
theorem runBody_ok_iff (is : List Instr) (s t : State) : runBody innerCall is s = .ok t ↔ CommandsEnd is s t := by
  induction is generalizing s with
  | nil => simp [runBody, CommandsEnd, eq_comm]
  | cons i is ih => simp only [runBody, andThen_eq_ok, CommandsEnd, ih]

/-- An output that can be delivered (rules R111, R244). -/
theorem emitOutput_quiet {s : State} {out : Option AppEvent} (h : CanEmit s out) :
    emitOutput innerCall out s = .ok (emitted s out) := by
  unfold emitOutput emitted
  cases out with
  | none => rfl
  | some e =>
    unfold emitEvent
    cases hc : s.enc.appCallback with
    | none => simp
    | some cb =>
      have hq := h e cb rfl hc
      have hq' : CallableQuietly { s with appTrace := s.appTrace ++ [⟨e, cb.ctx⟩] } cb.handler cb.ctx (some e) := hq
      simp only [innerCall_quiet hq']

/-! ### Kernel timers -/

theorem cancelOptional_eq (s : State) (h : Option Word) :
    cancelOptional s h = { s with timers := withoutTimer h s.timers } := by
  cases h <;> rfl

/-- A start whose handle and deadline the spec gives (rule R304). -/
theorem startTimer_eq {s : State} {d : Nat} (hs : CanStart s d) (h ctx : Word) :
    startTimer s d h ctx =
      { s with
        timers := s.timers ++ [newTimer s d h ctx], timerSeq := s.timerSeq + 1, freeCount := s.freeCount + 1 } := by
  simp [startTimer, newTimer, nextHandle, deadlineAfter, hs.1, hs.2]

theorem nextHandle_eq {s : State} {d : Nat} (hs : CanStart s d) (h ctx : Word) :
    nextHandle s = (newTimer s d h ctx).handle := by simp [newTimer, nextHandle, hs.1]

/-! ### `GM.AllOff` -/

/-- Six writes of 0 leave no function-select bit (rule R177). -/
theorem setFselWord_zero_all (f : BitVec 162) :
    setFselWord (setFselWord (setFselWord (setFselWord (setFselWord (setFselWord f 0 0) 1 0) 2 0) 3 0) 4 0) 5 0 = 0 := by
  apply BitVec.eq_of_getLsbD_eq
  intro i hi
  simp only [getLsbD_setFselWord]
  have h0 : ∀ j, (0 : Word).getLsbD j = false := by intro j; simp
  simp only [h0, hi, true_and]
  split
  · simp
  split
  · simp
  split
  · simp
  split
  · simp
  split
  · simp
  split
  · simp
  · rename_i a b c d e f
    simp at a b c d e f
    omega

/-- The function-select half of `GM.AllOff` as one update (rule R177). -/
theorem clearFsel_eq (s : State) :
    clearFsel s [0, 1, 2, 3, 4, 5] =
      withBus { s with fsel := 0 } (([0, 1, 2, 3, 4, 5] : List (Fin 6)).map fun k => writeOf s.cfg (.fsel k) 0) := by
  simp only [clearFsel, List.foldl_cons, List.foldl_nil]
  rw [memWrite_eq s]
  simp only [memWrite_withBus, writeEffect]
  rw [setFselWord_zero_all]
  rfl

/-- Four writes of 0 leave no pull bit (rule R177). -/
theorem setPuppdnWord_zero_all (f : BitVec 108) :
    setPuppdnWord (setPuppdnWord (setPuppdnWord (setPuppdnWord f 0 0) 1 0) 2 0) 3 0 = 0 := by
  apply BitVec.eq_of_getLsbD_eq
  intro i hi
  simp only [getLsbD_setPuppdnWord]
  have h0 : ∀ j, (0 : Word).getLsbD j = false := by intro j; simp
  simp only [h0, hi, true_and]
  split
  · simp
  split
  · simp
  split
  · simp
  split
  · simp
  · rename_i a b c d
    simp at a b c d
    omega

end Sys2Proof.Laws
end

