-- ==== Sys2Proof/Laws/PerInstr.lean ====
section
/-! SUPPORT. A statement about every operation, one lemma per constructor: the words of an operation are those of its row
of the opcode table. -/

namespace Sys2Proof.Laws.EncodeLength

open Sys2Proof

/-- The row of the operation's opcode byte exists, the operation word has the row's match under the row's mask, and the
operation has as many words as the row says (rules R100, R101, R104). -/
def Statement (i : Instr) : Prop :=
  ∃ r ∈ opTable, rowOf (byteOf i.opword 3) = some r ∧ i.opword &&& r.mask = r.matchWord ∧ (encode i).length = r.words

/-- Masks act byte by byte. -/
theorem opWord_and (o p f g b c d e : BitVec 8) :
    opWord o f b d &&& opWord p g c e = opWord (o &&& p) (f &&& g) (b &&& c) (d &&& e) := by
  refine BitVec.and_append.trans ?_
  refine congrArg (_ ++ ·) (BitVec.and_append.trans ?_)
  exact congrArg (_ ++ ·) BitVec.and_append

/-- The statement from a row of the table and the bytes of the operation word. -/
theorem of_row {i : Instr} {r : OpRow} {f b1 b0 : BitVec 8} (hw : i.opword = opWord r.opcode f b1 b0)
    (hr : rowOf r.opcode = some r) (hm : r ∈ opTable) (hf : f &&& r.zeroF = 0) (h1 : b1 &&& r.zeroB1 = 0)
    (h0 : b0 &&& r.zeroB0 = 0) (hl : (encode i).length = r.words) : Statement i := by
  refine ⟨r, hm, ?_, ?_, hl⟩
  · rw [hw, byteOf_opWord_3, hr]
  · rw [hw, OpRow.mask, opWord_and, hf, h1, h0, OpRow.matchWord]; congr 1; exact BitVec.and_allOnes

theorem icRegisterHandler (id : Nat) (handler : Word) (ctx : Word) : Statement (.icRegisterHandler id handler ctx) :=
  of_row (r := ⟨.icRegisterHandler, 0x01, 0xFF, 0x00, 0x00, 3⟩) rfl (by decide) (by decide) (by decide) (by simp) (by simp) rfl

theorem icUnregisterHandler (id : Nat) : Statement (.icUnregisterHandler id) :=
  of_row (r := ⟨.icUnregisterHandler, 0x02, 0xFF, 0x00, 0x00, 1⟩) rfl (by decide) (by decide) (by decide) (by simp) (by simp) rfl

theorem icEnableLine (id : Nat) : Statement (.icEnableLine id) :=
  of_row (r := ⟨.icEnableLine, 0x03, 0xFF, 0x00, 0x00, 1⟩) rfl (by decide) (by decide) (by decide) (by simp) (by simp) rfl

theorem icDisableLine (id : Nat) : Statement (.icDisableLine id) :=
  of_row (r := ⟨.icDisableLine, 0x04, 0xFF, 0x00, 0x00, 1⟩) rfl (by decide) (by decide) (by decide) (by simp) (by simp) rfl

theorem icDisableAllLines : Statement (.icDisableAllLines) :=
  of_row (r := ⟨.icDisableAllLines, 0x05, 0xFF, 0xFF, 0xFF, 1⟩) rfl (by decide) (by decide) (by decide) (by decide) (by decide) rfl

theorem icDispatch : Statement (.icDispatch) :=
  of_row (r := ⟨.icDispatch, 0x06, 0xFF, 0xFF, 0xFF, 1⟩) rfl (by decide) (by decide) (by decide) (by decide) (by decide) rfl

theorem icDispatchFiq : Statement (.icDispatchFiq) :=
  of_row (r := ⟨.icDispatchFiq, 0x07, 0xFF, 0xFF, 0xFF, 1⟩) rfl (by decide) (by decide) (by decide) (by decide) (by decide) rfl

theorem gmInitialize : Statement (.gmInitialize) :=
  of_row (r := ⟨.gmInitialize, 0x10, 0xFF, 0xFF, 0xFF, 1⟩) rfl (by decide) (by decide) (by decide) (by decide) (by decide) rfl

theorem gmConnectInterrupt (obj : Nat) : Statement (.gmConnectInterrupt obj) :=
  of_row (r := ⟨.gmConnectInterrupt, 0x11, 0xFF, 0x00, 0xFF, 1⟩) rfl (by decide) (by decide) (by decide) (by simp) (by decide) rfl

theorem gmDisconnectInterrupt (obj : Nat) : Statement (.gmDisconnectInterrupt obj) :=
  of_row (r := ⟨.gmDisconnectInterrupt, 0x12, 0xFF, 0x00, 0xFF, 1⟩) rfl (by decide) (by decide) (by decide) (by simp) (by decide) rfl

theorem gmDispatch : Statement (.gmDispatch) :=
  of_row (r := ⟨.gmDispatch, 0x13, 0xFF, 0xFF, 0xFF, 1⟩) rfl (by decide) (by decide) (by decide) (by decide) (by decide) rfl

theorem gmAllOff : Statement (.gmAllOff) :=
  of_row (r := ⟨.gmAllOff, 0x14, 0xFF, 0xFF, 0xFF, 1⟩) rfl (by decide) (by decide) (by decide) (by decide) (by decide) rfl

theorem pinAssignPin (obj : Nat) (n : Nat) : Statement (.pinAssignPin obj n) :=
  of_row (r := ⟨.pinAssignPin, 0x20, 0xFF, 0x00, 0x00, 1⟩) rfl (by decide) (by decide) (by decide) (by simp) (by simp) rfl

theorem pinSetMode (obj : Nat) (fn : PinFunction) (pull : BitVec 2) : Statement (.pinSetMode obj fn pull) :=
  of_row (r := ⟨.pinSetMode, 0x21, 0xC8, 0x00, 0xFF, 1⟩) rfl (by decide) (by decide) (modeByte_zero fn pull) (by simp) (by decide) rfl

theorem pinEnableInterrupt (obj : Nat) (types : BitVec 6) : Statement (.pinEnableInterrupt obj types) :=
  of_row (r := ⟨.pinEnableInterrupt, 0x22, 0xC0, 0x00, 0xFF, 1⟩) rfl (by decide) (by decide) (typesByte_zero types) (by simp) (by decide) rfl

theorem pinDisableInterrupt (obj : Nat) (types : BitVec 6) : Statement (.pinDisableInterrupt obj types) :=
  of_row (r := ⟨.pinDisableInterrupt, 0x23, 0xC0, 0x00, 0xFF, 1⟩) rfl (by decide) (by decide) (typesByte_zero types) (by simp) (by decide) rfl

theorem pinConnectInterrupt (obj : Nat) (autoAck : Bool) (callback : Word) (ctx : Word) : Statement (.pinConnectInterrupt obj autoAck callback ctx) :=
  of_row (r := ⟨.pinConnectInterrupt, 0x25, 0xFE, 0x00, 0xFF, 3⟩) rfl (by decide) (by decide) (flagByte_zero autoAck) (by simp) (by decide) rfl

theorem pinDisconnectInterrupt (obj : Nat) : Statement (.pinDisconnectInterrupt obj) :=
  of_row (r := ⟨.pinDisconnectInterrupt, 0x26, 0xFF, 0x00, 0xFF, 1⟩) rfl (by decide) (by decide) (by decide) (by simp) (by decide) rfl

theorem pinAcknowledgeInterrupt (obj : Nat) : Statement (.pinAcknowledgeInterrupt obj) :=
  of_row (r := ⟨.pinAcknowledgeInterrupt, 0x27, 0xFF, 0x00, 0xFF, 1⟩) rfl (by decide) (by decide) (by decide) (by simp) (by decide) rfl

theorem pinDispatch (obj : Nat) : Statement (.pinDispatch obj) :=
  of_row (r := ⟨.pinDispatch, 0x28, 0xFF, 0x00, 0xFF, 1⟩) rfl (by decide) (by decide) (by decide) (by simp) (by decide) rfl

theorem encInitialize (sw : Nat) (dt : Nat) (clk : Nat) : Statement (.encInitialize sw dt clk) :=
  of_row (r := ⟨.encInitialize, 0x30, 0x00, 0x00, 0x00, 1⟩) rfl (by decide) (by decide) (by simp) (by simp) (by simp) rfl

theorem encRegisterEventHandler (callback : Word) (ctx : Word) : Statement (.encRegisterEventHandler callback ctx) :=
  of_row (r := ⟨.encRegisterEventHandler, 0x31, 0xFF, 0xFF, 0xFF, 3⟩) rfl (by decide) (by decide) (by decide) (by decide) (by decide) rfl

theorem encUninitialize : Statement (.encUninitialize) :=
  of_row (r := ⟨.encUninitialize, 0x32, 0xFF, 0xFF, 0xFF, 1⟩) rfl (by decide) (by decide) (by decide) (by decide) (by decide) rfl

theorem memRead32 (addr : Word) : Statement (.memRead32 addr) :=
  of_row (r := ⟨.memRead32, 0x40, 0xFF, 0xFF, 0xFF, 2⟩) rfl (by decide) (by decide) (by decide) (by decide) (by decide) rfl

theorem memWrite32 (addr : Word) (value : Word) : Statement (.memWrite32 addr value) :=
  of_row (r := ⟨.memWrite32, 0x41, 0xFF, 0xFF, 0xFF, 3⟩) rfl (by decide) (by decide) (by decide) (by decide) (by decide) rfl

theorem evPinLevel (n : Nat) (level : Bool) : Statement (.evPinLevel n level) :=
  of_row (r := ⟨.evPinLevel, 0x80, 0xFE, 0xFF, 0x00, 1⟩) rfl (by decide) (by decide) (flagByte_zero level) (by decide) (by simp) rfl

theorem evIrqLine (id : Nat) (level : Bool) : Statement (.evIrqLine id level) :=
  of_row (r := ⟨.evIrqLine, 0x81, 0xFE, 0x00, 0x00, 1⟩) rfl (by decide) (by decide) (flagByte_zero level) (by simp) (by simp) rfl

theorem evTimerPeriod : Statement (.evTimerPeriod) :=
  of_row (r := ⟨.evTimerPeriod, 0x82, 0xFF, 0xFF, 0xFF, 1⟩) rfl (by decide) (by decide) (by decide) (by decide) (by decide) rfl

end Sys2Proof.Laws.EncodeLength
end

