-- ==== Sys2Proof/Tests/Slice0.lean ====
section
/-! SUPPORT. Tests: operations the encoding does not admit, words of the spec, one step for each operation, and states
that meet the hypotheses of the statements. Expected values are those of spec/95_test_vectors.md (V-…) or of the rule
named. -/

namespace Sys2Proof.Tests

open Sys2Proof.Machine Sys2Proof.Safety

/-! ### Operands the encoding does not admit (rule R100) -/

theorem test_id_wider_than_its_field_is_refused :
    (Instr.icRegisterHandler 65536 0 0).wellFormed = false ∧ (Instr.icUnregisterHandler 65536).wellFormed = false ∧
    (Instr.icEnableLine 65536).wellFormed = false ∧ (Instr.icDisableLine 65536).wellFormed = false ∧
    (Instr.evIrqLine 65536 true).wellFormed = false := by decide

theorem test_object_wider_than_its_field_is_refused :
    (Instr.gmConnectInterrupt 256).wellFormed = false ∧ (Instr.gmDisconnectInterrupt 256).wellFormed = false ∧
    (Instr.pinAssignPin 256 0).wellFormed = false ∧ (Instr.pinSetMode 256 .input 0).wellFormed = false ∧
    (Instr.pinEnableInterrupt 256 0).wellFormed = false ∧ (Instr.pinDisableInterrupt 256 0).wellFormed = false ∧
    (Instr.pinConnectInterrupt 256 true 0 0).wellFormed = false ∧
    (Instr.pinDisconnectInterrupt 256).wellFormed = false ∧ (Instr.pinAcknowledgeInterrupt 256).wellFormed = false ∧
    (Instr.pinDispatch 256).wellFormed = false := by decide

theorem test_pin_wider_than_its_field_is_refused :
    (Instr.pinAssignPin 0 256).wellFormed = false ∧ (Instr.encInitialize 256 0 0).wellFormed = false ∧
    (Instr.encInitialize 0 256 0).wellFormed = false ∧ (Instr.encInitialize 0 0 256).wellFormed = false ∧
    (Instr.evPinLevel 256 true).wellFormed = false := by decide

/-! ### Words (30_encoding.md, V-E1 to V-E35) -/

/-- The rows of opcode_table.json: mask and match. -/
theorem test_masks_and_matches_of_the_table :
    opTable.map (fun r => (r.mask, r.matchWord)) =
      [(0xFFFF0000, 0x01000000), (0xFFFF0000, 0x02000000), (0xFFFF0000, 0x03000000), (0xFFFF0000, 0x04000000),
        (0xFFFFFFFF, 0x05000000), (0xFFFFFFFF, 0x06000000), (0xFFFFFFFF, 0x07000000)] ++
      [(0xFFFFFFFF, 0x10000000), (0xFFFF00FF, 0x11000000), (0xFFFF00FF, 0x12000000), (0xFFFFFFFF, 0x13000000),
        (0xFFFFFFFF, 0x14000000)] ++
      [(0xFFFF0000, 0x20000000), (0xFFC800FF, 0x21000000), (0xFFC000FF, 0x22000000), (0xFFC000FF, 0x23000000),
        (0xFFFE00FF, 0x25000000), (0xFFFF00FF, 0x26000000), (0xFFFF00FF, 0x27000000), (0xFFFF00FF, 0x28000000)] ++
      [(0xFF000000, 0x30000000), (0xFFFFFFFF, 0x31000000), (0xFFFFFFFF, 0x32000000), (0xFFFFFFFF, 0x40000000),
        (0xFFFFFFFF, 0x41000000), (0xFFFEFF00, 0x80000000), (0xFFFE0000, 0x81000000), (0xFFFFFFFF, 0x82000000)] := by
  decide

theorem test_decode_ic :
    decode [0x0100003F, 0x00001000, 0x0000AAAA, 0x06000000] =
      .ok (.icRegisterHandler 63 0x1000 0xAAAA, [0x06000000]) ∧
    decode [0x0200FFFE] = .ok (.icUnregisterHandler 0xFFFE, []) ∧ decode [0x03000028] = .ok (.icEnableLine 40, []) ∧
    decode [0x04000109] = .ok (.icDisableLine 265, []) ∧ decode [0x05000000] = .ok (.icDisableAllLines, []) ∧
    decode [0x06000000] = .ok (.icDispatch, []) ∧ decode [0x07000000] = .ok (.icDispatchFiq, []) :=
  ⟨rfl, rfl, rfl, rfl, rfl, rfl, rfl⟩

theorem test_decode_gm :
    decode [0x10000000] = .ok (.gmInitialize, []) ∧ decode [0x11000200] = .ok (.gmConnectInterrupt 2, []) ∧
    decode [0x12000200] = .ok (.gmDisconnectInterrupt 2, []) ∧ decode [0x13000000] = .ok (.gmDispatch, []) ∧
    decode [0x14000000] = .ok (.gmAllOff, []) :=
  ⟨rfl, rfl, rfl, rfl, rfl⟩

theorem test_decode_pin :
    decode [0x20000211] = .ok (.pinAssignPin 2 17, []) ∧ decode [0x21250300] = .ok (.pinSetMode 3 .altFn3 2, []) ∧
    decode [0x21300000] = .ok (.pinSetMode 0 .input 3, []) ∧
    decode [0x223F0100] = .ok (.pinEnableInterrupt 1 0x3F, []) ∧
    decode [0x23020100] = .ok (.pinDisableInterrupt 1 0x02, []) ∧
    decode [0x25010200, 0xFFFF0004, 0x00000007] = .ok (.pinConnectInterrupt 2 true 0xFFFF0004 7, []) ∧
    decode [0x25000100, 0x00002100, 0x00000008] = .ok (.pinConnectInterrupt 1 false 0x2100 8, []) ∧
    decode [0x26000300] = .ok (.pinDisconnectInterrupt 3, []) ∧
    decode [0x27000100] = .ok (.pinAcknowledgeInterrupt 1, []) ∧ decode [0x28000300] = .ok (.pinDispatch 3, []) :=
  ⟨rfl, rfl, rfl, rfl, rfl, rfl, rfl, rfl, rfl, rfl⟩

theorem test_decode_enc_mem_ev :
    decode [0x301B1611] = .ok (.encInitialize 27 22 17, []) ∧
    decode [0x31000000, 0x00003000, 0x00000055] = .ok (.encRegisterEventHandler 0x3000 0x55, []) ∧
    decode [0x32000000] = .ok (.encUninitialize, []) ∧
    decode [0x40000000, 0x3F200040] = .ok (.memRead32 0x3F200040, []) ∧
    decode [0x41000000, 0x3F200040, 0x00020000] = .ok (.memWrite32 0x3F200040 0x20000, []) ∧
    decode [0x80010011] = .ok (.evPinLevel 17 true, []) ∧ decode [0x80000036] = .ok (.evPinLevel 54 false, []) ∧
    decode [0x81010009] = .ok (.evIrqLine 9 true, []) ∧ decode [0x82000000] = .ok (.evTimerPeriod, []) :=
  ⟨rfl, rfl, rfl, rfl, rfl, rfl, rfl, rfl, rfl⟩

/-- V-E4, V-E6, V-E11, V-E12, V-E16, V-E19 to V-E22, V-E27, V-E29, and an operation whose operands are not there. -/
theorem test_decode_refuses :
    decode [0x01010009, 0, 0] = .error (.unusedField 0x01010009) ∧
    decode [0x05000001] = .error (.unusedField 0x05000001) ∧
    decode [0x21080000] = .error (.unusedField 0x21080000) ∧
    decode [0x21100001] = .error (.unusedField 0x21100001) ∧
    decode [0x22400000] = .error (.unusedField 0x22400000) ∧
    decode [0x25020000, 0, 0] = .error (.unusedField 0x25020000) ∧
    decode [0x40010000, 0] = .error (.unusedField 0x40010000) ∧
    decode [0x80000111] = .error (.unusedField 0x80000111) ∧
    decode [0x24000000] = .error (.unassignedOpcode 0x24000000) ∧
    decode [0x00000000] = .error (.unassignedOpcode 0) ∧
    decode [0xFF000000] = .error (.unassignedOpcode 0xFF000000) ∧
    decode [0x41000000, 0x3F200040] = .error (.missingOperand 0x41000000) :=
  ⟨rfl, rfl, rfl, rfl, rfl, rfl, rfl, rfl, rfl, rfl, rfl, rfl⟩

/-! ### One step -/

/-- The next state of a step, if there is one. -/
def answer : Host.Outcome State Fault Refusal → Option State
  | .next t => some t
  | .fault _ => none
  | .refused _ => none

/-- The fault of a step, if it is one. -/
def stopOf : Host.Outcome State Fault Refusal → Option Fault
  | .next _ => none
  | .fault f => some f
  | .refused _ => none

/-- One step on the words of one operation, and what is asked of the next state. -/
def after {α : Type} (s : State) (ws : List Word) (f : State → α) : Option α :=
  (answer (step { s with port := ws })).map f

/-- A state with one line changed. -/
def withLine (s : State) (id : Nat) (l : IrqLine) : State := { s with lines := s.lines.set id l }

/-- A state with one pin object changed and connected to its pin. -/
def withPin (s : State) (obj : Nat) (n : PinNo) (p : PinObj) : State :=
  { s with pinObj := s.pinObj.set obj { p with pinNumber := some n }, pinTable := s.pinTable.set n (some obj) }

/-- Line 9 registered, enabled and pending (V-I1 after step 2). -/
def line9 : State := withLine .reset 9 ⟨some ⟨0x1000, 0xAAAA⟩, true, true⟩

/-- Objects 0 and 1 on pins 17 and 22, as after the setup GS. -/
def gs : State :=
  { withPin (withPin .reset 0 17 ⟨none, .input, .up, 0x03, some ⟨0x2000, 7, true⟩⟩) 1 22
      ⟨none, .input, .off, 0x02, some ⟨0x2100, 8, false⟩⟩ with
    ren := 0x00020000, fen := 0x00420000
    lines := State.reset.lines.set 52 ⟨some ⟨0xFFFF0001, 0⟩, true, false⟩ }

/-- The state after BOOT of 95_test_vectors.md, without its register accesses. -/
def booted : State :=
  { withPin (withPin (withPin .reset 0 17 ⟨none, .input, .up, 0x03, some ⟨0xFFFF0003, 0, true⟩⟩) 1 22
      ⟨none, .input, .up, 0x03, some ⟨0xFFFF0003, 0, true⟩⟩) 2 27 ⟨none, .input, .up, 0x03, some ⟨0xFFFF0004, 0, true⟩⟩ with
    ren := 0x08420000, fen := 0x08420000, gmInitialized := true
    pullState := ((State.reset.pullState.set 17 .up).set 22 .up).set 27 .up
    lines := (State.reset.lines.set 52 ⟨some ⟨0xFFFF0001, 0⟩, true, false⟩).set 3 ⟨some ⟨0xFFFF0002, 0⟩, true, false⟩
    enc := { encReset with initialized := true, appCallback := some ⟨0x3000, 0x55⟩ } }

/-- V-I1 step 1. -/
theorem test_registerHandler :
    after .reset [0x01000009, 0x00001000, 0x0000AAAA] (fun t => (t.line 9, t.busTrace, t.fault)) =
      some (⟨some ⟨0x1000, 0xAAAA⟩, true, false⟩, [.write 0x3F00B210 0x200], none) := by decide

/-- V-I2. -/
theorem test_registerHandler_twice :
    after line9 [0x01000009, 0x00002000, 0x00000001] (fun t => (t.irqTable 9, t.busTrace, t.fault)) =
      some (some ⟨0x1000, 0xAAAA⟩, [], some ⟨.irqAlreadyBound, 0x01000009⟩) := by decide

/-- V-I1 steps 9 and 10. -/
theorem test_unregisterHandler :
    after line9 [0x02000009] (fun t => (t.line 9, t.busTrace)) =
      some (⟨none, false, true⟩, [.write 0x3F00B21C 0x200]) ∧
    after .reset [0x02000009] State.fault = some (some ⟨.irqNotBound, 0x02000009⟩) := by decide

/-- V-I4, V-I5. -/
theorem test_enableLine :
    after .reset [0x03000028] (fun t => ((t.line 40).enable, t.busTrace)) =
      some (true, [.write 0x3F00B214 0x100]) ∧
    after .reset [0x03000040] State.fault = some (some ⟨.invalidIrq, 0x03000040⟩) := by decide

/-- V-I1 step 6. -/
theorem test_disableLine :
    after line9 [0x04000009] (fun t => (t.line 9, t.busTrace, t.nIrqRequest)) =
      some (⟨some ⟨0x1000, 0xAAAA⟩, false, true⟩, [.write 0x3F00B21C 0x200], false) := by decide

/-- V-I6. -/
theorem test_disableAllLines :
    after line9 [0x05000000] (fun t => (t.line 9, t.busTrace)) =
      some (⟨some ⟨0x1000, 0xAAAA⟩, false, true⟩,
        [.write 0x3F00B21C 0xFFFFFFFF, .write 0x3F00B220 0xFFFFFFFF]) := by decide

/-- V-I1 step 3. -/
theorem test_dispatch :
    after line9 [0x06000000] (fun t => (t.callTrace, t.busTrace, t.inIrq, t.nIrqRequest)) =
      some ([⟨0x1000, 0xAAAA⟩], [.read 0x3F00B204 0x200, .read 0x3F00B208 0], false, true) := by decide

/-- V-I11. -/
theorem test_dispatch_ackRegister :
    after { line9 with cfg := rcAck } [0x06000000] (fun t => (t.callTrace, t.busTrace, t.icActive)) =
      some ([⟨0x1000, 0xAAAA⟩], [.read 0xFF84200C 9, .write 0xFF842010 9], none) := by decide

/-- V-I10. -/
theorem test_dispatchFiq :
    after line9 [0x07000000] State.callTrace = some [] ∧
    after { line9 with cfg := { rc0 with fiqLine := some 9 } } [0x07000000]
      (fun t => (t.callTrace, t.busTrace, t.inFiq, t.nFiqRequest)) =
      some ([⟨0x1000, 0xAAAA⟩], [], false, true) := by decide

/-- V-G1. -/
theorem test_gmInitialize :
    after .reset [0x10000000] (fun t => (t.line 52, t.gmInitialized, t.busTrace)) =
      some (⟨some ⟨0xFFFF0001, 0⟩, true, false⟩, true, [.write 0x3F00B214 0x00100000]) := by decide

/-- Rule R174. -/
theorem test_gmConnectInterrupt :
    after { State.reset with pinObj := State.reset.pinObj.set 2 { pinObjReset with pinNumber := some 53 } } [0x11000200]
      (fun t => (t.pinTable[53], t.busTrace)) = some (some 2, []) ∧
    after gs [0x11000100] State.fault = some (some ⟨.pinSlotBound, 0x11000100⟩) := by decide

/-- Rule R175. -/
theorem test_gmDisconnectInterrupt :
    after gs [0x12000100] (fun t => (t.pinTable[22], t.pinTable[17], t.fen)) = some (none, some 0, 0x00420000) := by decide

/-- V-G3. -/
theorem test_gmDispatch :
    after { gs with eds := 0x00420000 } [0x13000000] (fun t => (t.callTrace, t.eds, t.busTrace)) =
      some ([⟨0x2000, 7⟩], 0x00400000, [.read 0x3F200040 0x00420000, .write 0x3F200040 0x00020000]) := by decide +kernel

/-- V-G8. -/
theorem test_gmDispatch_without_owner :
    after { State.reset with eds := 1#54 <<< 53 } [0x13000000] (fun t => (t.logTrace, t.eds, t.busTrace)) =
      some ([⟨.unregisteredPin, 53⟩], 0,
        [.read 0x3F200040 0, .read 0x3F200044 0x00200000, .write 0x3F200044 0x00200000]) := by decide

/-- V-G11. -/
theorem test_gmAllOff :
    after { gs with fsel := BitVec.allOnes 162 } [0x14000000] (fun t => (t.fsel, t.pinObj, t.busTrace.length)) =
      some (0, gs.pinObj, 11) := by decide

/-- V-P1. -/
theorem test_assignPin :
    after .reset [0x20000011] (fun t => ((t.obj 0).pinNumber, t.pinTable, t.busTrace)) =
      some (some 17, State.reset.pinTable, []) ∧
    after .reset [0x20000036] State.fault = some (some ⟨.invalidPin, 0x20000036⟩) := by decide

/-- V-P2. -/
theorem test_setMode :
    after gs [0x21050000] (fun t => (t.busTrace, t.pullState[17], (t.obj 0).pull)) =
      some ([.read 0x3F200004 0, .write 0x3F200004 0x00E00000, .write 0x3F200094 0, .write 0x3F200098 0x00020000,
        .write 0x3F200098 0], .off, .off) := by decide

/-- V-P3. -/
theorem test_setMode_combined :
    after { gs with cfg := { rc0 with pullStyle := .combined2Bit } } [0x21100000]
      (fun t => (t.busTrace, t.pullState[17])) =
      some ([.read 0x3F200004 0, .write 0x3F200004 0, .read 0x3F2000E8 0, .write 0x3F2000E8 4], .up) := by decide

/-- V-P4: the high level of pin 22 sets its status bit. -/
theorem test_enableInterrupt :
    after gs [0x223C0100] (fun t => ((t.hen, t.len, t.aren, t.afen), t.fen, (t.obj 1).triggerMask, t.eds)) =
      some ((0x00400000, 0x00400000, 0x00400000, 0x00400000), 0x00420000, 0x3E, 0x00400000) := by decide

/-- V-P5. -/
theorem test_disableInterrupt :
    after gs [0x23020100] (fun t => (t.fen, t.ren, (t.obj 1).triggerMask, t.busTrace)) =
      some (0x00020000, 0x00020000, 0, [.read 0x3F200058 0x00420000, .write 0x3F200058 0x00020000]) := by decide

/-- Rule R207. -/
theorem test_connectInterrupt :
    after { State.reset with pinObj := State.reset.pinObj.set 0 { pinObjReset with pinNumber := some 17 } }
      [0x25010000, 0x00002000, 0x00000007] (fun t => ((t.obj 0).handler, t.pinTable[17])) =
      some (some ⟨0x2000, 7, true⟩, some 0) := by decide

/-- Rule R208 and V-G8: the trigger enables stay. -/
theorem test_disconnectInterrupt :
    after gs [0x26000000] (fun t => ((t.obj 0).handler, t.pinTable[17], t.ren, (t.obj 0).triggerMask)) =
      some (none, none, 0x00020000, 0x03) := by decide

/-- V-G4. -/
theorem test_acknowledgeInterrupt :
    after { gs with eds := 0x00420000 } [0x27000100] (fun t => (t.eds, t.busTrace)) =
      some (0x00020000, [.write 0x3F200040 0x00400000]) := by decide

/-- V-P8. -/
theorem test_pinDispatch :
    after gs [0x28000000] (fun t => (t.callTrace, t.busTrace)) = some ([⟨0x2000, 7⟩], []) ∧
    after .reset [0x28000000] (fun t => (t.callTrace, t.fault)) = some ([], none) := by decide

/-- V-P9: five calls, the fifth raises. -/
theorem test_pinDispatch_nesting :
    after { gs with cfg := { rc0 with handlerBodies := [⟨0x2000, 7, none, [.pinDispatch 0]⟩] } } [0x28000000]
      (fun t => (t.callTrace.length, t.invokeDepth, t.fault)) =
      some (5, 4, some ⟨.reentrant, 0x28000000⟩) := by decide +kernel

/-- BOOT step 4: 27 accesses and the state after. -/
theorem test_encInitialize :
    after .reset [0x301B1611] (fun t => (t.busTrace.length, t.ren, t.enc.initialized)) = some (27, 0x08420000, true) ∧
    after .reset [0x301B1611] (fun t => (t.pinObj, t.pinTable)) = some (booted.pinObj, booted.pinTable) := by decide

/-- V-E24. -/
theorem test_encInitialize_pin :
    after .reset [0x30361611] State.fault = some (some ⟨.invalidPin, 0x30361611⟩) := by decide

/-- BOOT step 3. -/
theorem test_registerEventHandler :
    after .reset [0x31000000, 0x00003000, 0x00000055] (fun t => t.enc.appCallback) =
      some (some ⟨0x3000, 0x55⟩) ∧
    after booted [0x31000000, 0, 0] State.fault = some (some ⟨.secondAppCallback, 0x31000000⟩) := by decide

/-- Rule R242. -/
theorem test_encUninitialize :
    after booted [0x32000000] (fun t => (t.pinTable, t.pinObj, t.ren, t.enc.initialized)) =
      some (State.reset.pinTable, State.reset.pinObj, 0x08420000, false) := by decide

/-- V-Q10. -/
theorem test_clkDt_edge :
    after { booted with eds := 0x00020000, lev := 0x3FFFFFFFFDFFFF } [0x06000000] (fun t => (t.enc.encState, t.busTrace)) =
      some (.cwStart, [.read 0x3F00B204 0, .read 0x3F00B208 0x00100000, .read 0x3F200040 0x00020000,
        .read 0x3F200034 0xFFFDFFFF, .read 0x3F200034 0xFFFDFFFF, .write 0x3F200040 0x00020000]) := by decide +kernel

/-- P2: the debounce expiry of the first press, served by the timer line. -/
theorem test_debounce_press :
    after { booted with
        ticks := 1049, lev := 0x3FFFFFF7FFFFFF, timerSeq := 1, timers := [⟨1, 1050, 0xFFFF0005, 0, 1⟩]
        lines := booted.lines.set 3 ⟨some ⟨0xFFFF0002, 0⟩, true, true⟩ } [0x06000000]
      (fun t => (t.appTrace, t.enc.btnState, t.ticks, t.timers)) =
      some ([⟨.switchDown, 0x55⟩], .down, 1050, [⟨2, 2050, 0xFFFF0006, 0, 2⟩]) := by decide +kernel

/-- V-E25 and rule R300. -/
theorem test_read32 :
    after { State.reset with eds := 0x00020000 } [0x40000000, 0x3F200040] State.readTrace =
      some [⟨0x3F200040, 0x00020000⟩] ∧
    after .reset [0x40000000, 0x3F200042] State.fault = some (some ⟨.badAddress, 0x40000000⟩) := by decide

/-- V-E26 and rule R75. -/
theorem test_write32 :
    after { State.reset with eds := 0x00420000 } [0x41000000, 0x3F200040, 0x00020000] (fun t => (t.eds, t.busTrace)) =
      some (0x00400000, [.write 0x3F200040 0x00020000]) := by decide

/-- V-G2. -/
theorem test_pinLevel_edge :
    after gs [0x80000011] (fun t => (bankWord t.lev 0, t.eds, t.nIrqRequest)) =
      some (0xFFFDFFFF, 0x00020000, true) := by decide

/-- V-G6. -/
theorem test_pinLevel_other_edge :
    after { gs with lev := 0x3FFFFFFFBFFFFF } [0x80010016] (fun t => (t.lev, t.eds)) =
      some (BitVec.allOnes 54, 0) := by decide

/-- V-I1 step 4 and V-E32. -/
theorem test_irqLine :
    after line9 [0x81000009] (fun t => (t.irqPending 9, t.nIrqRequest)) = some (false, false) ∧
    after .reset [0x81010003] (fun t => (t.irqPending 3, t.fault)) = some (false, none) := by decide

/-- Rule R306. -/
theorem test_timerPeriod :
    after booted [0x82000000] (fun t => (t.irqPending 3, t.ticks, t.nIrqRequest)) = some (true, 0, true) := by decide

/-- Rule R334 and log entry 11: the callback is the tick handler and the button holds, so each tick calls the next. -/
theorem test_callback_that_calls_itself_for_ever :
    stopOf (step { withPin booted 3 5 ⟨none, .input, .off, 1, some ⟨0xFFFF0006, 0, false⟩⟩ with
      port := [0x28000300], enc := { booted.enc with btnState := .hold, appCallback := some ⟨0xFFFF0006, 0⟩ } }) =
      some .endlessInvocation := by decide +kernel

/-- Rules R245, R277 and R278: the cells that the source fixes do not depend on the configuration. -/
theorem test_fixed_cells :
    let c := { rc0 with qdecNext := [], btnNext := [], btnOut := [] }
    (qdecNext c .start 2, qdecNext c .ccwDataRise 3, qdecNext c .invalid 3, qdecNext c .start 0) =
      (.ccwStart, .start, .start, .invalid) ∧
    (btnNext c .click2 .doubleClick, btnOut c .click3 .tick, btnOut c .start .up) =
      (.click3, some .switchTripleClick, none) := by decide

/-! ### States that meet the hypotheses of the statements -/

/-- An IC controller with a line in each of its conditions: line 0 free, line 63 registered, the FIQ line 1. -/
def icState : State :=
  { withLine (withLine .reset 63 ⟨some ⟨0x1000, 5⟩, true, true⟩) 1 ⟨some ⟨0x1100, 6⟩, true, true⟩ with
    cfg := { rc0 with fiqLine := some 1 } }

/-- The same lines under the acknowledge register. -/
def ackState : State := { icState with cfg := { rcAck with fiqLine := some 1 } }

/-- A state after a fault. -/
def faulted : State := { State.reset with fault := some ⟨.badOpcode, 0⟩ }

/-- A state in which one line is pending and enabled, and nothing is registered. -/
def unhandledState : State := withLine .reset 63 ⟨none, true, true⟩

/-- The Release build. -/
def releaseConfig : Config := { rc0 with build := .release }

/-- All six kinds enabled on pin 53, which object 7 has. -/
def pinState : State :=
  { withPin .reset 7 53 ⟨none, .output, .off, 0x3F, some ⟨0x2000, 7, true⟩⟩ with eds := 1#54 <<< 53 }

/-- Object 7 has pin 53 and is not connected. -/
def loosePin : State :=
  { State.reset with pinObj := State.reset.pinObj.set 7 { pinObjReset with pinNumber := some 53 } }

/-- The driver with the switch pressed and both timers running. -/
def pressedState : State :=
  { booted with
    ticks := 1049, timerSeq := 2, timers := [⟨1, 1050, 0x5000, 9, 1⟩, ⟨2, 2000, 0xFFFF0006, 0, 2⟩]
    enc := { booted.enc with swStable := false, pressSeen := true, lastPress := 1000, tickTimer := some 2 } }

/-- `booted` with the switch low. -/
def swLow : State := { booted with lev := 0x3FFFFFF7FFFFFF }

theorem witness_EncodedOperationDecodes :
    (Instr.icRegisterHandler 65535 0xFFFFFFFF 0xFFFFFFFF).wellFormed = true ∧
    (Instr.encInitialize 255 255 255).wellFormed = true := by decide

theorem witness_DecodedOperationEncodes :
    decode [0x2535FF00, 0x1, 0x2, 0x3] = .error (.unusedField 0x2535FF00) ∧
    decode [0x2501FF00, 0x1, 0x2, 0x3] = .ok (.pinConnectInterrupt 255 true 1 2, [3]) := ⟨rfl, rfl⟩

theorem witness_IllegalWordRaises :
    State.reset.fault = none ∧ State.reset.turns = [] ∧
    ({ State.reset with port := [0x24000000] }).port = 0x24000000 :: [] ∧
    (∀ r ∈ opTable, 0x24000000#32 &&& r.mask ≠ r.matchWord) ∧ 255 < 256 ∧ loosePin.fault = none ∧
    AssignedTo loosePin 7 53 :=
  ⟨rfl, rfl, rfl, by decide, by decide, rfl, ⟨by decide, rfl⟩⟩

theorem witness_StepRunsDecodedOperation :
    State.reset.turns = [] ∧ decode [0x82000000, 0x1] = .ok (.evTimerPeriod, [0x1]) ∧
    ({ State.reset with turns := [.port] }).turns = .port :: [] := ⟨rfl, rfl, rfl⟩

/-- The FIQ line, an IRQ line alone, and no request. -/
theorem witness_TrapAgentServesRequests :
    let s := { icState with turns := [.trap] }
    let u := { unhandledState with turns := [.trap] }
    s.fault = none ∧ s.turns = .trap :: [] ∧
    (∃ f, s.cfg.fiqLine = some f ∧ s.irqPending f = true ∧ s.irqEnable f = true ∧ s.inFiq = false) ∧
    u.fault = none ∧ (¬ ∃ f, u.cfg.fiqLine = some f ∧ u.irqPending f = true ∧ u.irqEnable f = true ∧ u.inFiq = false) ∧
    ((∃ id, id < u.nIrq ∧ u.cfg.fiqLine ≠ some id ∧ u.irqPending id = true ∧ u.irqEnable id = true) ∧
      u.inIrq = false ∧ u.inFiq = false) ∧
    ¬ ∃ id, id < State.reset.nIrq ∧ State.reset.cfg.fiqLine ≠ some id ∧ State.reset.irqPending id = true ∧
      State.reset.irqEnable id = true := by
  refine ⟨rfl, rfl, ⟨1, by decide⟩, rfl, ?_, ⟨⟨63, by decide⟩, rfl, rfl⟩, ?_⟩
  · rintro ⟨f, h, -⟩; cases h
  · have : ∀ id < 64, State.reset.irqEnable id = false := by decide
    rintro ⟨id, h, -, -, he⟩
    rw [this id h] at he; cases he

theorem witness_FaultedMachineTakesNoStep :
    faulted.fault = some ⟨.badOpcode, 0⟩ ∧ faulted.cfg.build = .debug ∧
    ({ faulted with cfg := releaseConfig }).cfg.build = .release := ⟨rfl, rfl, rfl⟩

/-- An id out of range, the last line bound, the last line free. -/
theorem witness_RegisterHandler :
    icState.fault = none ∧ icState.nIrq ≤ 64 ∧ (63 < icState.nIrq ∧ (icState.irqTable 63).isSome) ∧
    62 < icState.nIrq ∧ (icState.irqTable 62).isSome = false := by decide

/-- An id out of range, the last line bound, a line free. -/
theorem witness_UnregisterHandler :
    icState.fault = none ∧ icState.nIrq ≤ 64 ∧ (0 < icState.nIrq ∧ icState.irqTable 0 = none) ∧
    63 < icState.nIrq ∧ icState.irqTable 63 ≠ none := by decide

theorem witness_EnableAndDisableLine :
    icState.fault = none ∧ icState.nIrq ≤ 64 ∧ ¬ icState.nIrq ≤ 63 := by decide

theorem witness_DisableAllLines : icState.fault = none := rfl

theorem witness_SelectionPriority : IdsFit icState ∧ IdsFit ackState :=
  ⟨⟨by decide, by decide⟩, ⟨by decide, by decide⟩⟩

/-- No candidate, and a line active under the acknowledge register. -/
theorem witness_DispatchWithoutRequest :
    (State.reset.fault = none ∧ State.reset.inIrq = false ∧ State.reset.inFiq = false ∧ IdsFit State.reset ∧
      NoneSelected State.reset) ∧
    IdsFit { ackState with icActive := some 63 } ∧ NoneSelected { ackState with icActive := some 63 } := by
  refine ⟨⟨rfl, rfl, rfl, ⟨by decide, by decide⟩, .inl fun id => ?_⟩,
    ⟨by decide, by decide⟩, .inr ⟨rfl, rfl⟩⟩
  have h : State.reset.irqEnable id = false := by
    simp only [State.irqEnable, State.line, State.reset, List.getD_eq_getElem?_getD, List.getElem?_replicate]
    split <;> rfl
  simp [State.irqCandidate, State.eff, h]

theorem witness_DispatchUnhandledLine :
    unhandledState.fault = none ∧ unhandledState.inIrq = false ∧ unhandledState.inFiq = false ∧
    IdsFit unhandledState ∧ Selected unhandledState 63 ∧ unhandledState.irqTable 63 = none :=
  ⟨rfl, rfl, rfl, ⟨by decide, by decide⟩,
    ⟨by decide, .inr ⟨by decide, by decide⟩⟩, by decide⟩

/-- A line with a handler that ends, and with a reserved handler word, which raises. -/
theorem witness_DispatchHandler :
    let r := withLine .reset 63 ⟨some ⟨0xFFFF0007, 5⟩, true, true⟩
    icState.fault = none ∧ icState.inIrq = false ∧ icState.inFiq = false ∧ IdsFit icState ∧ Selected icState 63 ∧
    icState.irqTable 63 = some ⟨0x1000, 5⟩ ∧ CallableQuietly icState 0x1000 5 none ∧ Selected ackState 63 ∧
    (∃ u, invoke 0x1000 5 none (withBus { icState with inIrq := true } (selectReads icState)) = .ok u) ∧
    Selected r 63 ∧ r.irqTable 63 = some ⟨0xFFFF0007, 5⟩ ∧
    ∃ e u, invoke 0xFFFF0007 5 none (withBus { r with inIrq := true } (selectReads r)) = .raised e u :=
  ⟨rfl, rfl, rfl, ⟨by decide, by decide⟩, ⟨by decide, .inr ⟨by decide, by decide⟩⟩, by decide,
    ⟨by decide, by decide, by decide⟩, ⟨by decide, rfl, by decide⟩, ⟨_, rfl⟩,
    ⟨by decide, .inr ⟨by decide, by decide⟩⟩, by decide, ⟨_, _, rfl⟩⟩

/-- V-I7. -/
theorem witness_NestedDispatchRaises :
    let s := { line9 with cfg := { rc0 with handlerBodies := [⟨0x1000, 0xAAAA, none, [.icDispatch]⟩] } }
    ({ line9 with inFiq := true }).inFiq = true ∧ ({ line9 with gmBusy := true }).gmBusy = true ∧
    s.fault = none ∧ s.inIrq = false ∧ s.inFiq = false ∧ IdsFit s ∧ Selected s 9 ∧
    s.irqTable 9 = some ⟨0x1000, 0xAAAA⟩ ∧ handlerClass 0x1000 = .external ∧
    handlerBody s.cfg 0x1000 0xAAAA none = .icDispatch :: [] ∧ s.invokeDepth < s.cfg.maxNest :=
  ⟨rfl, rfl, rfl, rfl, rfl, ⟨by decide, by decide⟩,
    ⟨by decide, .inr ⟨by decide, by decide⟩⟩, by decide, by decide,
    by decide, by decide⟩

/-- In a dispatch, without an FIQ line, with an FIQ line unhandled, handled and not effective. -/
theorem witness_DispatchFiq :
    ({ line9 with inIrq := true }).inIrq = true ∧ line9.cfg.fiqLine = none ∧ line9.fault = none ∧
    (icState.inIrq = false ∧ icState.inFiq = false ∧ icState.cfg.fiqLine = some 1 ∧ icState.irqPending 1 = true ∧
      icState.irqEnable 1 = true ∧ icState.irqTable 1 = some ⟨0x1100, 6⟩ ∧ handlerClass 0x1100 = .external ∧
      handlerBody icState.cfg 0x1100 6 none = [] ∧ icState.invokeDepth < icState.cfg.maxNest) ∧
    ((withLine icState 1 ⟨none, true, true⟩).irqPending 1 = true ∧
      (withLine icState 1 ⟨none, true, true⟩).irqTable 1 = none) ∧
    (withLine icState 1 ⟨none, true, false⟩).irqPending 1 = false := by decide

theorem witness_DispatchFiq_calls :
    let r := withLine icState 1 ⟨some ⟨0xFFFF0000, 6⟩, true, true⟩
    (∃ u, invoke 0x1100 6 none { icState with inFiq := true } = .ok u) ∧
    ∃ e u, invoke 0xFFFF0000 6 none { r with inFiq := true } = .raised e u :=
  ⟨⟨_, rfl⟩, ⟨_, _, rfl⟩⟩

/-- The last line that may be driven, the two lines that are not, and an id out of range. -/
theorem witness_IrqLineStimulus :
    line9.fault = none ∧ (63 < line9.nIrq ∧ 63 ≠ line9.cfg.gpioLine ∧ 63 ≠ line9.cfg.timerLine) ∧
    line9.cfg.gpioLine = 52 ∧ line9.cfg.timerLine = 3 ∧ ¬ 64 < line9.nIrq := by decide

theorem witness_TimerPeriodStimulus : booted.fault = none := rfl

/-- A read that acknowledges line 63, a spurious read with a line active, an end of interrupt, a plain register. -/
theorem witness_AcknowledgeAndEndOfInterrupt :
    ackState.fault = none ∧ (0xFF84200C#32).toNat % 4 = 0 ∧ regAt ackState 0xFF84200C = some .icIar ∧
    ackState.icActive = none ∧ ackState.irqCandidate 63 = true ∧ (∀ j < 63, ackState.irqCandidate j = false) ∧
    ({ ackState with icActive := some 63 }).icActive.isSome = true ∧
    regAt { ackState with icActive := some 63 } 0xFF84200C = some .icIar ∧ (0xFF842010#32).toNat % 4 = 0 ∧
    regAt ackState 0xFF842010 = some .icEoir ∧ Reg.icEoir ≠ .icIar := by decide

theorem witness_LineRegisters :
    (31 < 32) ∧ (Reg.icEnset 1 = .icEnset 1 ∧ true = true ∨ Reg.icEnset 1 = .icEnclr 1 ∧ true = false) ∧
    (Reg.icEnclr 0 = .icEnset 0 ∧ false = true ∨ Reg.icEnclr 0 = .icEnclr 0 ∧ false = false) := by decide

/-- Initialized, with the GPIO line taken, and free. -/
theorem witness_GmInitialize :
    (booted.fault = none ∧ booted.cfg.gpioLine < booted.nIrq ∧ booted.gmInitialized = true) ∧
    (gs.cfg.gpioLine < gs.nIrq ∧ gs.gmInitialized = false ∧ (gs.irqTable gs.cfg.gpioLine).isSome) ∧
    State.reset.cfg.gpioLine < State.reset.nIrq ∧ State.reset.gmInitialized = false ∧
    (State.reset.irqTable State.reset.cfg.gpioLine).isSome = false := by decide

/-- An object out of range, one without a pin, one connected to a taken slot, one whose slot is free. -/
theorem witness_GmConnectAndDisconnect :
    pinState.fault = none ∧ pinState.nPinObj ≤ 8 ∧ (6 < pinState.nPinObj ∧ (pinState.obj 6).pinNumber = none) ∧
    (7 < pinState.nPinObj ∧ (pinState.obj 7).pinNumber = some 53 ∧ pinState.pinTable[53].isSome ∧
      pinState.pinTable[53] = some 7) ∧
    7 < loosePin.nPinObj ∧ (loosePin.obj 7).pinNumber = some 53 ∧ loosePin.pinTable[53].isSome = false ∧
    loosePin.pinTable[53] ≠ some 7 := by
  decide

/-- No status bit, and the last pin's. -/
theorem witness_GmDispatchWithoutOwner :
    let s := { State.reset with eds := 1#54 <<< 53 }
    State.reset.fault = none ∧ State.reset.gmBusy = false ∧ State.reset.eds = 0 ∧ s.fault = none ∧
    s.gmBusy = false ∧ FirstPending s 53 ∧ s.pinTable[53] = none :=
  ⟨rfl, rfl, rfl, rfl, rfl, ⟨by decide, by decide⟩, by decide⟩

/-- An owner with a handler and with none, at the last pin and the last object. -/
theorem witness_GmDispatchOwner :
    pinState.fault = none ∧ pinState.gmBusy = false ∧ FirstPending pinState 53 ∧ pinState.pinTable[53] = some 7 ∧
    7 < pinState.nPinObj ∧ (pinState.obj 7).handler = some ⟨0x2000, 7, true⟩ ∧ CallableQuietly pinState 0x2000 7 none ∧
    ({ pinState with pinObj := loosePin.pinObj }).pinTable[53] = some 7 ∧ (loosePin.obj 7).handler = none :=
  ⟨rfl, rfl, ⟨by decide, by decide⟩, by decide, by decide, by decide,
    ⟨by decide, by decide, by decide⟩, by decide, by decide⟩

/-- A callback that ends, one that raises, and an owner with an empty trigger mask. -/
theorem witness_GmDispatchOwner_calls :
    let busy := withBus { pinState with gmBusy := true } (statusReads pinState)
    (pinState.obj 7).triggerMask ≠ 0 ∧ (∃ u, invoke 0x2000 7 none busy = .ok u) ∧
    (∃ e u, invoke 0xFFFF0007 7 none busy = .raised e u) ∧
    ({ pinState.obj 7 with triggerMask := 0 }).handler = some ⟨0x2000, 7, true⟩ :=
  ⟨by decide, ⟨_, rfl⟩, ⟨_, _, rfl⟩, rfl⟩

/-- The pin's level condition holds, and does not. -/
theorem witness_NoStormOnOwnerlessPin :
    let s := { State.reset with eds := onePin 53 }
    let u := { s with hen := onePin 53 }
    (s.fault = none ∧ s.gmBusy = false ∧ LevelLatched s ∧ s.eds = onePin 53 ∧ s.pinTable[53] = none ∧
      pinBit (levelPins s.lev s.hen s.len) 53 = false) ∧
    LevelLatched u ∧ u.eds = onePin 53 ∧ pinBit (levelPins u.lev u.hen u.len) 53 = true := by decide

theorem witness_GmAllOff :
    gs.fault = none ∧ gs.cfg.pullStyle = .legacyStrobe ∧
    ({ gs with cfg := { rc0 with pullStyle := .combined2Bit } }).cfg.pullStyle = .combined2Bit := by decide

/-- An object out of range, an assigned one, a free one with the last pin, and a pin out of range. -/
theorem witness_AssignPin :
    pinState.fault = none ∧ pinState.nPinObj ≤ 8 ∧ (7 < pinState.nPinObj ∧ (pinState.obj 7).pinNumber.isSome) ∧
    (6 < pinState.nPinObj ∧ 53 < 54 ∧ (pinState.obj 6).pinNumber.isSome = false) ∧ ¬ 54 < 54 := by decide

/-- An object out of range, one without a pin, the reserved pull code, and a legal one, in both pull styles. -/
theorem witness_SetMode :
    pinState.fault = none ∧ pinState.nPinObj ≤ 8 ∧ (6 < pinState.nPinObj ∧ (pinState.obj 6).pinNumber = none) ∧
    (7 < pinState.nPinObj ∧ (pinState.obj 7).pinNumber = some 53) ∧ pullOf 3 = none ∧ pullOf 2 = some .down ∧
    PullMirror pinState ∧ PullMirror { pinState with cfg := { rc0 with pullStyle := .combined2Bit } } := by
  decide

theorem witness_EnableInterrupt :
    pinState.fault = none ∧ pinState.nPinObj ≤ 8 ∧ (6 < pinState.nPinObj ∧ (pinState.obj 6).pinNumber = none) ∧
    7 < pinState.nPinObj ∧ (pinState.obj 7).pinNumber = some 53 := by decide

theorem witness_DisableInterrupt :
    pinState.fault = none ∧ pinState.nPinObj ≤ 8 ∧ (6 < pinState.nPinObj ∧ (pinState.obj 6).pinNumber = none) ∧
    7 < pinState.nPinObj ∧ (pinState.obj 7).pinNumber = some 53 ∧ LevelLatched pinState := by decide

theorem witness_EnableDisableRoundTrip :
    pinState.fault = none ∧ AssignedTo pinState 7 53 ∧ pinBit (pinState.trig .lowLevel) 53 = false ∧
    AssignedTo gs 1 22 ∧ pinBit (gs.trig .fallingEdge) 22 = true ∧ TrigKind.fallingEdge ∈ kindsOf 0x02 :=
  ⟨rfl, ⟨by decide, rfl⟩, by decide, ⟨by decide, rfl⟩, by decide, by decide⟩

/-- An object out of range, one without a pin, one connected, one whose slot another object has, a free one, one without
a handler, and one with a handler whose slot is empty. -/
theorem witness_PinConnectAndDisconnect :
    pinState.fault = none ∧ pinState.nPinObj ≤ 8 ∧ (6 < pinState.nPinObj ∧ (pinState.obj 6).pinNumber = none) ∧
    (7 < pinState.nPinObj ∧ (pinState.obj 7).pinNumber = some 53 ∧ (pinState.obj 7).handler.isSome ∧
      (pinState.obj 7).handler ≠ none ∧ pinState.pinTable[53] = some 7) ∧
    ((loosePin.obj 7).handler.isSome = false ∧ (loosePin.obj 7).pinNumber = some 53 ∧
      ({ loosePin with pinTable := loosePin.pinTable.set 53 (some 0) }).pinTable[53].isSome) ∧
    (7 < loosePin.nPinObj ∧ loosePin.pinTable[53].isSome = false ∧ (loosePin.obj 7).handler = none) ∧
    ({ pinState with pinTable := loosePin.pinTable }).pinTable[53] ≠ some 7 := by decide

theorem witness_AcknowledgeInterrupt :
    pinState.fault = none ∧ pinState.nPinObj ≤ 8 ∧ (6 < pinState.nPinObj ∧ (pinState.obj 6).pinNumber = none) ∧
    7 < pinState.nPinObj ∧ (pinState.obj 7).pinNumber = some 53 := by decide

/-- An object out of range, one with no trigger, one without a handler, one that can be called, and reserved words. -/
theorem witness_PinDispatch :
    let s := { pinState with pinObj := pinState.pinObj.set 0 { pinObjReset with triggerMask := 0x20 } }
    s.fault = none ∧ s.nPinObj ≤ 8 ∧ (1 < s.nPinObj ∧ (s.obj 1).triggerMask = 0) ∧
    (0 < s.nPinObj ∧ (s.obj 0).triggerMask ≠ 0 ∧ (s.obj 0).handler = none) ∧
    (7 < s.nPinObj ∧ (s.obj 7).triggerMask ≠ 0 ∧ (s.obj 7).handler = some ⟨0x2000, 7, true⟩ ∧
      handlerClass 0x2000 = .external ∧ handlerBody s.cfg 0x2000 7 none = [] ∧ s.invokeDepth < s.cfg.maxNest) ∧
    0xFFFF0007#32 ≤ 0xFFFF0007#32 := by decide

theorem witness_PinDispatch_calls :
    (∃ u, invoke 0x2000 7 none pinState = .ok u) ∧
    ∃ e u, invoke 0xFFFF0007 7 none pinState = .raised e u :=
  ⟨⟨_, rfl⟩, ⟨_, _, rfl⟩⟩

/-- Initialized, a pin out of range, equal pins, no objects, object 0 assigned, and everything free. -/
theorem witness_EncInitialize :
    booted.enc.initialized = true ∧ (State.reset.enc.initialized = false ∧ 54 ≤ 54 ∧ ¬ 54 ≤ 53) ∧
    ({ State.reset with pinObj := [] }).nPinObj = 0 ∧
    (0 < gs.nPinObj ∧ gs.fault = none ∧ gs.enc.initialized = false ∧ (gs.obj clkObj).pinNumber.isSome = true) ∧
    State.reset.fault = none ∧ (0 : PinNo) ≠ 31 ∧ (0 : PinNo) ≠ 53 ∧ (31 : PinNo) ≠ 53 ∧ 3 ≤ State.reset.nPinObj ∧
    (∀ o < 3, (State.reset.obj o).pinNumber = none ∧ (State.reset.obj o).handler = none) ∧
    State.reset.pinTable[0] = none ∧ State.reset.pinTable[31] = none ∧ State.reset.pinTable[53] = none ∧
    PullMirror State.reset := by decide

theorem witness_RegisterEventHandler :
    booted.fault = none ∧ booted.enc.appCallback.isSome ∧ State.reset.enc.appCallback.isSome = false := by
  decide

theorem witness_EncUninitialize :
    State.reset.enc.initialized = false ∧ pressedState.fault = none ∧ pressedState.enc.initialized = true ∧
    AssignedTo pressedState 0 17 ∧ AssignedTo pressedState 1 22 ∧ AssignedTo pressedState 2 27 ∧
    (∀ o < 3, (pressedState.obj o).handler.isSome = true) ∧ pressedState.pinTable[17] = some 0 ∧
    pressedState.pinTable[22] = some 1 ∧ pressedState.pinTable[27] = some 2 :=
  ⟨rfl, rfl, rfl, ⟨by decide, rfl⟩, ⟨by decide, rfl⟩, ⟨by decide, rfl⟩, by decide,
    by decide, by decide, by decide⟩

/-- An event can be delivered to the callback of `booted` whatever it is. -/
theorem booted_canEmit (out : Option AppEvent) : CanEmit booted out := by
  intro e cb _ h
  cases h
  exact ⟨by decide, rfl, by decide⟩

theorem witness_ClkDtHandler :
    let s := { booted with enc := { booted.enc with encState := .cwClockRise } }
    State.reset.enc.initialized = false ∧ s.enc.initialized = true ∧ (s.obj 0).pinNumber = some 17 ∧
    (s.obj 1).pinNumber = some 22 ∧
    qdecOut s.enc.encState (2 * (pinBit s.lev 17).toNat + (pinBit s.lev 22).toNat) = some .rotateClockwise ∧
    CanEmit s (some .rotateClockwise) :=
  ⟨rfl, rfl, rfl, rfl, by decide, booted_canEmit _⟩

theorem witness_RotationNeedsFullSequence :
    rc0.qdecNext = defaultQdecNext ∧ (∀ q ∈ [3, 1, 1, 0, 2], q < 4) ∧ 0 < 4 ∧ 3 < 4 ∧
    [3, 1, 1, 0, 2] ++ [3] = [3] ++ fullSequence 1 0 2 1 0 0 := by decide

/-- A body of two commands that ends and one that raises, at the deepest level that may run; one level too deep; and a
handler that is not listed. -/
theorem witness_ExternalHandlerRunsBody :
    let s := { gs with
      invokeDepth := 3
      cfg := { rc0 with
        handlerBodies := [⟨0x1000, 1, none, [.gmInitialize, .icEnableLine 5]⟩, ⟨0x1000, 2, none, [.icEnableLine 64]⟩] } }
    let entered := { s with callTrace := s.callTrace ++ [⟨0x1000, 1⟩], invokeDepth := 4 }
    handlerClass 0x1000 = .external ∧ s.invokeDepth < s.cfg.maxNest ∧ (∃ t, HandlerEnds 0x1000 2 (some .switchUp) s t) ∧
    (∃ t, CommandsEnd [.icEnableLine 5, .icDisableLine 5] entered t) ∧
    handlerBody s.cfg 0x1000 2 none = [] ++ .icEnableLine 64 :: [] ∧
    (∃ e t, command innerCall (.icEnableLine 64) entered = .raised e t) ∧
    ({ s with invokeDepth := 4 }).cfg.maxNest ≤ 4 ∧
    (∀ b ∈ s.cfg.handlerBodies, ¬ (b.handler = 0x1000 ∧ b.ctx = 3 ∧ b.arg = none)) ∧ 0xFFFF0006#32 ≠ 0xFFFF0002 :=
  ⟨by decide, by decide, ⟨_, rfl⟩, ⟨_, _, rfl, _, rfl, rfl⟩, by decide, ⟨_, _, rfl⟩, by decide, by decide, by decide⟩

theorem witness_SwHandler :
    State.reset.enc.initialized = false ∧ booted.enc.initialized = true ∧ CanStart booted (tDeb booted.cfg) :=
  ⟨rfl, rfl, by decide, by decide⟩

theorem witness_DebouncePress :
    swLow.enc.initialized = true ∧ (swLow.obj 2).pinNumber = some 27 ∧ pinBit swLow.lev 27 = false ∧
    swLow.enc.swStable = true ∧ CanStart swLow (tTick swLow.cfg) ∧
    CanEmit swLow (btnOut swLow.cfg swLow.enc.btnState .down) :=
  ⟨rfl, rfl, by decide, rfl, ⟨by decide, by decide⟩, booted_canEmit _⟩

theorem witness_DebounceRelease :
    pressedState.enc.initialized = true ∧ (pressedState.obj 2).pinNumber = some 27 ∧
    pinBit pressedState.lev 27 = true ∧ pressedState.enc.swStable = false ∧
    CanEmit pressedState (btnOut pressedState.cfg pressedState.enc.btnState .click) :=
  ⟨rfl, rfl, by decide, rfl, booted_canEmit _⟩

theorem witness_DebounceFilter :
    State.reset.enc.initialized = false ∧ booted.enc.initialized = true ∧ (booted.obj 2).pinNumber = some 27 ∧
    pinBit booted.lev 27 = booted.enc.swStable :=
  ⟨rfl, rfl, rfl, by decide⟩

theorem witness_TickExpiry :
    State.reset.enc.initialized = false ∧ booted.enc.initialized = true ∧ booted.enc.swStable = true ∧
    CanEmit booted (btnOut booted.cfg booted.enc.btnState .tick) ∧ pressedState.enc.initialized = true ∧
    pressedState.enc.swStable = false ∧ CanEmit pressedState (btnOut pressedState.cfg pressedState.enc.btnState .tick) ∧
    CanStart pressedState (tTick pressedState.cfg) :=
  ⟨rfl, rfl, rfl, booted_canEmit _, rfl, rfl, booted_canEmit _, by decide, by decide⟩

/-- S10: the release 120 ticks after the press. -/
theorem witness_PressThenReleaseIsAClick :
    let s := { swLow with ticks := 1050 }
    s.enc.initialized = true ∧ (s.obj 2).pinNumber = some 27 ∧ pinBit s.lev 27 = false ∧ s.enc.swStable = true ∧
    s.enc.btnState = .start ∧ s.enc.pressSeen = false ∧ s.enc.appCallback = some ⟨0x3000, 0x55⟩ ∧
    CanStart s (tTick s.cfg) ∧ 120 < tClick s.cfg ∧ CallableQuietly s 0x3000 0x55 (some .switchDown) ∧
    CallableQuietly s 0x3000 0x55 (some .switchClick) :=
  ⟨rfl, rfl, by decide, rfl, rfl, rfl, rfl, ⟨by decide, by decide⟩, by decide, ⟨by decide, rfl, by decide⟩,
    by decide, rfl, by decide⟩

/-- Two external timers due, the later start first, and a driver timer that is not due. -/
def twoDue : State :=
  { pressedState with timers := [⟨1, 1050, 0x5000, 9, 1⟩, ⟨2, 2000, 0xFFFF0006, 0, 2⟩, ⟨3, 1049, 0x5001, 8, 3⟩] }

/-- The same with a debounce timer in place of the second. -/
def expiryDue : State :=
  { pressedState with timers := [⟨1, 1050, 0x5000, 9, 1⟩, ⟨2, 2000, 0xFFFF0006, 0, 2⟩, ⟨3, 1050, 0xFFFF0005, 0, 3⟩] }

/-- The timer handler's first writes. -/
def quiescedOf (s : State) : State :=
  { s with
    lines := s.lines.modify s.cfg.timerLine fun l => { l with pending := false }
    ticks := s.ticks + 1
    freeCount := s.freeCount + 1 }

/-- Nothing due, and due timers with external callbacks only. -/
theorem witness_TimerHandler :
    booted.ticks ≠ BitVec.allOnes 64 ∧ (∀ x ∈ ({ pressedState with ticks := 1048 }).timers, 1048#64 + 1 < x.deadline) ∧
    twoDue.ticks ≠ BitVec.allOnes 64 ∧
    (dueTimers (quiescedOf twoDue)).map (fun x => x.handle) = [3, 1] ∧
    ∀ x ∈ twoDue.timers, x.deadline ≤ twoDue.ticks + 1 → handlerClass x.callback = .external ∧
      handlerBody twoDue.cfg x.callback x.ctx none = [] ∧ twoDue.invokeDepth < twoDue.cfg.maxNest := by decide

/-- The state a result ends in, if it ends. -/
def endOf : Res → Option State
  | .ok t => some t
  | .raised _ _ => none
  | .unending _ => none

theorem ends_of_endOf {r : Res} (h : (endOf r).isSome = true) : ∃ t, r = .ok t := by
  cases r with
  | ok t => exact ⟨t, rfl⟩
  | raised e t => cases h
  | unending u => cases h

/-- A run that ends, with a driver timer among the due ones, and one in which the second call raises. -/
theorem witness_TimerHandler_calls :
    let x : Timer := ⟨1, 1050, 0x5000, 9, 1⟩
    let y : Timer := ⟨3, 1050, 0xFFFF0007, 0, 3⟩
    let r := quiescedOf { expiryDue with timers := [x, y] }
    (∃ t, FiresTo (dueTimers (quiescedOf expiryDue)) (quiescedOf expiryDue) t) ∧
    (dueTimers (quiescedOf expiryDue)).map (fun x => x.callback) = [0x5000, 0xFFFF0005] ∧
    dueTimers r = [x] ++ y :: [] ∧
    (∃ u, FiresTo [x] r u) ∧ ((endOf (fireTimers innerCall [x] r)).map fun u => u.timers) = some [y] ∧
    ∀ u, ∃ t, innerCall y.callback y.ctx none u = .raised .badOperand t := by
  refine ⟨?_, by decide, by decide, ?_, by decide, fun u => ⟨u, rfl⟩⟩
  · obtain ⟨t, ht⟩ := ends_of_endOf
      (r := fireTimers innerCall (dueTimers (quiescedOf expiryDue)) (quiescedOf expiryDue)) (by decide +kernel)
    exact ⟨t, (Laws.fireTimers_ok_iff _ _ _).1 ht⟩
  · obtain ⟨t, ht⟩ := ends_of_endOf (r := fireTimers innerCall [⟨1, 1050, 0x5000, 9, 1⟩]
      (quiescedOf { expiryDue with timers := [⟨1, 1050, 0x5000, 9, 1⟩, ⟨3, 1050, 0xFFFF0007, 0, 3⟩] })) (by decide)
    exact ⟨t, (Laws.fireTimers_ok_iff _ _ _).1 ht⟩

theorem witness_DueTimersInOrder :
    pressedState.cfg.firePriority = [] ∧ dueTimers { pressedState with ticks := 2000 } ≠ [] := by decide

theorem witness_NewHandleIsFresh :
    pressedState.cfg.timerHandles = [] ∧ TimersOrdered pressedState ∧ HandlesDefault pressedState ∧
    pressedState.timerSeq + 1 < 4294967296 ∧ ∀ t ∈ pressedState.timers, t.handle ≠ 3 := by decide

/-- An address that is not a multiple of 4, an unmapped one, the last register of the pull group, the acknowledge
register. -/
theorem witness_RawRead :
    State.reset.fault = none ∧ (0x3F200042#32).toNat % 4 ≠ 0 ∧ regAt State.reset 0x3F2000A0 = none ∧
    regAt State.reset 0x3F20009C = some (.pudclk 1) ∧ regAt ackState 0xFF84200C = some .icIar := by decide

/-- An address that is not a multiple of 4, an unmapped one, and a register of each kind. -/
theorem witness_RawWrite :
    let c := { State.reset with cfg := { rc0 with pullStyle := .combined2Bit } }
    State.reset.fault = none ∧ (0x3F200042#32).toNat % 4 ≠ 0 ∧ regAt State.reset 0x3F20003C = none ∧
    regAt State.reset 0x3F200038 = some (.lev 1) ∧ regAt State.reset 0x3F00B208 = some (.icPend 1) ∧
    regAt State.reset 0x3F200044 = some (.eds 1) ∧ regAt State.reset 0x3F200068 = some (.trig .highLevel 1) ∧
    regAt State.reset 0x3F20004C = some (.trig .risingEdge 0) ∧ regAt State.reset 0x3F200014 = some (.fsel 5) ∧
    regAt State.reset 0x3F200094 = some .pud ∧ regAt State.reset 0x3F20009C = some (.pudclk 1) ∧
    regAt c 0x3F2000F0 = some (.puppdn 3) := by decide

theorem witness_PlainRegistersHoldTheirWords :
    implemented (.fsel 5) = some 0x00000FFF ∧ implemented (.trig .lowLevel 1) = some 0x003FFFFF ∧
    implemented (.puppdn 3) = some 0x00000FFF ∧ implemented .pud = some 3 := by decide

theorem witness_PinLevelStimulus : gs.fault = none ∧ 53 < 54 ∧ ¬ 54 < 54 := by decide

theorem witness_ResetAssertsNoRequest :
    (State.reset.lines.map fun l => { l with pending := true }).map (fun l => (l.handler, l.enable)) =
      State.reset.lines.map (fun l => (l.handler, l.enable)) := by decide

theorem witness_InvariantKeptByStep :
    let s := { pressedState with port := [0x27000200], lev := 0x3FFFFFF7FFFFFF, eds := 0x08000000 }
    Inv s ∧ ∃ t, step s = .next t :=
  ⟨by decide, _, rfl⟩

/-- A press with both driver timers running, the debounce expiry due. -/
theorem witness_DriverTimersMatchHandles :
    let s := { pressedState with
      timers := [⟨1, 1050, 0xFFFF0005, 0, 1⟩, ⟨2, 2000, 0xFFFF0006, 0, 2⟩]
      enc := { pressedState.enc with debounceTimer := some 1 } }
    s.cfg.timerHandles = [] ∧ TimersOrdered s ∧ HandlesDefault s ∧ DriverTimers s ∧ ExpiryByTimerOnly s ∧
    (∀ w ∈ registeredWord (.pinDispatch 2), NotExpiry w) ∧
    (answer (exec (.pinDispatch 2) s)).map (fun t => (t.fault, t.timerSeq, t.enc.debounceTimer)) =
      some (none, 3, some 3) := by
  refine ⟨rfl, by decide, by decide, by decide, ⟨by decide, by decide, by decide, by decide⟩,
    ⟨fun _ h => (by cases h), by decide⟩⟩

theorem witness_WhatEveryStepKeeps :
    (∃ t, step { gs with port := [0x28000000] } = .next t) ∧ (∃ t, exec (.pinDispatch 0) gs = .next t) ∧
    ∀ n level, Instr.pinDispatch 0 ≠ .evPinLevel n level :=
  ⟨⟨_, rfl⟩, ⟨_, rfl⟩, fun _ _ h => by cases h⟩

theorem witness_UnreadStateIsUnread :
    let t := { gs with
      callTrace := [⟨1, 2⟩], pullState := Vector.replicate 54 .down, enc := { gs.enc with lastRelease := 9 } }
    unread gs = unread t ∧ gs.callTrace ≠ t.callTrace :=
  ⟨rfl, by decide⟩

end Sys2Proof.Tests
end

section
/-! PROOFS. The scope of the block (spec/00_scope.md): whose turn a step is and what it runs, and what every operation
and every step keeps. -/

namespace Sys2Proof.Proofs

open Sys2Proof.Machine Sys2Proof.Safety Sys2Proof.Laws

/-! ### Request lines (rule R26) -/

/-- The FIQ request is asserted while the FIQ line is pending and enabled and no FIQ dispatch runs. -/
theorem nFiqRequest_iff (s : State) : s.nFiqRequest = true ↔
    ∃ f, s.cfg.fiqLine = some f ∧ s.irqPending f = true ∧ s.irqEnable f = true ∧ s.inFiq = false := by
  unfold State.nFiqRequest
  cases s.cfg.fiqLine with
  | none => simp
  | some f => simp [State.eff, and_assoc]

/-- A line that IRQ selection may serve is pending and enabled and not the FIQ line. -/
theorem irqCandidate_iff (s : State) (id : Nat) : s.irqCandidate id = true ↔
    s.cfg.fiqLine ≠ some id ∧ s.irqPending id = true ∧ s.irqEnable id = true := by
  simp [State.irqCandidate, State.eff, and_comm]

/-- The IRQ request is asserted while some line but the FIQ line is pending and enabled and no dispatch runs. -/
theorem nIrqRequest_iff (s : State) : s.nIrqRequest = true ↔
    (∃ id, id < s.nIrq ∧ s.cfg.fiqLine ≠ some id ∧ s.irqPending id = true ∧ s.irqEnable id = true) ∧
      s.inIrq = false ∧ s.inFiq = false := by
  simp [State.nIrqRequest, irqCandidate_iff, and_assoc]

/-! ### Turns (rules R8, R9; log entry 3) -/

/-- With no turn listed a step is the port's. -/
theorem step_of_turns_nil {s : State} (h : s.turns = []) : step s = portTurn s := by
  simp [step, takeTurn, h]

theorem step_of_turns_port {s : State} {ts : List Turn} (h : s.turns = .port :: ts) :
    step s = portTurn { s with turns := ts } := by
  simp [step, takeTurn, h]

theorem step_of_turns_trap {s : State} {ts : List Turn} (h : s.turns = .trap :: ts) :
    step s = trapTurn { s with turns := ts } := by
  simp [step, takeTurn, h]

/-- The port offers the operation that its words decode to (rule R101). -/
theorem fetch_of_decode {ws rest : List Word} {i : Instr} (h : decode ws = .ok (i, rest)) :
    fetch ws = .op i rest := by
  simp [fetch, h]

theorem portTurn_of_idle {s : State} (h : fetch s.port = .idle) : portTurn s = perform 0 .ok s := by
  simp [portTurn, h]

theorem portTurn_of_illegal {s : State} {w : Word} (h : fetch s.port = .illegal w) :
    portTurn s = execIllegal w { s with port := s.port.tail } := by
  simp [portTurn, h]

theorem portTurn_of_op {s : State} {i : Instr} {rest : List Word} (h : fetch s.port = .op i rest) :
    portTurn s = exec i { s with port := rest } := by
  simp [portTurn, h]

theorem trapTurn_of_some {s : State} {i : Instr} (h : s.trapOperation = some i) : trapTurn s = exec i s := by
  simp [trapTurn, h]

theorem trapTurn_of_none {s : State} (h : s.trapOperation = none) : trapTurn s = perform 0 .ok s := by
  simp [trapTurn, h]

/-- The FIQ request comes first (rule R9). -/
theorem trapOperation_of_fiq {s : State} (h : s.nFiqRequest = true) : s.trapOperation = some .icDispatchFiq := by
  simp [State.trapOperation, h]

theorem trapOperation_of_irq {s : State} (hf : ¬ s.nFiqRequest = true) (hi : s.nIrqRequest = true) :
    s.trapOperation = some .icDispatch := by
  simp [State.trapOperation, hf, hi]

theorem trapOperation_of_no_request {s : State} (hf : ¬ s.nFiqRequest = true) (hi : ¬ s.nIrqRequest = true) :
    s.trapOperation = none := by
  simp [State.trapOperation, hf, hi]

/-- Settles O5: a port that decodes offers that operation, and an empty list of turns is the port's turn too. -/
theorem stepRunsDecodedOperation : Obligations.StepRunsDecodedOperation := by
  refine ⟨fun s i rest hturns hdec => ?_, fun s ts i rest hturns hdec => ?_⟩
  · rw [step_of_turns_nil hturns]
    exact portTurn_of_op (fetch_of_decode hdec)
  · rw [step_of_turns_port hturns]
    exact portTurn_of_op (fetch_of_decode hdec)

/-- Settles O6: the two conditions are the two request lines, which do not look at the list of turns. -/
theorem trapAgentServesRequests : Obligations.TrapAgentServesRequests := by
  intro s ts hs hturns fiq irq
  have hfiq : ({ s with turns := ts } : State).nFiqRequest = true ↔ fiq := nFiqRequest_iff _
  have hirq : ({ s with turns := ts } : State).nIrqRequest = true ↔ irq := nIrqRequest_iff _
  rw [step_of_turns_trap hturns]
  refine ⟨fun hf => ?_, fun hf hi => ?_, fun hf hi => ?_⟩
  · exact trapTurn_of_some (trapOperation_of_fiq (hfiq.2 hf))
  · exact trapTurn_of_some (trapOperation_of_irq (mt hfiq.1 hf) (hirq.2 hi))
  · rw [trapTurn_of_none (trapOperation_of_no_request (mt hfiq.1 hf) (mt hirq.1 hi))]
    exact perform_ok hs rfl

/-! ### What a step can do, said once -/

/-- An operation answers a next state only from a state without a fault (rules R42, R321). -/
theorem fault_none_of_exec_next {i : Instr} {s t : State} (h : exec i s = .next t) : s.fault = none :=
  (perform_next (exec_eq_perform i s ▸ h)).1

/-- Everything a turn of the port can do: it is idle, raises on an illegal word, or runs an operation (rules R101,
R105). -/
theorem portTurn_next {s t : State} (h : portTurn s = .next t) :
    s.fault = none ∧ (t = s ∨ (∃ w, t = { s with port := s.port.tail }.raiseFault .badOpcode w) ∨
      ∃ i rest, fetch s.port = .op i rest ∧ exec i { s with port := rest } = .next t) := by
  cases hfetch : fetch s.port with
  | idle =>
    rw [portTurn_of_idle hfetch] at h
    obtain ⟨hs, hr⟩ := perform_next h
    obtain hr | ⟨e, u, hr, -⟩ := hr <;> cases hr
    exact ⟨hs, .inl rfl⟩
  | illegal w =>
    rw [portTurn_of_illegal hfetch] at h
    obtain ⟨hs, hr⟩ := perform_next h
    obtain hr | ⟨e, u, hr, rfl⟩ := hr <;> cases hr
    exact ⟨hs, .inr (.inl ⟨w, rfl⟩)⟩
  | op i rest =>
    rw [portTurn_of_op hfetch] at h
    have hs := fault_none_of_exec_next h
    exact ⟨hs, .inr (.inr ⟨i, rest, rfl, h⟩)⟩

/-- Everything a turn of the trap agent can do: it is idle or runs the dispatch its request lines call for (rule
R9). -/
theorem trapTurn_next {s t : State} (h : trapTurn s = .next t) :
    s.fault = none ∧ (t = s ∨ ∃ i, s.trapOperation = some i ∧ exec i s = .next t) := by
  cases hop : s.trapOperation with
  | none =>
    rw [trapTurn_of_none hop] at h
    obtain ⟨hs, hr⟩ := perform_next h
    obtain hr | ⟨e, u, hr, -⟩ := hr <;> cases hr
    exact ⟨hs, .inl rfl⟩
  | some i =>
    rw [trapTurn_of_some hop] at h
    exact ⟨fault_none_of_exec_next h, .inr ⟨i, rfl, h⟩⟩

/-- A turn taken in `s` ends in `t`: it is idle, raises on an illegal word, or runs an operation. -/
def TurnEnds (s t : State) : Prop :=
  t = s ∨ (∃ w, t = s.raiseFault .badOpcode w) ∨ ∃ i, exec i s = .next t

theorem turnEnds_of_portTurn {s t : State} (h : portTurn s = .next t) :
    s.fault = none ∧ ∃ ws, TurnEnds { s with port := ws } t := by
  obtain ⟨hs, rfl | hw | ⟨i, rest, -, hi⟩⟩ := portTurn_next h
  · exact ⟨hs, t.port, .inl rfl⟩
  · exact ⟨hs, s.port.tail, .inr (.inl hw)⟩
  · exact ⟨hs, rest, .inr (.inr ⟨i, hi⟩)⟩

theorem turnEnds_of_trapTurn {s t : State} (h : trapTurn s = .next t) : s.fault = none ∧ TurnEnds s t := by
  obtain ⟨hs, rfl | ⟨i, -, hi⟩⟩ := trapTurn_next h
  · exact ⟨hs, .inl rfl⟩
  · exact ⟨hs, .inr (.inr ⟨i, hi⟩)⟩

/-- Everything a step can do, but for which operation it takes: from a state without a fault it changes the model's own
port and list of turns, and then takes a turn. -/
theorem step_next {s t : State} (h : step s = .next t) :
    s.fault = none ∧ ∃ ws ts, TurnEnds { s with port := ws, turns := ts } t := by
  cases hturns : s.turns with
  | nil =>
    obtain ⟨hs, ws, hend⟩ := turnEnds_of_portTurn (step_of_turns_nil hturns ▸ h)
    exact ⟨hs, ws, s.turns, hend⟩
  | cons turn ts =>
    cases turn with
    | port =>
      obtain ⟨hs, ws, hend⟩ := turnEnds_of_portTurn (step_of_turns_port hturns ▸ h)
      exact ⟨hs, ws, ts, hend⟩
    | trap =>
      obtain ⟨hs, hend⟩ := turnEnds_of_trapTurn (step_of_turns_trap hturns ▸ h)
      exact ⟨hs, s.port, ts, hend⟩

/-! ### What every operation and every step keeps (rules R5, R31, R43) -/

/-- Output ports that only grow, and parameters that stay. -/
def KeepsScope (s t : State) : Prop := TracesGrow s t ∧ SameParameters s t

theorem tracesGrow_refl (s : State) : TracesGrow s s :=
  ⟨List.prefix_rfl, List.prefix_rfl, List.prefix_rfl, List.prefix_rfl⟩

theorem KeepsScope.refl (s : State) : KeepsScope s s :=
  ⟨tracesGrow_refl s, rfl, rfl, rfl⟩

theorem KeepsScope.trans {s t u : State} (h : KeepsScope s t) (h' : KeepsScope t u) : KeepsScope s u := by
  obtain ⟨⟨hlog, happ, hcall, hread⟩, hcfg, hirq, hobj⟩ := h
  obtain ⟨⟨hlog', happ', hcall', hread'⟩, hcfg', hirq', hobj'⟩ := h'
  exact ⟨⟨hlog.trans hlog', happ.trans happ', hcall.trans hcall', hread.trans hread'⟩,
    hcfg'.trans hcfg, hirq'.trans hirq, hobj'.trans hobj⟩

/-- What every operation but `Ev.PinLevel` keeps: the pin levels too. -/
def KeepsLevels (s t : State) : Prop := KeepsScope s t ∧ t.lev = s.lev

theorem KeepsLevels.refl (s : State) : KeepsLevels s s := ⟨.refl s, rfl⟩

theorem KeepsLevels.trans {s t u : State} (h : KeepsLevels s t) (h' : KeepsLevels t u) : KeepsLevels s u :=
  ⟨h.1.trans h'.1, h'.2.trans h.2⟩

/-- Changing a line. -/
theorem setLine_keepsLevels (s : State) (id : Nat) (f : IrqLine → IrqLine) : KeepsLevels s (s.setLine id f) :=
  ⟨⟨tracesGrow_refl s, rfl, setLine_nIrq s id f, rfl⟩, rfl⟩

/-- Replacing a pin object. -/
theorem setObj_keepsLevels (s : State) (obj : Nat) (p : PinObj) : KeepsLevels s (s.setObj obj p) :=
  ⟨⟨tracesGrow_refl s, rfl, rfl, setObj_nPinObj s obj p⟩, rfl⟩

/-- Of all the registers only the acknowledge register changes anything when it is read (rule R78). -/
theorem readEffect_keepsLevels (s : State) (r : Reg) : KeepsLevels s (readEffect s r) := by
  cases r with
  | icIar => simp only [readEffect]; split <;> exact .refl s
  | _ => exact .refl s

theorem setTrig_keepsLevels (s : State) (k : TrigKind) (b : PinBank) : KeepsLevels s (s.setTrig k b) := by
  cases k <;> exact .refl s

theorem writeEnable_keepsLevels (s : State) (w : Nat) (v : Word) (b : Bool) : KeepsLevels s (s.writeEnable w v b) :=
  ⟨⟨tracesGrow_refl s, rfl, by simp [State.nIrq], rfl⟩, rfl⟩

/-- A register write grows no output port, resizes nothing, and leaves `LEV`, which is read-only (rule R31). -/
theorem writeEffect_keepsLevels (s : State) (r : Reg) (v : Word) : KeepsLevels s (writeEffect s r v) := by
  cases r with
  | trig k w => simp only [writeEffect]; split <;> exact setTrig_keepsLevels s k _
  | icEnset w => exact writeEnable_keepsLevels s w v true
  | icEnclr w => exact writeEnable_keepsLevels s w v false
  | icEoir => simp only [writeEffect]; split <;> exact .refl s
  | _ => exact .refl s

/-- Every primitive update keeps all of it; only the four that append to an output port grow one. -/
theorem prim_keepsLevels {s t : State} (h : Prim s t) : KeepsLevels s t := by
  cases h with
  | read r => exact readEffect_keepsLevels s r
  | write r v => exact writeEffect_keepsLevels s r v
  | bind id => exact setLine_keepsLevels s id _
  | unbind id => exact setLine_keepsLevels s id _
  | tick => exact setLine_keepsLevels s s.cfg.timerLine _
  | log => exact ⟨⟨⟨List.prefix_append _ _, List.prefix_rfl, List.prefix_rfl, List.prefix_rfl⟩, rfl, rfl, rfl⟩, rfl⟩
  | app => exact ⟨⟨⟨List.prefix_rfl, List.prefix_append _ _, List.prefix_rfl, List.prefix_rfl⟩, rfl, rfl, rfl⟩, rfl⟩
  | call => exact ⟨⟨⟨List.prefix_rfl, List.prefix_rfl, List.prefix_append _ _, List.prefix_rfl⟩, rfl, rfl, rfl⟩, rfl⟩
  | readTrace => exact ⟨⟨⟨List.prefix_rfl, List.prefix_rfl, List.prefix_rfl, List.prefix_append _ _⟩, rfl, rfl, rfl⟩, rfl⟩
  | assign obj => exact setObj_keepsLevels s obj _
  | record obj p => exact setObj_keepsLevels s obj p
  | encStop =>
    exact ((setObj_keepsLevels s clkObj _).trans (setObj_keepsLevels _ dtObj _)).trans (setObj_keepsLevels _ swObj _)
  | _ => exact .refl s

theorem reach_keepsLevels {s t : State} (h : Reach s t) : KeepsLevels s t := by
  induction h with
  | refl => exact .refl s
  | tail _ hp ih => exact ih.trans (prim_keepsLevels hp)

/-- The fault record is none of it. -/
theorem raiseFault_keepsLevels (s : State) (e : ErrorCode) (w : Word) : KeepsLevels s (s.raiseFault e w) := .refl s

theorem exec_command_keepsLevels {i : Instr} {s t : State} (hc : i.isCommand = true) (h : exec i s = .next t) :
    KeepsLevels s t := by
  obtain ⟨-, ⟨hr, -⟩ | ⟨e, u, hr, rfl⟩⟩ := exec_command hc h
  · exact reach_keepsLevels hr
  · exact (reach_keepsLevels hr).trans (raiseFault_keepsLevels u e _)

/-- An operation whose rule ends well answers just that state. -/
theorem exec_next_of_rule {i : Instr} {s t u : State} (h : exec i s = .next t) (hr : ruleOf i s = .ok u) : t = u := by
  rw [exec_eq_perform] at h
  obtain ⟨-, ht | ⟨e, v, hv, -⟩⟩ := perform_next h
  · rw [hr] at ht; cases ht; rfl
  · rw [hr] at hv; cases hv

/-- `Ev.PinLevel` keeps all but the levels (rule R170). -/
theorem evPinLevel_keepsScope {n : Nat} {level : Bool} {s t : State} (h : exec (.evPinLevel n level) s = .next t) :
    KeepsScope s t := by
  by_cases hn : n < 54
  · rw [exec_next_of_rule h (dif_pos hn)]; exact .refl s
  · rw [exec_next_of_rule h (dif_neg hn)]; exact .refl s

/-- A line stimulus changes at most a line (rule R151). -/
theorem evIrqLine_keepsLevels {id : Nat} {level : Bool} {s t : State} (h : exec (.evIrqLine id level) s = .next t) :
    KeepsLevels s t := by
  by_cases hid : id < s.nIrq ∧ id ≠ s.cfg.gpioLine ∧ id ≠ s.cfg.timerLine
  · rw [exec_next_of_rule h (if_pos hid)]; exact setLine_keepsLevels s id _
  · rw [exec_next_of_rule h (if_neg hid)]; exact .refl s

/-- A timer period changes at most the timer line (rule R306). -/
theorem evTimerPeriod_keepsLevels {s t : State} (h : exec .evTimerPeriod s = .next t) : KeepsLevels s t := by
  rw [exec_next_of_rule h rfl]
  exact setLine_keepsLevels s s.cfg.timerLine _

/-- Every operation but `Ev.PinLevel`: commands by their primitive updates, the two other stimuli each. -/
theorem exec_keepsLevels {i : Instr} {s t : State} (hne : ∀ n level, i ≠ .evPinLevel n level)
    (h : exec i s = .next t) : KeepsLevels s t := by
  cases i with
  | evPinLevel n level => exact absurd rfl (hne n level)
  | evIrqLine => exact evIrqLine_keepsLevels h
  | evTimerPeriod => exact evTimerPeriod_keepsLevels h
  | _ => exact exec_command_keepsLevels rfl h

theorem exec_keepsScope {i : Instr} {s t : State} (h : exec i s = .next t) : KeepsScope s t := by
  cases i with
  | evPinLevel => exact evPinLevel_keepsScope h
  | _ => exact (exec_keepsLevels (by simp) h).1

theorem turnEnds_keepsScope {s t : State} (h : TurnEnds s t) : KeepsScope s t := by
  obtain rfl | ⟨w, rfl⟩ | ⟨i, hi⟩ := h
  · exact .refl t
  · exact (raiseFault_keepsLevels s .badOpcode w).1
  · exact exec_keepsScope hi

/-- Neither the port nor the list of turns is an output port or a parameter. -/
theorem step_keepsScope {s t : State} (h : step s = .next t) : KeepsScope s t := by
  obtain ⟨-, ws, ts, hend⟩ := step_next h
  have hport : KeepsScope s { s with port := ws, turns := ts } := .refl s
  exact hport.trans (turnEnds_keepsScope hend)

/-- Settles O59: over the primitive updates of a command, the three stimuli and the turns of a step. -/
theorem whatEveryStepKeeps : Obligations.WhatEveryStepKeeps := by
  refine ⟨fun s t h => step_keepsScope h, fun i s t h => ?_⟩
  obtain ⟨htraces, hparams⟩ := exec_keepsScope h
  exact ⟨htraces, hparams, fun hne => (exec_keepsLevels hne h).2⟩

end Sys2Proof.Proofs
end

section
/-! PROOFS. The state of the block (spec/10_state.md): the invariant of the machine at reset and over every step. -/

namespace Sys2Proof.Proofs

open Sys2Proof.Machine Sys2Proof.Safety Sys2Proof.Laws

/-! ### The invariant without the context flags -/

/-- The part of the invariant that holds inside an operation too: all but the context flags. -/
structure StateSound (s : State) : Prop where
  latched : LevelLatched s
  table : PinTableSound s
  pulls : PullMirror s
  ordered : TimersOrdered s
  handles : HandlesDefault s
  encPins : EncHasPins s
  active : ActiveLine s
  tick : TickWhilePressed s

theorem inv_iff (s : State) : Inv s ↔ StateSound s ∧ Quiet s :=
  ⟨fun ⟨hlatch, htable, hquiet, hpull, hord, hhandle, hpins, hactive, htick⟩ =>
    ⟨⟨hlatch, htable, hpull, hord, hhandle, hpins, hactive, htick⟩, hquiet⟩,
   fun ⟨h, hquiet⟩ =>
    ⟨h.latched, h.table, hquiet, h.pulls, h.ordered, h.handles, h.encPins, h.active, h.tick⟩⟩

/-- Settles O55: every part is read off the reset values of rule R47; no level is enabled, so the levels do not
matter. -/
theorem invariantAtReset : Obligations.InvariantAtReset := by
  refine (inv_iff _).2 ⟨⟨by decide, ?_, ?_, ?_, ?_, ?_, ?_, ?_⟩, fun _ => ⟨rfl, rfl, rfl, rfl⟩⟩
  · intro n o ho
    simp [State.reset] at ho
  · intro hstyle
    cases hstyle
  · exact ⟨.nil, fun t ht => nomatch ht⟩
  · exact fun _ t ht => nomatch ht
  · intro hinit
    cases hinit
  · exact fun id hid => nomatch hid
  · intro htick
    cases htick

/-! ### Level conditions are latched (rule R171) -/

/-- Level detection latches whatever holds. -/
theorem levelDetect_latched (s : State) : LevelLatched s.levelDetect := by
  apply pinBit_ext
  intro m
  simp only [levelDetect_lev, levelDetect_hen, levelDetect_len, levelDetect_eds, pinBit_and, pinBit_not, pinBit_or,
    pinBit_zero]
  cases pinBit (levelPins s.lev s.hen s.len) m <;> simp

/-- Level detection follows every write that clears a status bit or enables a level (rules R75, R76). -/
theorem writeEffect_latched {s : State} (h : LevelLatched s) (r : Reg) (v : Word) :
    LevelLatched (writeEffect s r v) := by
  cases r with
  | eds w => exact levelDetect_latched _
  | trig k w =>
    cases k with
    | highLevel => exact levelDetect_latched _
    | lowLevel => exact levelDetect_latched _
    | _ => exact h
  | icEoir => simp only [writeEffect]; split <;> exact h
  | _ => exact h

theorem readEffect_latched {s : State} (h : LevelLatched s) (r : Reg) : LevelLatched (readEffect s r) := by
  cases r with
  | icIar => simp only [readEffect]; split <;> exact h
  | _ => exact h

theorem prim_latched {s t : State} (h : Prim s t) (hs : LevelLatched s) : LevelLatched t := by
  cases h with
  | read r => exact readEffect_latched hs r
  | write r v => exact writeEffect_latched hs r v
  | _ => exact hs

/-! ### The pin table (rules R28, R174, R178) -/

theorem memRead_pinTable (s : State) (r : Reg) : (memRead s r).pinTable = s.pinTable := by
  cases r with
  | icIar => rw [memRead_icIar]
  | _ => rfl

theorem memWrite_pinTable (s : State) (r : Reg) (v : Word) : (memWrite s r v).pinTable = s.pinTable := by
  rw [memWrite_eq]
  cases r with
  | trig k w => cases k <;> rfl
  | icEoir => simp only [writeEffect]; split <;> rfl
  | _ => rfl

/-- A pin table that has changed by emptied slots only, over objects with the same pin numbers, is still sound. -/
theorem pinTableSound_of_shrink {s t : State} (hs : PinTableSound s) (h : SlotsShrink s t) : PinTableSound t := by
  intro n o ho
  rw [h.1 o]
  exact hs n o (h.2 n o ho)

theorem pinTableSound_congr {s t : State} (hs : PinTableSound s) (htable : t.pinTable = s.pinTable)
    (hobj : ∀ n : PinNo, ∀ o, s.pinTable[n] = some o → (t.obj o).pinNumber = (s.obj o).pinNumber) :
    PinTableSound t := by
  intro n o ho
  rw [htable] at ho
  rw [hobj n o ho]
  exact hs n o ho

/-- A destroyed object is none that a slot holds. -/
theorem destroyPins_obj {s : State} {o : Nat} (ho : o ∉ [clkObj, dtObj, swObj]) : (destroyPins s).obj o = s.obj o := by
  simp only [List.mem_cons, List.not_mem_nil, or_false, not_or] at ho
  obtain ⟨hclk, hdt, hsw⟩ := ho
  simp [destroyPins, setObj_obj, hclk, hdt, hsw]

/-- A pin number is assigned only to an object without one, which sits in no slot, a slot takes only an object with its
number, and the driver's objects are destroyed only outside the table. -/
theorem prim_pinTableSound {s t : State} (h : Prim s t) (hs : PinTableSound s) : PinTableSound t := by
  cases h with
  | read r => exact pinTableSound_congr hs (memRead_pinTable s r) fun _ o _ => by rw [obj_congr (memRead_pinObj s r)]
  | write r v =>
    exact pinTableSound_congr hs (memWrite_pinTable s r v) fun _ o _ => by rw [obj_congr (memWrite_pinObj s r v)]
  | assign obj n hnone =>
    refine pinTableSound_congr hs rfl fun m o ho => ?_
    have hsome := hs m o ho
    have hne : o ≠ obj := by
      rintro rfl
      rw [hnone] at hsome
      cases hsome
    rw [setObj_obj, if_neg (fun hc => hne hc.1)]
  | record obj p hp =>
    refine pinTableSound_congr hs rfl fun m o ho => ?_
    rw [setObj_obj]
    split
    · next hc => rw [hc.1, hp]
    · rfl
  | connect n obj hobj hempty =>
    intro m o ho
    rw [setSlot_slot] at ho
    split at ho
    · next hm => cases ho; rw [hm]; exact hobj
    · exact hs m o ho
  | disconnect n =>
    refine pinTableSound_of_shrink hs ⟨fun _ => rfl, fun m o ho => ?_⟩
    rw [setSlot_slot] at ho
    split at ho
    · cases ho
    · exact ho
  | encStop hfree =>
    refine pinTableSound_congr hs rfl fun m o ho => ?_
    have hout : o ∉ [clkObj, dtObj, swObj] := fun hc => hfree o hc m (hs m o ho) ho
    exact congrArg PinObj.pinNumber (destroyPins_obj hout)
  | _ => exact hs

/-! ### Pulls mirror their fields (rules R35, R203) -/

/-- The strobe register does not exist under Combined2Bit (rule R74). -/
theorem not_exists_pudclk {s : State} (h : s.cfg.pullStyle = .combined2Bit) (w : Fin 2) :
    ¬ RegExists s (.pudclk w) := by
  cases hp : s.cfg.platformIc <;> simp [RegExists, existingRegs, h, hp, bothWords, trigKinds]

/-- A pull changes only with a write that exists in its style (rules R74, R203). -/
theorem writeEffect_pullMirror {s : State} (hs : PullMirror s) {r : Reg} (hr : RegExists s r) (v : Word) :
    PullMirror (writeEffect s r v) := by
  intro hstyle n p hp
  rw [writeEffect_cfg] at hstyle
  have hold := hs hstyle n
  cases r with
  | trig k w => cases k <;> exact hold p hp
  | icEoir =>
    simp only [writeEffect] at hp ⊢
    split at hp <;> split <;> exact hold p hp
  | pudclk w => exact absurd hr (not_exists_pudclk hstyle w)
  | puppdn j =>
    simp only [writeEffect] at hp ⊢
    simp only [combinedPulls, Fin.getElem_fin, Vector.getElem_ofFn]
    split
    · rw [Option.mem_def.1 hp]; rfl
    · next hj =>
      rw [puppdnField_setPuppdnWord, if_neg hj] at hp
      exact hold p hp
  | _ => exact hold p hp

theorem memRead_pulls (s : State) (r : Reg) :
    (memRead s r).puppdn = s.puppdn ∧ (memRead s r).pullState = s.pullState := by
  cases r with
  | icIar => rw [memRead_icIar]; exact ⟨rfl, rfl⟩
  | _ => exact ⟨rfl, rfl⟩

theorem prim_pullMirror {s t : State} (h : Prim s t) (hs : PullMirror s) : PullMirror t := by
  cases h with
  | read r =>
    obtain ⟨hpup, hpull⟩ := memRead_pulls s r
    intro hstyle n
    rw [hpup, hpull]
    exact hs (readEffect_cfg s r ▸ hstyle) n
  | write r v hr => exact writeEffect_pullMirror hs hr v
  | _ => exact hs

/-! ### Kernel timers (rules R41, R304) -/

/-- Fewer timers are still in order, and have the handles they had. -/
theorem timersOrdered_sublist {s t : State} (hs : TimersOrdered s) (hsub : t.timers.Sublist s.timers)
    (hseq : t.timerSeq = s.timerSeq) : TimersOrdered t := by
  refine ⟨hs.1.sublist hsub, fun x hx => ?_⟩
  rw [hseq]
  exact hs.2 x (hsub.subset hx)

/-- A new timer has the highest start number. -/
theorem startTimer_ordered {s : State} (hs : TimersOrdered s) (d : Nat) (h ctx : Word) :
    TimersOrdered (startTimer s d h ctx) := by
  obtain ⟨hpair, hbound⟩ := hs
  refine ⟨List.pairwise_append.2 ⟨hpair, List.pairwise_singleton _ _, fun a ha b hb => ?_⟩, fun t ht => ?_⟩
  · obtain rfl := List.mem_singleton.1 hb
    exact Nat.lt_succ_of_le (hbound a ha).2
  · obtain ht | rfl := mem_startTimer.1 ht
    · exact ⟨(hbound t ht).1, Nat.le_succ_of_le (hbound t ht).2⟩
    · exact ⟨Nat.le_add_left 1 _, Nat.le_refl _⟩

/-- Under the default handle map the next handle is the next start number (rule R304). -/
theorem nextHandle_default {s : State} (hmap : s.cfg.timerHandles = []) (hseq : s.timerSeq + 1 < 4294967296) :
    nextHandle s = BitVec.ofNat 32 (s.timerSeq + 1) := by
  simp [nextHandle, hseq, timerHandle, hmap]

theorem startTimer_handlesDefault {s : State} (hs : HandlesDefault s) (d : Nat) (h ctx : Word) :
    HandlesDefault (startTimer s d h ctx) := by
  intro hmap t ht hseq
  obtain ht | rfl := mem_startTimer.1 ht
  · exact hs hmap t ht hseq
  · exact nextHandle_default hmap hseq

theorem memRead_timers (s : State) (r : Reg) :
    (memRead s r).timers = s.timers ∧ (memRead s r).timerSeq = s.timerSeq := by
  cases r with
  | icIar => rw [memRead_icIar]; exact ⟨rfl, rfl⟩
  | _ => exact ⟨rfl, rfl⟩

theorem memWrite_timers (s : State) (r : Reg) (v : Word) :
    (memWrite s r v).timers = s.timers ∧ (memWrite s r v).timerSeq = s.timerSeq := by
  rw [memWrite_eq]
  cases r with
  | trig k w => cases k <;> exact ⟨rfl, rfl⟩
  | icEoir => simp only [writeEffect]; split <;> exact ⟨rfl, rfl⟩
  | _ => exact ⟨rfl, rfl⟩

/-- Everything a primitive update can do to the timers: start one, or take some away. -/
theorem prim_timers {s t : State} (h : Prim s t) :
    (∃ d hd ctx, t = startTimer s d hd ctx) ∨ t.timers.Sublist s.timers ∧ t.timerSeq = s.timerSeq := by
  cases h with
  | startTimer d hd ctx => exact .inl ⟨d, hd, ctx, rfl⟩
  | read r => exact .inr ⟨(memRead_timers s r).1 ▸ .refl _, (memRead_timers s r).2⟩
  | write r v => exact .inr ⟨(memWrite_timers s r v).1 ▸ .refl _, (memWrite_timers s r v).2⟩
  | cancelTimer hd => exact .inr ⟨cancelTimer_sublist s hd, rfl⟩
  | expire x => exact .inr ⟨List.erase_sublist, rfl⟩
  | _ => exact .inr ⟨.refl _, rfl⟩

theorem prim_timersOrdered {s t : State} (h : Prim s t) (hs : TimersOrdered s) : TimersOrdered t := by
  obtain ⟨d, hd, ctx, rfl⟩ | ⟨hsub, hseq⟩ := prim_timers h
  · exact startTimer_ordered hs d hd ctx
  · exact timersOrdered_sublist hs hsub hseq

theorem prim_handlesDefault {s t : State} (h : Prim s t) (hs : HandlesDefault s) : HandlesDefault t := by
  obtain ⟨d, hd, ctx, rfl⟩ | ⟨hsub, -⟩ := prim_timers h
  · exact startTimer_handlesDefault hs d hd ctx
  · exact fun hmap x hx => hs (h.fixed.1 ▸ hmap) x (hsub.subset hx)

/-! ### The driver's record (rules R240, R242, R282) -/

theorem memRead_enc (s : State) (r : Reg) : (memRead s r).enc = s.enc := by
  cases r with
  | icIar => rw [memRead_icIar]
  | _ => rfl

theorem memWrite_enc (s : State) (r : Reg) (v : Word) : (memWrite s r v).enc = s.enc := by
  rw [memWrite_eq]
  cases r with
  | trig k w => cases k <;> rfl
  | icEoir => simp only [writeEffect]; split <;> rfl
  | _ => rfl

theorem encHasPins_of_keepsPins {s t : State} (hs : EncHasPins s) (henc : t.enc.initialized = s.enc.initialized)
    (hkeep : KeepsPins s t) : EncHasPins t :=
  fun hinit o ho => hkeep o (hs (henc ▸ hinit) o ho)

/-- The driver starts with its pins, and they are destroyed only as it stops. -/
theorem prim_encHasPins {s t : State} (h : Prim s t) (hs : EncHasPins s) : EncHasPins t := by
  cases h with
  | read r =>
    exact encHasPins_of_keepsPins hs (by rw [memRead_enc]) fun o ho => by rwa [obj_congr (memRead_pinObj s r)]
  | write r v =>
    exact encHasPins_of_keepsPins hs (by rw [memWrite_enc]) fun o ho => by rwa [obj_congr (memWrite_pinObj s r v)]
  | assign obj n => exact encHasPins_of_keepsPins hs rfl (keepsPins_setObj rfl fun _ => rfl)
  | record obj p hp => exact encHasPins_of_keepsPins hs rfl (keepsPins_setObj rfl fun ho => hp ▸ ho)
  | enc f hf => exact encHasPins_of_keepsPins hs hf.1 (.refl s)
  | encStart hpins => exact fun _ => hpins
  | encStop => intro hinit; cases hinit
  | _ => exact hs

/-- The driver's record is updated only so that a remembered tick timer means a pressed switch. -/
theorem encUpdate_tickWhilePressed {e e' : Enc} (h : EncUpdate e e')
    (he : e.tickTimer.isSome = true → e.swStable = false) : e'.tickTimer.isSome = true → e'.swStable = false := by
  obtain ⟨-, ⟨htick, hsw⟩ | hnone | hpressed⟩ := h
  · rw [htick, hsw]; exact he
  · rw [hnone]; intro hc; cases hc
  · exact fun _ => hpressed

theorem prim_tickWhilePressed {s t : State} (h : Prim s t) (hs : TickWhilePressed s) : TickWhilePressed t := by
  cases h with
  | read r => rw [TickWhilePressed, memRead_enc]; exact hs
  | write r v => rw [TickWhilePressed, memWrite_enc]; exact hs
  | enc f hf => exact encUpdate_tickWhilePressed hf hs
  | encStart => intro htick; cases htick
  | _ => exact hs

/-! ### The active line (rule R24) -/

theorem exists_icIar_iff (s : State) : RegExists s .icIar ↔ s.cfg.platformIc = .ackRegister := by
  refine ⟨fun h => ?_, exists_icIar s⟩
  cases hp : s.cfg.platformIc with
  | ackRegister => rfl
  | pendingMask =>
    cases hstyle : s.cfg.pullStyle <;>
      simp [RegExists, existingRegs, hp, hstyle, bothWords, trigKinds] at h

/-- An acknowledge read marks a line that can be served (rule R78). -/
theorem ackSelect_lt {s : State} {id : Nat} (h : s.ackSelect = some id) : id < s.nIrq := by
  unfold State.ackSelect at h
  split at h
  · cases h
  · exact List.mem_range.1 (List.mem_of_find?_eq_some h)

theorem activeLine_congr {s t : State} (hs : ActiveLine s) (hactive : t.icActive = s.icActive) (hcfg : t.cfg = s.cfg)
    (hirq : t.nIrq = s.nIrq) : ActiveLine t := by
  intro id hid
  rw [hactive] at hid
  rw [hcfg, hirq]
  exact hs id hid

theorem memRead_icIar_of_none {s : State} (h : s.ackSelect = none) : (memRead s .icIar).icActive = s.icActive := by
  rw [memRead_icIar, h]

theorem memRead_icIar_of_some {s : State} {id : Nat} (h : s.ackSelect = some id) :
    (memRead s .icIar).icActive = some id := by
  rw [memRead_icIar, h]

/-- Only the acknowledge register, which exists under AckRegister, marks a line active (rule R78). -/
theorem memRead_activeLine {s : State} (hs : ActiveLine s) {r : Reg} (hr : RegExists s r) :
    ActiveLine (memRead s r) := by
  cases r with
  | icIar =>
    cases hsel : s.ackSelect with
    | none => exact activeLine_congr hs (memRead_icIar_of_none hsel) (readEffect_cfg s _) (readEffect_nIrq s _)
    | some j =>
      intro id hid
      rw [memRead_icIar_of_some hsel] at hid
      cases hid
      exact ⟨readEffect_cfg s .icIar ▸ (exists_icIar_iff s).1 hr, readEffect_nIrq s .icIar ▸ ackSelect_lt hsel⟩
  | _ => exact hs

/-- A write completes the active line or leaves it (rule R78). -/
theorem memWrite_activeLine {s : State} (hs : ActiveLine s) (r : Reg) (v : Word) : ActiveLine (memWrite s r v) := by
  have hle : (memWrite s r v).icActive = none ∨ (memWrite s r v).icActive = s.icActive := by
    rw [memWrite_eq]
    cases r with
    | trig k w => cases k <;> exact .inr rfl
    | icEoir =>
      simp only [writeEffect]
      split
      · exact .inl rfl
      · exact .inr rfl
    | _ => exact .inr rfl
  obtain hnone | hsame := hle
  · intro id hid
    rw [hnone] at hid
    cases hid
  · exact activeLine_congr hs hsame (writeEffect_cfg s r v) (writeEffect_nIrq s r v)

theorem prim_activeLine {s t : State} (h : Prim s t) (hs : ActiveLine s) : ActiveLine t := by
  have hfixed := h.fixed
  cases h with
  | read r hr => exact memRead_activeLine hs hr
  | write r v => exact memWrite_activeLine hs r v
  | _ => exact activeLine_congr hs rfl hfixed.1 hfixed.2

/-! ### Every step keeps the invariant -/

theorem prim_stateSound {s t : State} (h : Prim s t) (hs : StateSound s) : StateSound t where
  latched := prim_latched h hs.latched
  table := prim_pinTableSound h hs.table
  pulls := prim_pullMirror h hs.pulls
  ordered := prim_timersOrdered h hs.ordered
  handles := prim_handlesDefault h hs.handles
  encPins := prim_encHasPins h hs.encPins
  active := prim_activeLine h hs.active
  tick := prim_tickWhilePressed h hs.tick

theorem reach_stateSound {s t : State} (h : Reach s t) (hs : StateSound s) : StateSound t := by
  induction h with
  | refl => exact hs
  | tail _ hp ih => exact prim_stateSound hp ih

/-- The fault record is no part of it, and with one the context flags may be anything. -/
theorem raiseFault_inv {s : State} (hs : StateSound s) (e : ErrorCode) (w : Word) : Inv (s.raiseFault e w) :=
  (inv_iff _).2 ⟨⟨hs.latched, hs.table, hs.pulls, hs.ordered, hs.handles, hs.encPins, hs.active, hs.tick⟩,
    fun hfault => nomatch hfault⟩

theorem quiet_of_sameContext {s t : State} (hf : s.fault = none) (hs : Quiet s) (h : SameContext s t) : Quiet t := by
  obtain ⟨hirq, hfiq, hbusy, hdepth⟩ := h
  intro _
  rw [hirq, hfiq, hbusy, hdepth]
  exact hs hf

theorem exec_command_inv {i : Instr} {s t : State} (hc : i.isCommand = true) (hs : Inv s) (h : exec i s = .next t) :
    Inv t := by
  obtain ⟨hsound, hquiet⟩ := (inv_iff s).1 hs
  obtain ⟨hf, ⟨hr, hctx⟩ | ⟨e, u, hr, rfl⟩⟩ := exec_command hc h
  · exact (inv_iff t).2 ⟨reach_stateSound hr hsound, quiet_of_sameContext hf hquiet hctx⟩
  · exact raiseFault_inv (reach_stateSound hr hsound) e _

/-- Changing a line touches no part of the invariant but the number of lines, which stays. -/
theorem setLine_inv {s : State} (hs : Inv s) (id : Nat) (f : IrqLine → IrqLine) : Inv (s.setLine id f) := by
  obtain ⟨hsound, hquiet⟩ := (inv_iff s).1 hs
  exact (inv_iff _).2 ⟨⟨hsound.latched, hsound.table, hsound.pulls, hsound.ordered, hsound.handles, hsound.encPins,
    activeLine_congr hsound.active rfl rfl (setLine_nIrq s id f), hsound.tick⟩, hquiet⟩

/-- A change of levels is followed by level detection (rules R170, R171). -/
theorem evPinLevel_inv {n : Nat} {level : Bool} {s t : State} (hs : Inv s)
    (h : exec (.evPinLevel n level) s = .next t) : Inv t := by
  by_cases hn : n < 54
  · obtain ⟨hsound, hquiet⟩ := (inv_iff s).1 hs
    rw [exec_next_of_rule h (dif_pos hn)]
    exact (inv_iff _).2 ⟨⟨levelDetect_latched _, hsound.table, hsound.pulls, hsound.ordered, hsound.handles,
      hsound.encPins, hsound.active, hsound.tick⟩, hquiet⟩
  · rw [exec_next_of_rule h (dif_neg hn)]
    exact hs

theorem evIrqLine_inv {id : Nat} {level : Bool} {s t : State} (hs : Inv s)
    (h : exec (.evIrqLine id level) s = .next t) : Inv t := by
  by_cases hid : id < s.nIrq ∧ id ≠ s.cfg.gpioLine ∧ id ≠ s.cfg.timerLine
  · rw [exec_next_of_rule h (if_pos hid)]
    exact setLine_inv hs id _
  · rw [exec_next_of_rule h (if_neg hid)]
    exact hs

/-- Every operation: commands by their primitive updates, the three stimuli each. -/
theorem exec_inv {i : Instr} {s t : State} (hs : Inv s) (h : exec i s = .next t) : Inv t := by
  cases i with
  | evPinLevel => exact evPinLevel_inv hs h
  | evIrqLine => exact evIrqLine_inv hs h
  | evTimerPeriod =>
    rw [exec_next_of_rule h rfl]
    exact setLine_inv hs s.cfg.timerLine _
  | _ => exact exec_command_inv rfl hs h

theorem turnEnds_inv {s t : State} (hs : Inv s) (h : TurnEnds s t) : Inv t := by
  obtain rfl | ⟨w, rfl⟩ | ⟨i, hi⟩ := h
  · exact hs
  · exact raiseFault_inv ((inv_iff s).1 hs).1 .badOpcode w
  · exact exec_inv hs hi

/-- Settles O57: a step takes a turn, a turn runs one operation, and a command is a sequence of primitive updates, each
of which keeps every part but the context flags; these are as they were unless the operation raised. -/
theorem invariantKeptByStep : Obligations.InvariantKeptByStep := by
  intro s t hs h
  obtain ⟨-, ws, ts, hend⟩ := step_next h
  have hport : Inv { s with port := ws, turns := ts } := hs
  exact turnEnds_inv hport hend

end Sys2Proof.Proofs
end

section
/-! PROOFS. The state of the block (spec/10_state.md): a faulted machine, a line stimulus, the controller's line
registers, the plain registers, timer handles, and a dispatch inside a dispatch. -/

namespace Sys2Proof.Proofs

open Sys2Proof.Machine Sys2Proof.Safety Sys2Proof.Laws

/-! ### After a fault (rules R42, R321) -/

theorem exec_of_fault {s : State} {f : FaultRecord} (h : s.fault = some f) (i : Instr) : exec i s = halted s f := by
  rw [exec_eq_perform]
  exact perform_fault h

theorem portTurn_of_fault {s : State} {f : FaultRecord} (h : s.fault = some f) : portTurn s = halted s f := by
  cases hfetch : fetch s.port with
  | idle => rw [portTurn_of_idle hfetch]; exact perform_fault h
  | illegal w => rw [portTurn_of_illegal hfetch]; exact perform_fault h
  | op i rest => rw [portTurn_of_op hfetch]; exact exec_of_fault (s := { s with port := rest }) h i

theorem trapTurn_of_fault {s : State} {f : FaultRecord} (h : s.fault = some f) : trapTurn s = halted s f := by
  cases hop : s.trapOperation with
  | none => rw [trapTurn_of_none hop]; exact perform_fault h
  | some i => rw [trapTurn_of_some hop]; exact exec_of_fault h i

/-- Whosever turn it is. -/
theorem step_of_fault {s : State} {f : FaultRecord} (h : s.fault = some f) : step s = halted s f := by
  cases hturns : s.turns with
  | nil => rw [step_of_turns_nil hturns]; exact portTurn_of_fault h
  | cons turn ts =>
    cases turn with
    | port => rw [step_of_turns_port hturns]; exact portTurn_of_fault h
    | trap => rw [step_of_turns_trap hturns]; exact trapTurn_of_fault h

/-- Settles O7: a step and an operation both halt, and the build says how. -/
theorem faultedMachineTakesNoStep : Obligations.FaultedMachineTakesNoStep := by
  refine ⟨rfl, fun s f hf => ⟨fun hb => ?_, fun hb => ?_⟩⟩
  · have hhalt : halted s f = .fault (.stuck f) := by simp [halted, hb]
    exact ⟨(step_of_fault hf).trans hhalt, fun i => (exec_of_fault hf i).trans hhalt⟩
  · have hhalt : halted s f = .refused (.releaseAfterFault f) := by simp [halted, hb]
    exact ⟨(step_of_fault hf).trans hhalt, fun i => (exec_of_fault hf i).trans hhalt⟩

/-! ### A line stimulus (rules R23, R151) -/

/-- An operation whose rule ends well, from a state without a fault. -/
theorem exec_of_rule_ok {i : Instr} {s t : State} (hs : s.fault = none) (h : ruleOf i s = .ok t) :
    exec i s = .next t := by
  rw [exec_eq_perform]
  exact perform_ok hs h

/-- Settles O18: the rule's own condition. -/
theorem irqLineStimulus : Obligations.IrqLineStimulus := by
  intro s id level hs
  split
  · next hid => exact exec_of_rule_ok hs (if_pos hid)
  · next hid => exact exec_of_rule_ok hs (if_neg hid)

/-! ### The controller's line registers (rules R26, R85) -/

/-- Bit `b` of word `w` of a one-bit-per-id group belongs to id `32 w + b`. -/
theorem getLsbD_idWord_of_lt (f : Nat → Bool) (w : Nat) {b : Nat} (hb : b < 32) :
    (idWord f w).getLsbD b = f (32 * w + b) := by
  rw [idWord, getLsbD_bitsWord _ _ _ (Nat.le_refl 32)]
  simp [hb]

theorem idBit_iff (w : Nat) (v : Word) (id : Nat) :
    idBit w v id = true ↔ id / 32 = w ∧ v.getLsbD (id % 32) = true := by
  simp [idBit]

/-- A line after a word of enable bits is set or cleared. -/
theorem writeEnable_line (s : State) (w : Nat) (v : Word) (b : Bool) (id : Nat) :
    (s.writeEnable w v b).line id =
      if id < s.nIrq ∧ idBit w v id = true then { s.line id with enable := b } else s.line id := by
  simp only [State.line, State.nIrq, writeEnable_lines, List.getD_eq_getElem?_getD, List.getElem?_mapIdx]
  by_cases hid : id < s.lines.length
  · cases idBit w v id <;> simp [hid]
  · simp [hid]

/-- A write to a set-enable or clear-enable register. -/
theorem memWrite_enable {s : State} {r : Reg} {w : Nat} {value : Bool}
    (hr : r = .icEnset w ∧ value = true ∨ r = .icEnclr w ∧ value = false) (v : Word) :
    memWrite s r v = (s.writeEnable w v value).pushBus (writeOf s.cfg r v) := by
  obtain ⟨rfl, rfl⟩ | ⟨rfl, rfl⟩ := hr <;> rfl

/-- Settles O21: the reads bit by bit, and the writes by what they make of each line. -/
theorem lineRegisters : Obligations.LineRegisters := by
  intro s w v
  refine ⟨fun b hb => ?_, fun r value hr => ?_⟩
  · exact ⟨getLsbD_idWord_of_lt s.eff w hb, getLsbD_idWord_of_lt s.irqEnable w hb,
      getLsbD_idWord_of_lt s.irqEnable w hb⟩
  · rw [memWrite_enable hr]
    have hline : ∀ id, ((s.writeEnable w v value).pushBus (writeOf s.cfg r v)).line id =
        if id < s.nIrq ∧ idBit w v id = true then { s.line id with enable := value } else s.line id :=
      writeEnable_line s w v value
    refine ⟨fun id => ?_, fun id => ?_, rfl⟩
    · simp only [State.irqEnable, hline, idBit_iff]
      split <;> rfl
    · rw [State.irqTable, hline]
      split <;> exact ⟨rfl, rfl⟩

/-! ### Plain registers (rules R76, R77) -/

/-- A word of a group after another word of it is replaced. -/
theorem bankWord_setBankWord_ne (b : PinBank) {w w' : Fin 2} (h : w' ≠ w) (v : Word) :
    bankWord (setBankWord b w v) w' = bankWord b w' := by
  have hne : w'.val ≠ w.val := fun e => h (Fin.ext e)
  apply BitVec.eq_of_getLsbD_eq
  intro i hi
  rw [getLsbD_bankWord, getLsbD_bankWord, getLsbD_setBankWord, if_neg (by omega)]
  by_cases h54 : 32 * w'.val + i < 54
  · simp [h54]
  · simp [h54, BitVec.getLsbD_of_ge b _ (Nat.not_lt.1 h54)]

/-- A function-select word just written: its pins' bits as written, the reserved bits 0. -/
theorem fselWord_setFselWord (f : BitVec 162) (k : Fin 6) (v : Word) :
    fselWord (setFselWord f k v) k = v &&& fselWord (BitVec.allOnes 162) k := by
  apply BitVec.eq_of_getLsbD_eq
  intro i hi
  rw [BitVec.getLsbD_and, getLsbD_fselWord, getLsbD_fselWord, getLsbD_setFselWord, BitVec.getLsbD_allOnes,
    show 30 * k.val + i - 30 * k.val = i by omega]
  by_cases h30 : i < 30
  · by_cases h162 : 30 * k.val + i < 162
    · simp [h30, h162]
    · simp [h162, BitVec.getLsbD_of_ge f _ (Nat.not_lt.1 h162)]
  · simp [h30]

theorem fselWord_setFselWord_ne (f : BitVec 162) {k k' : Fin 6} (h : k' ≠ k) (v : Word) :
    fselWord (setFselWord f k v) k' = fselWord f k' := by
  have hne : k'.val ≠ k.val := fun e => h (Fin.ext e)
  apply BitVec.eq_of_getLsbD_eq
  intro i hi
  rw [getLsbD_fselWord, getLsbD_fselWord, getLsbD_setFselWord]
  by_cases h30 : i < 30
  · rw [if_neg (by omega)]
  · simp [h30]

/-- A combined pull word just written: its pins' bits as written, the reserved bits 0. -/
theorem puppdnWord_setPuppdnWord (p : BitVec 108) (j : Fin 4) (v : Word) :
    puppdnWord (setPuppdnWord p j v) j = v &&& puppdnWord (BitVec.allOnes 108) j := by
  apply BitVec.eq_of_getLsbD_eq
  intro i hi
  rw [BitVec.getLsbD_and, getLsbD_puppdnWord, getLsbD_puppdnWord, getLsbD_setPuppdnWord, BitVec.getLsbD_allOnes,
    show 32 * j.val + i - 32 * j.val = i by omega]
  by_cases h108 : 32 * j.val + i < 108
  · simp [hi, h108]
  · simp [h108, BitVec.getLsbD_of_ge p _ (Nat.not_lt.1 h108)]

theorem puppdnWord_setPuppdnWord_ne (p : BitVec 108) {j j' : Fin 4} (h : j' ≠ j) (v : Word) :
    puppdnWord (setPuppdnWord p j v) j' = puppdnWord p j' := by
  have hne : j'.val ≠ j.val := fun e => h (Fin.ext e)
  apply BitVec.eq_of_getLsbD_eq
  intro i hi
  rw [getLsbD_puppdnWord, getLsbD_puppdnWord, getLsbD_setPuppdnWord, if_neg (by omega)]

/-- The two bits of `PUD`. -/
theorem setWidth_pud (v : Word) : ((v.setWidth 2 : BitVec 2).setWidth 32 : Word) = v &&& 0x00000003 := by
  apply BitVec.eq_of_getLsbD_eq
  intro i hi
  have hmask : ∀ i : Fin 32, (0x00000003 : Word).getLsbD i.val = decide (i.val < 2) := by decide
  rw [BitVec.getLsbD_and, hmask ⟨i, hi⟩]
  by_cases h2 : i < 2 <;> simp [h2, hi]

/-- The masks of the implemented bits are the words of a register that is all ones. -/
theorem bankWord_allOnes (w : Fin 2) : bankWord (BitVec.allOnes 54) w = if w = 1 then 0x003FFFFF else 0xFFFFFFFF := by
  revert w; decide

theorem fselWord_allOnes (k : Fin 6) :
    fselWord (BitVec.allOnes 162) k = if k = 5 then 0x00000FFF else 0x3FFFFFFF := by
  revert k; decide

theorem puppdnWord_allOnes (j : Fin 4) :
    puppdnWord (BitVec.allOnes 108) j = if j = 3 then 0x00000FFF else 0xFFFFFFFF := by
  revert j; decide

theorem regValue_memWrite (s : State) (r r' : Reg) (v : Word) :
    regValue (memWrite s r v) r' = regValue (writeEffect s r v) r' := by
  rw [memWrite_eq, withBus_regValue]

/-- The trigger-enable groups after a write to a word of one of them: level detection changes none. -/
theorem writeEffect_trig (s : State) (k j : TrigKind) (w : Fin 2) (v : Word) :
    (writeEffect s (.trig k w) v).trig j = if j = k then setBankWord (s.trig k) w v else s.trig j := by
  rw [← setTrig_trig]
  simp only [writeEffect]
  split
  · cases j <;> rfl
  · rfl

/-- Reading back a plain register just written. -/
theorem regValue_memWrite_self {r : Reg} {mask : Word} (h : implemented r = some mask) (s : State) (v : Word) :
    regValue (memWrite s r v) r = v &&& mask := by
  rw [regValue_memWrite]
  cases r with
  | fsel k => cases h; rw [← fselWord_allOnes]; exact fselWord_setFselWord s.fsel k v
  | trig k w =>
    cases h
    rw [← bankWord_allOnes, regValue, writeEffect_trig, if_pos rfl]
    exact bankWord_setBankWord _ w v
  | pud => cases h; exact setWidth_pud v
  | pudclk w => cases h; rw [← bankWord_allOnes]; exact bankWord_setBankWord s.pudclk w v
  | puppdn j => cases h; rw [← puppdnWord_allOnes]; exact puppdnWord_setPuppdnWord s.puppdn j v
  | _ => cases h

/-- Reading a plain register after a write to another: words of one group are distinct, groups are distinct. -/
theorem regValue_memWrite_ne {r r' : Reg} {mask mask' : Word} (h : implemented r = some mask)
    (h' : implemented r' = some mask') (hne : r' ≠ r) (s : State) (v : Word) :
    regValue (memWrite s r v) r' = regValue s r' := by
  rw [regValue_memWrite]
  cases r with
  | fsel k =>
    cases r' with
    | fsel k' => exact fselWord_setFselWord_ne s.fsel (fun e => hne (congrArg _ e)) v
    | trig k' w' => cases k' <;> rfl
    | _ => cases h' <;> rfl
  | trig k w =>
    cases r' with
    | trig k' w' =>
      rw [regValue, writeEffect_trig, regValue]
      split
      · next hk =>
        subst hk
        exact bankWord_setBankWord_ne _ (fun e => hne (congrArg _ e)) v
      · rfl
    | _ => cases h' <;> cases k <;> rfl
  | pud =>
    cases r' with
    | pud => exact absurd rfl hne
    | trig k' w' => cases k' <;> rfl
    | _ => cases h' <;> rfl
  | pudclk w =>
    cases r' with
    | pudclk w' => exact bankWord_setBankWord_ne s.pudclk (fun e => hne (congrArg _ e)) v
    | trig k' w' => cases k' <;> rfl
    | _ => cases h' <;> rfl
  | puppdn j =>
    cases r' with
    | puppdn j' => exact puppdnWord_setPuppdnWord_ne s.puppdn (fun e => hne (congrArg _ e)) v
    | trig k' w' => cases k' <;> rfl
    | _ => cases h' <;> rfl
  | _ => cases h

/-- Settles O53: the same register or another. -/
theorem plainRegistersHoldTheirWords : Obligations.PlainRegistersHoldTheirWords := by
  intro s r r' v mask mask' h h'
  split
  · next he => subst he; exact regValue_memWrite_self h s v
  · next hne => exact regValue_memWrite_ne h h' hne s v

/-! ### Timer handles (rules R41, R304, R305) -/

/-- Under the default handle map the handle of a running timer is its start number, as a number. -/
theorem handle_toNat {s : State} (hmap : s.cfg.timerHandles = []) (hord : TimersOrdered s) (hdef : HandlesDefault s)
    (hseq : s.timerSeq < 4294967296) {t : Timer} (ht : t ∈ s.timers) : t.handle.toNat = t.seq := by
  have hlt : t.seq < 4294967296 := Nat.lt_of_le_of_lt (hord.2 t ht).2 hseq
  rw [hdef hmap t ht hlt, BitVec.toNat_ofNat]
  exact Nat.mod_eq_of_lt hlt

theorem nextHandle_toNat {s : State} (hmap : s.cfg.timerHandles = []) (hseq : s.timerSeq + 1 < 4294967296) :
    (nextHandle s).toNat = s.timerSeq + 1 := by
  rw [nextHandle_default hmap hseq, BitVec.toNat_ofNat]
  exact Nat.mod_eq_of_lt hseq

/-- No running timer has the next handle: its start number is still to come. -/
theorem nextHandle_fresh {s : State} (hmap : s.cfg.timerHandles = []) (hord : TimersOrdered s) (hdef : HandlesDefault s)
    (hseq : s.timerSeq + 1 < 4294967296) {t : Timer} (ht : t ∈ s.timers) : t.handle ≠ nextHandle s := by
  intro he
  have hle : t.seq ≤ s.timerSeq := (hord.2 t ht).2
  have hnat := congrArg BitVec.toNat he
  rw [handle_toNat hmap hord hdef (Nat.lt_of_succ_lt hseq) ht, nextHandle_toNat hmap hseq] at hnat
  omega

/-- Cancelling a handle that is not running (rule R305). -/
theorem cancelTimer_of_stale {s : State} {hd : Word} (h : ∀ t ∈ s.timers, t.handle ≠ hd) : cancelTimer s hd = s := by
  have herase : s.timers.eraseP (fun t => t.handle == hd) = s.timers :=
    List.eraseP_of_forall_not fun t ht => by simp [h t ht]
  simp only [cancelTimer, herase]

/-- Cancelling the timer just started, where no other has its handle (rules R304, R305). -/
theorem cancelTimer_startTimer {s : State} (h : ∀ t ∈ s.timers, t.handle ≠ nextHandle s) (d : Nat) (hd ctx : Word) :
    (cancelTimer (startTimer s d hd ctx) (nextHandle s)).timers = s.timers := by
  simp only [cancelTimer, startTimer]
  rw [List.eraseP_append_right _ fun t ht => by simp [h t ht]]
  simp

/-- Settles O50: handles are start numbers, and start numbers go up from 1. -/
theorem newHandleIsFresh : Obligations.NewHandleIsFresh := by
  intro s d h ctx hmap hord hdef hseq
  have hfresh : ∀ t ∈ s.timers, t.handle ≠ nextHandle s := fun t ht => nextHandle_fresh hmap hord hdef hseq ht
  refine ⟨fun hzero => ?_, hfresh, cancelTimer_startTimer hfresh d h ctx, fun hd hstale => cancelTimer_of_stale hstale⟩
  have hnat := nextHandle_toNat hmap hseq
  rw [hzero] at hnat
  cases hnat

/-! ### A dispatch inside a dispatch (rules R25, R145, R150, R176, R336) -/

theorem icDispatch_nested {s : State} (h : s.inIrq = true ∨ s.inFiq = true) (inv : Invoker) :
    ruleIcDispatch inv s = .raised .reentrant s :=
  if_pos (by simpa [State.inDispatch] using h)

theorem icDispatchFiq_nested {s : State} (h : s.inIrq = true ∨ s.inFiq = true) (inv : Invoker) :
    ruleIcDispatchFiq inv s = .raised .reentrant s :=
  if_pos (by simpa [State.inDispatch] using h)

theorem gmDispatch_nested {s : State} (h : s.gmBusy = true) (inv : Invoker) :
    ruleGmDispatch inv s = .raised .reentrant s :=
  if_pos h

/-- An operation whose rule raises, from a state without a fault. -/
theorem exec_of_rule_raised {i : Instr} {s t : State} {e : ErrorCode} (hs : s.fault = none)
    (h : ruleOf i s = .raised e t) : exec i s = .next (t.raiseFault e i.opword) := by
  rw [exec_eq_perform]
  exact perform_raised hs h

/-- `SelectLine` under PendingMask chooses the selected line (rule R146). -/
theorem pickPending_of_selected {s : State} {id : Nat} (hp : s.cfg.platformIc = .pendingMask) (h : Selected s id) :
    pickPending s = some id := by
  obtain ⟨hid, hfirst⟩ := h
  simp only [hp] at hfirst
  have hbit : ∀ j, (pendBit s j && s.cfg.fiqLine != some j) = s.irqCandidate j := fun j => by
    rw [pendBit_eq, State.irqCandidate]
  simp only [pickPending, hbit]
  obtain rfl | ⟨htimer, hlow⟩ := hfirst
  · rw [if_pos hid]
  · rw [if_neg (by simp [htimer])]
    exact List.find?_range_eq_some.2
      ⟨hid, List.mem_range.2 (lt_of_candidate hid), fun j hj => by simp [hlow j hj]⟩

/-- `SelectLine` under AckRegister reads the selected line's id (rules R78, R147). -/
theorem ackedLine_of_selected {s : State} {id : Nat} (hfit : IdsFit s) (hp : s.cfg.platformIc = .ackRegister)
    (h : Selected s id) : ackedLine s (regValue s .icIar) = some id := by
  obtain ⟨hid, hfirst⟩ := h
  simp only [hp] at hfirst
  obtain ⟨hfree, hlow⟩ := hfirst
  have hlt : id < s.nIrq := lt_of_candidate hid
  have hlowest : s.lowestCandidate = some id :=
    List.find?_range_eq_some.2 ⟨hid, List.mem_range.2 hlt, fun j hj => by simp [hlow j hj]⟩
  have hread : regValue s .icIar = BitVec.ofNat 32 id := by
    simp only [regValue, State.ackSelect, hfree, hlowest]
  have hnat : ((regValue s .icIar).setWidth 16).toNat = id := by
    have hword : id < 65536 := Nat.lt_of_lt_of_le hlt hfit.1
    rw [hread, BitVec.toNat_setWidth, BitVec.toNat_ofNat]
    omega
  rw [ackedLine, hnat, if_pos hlt]

theorem selectLine_of_selected {s : State} {id : Nat} (hfit : IdsFit s) (h : Selected s id) :
    selectLine s = some id := by
  unfold selectLine
  split
  · next hp => exact pickPending_of_selected hp h
  · next hp => exact ackedLine_of_selected hfit hp h

/-- The reads of `SelectLine` change the active line at most. -/
theorem afterSelect_frame (s : State) :
    ∃ active bus, afterSelect s = { s with icActive := active, busTrace := bus } := by
  cases hp : s.cfg.platformIc with
  | pendingMask => exact ⟨_, _, afterSelect_pendingMask hp⟩
  | ackRegister => exact ⟨_, _, afterSelect_ackRegister hp⟩

/-- The state in which the body of an external handler runs: the call recorded, one level deeper (rule R334). -/
def inHandler (h ctx : Word) (s : State) : State := { recordCall h ctx s with invokeDepth := s.invokeDepth + 1 }

theorem runExternal_of_callable {s : State} (hdepth : s.invokeDepth < s.cfg.maxNest) (inv : Invoker) (h ctx : Word)
    (arg : Option AppEvent) :
    runExternal inv h ctx arg s = (runBody inv (handlerBody s.cfg h ctx arg) (inHandler h ctx s)).andThen fun t =>
      .ok { t with invokeDepth := t.invokeDepth - 1 } :=
  if_neg (Nat.not_le.2 hdepth)

theorem runExternal_of_deep {s : State} (hdepth : s.cfg.maxNest ≤ s.invokeDepth) (inv : Invoker) (h ctx : Word)
    (arg : Option AppEvent) : runExternal inv h ctx arg s = .raised .reentrant (recordCall h ctx s) :=
  if_pos hdepth

/-- A body whose first command raises, raises (rules R321, R334). -/
theorem runExternal_of_head_raised {inv : Invoker} {h ctx : Word} {arg : Option AppEvent} {s t : State} {i : Instr}
    {is : List Instr} {e : ErrorCode} (hbody : handlerBody s.cfg h ctx arg = i :: is)
    (hdepth : s.invokeDepth < s.cfg.maxNest) (hi : command inv i (inHandler h ctx s) = .raised e t) :
    runExternal inv h ctx arg s = .raised e t := by
  rw [runExternal_of_callable hdepth, hbody, runBody, hi, andThen_raised, andThen_raised]

/-- A dispatch that serves a line with an external handler raises where the handler's call raises. -/
theorem icDispatch_of_handler_raised {s u : State} {id : Nat} {h ctx : Word} {e : ErrorCode}
    (hd : s.inDispatch = false) (hsel : selectLine s.enterIrq = some id)
    (htable : (afterSelect s.enterIrq).irqTable id = some ⟨h, ctx⟩)
    (hraise : invoke h ctx none (afterSelect s.enterIrq) = .raised e u) : ruleIcDispatch invoke s = .raised e u := by
  simp only [ruleIcDispatch, hd, hsel, serveLine, htable, hraise]
  rfl

/-- Settles O16: at the port by the flag alone; in a body the flag is the one that the outer dispatch has set. -/
theorem nestedDispatchRaises : Obligations.NestedDispatchRaises := by
  refine ⟨fun s hs => ⟨fun hd => ⟨?_, ?_⟩, fun hb => ?_⟩, ?_⟩
  · exact exec_of_rule_raised hs (icDispatch_nested hd invoke)
  · exact exec_of_rule_raised hs (icDispatchFiq_nested hd invoke)
  · exact exec_of_rule_raised hs (gmDispatch_nested hb invoke)
  · intro s id h ctx body hs hirq hfiq hfit hsel htable hext hbody hdepth
    obtain ⟨active, bus, hafter⟩ := afterSelect_frame s.enterIrq
    have hraise : invoke h ctx none (afterSelect s.enterIrq) =
        .raised .reentrant (inHandler h ctx (afterSelect s.enterIrq)) := by
      rw [invoke_external hext, hafter]
      exact runExternal_of_head_raised hbody hdepth (icDispatch_nested (.inl rfl) _)
    have hrule := icDispatch_of_handler_raised (by simp [State.inDispatch, hirq, hfiq])
      (selectLine_of_selected (s := s.enterIrq) hfit hsel) (by rw [hafter]; exact htable) hraise
    refine ⟨_, exec_of_rule_raised hs hrule, ?_⟩
    rw [hafter]
    exact ⟨rfl, rfl, rfl, rfl, rfl⟩

end Sys2Proof.Proofs
end

section
/-! PROOFS. The state of the block (spec/10_state.md): nothing depends on an output port, a pull or the release
timestamp. Two states that differ in these only go through every rule with the same outcome, in lockstep. -/

namespace Sys2Proof.Proofs

open Sys2Proof.Machine Sys2Proof.Safety Sys2Proof.Laws

/-! ### States and results that differ in what no rule reads (rules R35, R39, R43) -/

/-- Two states that differ at most in what no rule reads. -/
def Alike (s t : State) : Prop := unread s = unread t

/-- Two results of one kind, in states that differ at most in what no rule reads. -/
inductive ResAlike : Res → Res → Prop where
  | ok {s t : State} (h : Alike s t) : ResAlike (.ok s) (.ok t)
  | raised (e : ErrorCode) {s t : State} (h : Alike s t) : ResAlike (.raised e s) (.raised e t)
  | unending (u : Unending) : ResAlike (.unending u) (.unending u)

/-- A rule, a check or a call that takes alike states to alike results. -/
def KeepsAlike (f : State → Res) : Prop := ∀ s t, Alike s t → ResAlike (f s) (f t)

/-- The calls of handler words take alike states to alike results. -/
def AlikeCalls (inv : Invoker) : Prop := ∀ h ctx arg, KeepsAlike (inv h ctx arg)

/-- A reading that does not look at the unread part is the same in alike states. -/
theorem Alike.read {α : Type} {s t : State} (h : Alike s t) (g : State → α) (hg : ∀ u, g u = g (unread u)) :
    g s = g t := by
  rw [hg s, hg t, h]

/-- An update that puts nothing of the unread part into the rest keeps states alike. -/
theorem Alike.update {s t : State} (h : Alike s t) (f : State → State)
    (hf : ∀ u, unread (f u) = unread (f (unread u))) :
    Alike (f s) (f t) := by
  rw [Alike, hf s, hf t, h]

/-- Sequencing keeps results alike (rule R321). -/
theorem ResAlike.andThen {r r' : Res} (h : ResAlike r r') {k : State → Res} (hk : KeepsAlike k) :
    ResAlike (r.andThen k) (r'.andThen k) := by
  cases h with
  | ok h => exact hk _ _ h
  | raised e h => exact .raised e h
  | unending u => exact .unending u

theorem keepsAlike_andThen {f k : State → Res} (hf : KeepsAlike f) (hk : KeepsAlike k) :
    KeepsAlike fun s => (f s).andThen k := fun s t h => (hf s t h).andThen hk

/-- A rule that makes one update and ends. -/
theorem keepsAlike_ok {f : State → State} (hf : ∀ s t, Alike s t → Alike (f s) (f t)) : KeepsAlike fun s => .ok (f s) :=
  fun s t h => .ok (hf s t h)

/-! ### Readings -/

section Readings

variable {s t : State} (h : Alike s t)

include h

theorem Alike.cfg : s.cfg = t.cfg := h.read _ fun _ => rfl
theorem Alike.nIrq : s.nIrq = t.nIrq := h.read State.nIrq fun _ => rfl
theorem Alike.nPinObj : s.nPinObj = t.nPinObj := h.read State.nPinObj fun _ => rfl
theorem Alike.irqTable (id : Nat) : s.irqTable id = t.irqTable id := h.read (·.irqTable id) fun _ => rfl
theorem Alike.eff (id : Nat) : s.eff id = t.eff id := h.read (·.eff id) fun _ => rfl
theorem Alike.obj (o : Nat) : s.obj o = t.obj o := h.read (·.obj o) fun _ => rfl
theorem Alike.slot (n : PinNo) : s.pinTable[n] = t.pinTable[n] := h.read (·.pinTable[n]) fun _ => rfl
theorem Alike.inDispatch : s.inDispatch = t.inDispatch := h.read State.inDispatch fun _ => rfl
theorem Alike.ackSelect : s.ackSelect = t.ackSelect := h.read State.ackSelect fun _ => rfl
theorem Alike.timers : s.timers = t.timers := h.read State.timers fun _ => rfl
theorem Alike.invokeDepth : s.invokeDepth = t.invokeDepth := h.read State.invokeDepth fun _ => rfl

/-- No register shows the unread part (rules R75 to R78). -/
theorem Alike.regValue (r : Reg) : Machine.regValue s r = Machine.regValue t r :=
  h.read (Machine.regValue · r) fun u => by cases r <;> rfl

end Readings

/-! ### Updates of the state -/

theorem Alike.setLine {s t : State} (h : Alike s t) (id : Nat) (f : IrqLine → IrqLine) :
    Alike (s.setLine id f) (t.setLine id f) := h.update (·.setLine id f) fun _ => rfl

theorem Alike.setObj {s t : State} (h : Alike s t) (o : Nat) (p : PinObj) : Alike (s.setObj o p) (t.setObj o p) :=
  h.update (·.setObj o p) fun _ => rfl

theorem Alike.setSlot {s t : State} (h : Alike s t) (n : PinNo) (v : Option Nat) :
    Alike (s.setSlot n v) (t.setSlot n v) := h.update (·.setSlot n v) fun _ => rfl

theorem Alike.log {s t : State} (h : Alike s t) (c : LogCode) (a : Nat) : Alike (s.log c a) (t.log c a) :=
  h.update (·.log c a) fun _ => rfl

theorem Alike.gmBusy {s t : State} (h : Alike s t) (b : Bool) :
    Alike { s with gmBusy := b } { t with gmBusy := b } := h.update (fun u => { u with gmBusy := b }) fun _ => rfl

theorem Alike.cancelTimer {s t : State} (h : Alike s t) (hd : Word) :
    Alike (Machine.cancelTimer s hd) (Machine.cancelTimer t hd) := h.update (Machine.cancelTimer · hd) fun _ => rfl

theorem Alike.cancelOptional {s t : State} (h : Alike s t) (hd : Option Word) :
    Alike (Machine.cancelOptional s hd) (Machine.cancelOptional t hd) := by
  cases hd with
  | none => exact h
  | some w => exact h.cancelTimer w

theorem Alike.readEffect {s t : State} (h : Alike s t) (r : Reg) :
    Alike (Machine.readEffect s r) (Machine.readEffect t r) := by
  cases r with
  | icIar =>
    simp only [Machine.readEffect, h.ackSelect]
    split
    · next id _ => exact h.update (fun u => { u with icActive := some id }) fun _ => rfl
    · exact h
  | _ => exact h

theorem Alike.setTrig {s t : State} (h : Alike s t) (k : TrigKind) (b : PinBank) :
    Alike (s.setTrig k b) (t.setTrig k b) := h.update (·.setTrig k b) fun _ => by cases k <;> rfl

theorem Alike.levelDetect {s t : State} (h : Alike s t) : Alike s.levelDetect t.levelDetect :=
  h.update State.levelDetect fun _ => rfl

theorem Alike.pulls {s t : State} (h : Alike s t) (p q : Vector Pull 54) :
    Alike { s with pullState := p } { t with pullState := q } := h

/-- The pulls are written from pulls, and nothing else is (rules R35, R203). -/
theorem Alike.writeEffect {s t : State} (h : Alike s t) (r : Reg) (v : Word) :
    Alike (Machine.writeEffect s r v) (Machine.writeEffect t r v) := by
  cases r with
  | trig k w =>
    have htrig : s.trig k = t.trig k := h.read (·.trig k) fun _ => by cases k <;> rfl
    simp only [Machine.writeEffect, htrig]
    split
    · exact (h.setTrig k _).levelDetect
    · exact h.setTrig k _
  | icEoir =>
    have hactive : s.icActive = t.icActive := h.read State.icActive fun _ => rfl
    simp only [Machine.writeEffect, hactive]
    split
    · exact h.update (fun u => { u with icActive := none }) fun _ => rfl
    · exact h
  | fsel k => exact h.update (fun u => { u with fsel := setFselWord u.fsel k v }) fun _ => rfl
  | eds w => exact (h.update (fun u => { u with eds := clearBankBits u.eds w v }) fun _ => rfl).levelDetect
  | pud => exact h.update (fun u => { u with pud := v.setWidth 2 }) fun _ => rfl
  | pudclk w => exact (h.update (fun u => { u with pudclk := setBankWord u.pudclk w v }) fun _ => rfl).pulls _ _
  | puppdn j => exact (h.update (fun u => { u with puppdn := setPuppdnWord u.puppdn j v }) fun _ => rfl).pulls _ _
  | icEnset w => exact h.update (·.writeEnable w v true) fun _ => rfl
  | icEnclr w => exact h.update (·.writeEnable w v false) fun _ => rfl
  | lev | icPend | icIar => exact h

/-- The access record is unread (log entry 17). -/
theorem Alike.pushBus {s t : State} (h : Alike s t) (a b : BusAccess) : Alike (s.pushBus a) (t.pushBus b) := h

theorem Alike.memRead {s t : State} (h : Alike s t) (r : Reg) : Alike (Machine.memRead s r) (Machine.memRead t r) :=
  (h.readEffect r).pushBus _ _

theorem Alike.memWrite {s t : State} (h : Alike s t) (r : Reg) (v : Word) :
    Alike (Machine.memWrite s r v) (Machine.memWrite t r v) := (h.writeEffect r v).pushBus _ _

theorem Alike.memModify {s t : State} (h : Alike s t) (r : Reg) (f : Word → Word) :
    Alike (Machine.memModify s r f) (Machine.memModify t r f) := by
  rw [Machine.memModify, Machine.memModify, h.regValue]
  exact (h.memRead r).memWrite r _

theorem Alike.enset {s t : State} (h : Alike s t) (id : Nat) : Alike (Machine.enset s id) (Machine.enset t id) :=
  h.memWrite _ _

theorem Alike.enclr {s t : State} (h : Alike s t) (id : Nat) : Alike (Machine.enclr s id) (Machine.enclr t id) :=
  h.memWrite _ _

theorem Alike.ackPin {s t : State} (h : Alike s t) (n : PinNo) : Alike (Machine.ackPin s n) (Machine.ackPin t n) :=
  h.memWrite _ _

/-! ### IC -/

theorem keepsAlike_icRegisterHandler (id : Nat) (hd ctx : Word) : KeepsAlike (ruleIcRegisterHandler id hd ctx) := by
  intro s t h
  simp only [ruleIcRegisterHandler, h.nIrq, h.irqTable]
  split
  · split
    · exact .raised _ h
    · exact .ok ((h.setLine id _).enset id)
  · exact .raised _ h

theorem keepsAlike_icUnregisterHandler (id : Nat) : KeepsAlike (ruleIcUnregisterHandler id) := by
  intro s t h
  simp only [ruleIcUnregisterHandler, h.nIrq, h.irqTable]
  split
  · split
    · exact .ok ((h.enclr id).setLine id _)
    · exact .raised _ h
  · exact .raised _ h

theorem keepsAlike_icEnableLine (id : Nat) : KeepsAlike (ruleIcEnableLine id) := by
  intro s t h
  simp only [ruleIcEnableLine, h.nIrq]
  split
  · exact .ok (h.enset id)
  · exact .raised _ h

theorem keepsAlike_icDisableLine (id : Nat) : KeepsAlike (ruleIcDisableLine id) := by
  intro s t h
  simp only [ruleIcDisableLine, h.nIrq]
  split
  · exact .ok (h.enclr id)
  · exact .raised _ h

theorem Alike.clearEnableWords {s t : State} (h : Alike s t) (n : Nat) :
    Alike (Machine.clearEnableWords s n) (Machine.clearEnableWords t n) := by
  induction n with
  | zero => exact h
  | succ n ih => exact ih.memWrite _ _

theorem keepsAlike_icDisableAllLines : KeepsAlike ruleIcDisableAllLines := by
  intro s t h
  rw [ruleIcDisableAllLines, ruleIcDisableAllLines, h.nIrq]
  exact .ok (h.clearEnableWords _)

theorem Alike.readPendWords {s t : State} (h : Alike s t) (n : Nat) :
    Alike (Machine.readPendWords s n) (Machine.readPendWords t n) := by
  induction n with
  | zero => exact h
  | succ n ih => exact ih.memRead _

theorem Alike.selectLine {s t : State} (h : Alike s t) : Machine.selectLine s = Machine.selectLine t :=
  h.read Machine.selectLine fun _ => rfl

theorem Alike.afterSelect {s t : State} (h : Alike s t) : Alike (Machine.afterSelect s) (Machine.afterSelect t) := by
  simp only [Machine.afterSelect, h.cfg, h.nIrq]
  split
  · exact h.readPendWords _
  · exact h.memRead _

theorem Alike.complete {s t : State} (h : Alike s t) (id : Nat) :
    Alike (Machine.complete s id) (Machine.complete t id) := by
  simp only [Machine.complete, h.cfg]
  split
  · exact h
  · exact h.memWrite _ _

theorem Alike.unhandled {s t : State} (h : Alike s t) (id : Nat) :
    Alike (Machine.unhandled s id) (Machine.unhandled t id) := (h.log _ _).enclr id

theorem keepsAlike_serveLine {inv : Invoker} (hi : AlikeCalls inv) (id : Nat) : KeepsAlike (serveLine inv id) := by
  intro s t h
  simp only [serveLine, h.irqTable]
  split
  · exact hi _ _ _ _ _ h
  · exact .ok (h.unhandled id)

theorem Alike.enterIrq {s t : State} (h : Alike s t) : Alike s.enterIrq t.enterIrq :=
  h.update State.enterIrq fun _ => rfl
theorem Alike.leaveIrq {s t : State} (h : Alike s t) : Alike s.leaveIrq t.leaveIrq :=
  h.update State.leaveIrq fun _ => rfl
theorem Alike.enterFiq {s t : State} (h : Alike s t) : Alike s.enterFiq t.enterFiq :=
  h.update State.enterFiq fun _ => rfl
theorem Alike.leaveFiq {s t : State} (h : Alike s t) : Alike s.leaveFiq t.leaveFiq :=
  h.update State.leaveFiq fun _ => rfl

theorem keepsAlike_icDispatch {inv : Invoker} (hi : AlikeCalls inv) : KeepsAlike (ruleIcDispatch inv) := by
  intro s t h
  simp only [ruleIcDispatch, h.inDispatch, h.enterIrq.selectLine]
  split
  · exact .raised _ h
  · split
    · exact .ok h.enterIrq.afterSelect.leaveIrq
    · next id _ =>
      exact (keepsAlike_serveLine hi id _ _ h.enterIrq.afterSelect).andThen
        (keepsAlike_ok fun _ _ hu => (hu.complete id).leaveIrq)

theorem keepsAlike_icDispatchFiq {inv : Invoker} (hi : AlikeCalls inv) : KeepsAlike (ruleIcDispatchFiq inv) := by
  intro s t h
  simp only [ruleIcDispatchFiq, h.inDispatch, h.cfg, h.eff]
  split
  · exact .raised _ h
  · split
    · exact .ok h
    · next f _ =>
      split
      · exact (keepsAlike_serveLine hi f _ _ h.enterFiq).andThen (keepsAlike_ok fun _ _ hu => hu.leaveFiq)
      · exact .ok h

/-! ### Pin table and Pin -/

theorem keepsAlike_checkObj (obj : Nat) {k : State → Res} (hk : KeepsAlike k) : KeepsAlike (checkObj obj · k) := by
  intro s t h
  simp only [checkObj, h.nPinObj]
  split
  · exact hk _ _ h
  · exact .raised _ h

theorem keepsAlike_checkAssigned (obj : Nat) {k : PinNo → State → Res} (hk : ∀ n, KeepsAlike (k n)) :
    KeepsAlike (checkAssigned obj · k) :=
  keepsAlike_checkObj obj fun s t h => by
    simp only [h.obj]
    split
    · exact .raised _ h
    · exact hk _ _ _ h

theorem keepsAlike_gmConnectInterrupt (obj : Nat) : KeepsAlike (ruleGmConnectInterrupt obj) :=
  keepsAlike_checkAssigned obj fun n s t h => by
    rw [h.slot n]
    cases t.pinTable[n] with
    | some o => exact .raised _ h
    | none => exact .ok (h.setSlot n _)

theorem keepsAlike_gmDisconnectInterrupt (obj : Nat) : KeepsAlike (ruleGmDisconnectInterrupt obj) :=
  keepsAlike_checkAssigned obj fun n s t h => by
    simp only [h.slot]
    split
    · exact .ok (h.setSlot n _)
    · exact .raised _ h

theorem keepsAlike_pinAssignPin (obj n : Nat) : KeepsAlike (rulePinAssignPin obj n) :=
  keepsAlike_checkObj obj fun s t h => by
    simp only [h.obj]
    split
    · split
      · exact .raised _ h
      · exact .ok (h.setObj obj _)
    · exact .raised _ h

theorem Alike.applyFunction {s t : State} (h : Alike s t) (n : PinNo) (fn : PinFunction) :
    Alike (Machine.applyFunction s n fn) (Machine.applyFunction t n fn) := h.memModify _ _

theorem Alike.applyPull {s t : State} (h : Alike s t) (n : PinNo) (p : Pull) :
    Alike (Machine.applyPull s n p) (Machine.applyPull t n p) := by
  simp only [Machine.applyPull, h.cfg]
  split
  · exact ((h.memWrite _ _).memWrite _ _).memWrite _ _
  · exact h.memModify _ _

theorem keepsAlike_pinSetMode (obj : Nat) (fn : PinFunction) (code : BitVec 2) :
    KeepsAlike (rulePinSetMode obj fn code) :=
  keepsAlike_checkAssigned obj fun n s t h => by
    simp only [h.obj]
    split
    · exact .raised _ h
    · exact .ok (((h.applyFunction n fn).applyPull n _).setObj obj _)

theorem Alike.modifyKinds {s t : State} (h : Alike s t) (n : PinNo) (f : Word → Word) (ks : List TrigKind) :
    Alike (Machine.modifyKinds n f ks s) (Machine.modifyKinds n f ks t) := by
  induction ks generalizing s t with
  | nil => exact h
  | cons k ks ih => exact ih (h.memModify _ _)

theorem keepsAlike_pinEnableInterrupt (obj : Nat) (types : BitVec 6) :
    KeepsAlike (rulePinEnableInterrupt obj types) :=
  keepsAlike_checkAssigned obj fun n s t h => by
    rw [h.obj]
    exact .ok ((h.modifyKinds n _ _).setObj obj _)

theorem keepsAlike_pinDisableInterrupt (obj : Nat) (types : BitVec 6) :
    KeepsAlike (rulePinDisableInterrupt obj types) :=
  keepsAlike_checkAssigned obj fun n s t h => by
    rw [h.obj]
    exact .ok ((h.modifyKinds n _ _).setObj obj _)

/-- Changing the handler of a pin object. -/
theorem keepsAlike_setPinHandler (obj : Nat) (hd : Option PinHandler) :
    KeepsAlike fun s => .ok (s.setObj obj { s.obj obj with handler := hd }) :=
  keepsAlike_ok fun s t h => by
    rw [h.obj]
    exact h.setObj obj _

theorem keepsAlike_pinConnectInterrupt (obj : Nat) (ack : Bool) (hd ctx : Word) :
    KeepsAlike (rulePinConnectInterrupt obj ack hd ctx) :=
  keepsAlike_checkAssigned obj fun _ s t h => by
    simp only [h.obj]
    split
    · exact .raised _ h
    · exact (keepsAlike_gmConnectInterrupt obj _ _ h).andThen (keepsAlike_setPinHandler obj _)

theorem keepsAlike_pinDisconnectInterrupt (obj : Nat) : KeepsAlike (rulePinDisconnectInterrupt obj) :=
  keepsAlike_checkAssigned obj fun _ s t h => by
    simp only [h.obj]
    split
    · exact .raised _ h
    · exact (keepsAlike_gmDisconnectInterrupt obj _ _ h).andThen (keepsAlike_setPinHandler obj _)

theorem keepsAlike_pinAcknowledgeInterrupt (obj : Nat) : KeepsAlike (rulePinAcknowledgeInterrupt obj) :=
  keepsAlike_checkAssigned obj fun n => keepsAlike_ok fun _ _ h => h.ackPin n

theorem keepsAlike_pinDispatch {inv : Invoker} (hi : AlikeCalls inv) (obj : Nat) :
    KeepsAlike (rulePinDispatch inv obj) :=
  keepsAlike_checkObj obj fun s t h => by
    simp only [h.obj]
    split
    · exact .ok h
    · split
      · exact hi _ _ _ _ _ h
      · exact .ok h

/-! ### GM -/

theorem keepsAlike_gmInitialize : KeepsAlike ruleGmInitialize := by
  intro s t h
  have hinit : s.gmInitialized = t.gmInitialized := h.read State.gmInitialized fun _ => rfl
  simp only [ruleGmInitialize, hinit, h.cfg]
  split
  · exact .ok h
  · exact (keepsAlike_icRegisterHandler _ _ _ _ _ h).andThen
      (keepsAlike_ok fun _ _ hu => hu.update (fun u => { u with gmInitialized := true }) fun _ => rfl)

theorem Alike.readStatus {s t : State} (h : Alike s t) : Alike (Machine.readStatus s) (Machine.readStatus t) := by
  simp only [Machine.readStatus, h.regValue]
  split
  · exact (h.memRead _).memRead _
  · exact h.memRead _

theorem keepsAlike_servePin {inv : Invoker} (hi : AlikeCalls inv) (n : PinNo) : KeepsAlike (servePin inv n) := by
  intro s t h
  rw [servePin, servePin, h.slot n]
  cases t.pinTable[n] with
  | none => exact .ok ((h.log _ _).ackPin n)
  | some obj =>
    simp only [h.obj]
    refine (keepsAlike_pinDispatch hi _ _ _ h).andThen (keepsAlike_ok fun _ _ hu => ?_)
    split
    · exact hu.ackPin n
    · exact hu

theorem keepsAlike_gmDispatch {inv : Invoker} (hi : AlikeCalls inv) : KeepsAlike (ruleGmDispatch inv) := by
  intro s t h
  have hbusy : s.gmBusy = t.gmBusy := h.read State.gmBusy fun _ => rfl
  have hfirst : firstStatusPin s = firstStatusPin t := h.read firstStatusPin fun _ => rfl
  have hread := (h.gmBusy true).readStatus
  simp only [ruleGmDispatch, hfirst]
  rw [hbusy]
  split
  · exact .raised _ h
  · split
    · exact .ok (hread.gmBusy false)
    · next n _ =>
      exact (keepsAlike_servePin hi n _ _ hread).andThen (keepsAlike_ok fun _ _ hu => hu.gmBusy false)

theorem Alike.clearFsel {s t : State} (h : Alike s t) (ks : List (Fin 6)) :
    Alike (Machine.clearFsel s ks) (Machine.clearFsel t ks) := by
  induction ks generalizing s t with
  | nil => exact h
  | cons k ks ih => exact ih (h.memWrite (.fsel k) 0)

theorem Alike.clearPuppdn {s t : State} (h : Alike s t) (js : List (Fin 4)) :
    Alike (Machine.clearPuppdn s js) (Machine.clearPuppdn t js) := by
  induction js generalizing s t with
  | nil => exact h
  | cons j js ih => exact ih (h.memWrite (.puppdn j) 0)

theorem Alike.strobeAllOff {s t : State} (h : Alike s t) :
    Alike (Machine.strobeAllOff s) (Machine.strobeAllOff t) :=
  ((((h.memWrite .pud 0).memWrite _ _).memWrite _ _).memWrite _ _).memWrite _ _

theorem keepsAlike_gmAllOff : KeepsAlike ruleGmAllOff := by
  intro s t h
  have hf := h.clearFsel [0, 1, 2, 3, 4, 5]
  unfold ruleGmAllOff
  generalize clearFsel s _ = u at hf ⊢
  generalize clearFsel t _ = v at hf ⊢
  simp only [hf.cfg]
  split
  · exact .ok hf.strobeAllOff
  · exact .ok (hf.clearPuppdn _)

/-! ### Enc -/

/-- A change of the driver's record that does not look at the release timestamp, or only writes it (rule R39). -/
theorem Alike.setEnc {s t : State} (h : Alike s t) (f : Enc → Enc)
    (hf : ∀ e, { f e with lastRelease := 0 } = { f { e with lastRelease := 0 } with lastRelease := 0 }) :
    Alike (s.setEnc f) (t.setEnc f) :=
  h.update (·.setEnc f) fun u => congrArg (fun e => { unread u with enc := e }) (hf u.enc)

theorem keepsAlike_emitOutput {inv : Invoker} (hi : AlikeCalls inv) (out : Option AppEvent) :
    KeepsAlike (emitOutput inv out) := by
  intro s t h
  have hcb : s.enc.appCallback = t.enc.appCallback := h.read (·.enc.appCallback) fun _ => rfl
  cases out with
  | none => exact .ok h
  | some e =>
    simp only [emitOutput, emitEvent, hcb]
    split
    · exact .ok h
    · next cb _ =>
      have happ : Alike { s with appTrace := s.appTrace ++ [⟨e, cb.ctx⟩] }
          { t with appTrace := t.appTrace ++ [⟨e, cb.ctx⟩] } :=
        h.update (fun u => { u with appTrace := u.appTrace ++ [⟨e, cb.ctx⟩] }) fun _ => rfl
      exact hi _ _ _ _ _ happ

theorem keepsAlike_pinLevel (obj : Nat) {k : Bool → State → Res} (hk : ∀ b, KeepsAlike (k b)) :
    KeepsAlike (pinLevel obj · k) := by
  intro s t h
  simp only [pinLevel, h.obj, h.regValue]
  split
  · exact .raised _ h
  · exact hk _ _ _ (h.memRead _)

theorem Alike.initialized {s t : State} (h : Alike s t) : s.enc.initialized = t.enc.initialized :=
  h.read (·.enc.initialized) fun _ => rfl

theorem Alike.swStable {s t : State} (h : Alike s t) : s.enc.swStable = t.enc.swStable :=
  h.read (·.enc.swStable) fun _ => rfl

theorem keepsAlike_encClkDt {inv : Invoker} (hi : AlikeCalls inv) : KeepsAlike (ruleEncClkDt inv) := by
  intro s t h
  simp only [ruleEncClkDt, h.initialized]
  split
  · refine keepsAlike_pinLevel _ (fun clk => keepsAlike_pinLevel _ fun dt u v hu => ?_) _ _ h
    have henc : u.enc.encState = v.enc.encState := hu.read (·.enc.encState) fun _ => rfl
    simp only [henc, hu.cfg]
    exact keepsAlike_emitOutput hi _ _ _ (hu.setEnc _ fun _ => rfl)
  · exact .ok h

theorem keepsAlike_btnStep {inv : Invoker} (hi : AlikeCalls inv) (ev : ButtonEvent) : KeepsAlike (btnStep inv ev) := by
  intro s t h
  have hbtn : s.enc.btnState = t.enc.btnState := h.read (·.enc.btnState) fun _ => rfl
  simp only [btnStep, hbtn, h.cfg]
  exact keepsAlike_emitOutput hi _ _ _ (h.setEnc _ fun _ => rfl)

theorem Alike.startTimer {s t : State} (h : Alike s t) (d : Nat) (hd ctx : Word) :
    Alike (Machine.startTimer s d hd ctx) (Machine.startTimer t d hd ctx) :=
  h.update (Machine.startTimer · d hd ctx) fun _ => rfl

theorem Alike.nextHandle {s t : State} (h : Alike s t) : Machine.nextHandle s = Machine.nextHandle t :=
  h.read Machine.nextHandle fun _ => rfl

theorem keepsAlike_encSw : KeepsAlike ruleEncSw := by
  intro s t h
  have hdeb : s.enc.debounceTimer = t.enc.debounceTimer := h.read (·.enc.debounceTimer) fun _ => rfl
  have hcancel := h.cancelOptional t.enc.debounceTimer
  simp only [ruleEncSw, h.initialized, hdeb, hcancel.cfg, hcancel.nextHandle]
  split
  · exact .ok ((hcancel.startTimer _ _ _).setEnc _ fun _ => rfl)
  · exact .ok h

theorem Alike.startTick {s t : State} (h : Alike s t) : Alike (Machine.startTick s) (Machine.startTick t) := by
  simp only [Machine.startTick, h.cfg, h.nextHandle]
  exact (h.startTimer _ _ _).setEnc _ fun _ => rfl

theorem Alike.cancelTick {s t : State} (h : Alike s t) : Alike (Machine.cancelTick s) (Machine.cancelTick t) := by
  have htick : s.enc.tickTimer = t.enc.tickTimer := h.read (·.enc.tickTimer) fun _ => rfl
  rw [Machine.cancelTick, Machine.cancelTick, htick]
  exact h.cancelOptional _

theorem keepsAlike_classifyPress {inv : Invoker} (hi : AlikeCalls inv) : KeepsAlike (classifyPress inv) := by
  intro s t h
  have hev : pressEvent s = pressEvent t := h.read pressEvent fun _ => rfl
  have hticks : s.ticks = t.ticks := h.read State.ticks fun _ => rfl
  simp only [classifyPress, hev, hticks]
  exact keepsAlike_btnStep hi _ _ _ (h.setEnc _ fun _ => rfl).cancelTick.startTick

theorem keepsAlike_classifyRelease {inv : Invoker} (hi : AlikeCalls inv) : KeepsAlike (classifyRelease inv) := by
  intro s t h
  have hev : releaseEvent s = releaseEvent t := h.read releaseEvent fun _ => rfl
  have hticks : s.ticks = t.ticks := h.read State.ticks fun _ => rfl
  simp only [classifyRelease, hev, hticks]
  exact keepsAlike_btnStep hi _ _ _ ((h.setEnc _ fun _ => rfl).cancelTick.setEnc _ fun _ => rfl)

theorem keepsAlike_encDebounce {inv : Invoker} (hi : AlikeCalls inv) : KeepsAlike (ruleEncDebounce inv) := by
  intro s t h
  have hnone : Alike (s.setEnc fun e => { e with debounceTimer := none })
      (t.setEnc fun e => { e with debounceTimer := none }) :=
    h.setEnc _ fun _ => rfl
  simp only [ruleEncDebounce, hnone.initialized]
  split
  · refine keepsAlike_pinLevel _ (fun lvl u v hu => ?_) _ _ hnone
    have hsw : Alike (u.setEnc fun e => { e with swStable := lvl }) (v.setEnc fun e => { e with swStable := lvl }) :=
      hu.setEnc _ fun _ => rfl
    simp only [hu.swStable]
    split
    · exact .ok hu
    · split
      · exact keepsAlike_classifyRelease hi _ _ hsw
      · exact keepsAlike_classifyPress hi _ _ hsw
  · exact .ok hnone

theorem keepsAlike_encTick {inv : Invoker} (hi : AlikeCalls inv) : KeepsAlike (ruleEncTick inv) := by
  intro s t h
  have hnone : Alike (s.setEnc fun e => { e with tickTimer := none })
      (t.setEnc fun e => { e with tickTimer := none }) :=
    h.setEnc _ fun _ => rfl
  simp only [ruleEncTick, hnone.initialized, hnone.swStable]
  split
  · split
    · exact keepsAlike_btnStep hi _ _ _ hnone
    · exact keepsAlike_btnStep hi _ _ _ hnone.startTick
  · exact .ok hnone

theorem keepsAlike_encInitialize (sw dt clk : Nat) : KeepsAlike (ruleEncInitialize sw dt clk) := by
  intro s t h
  simp only [ruleEncInitialize, h.initialized]
  split
  · exact .raised _ h
  · split
    · exact .raised _ h
    · split
      · exact .raised _ h
      · exact (keepsAlike_pinAssignPin _ _ _ _ h)
          |>.andThen (keepsAlike_pinAssignPin _ _)
          |>.andThen (keepsAlike_pinAssignPin _ _)
          |>.andThen (keepsAlike_pinSetMode _ _ _)
          |>.andThen (keepsAlike_pinSetMode _ _ _)
          |>.andThen (keepsAlike_pinSetMode _ _ _)
          |>.andThen (keepsAlike_pinConnectInterrupt _ _ _ _)
          |>.andThen (keepsAlike_pinConnectInterrupt _ _ _ _)
          |>.andThen (keepsAlike_pinConnectInterrupt _ _ _ _)
          |>.andThen (keepsAlike_pinEnableInterrupt _ _)
          |>.andThen (keepsAlike_pinEnableInterrupt _ _)
          |>.andThen (keepsAlike_pinEnableInterrupt _ _)
          |>.andThen (keepsAlike_ok fun _ _ hu => hu.setEnc encStarted fun _ => rfl)

theorem keepsAlike_encRegisterEventHandler (hd ctx : Word) : KeepsAlike (ruleEncRegisterEventHandler hd ctx) := by
  intro s t h
  have hcb : s.enc.appCallback = t.enc.appCallback := h.read (·.enc.appCallback) fun _ => rfl
  simp only [ruleEncRegisterEventHandler, hcb]
  split
  · exact .raised _ h
  · exact .ok (h.setEnc _ fun _ => rfl)

theorem Alike.cancelEncTimers {s t : State} (h : Alike s t) :
    Alike (Machine.cancelEncTimers s) (Machine.cancelEncTimers t) := by
  have hdeb : s.enc.debounceTimer = t.enc.debounceTimer := h.read (·.enc.debounceTimer) fun _ => rfl
  have hfirst : Alike ((Machine.cancelOptional s t.enc.debounceTimer).setEnc fun e => { e with debounceTimer := none })
      ((Machine.cancelOptional t t.enc.debounceTimer).setEnc fun e => { e with debounceTimer := none }) :=
    (h.cancelOptional _).setEnc _ fun _ => rfl
  have hsecond := hfirst.cancelTick
  simp only [Machine.cancelEncTimers, hdeb]
  exact hsecond.setEnc _ fun _ => rfl

theorem keepsAlike_encUninitialize : KeepsAlike ruleEncUninitialize := by
  intro s t h
  simp only [ruleEncUninitialize, h.initialized]
  split
  · exact (keepsAlike_pinDisconnectInterrupt _ _ _ h.cancelEncTimers)
      |>.andThen (keepsAlike_pinDisconnectInterrupt _)
      |>.andThen (keepsAlike_pinDisconnectInterrupt _)
      |>.andThen (keepsAlike_ok fun _ _ hu =>
        (((hu.setObj _ _).setObj _ _).setObj _ _).setEnc encStopped fun _ => rfl)
  · exact .raised _ h

/-! ### Raw register commands and the timer line -/

theorem Alike.regAt {s t : State} (h : Alike s t) (addr : Word) : Machine.regAt s addr = Machine.regAt t addr :=
  h.read (Machine.regAt · addr) fun _ => rfl

/-- A raw access of one register. -/
theorem resAlike_checkAccess {s t : State} (h : Alike s t) (addr : Word) (width : Nat) {k k' : Reg → Res}
    (hk : ∀ r, ResAlike (k r) (k' r)) : ResAlike (checkAccess addr width s k) (checkAccess addr width t k') := by
  simp only [checkAccess, h.regAt]
  split
  · split
    · exact hk _
    · exact .raised _ h
  · exact .raised _ h

theorem Alike.readTrace {s t : State} (h : Alike s t) (l l' : List ReadRecord) :
    Alike { s with readTrace := l } { t with readTrace := l' } := h

theorem keepsAlike_memRead32 (addr : Word) : KeepsAlike (ruleMemRead32 addr) := fun _ _ h =>
  resAlike_checkAccess h addr 4 fun r => .ok ((h.memRead r).readTrace _ _)

theorem keepsAlike_memWrite32 (addr v : Word) : KeepsAlike (ruleMemWrite32 addr v) := fun _ _ h =>
  resAlike_checkAccess h addr 4 fun r => .ok (h.memWrite r v)

theorem keepsAlike_evTimerPeriod : KeepsAlike ruleEvTimerPeriod := by
  intro s t h
  rw [ruleEvTimerPeriod, ruleEvTimerPeriod, h.cfg]
  exact .ok (h.setLine _ _)

theorem keepsAlike_fireTimer {inv : Invoker} (hi : AlikeCalls inv) (x : Timer) : KeepsAlike (fireTimer inv x) := by
  intro s t h
  simp only [fireTimer, h.timers]
  split
  · have herase : Alike { s with timers := t.timers.erase x } { t with timers := t.timers.erase x } :=
      h.update (fun u => { u with timers := t.timers.erase x }) fun _ => rfl
    exact hi _ _ _ _ _ herase
  · exact .ok h

theorem keepsAlike_fireTimers {inv : Invoker} (hi : AlikeCalls inv) (l : List Timer) :
    KeepsAlike (fireTimers inv l) := by
  induction l with
  | nil => exact fun _ _ h => .ok h
  | cons x xs ih => exact keepsAlike_andThen (keepsAlike_fireTimer hi x) ih

theorem Alike.tickOnce {s t : State} (h : Alike s t) : Alike (Machine.tickOnce s) (Machine.tickOnce t) :=
  h.update Machine.tickOnce fun _ => rfl

theorem keepsAlike_timer {inv : Invoker} (hi : AlikeCalls inv) : KeepsAlike (ruleTimer inv) := by
  intro s t h
  have hdue : dueTimers (tickOnce s) = dueTimers (tickOnce t) := h.tickOnce.read dueTimers fun _ => rfl
  rw [ruleTimer, ruleTimer, hdue]
  exact keepsAlike_fireTimers hi _ _ _ h.tickOnce

/-! ### Stimuli -/

theorem keepsAlike_evPinLevel (n : Nat) (level : Bool) : KeepsAlike (ruleEvPinLevel n level) := by
  intro s t h
  by_cases hn : n < 54
  · have hedge : edgeDetected s ⟨n, hn⟩ level = edgeDetected t ⟨n, hn⟩ level :=
      h.read (edgeDetected · ⟨n, hn⟩ level) fun _ => rfl
    simp only [ruleEvPinLevel, dif_pos hn, hedge]
    exact .ok (h.update (fun u => State.levelDetect { u with
      lev := setPinBit u.lev ⟨n, hn⟩ level
      eds := if edgeDetected t ⟨n, hn⟩ level then setPinBit u.eds ⟨n, hn⟩ true else u.eds }) fun _ => rfl)
  · simp only [ruleEvPinLevel, dif_neg hn]
    exact .ok h

theorem keepsAlike_evIrqLine (id : Nat) (level : Bool) : KeepsAlike (ruleEvIrqLine id level) := by
  intro s t h
  simp only [ruleEvIrqLine, h.nIrq, h.cfg]
  split
  · exact .ok (h.setLine id _)
  · exact .ok h

/-! ### Calls, commands and operations -/

/-- A command is its rule, whose calls are the given ones. -/
theorem keepsAlike_command {inv : Invoker} (hi : AlikeCalls inv) (i : Instr) : KeepsAlike (command inv i) := by
  cases i with
  | icRegisterHandler id h c => exact keepsAlike_icRegisterHandler id h c
  | icUnregisterHandler id => exact keepsAlike_icUnregisterHandler id
  | icEnableLine id => exact keepsAlike_icEnableLine id
  | icDisableLine id => exact keepsAlike_icDisableLine id
  | icDisableAllLines => exact keepsAlike_icDisableAllLines
  | icDispatch => exact keepsAlike_icDispatch hi
  | icDispatchFiq => exact keepsAlike_icDispatchFiq hi
  | gmInitialize => exact keepsAlike_gmInitialize
  | gmConnectInterrupt obj => exact keepsAlike_gmConnectInterrupt obj
  | gmDisconnectInterrupt obj => exact keepsAlike_gmDisconnectInterrupt obj
  | gmDispatch => exact keepsAlike_gmDispatch hi
  | gmAllOff => exact keepsAlike_gmAllOff
  | pinAssignPin obj n => exact keepsAlike_pinAssignPin obj n
  | pinSetMode obj fn p => exact keepsAlike_pinSetMode obj fn p
  | pinEnableInterrupt obj types => exact keepsAlike_pinEnableInterrupt obj types
  | pinDisableInterrupt obj types => exact keepsAlike_pinDisableInterrupt obj types
  | pinConnectInterrupt obj a h c => exact keepsAlike_pinConnectInterrupt obj a h c
  | pinDisconnectInterrupt obj => exact keepsAlike_pinDisconnectInterrupt obj
  | pinAcknowledgeInterrupt obj => exact keepsAlike_pinAcknowledgeInterrupt obj
  | pinDispatch obj => exact keepsAlike_pinDispatch hi obj
  | encInitialize sw dt clk => exact keepsAlike_encInitialize sw dt clk
  | encRegisterEventHandler h c => exact keepsAlike_encRegisterEventHandler h c
  | encUninitialize => exact keepsAlike_encUninitialize
  | memRead32 a => exact keepsAlike_memRead32 a
  | memWrite32 a v => exact keepsAlike_memWrite32 a v
  | evPinLevel | evIrqLine | evTimerPeriod => exact keepsAlike_ok fun _ _ h => h

theorem keepsAlike_runBody {inv : Invoker} (hi : AlikeCalls inv) (is : List Instr) : KeepsAlike (runBody inv is) := by
  induction is with
  | nil => exact fun _ _ h => .ok h
  | cons i is ih => exact keepsAlike_andThen (keepsAlike_command hi i) ih

theorem keepsAlike_runExternal {inv : Invoker} (hi : AlikeCalls inv) (hd ctx : Word) (arg : Option AppEvent) :
    KeepsAlike (runExternal inv hd ctx arg) := by
  intro s t h
  obtain hcall | hdeep := Nat.lt_or_ge t.invokeDepth t.cfg.maxNest
  · rw [runExternal_of_callable hcall, runExternal_of_callable (by rw [h.cfg, h.invokeDepth]; exact hcall), h.cfg]
    exact (keepsAlike_runBody hi _ _ _ (h.update (inHandler hd ctx) fun _ => rfl)).andThen
      (keepsAlike_ok fun _ _ hu => hu.update (fun u => { u with invokeDepth := u.invokeDepth - 1 }) fun _ => rfl)
  · rw [runExternal_of_deep hdeep, runExternal_of_deep (by rw [h.cfg, h.invokeDepth]; exact hdeep)]
    exact .raised _ (h.update (recordCall hd ctx) fun _ => rfl)

theorem keepsAlike_runBuiltin {inv : Invoker} (hi : AlikeCalls inv) (b : Builtin) : KeepsAlike (runBuiltin inv b) := by
  cases b with
  | gm => exact keepsAlike_gmDispatch hi
  | timer => exact keepsAlike_timer hi
  | encClkDt => exact keepsAlike_encClkDt hi
  | encSw => exact keepsAlike_encSw
  | encDebounce => exact keepsAlike_encDebounce hi
  | encTick => exact keepsAlike_encTick hi

theorem alikeCalls_invokeWith {inv : Invoker} (hi : AlikeCalls inv) : AlikeCalls (invokeWith inv) := by
  intro hd ctx arg s t h
  unfold invokeWith
  split
  · exact keepsAlike_runBuiltin hi _ s t h
  · exact .raised _ h
  · exact keepsAlike_runExternal hi hd ctx arg s t h

theorem alikeCalls_splitCall {runs calls : Invoker} (hr : AlikeCalls runs) (hc : AlikeCalls calls) :
    AlikeCalls (splitCall runs calls) := by
  intro hd ctx arg
  unfold splitCall
  split
  · exact hr hd ctx arg
  · exact hc hd ctx arg

theorem alikeCalls_nestedCall {runs : Invoker} (hr : AlikeCalls runs) (n : Nat) : AlikeCalls (nestedCall runs n) := by
  induction n with
  | zero => exact fun _ _ _ _ _ _ => .unending _
  | succ n ih => exact alikeCalls_invokeWith (alikeCalls_splitCall hr ih)

theorem alikeCalls_timedCall (n : Nat) : AlikeCalls (timedCall n) := by
  induction n with
  | zero => exact fun _ _ _ _ _ _ => .unending _
  | succ n ih =>
    intro hd ctx arg s t h
    simp only [timedCall, h.cfg]
    exact alikeCalls_nestedCall ih _ hd ctx arg s t h

theorem alikeCalls_invoke : AlikeCalls invoke := alikeCalls_timedCall tickLimit

theorem keepsAlike_ruleOf (i : Instr) : KeepsAlike (ruleOf i) := by
  have hcommand := keepsAlike_command alikeCalls_invoke i
  cases i with
  | evPinLevel n level => exact keepsAlike_evPinLevel n level
  | evIrqLine id level => exact keepsAlike_evIrqLine id level
  | evTimerPeriod => exact keepsAlike_evTimerPeriod
  | _ => exact hcommand

/-- Alike results are outcomes that differ at most in what no rule reads (rules R42, R321). -/
theorem perform_sameButUnread {f : State → Res} (hf : KeepsAlike f) (op : Word) {s t : State} (h : Alike s t) :
    SameButUnread (perform op f s) (perform op f t) := by
  have hfault : s.fault = t.fault := h.read State.fault fun _ => rfl
  cases ht : t.fault with
  | some r =>
    rw [perform_fault (hfault.trans ht), perform_fault ht, halted, halted, h.cfg]
    cases t.cfg.build <;> rfl
  | none =>
    have hr := hf s t h
    simp only [perform, hfault, ht]
    generalize f s = r at hr ⊢
    generalize f t = r' at hr ⊢
    cases hr with
    | ok hu => exact hu
    | raised e hu => exact hu.update (·.raiseFault e op) fun _ => rfl
    | unending u => cases u <;> rfl

theorem exec_sameButUnread (i : Instr) {s t : State} (h : Alike s t) : SameButUnread (exec i s) (exec i t) := by
  rw [exec_eq_perform, exec_eq_perform]
  exact perform_sameButUnread (keepsAlike_ruleOf i) _ h

/-! ### Steps -/

theorem Alike.withPort {s t : State} (h : Alike s t) (ws : List Word) :
    Alike { s with port := ws } { t with port := ws } :=
  h.update (fun u => { u with port := ws }) fun _ => rfl

theorem Alike.withTurns {s t : State} (h : Alike s t) (ts : List Turn) :
    Alike { s with turns := ts } { t with turns := ts } := h.update (fun u => { u with turns := ts }) fun _ => rfl

theorem portTurn_sameButUnread {s t : State} (h : Alike s t) : SameButUnread (portTurn s) (portTurn t) := by
  have hport : s.port = t.port := h.read State.port fun _ => rfl
  simp only [portTurn, hport]
  split
  · exact perform_sameButUnread (keepsAlike_ok fun _ _ hu => hu) 0 h
  · next w _ => exact perform_sameButUnread (fun _ _ hu => .raised _ hu) w (h.withPort _)
  · next i rest _ => exact exec_sameButUnread i (h.withPort rest)

theorem trapTurn_sameButUnread {s t : State} (h : Alike s t) : SameButUnread (trapTurn s) (trapTurn t) := by
  have hop : s.trapOperation = t.trapOperation := h.read State.trapOperation fun _ => rfl
  simp only [trapTurn, hop]
  split
  · next i _ => exact exec_sameButUnread i h
  · exact perform_sameButUnread (keepsAlike_ok fun _ _ hu => hu) 0 h

/-- Settles O60: turns, the port and the request lines are read alike, and every rule keeps states alike. -/
theorem unreadStateIsUnread : Obligations.UnreadStateIsUnread := by
  intro s t hst
  have h : Alike s t := hst
  have hturns : s.turns = t.turns := h.read State.turns fun _ => rfl
  simp only [step, takeTurn, hturns]
  split
  · exact portTurn_sameButUnread h
  · next ts _ => exact portTurn_sameButUnread (h.withTurns ts)
  · next ts _ => exact trapTurn_sameButUnread (h.withTurns ts)

end Sys2Proof.Proofs
end

section
/-! PROOFS. The state of the block (spec/10_state.md): the running driver timers are the remembered ones, as long as the
timers alone invoke the two expiry handlers (rule R282). -/

namespace Sys2Proof.Proofs

open Sys2Proof.Machine Sys2Proof.Safety Sys2Proof.Laws

/-! ### The handles of the timers of one kind -/

/-- The handles of the timers of a list with a callback: what `handlesOf` says of the running timers
(`driverTimers_iff`). -/
def kindHandles (callback : Word) (l : List Timer) : List Word :=
  (l.filter fun t => t.callback == callback).map (·.handle)

theorem kindHandles_cons_same {callback : Word} {x : Timer} (h : x.callback = callback) (l : List Timer) :
    kindHandles callback (x :: l) = x.handle :: kindHandles callback l := by
  simp [kindHandles, h]

theorem kindHandles_cons_other {callback : Word} {x : Timer} (h : x.callback ≠ callback) (l : List Timer) :
    kindHandles callback (x :: l) = kindHandles callback l := by
  simp [kindHandles, h]

theorem kindHandles_append (callback : Word) (l l' : List Timer) :
    kindHandles callback (l ++ l') = kindHandles callback l ++ kindHandles callback l' := by
  simp [kindHandles]

theorem mem_kindHandles {callback h : Word} {l : List Timer} :
    h ∈ kindHandles callback l ↔ ∃ t ∈ l, t.callback = callback ∧ t.handle = h := by
  simp [kindHandles, and_assoc]

/-- No two timers of the list have one handle. -/
def DistinctHandles (l : List Timer) : Prop := (l.map (·.handle)).Nodup

theorem DistinctHandles.inj {l : List Timer} (hl : DistinctHandles l) {x y : Timer} (hx : x ∈ l) (hy : y ∈ l)
    (h : x.handle = y.handle) : x = y :=
  List.inj_on_of_nodup_map hl hx hy h

/-- Timers of two kinds share no handle. -/
theorem DistinctHandles.not_mem_of_kind {l : List Timer} (hl : DistinctHandles l) {c c' h : Word} (hc : c ≠ c')
    (h1 : h ∈ kindHandles c l) : h ∉ kindHandles c' l := by
  intro h2
  obtain ⟨x, hx, hxc, hxh⟩ := mem_kindHandles.1 h1
  obtain ⟨y, hy, hyc, hyh⟩ := mem_kindHandles.1 h2
  have hxy : x = y := hl.inj hx hy (hxh.trans hyh.symm)
  exact hc (by rw [← hxc, ← hyc, hxy])

/-- Taking out the timer with a handle takes its handle out of its kind's handles. -/
theorem kindHandles_eraseP {l : List Timer} (hl : DistinctHandles l) (callback : Word) {p : Timer → Bool} {h : Word}
    (hp : ∀ t ∈ l, p t = true ↔ t.handle = h) :
    kindHandles callback (l.eraseP p) = (kindHandles callback l).erase h := by
  induction l with
  | nil => rfl
  | cons x l ih =>
    obtain ⟨hnot, hl'⟩ := List.nodup_cons.1 hl
    by_cases hx : p x = true
    · obtain rfl := (hp x List.mem_cons_self).1 hx
      rw [List.eraseP_cons_of_pos hx]
      by_cases hk : x.callback = callback
      · rw [kindHandles_cons_same hk, List.erase_cons_head]
      · have hout : x.handle ∉ kindHandles callback l := fun hc => by
          obtain ⟨y, hy, -, hyh⟩ := mem_kindHandles.1 hc
          exact hnot (List.mem_map.2 ⟨y, hy, hyh⟩)
        rw [kindHandles_cons_other hk, List.erase_of_not_mem hout]
    · have hne : x.handle ≠ h := fun hc => hx ((hp x List.mem_cons_self).2 hc)
      have ih := ih hl' fun t ht => hp t (List.mem_cons_of_mem x ht)
      rw [List.eraseP_cons_of_neg hx]
      by_cases hk : x.callback = callback
      · rw [kindHandles_cons_same hk, kindHandles_cons_same hk, List.erase_cons_tail (by simpa using hne), ih]
      · rw [kindHandles_cons_other hk, kindHandles_cons_other hk, ih]

theorem kindHandles_cancel {l : List Timer} (hl : DistinctHandles l) (callback h : Word) :
    kindHandles callback (l.eraseP fun t => t.handle == h) = (kindHandles callback l).erase h :=
  kindHandles_eraseP hl callback fun t _ => by simp

theorem kindHandles_erase {l : List Timer} (hl : DistinctHandles l) (callback : Word) {x : Timer} (hx : x ∈ l) :
    kindHandles callback (l.erase x) = (kindHandles callback l).erase x.handle := by
  rw [List.erase_eq_eraseP]
  refine kindHandles_eraseP hl callback fun t ht => ?_
  rw [beq_iff_eq]
  exact ⟨fun he => by rw [he], fun he => (hl.inj ht hx he).symm⟩

/-! ### Running timers and the driver's record (rule R282) -/

/-- The two kinds of driver timers that run are those that the driver's record remembers. -/
structure TimersMatch (l : List Timer) (e : Enc) : Prop where
  debounce : kindHandles (builtinWord .encDebounce) l = e.debounceTimer.toList
  tick : kindHandles (builtinWord .encTick) l = e.tickTimer.toList
  pressed : e.tickTimer.isSome = true → e.swStable = false
  stopped : e.initialized = false → e.debounceTimer = none ∧ e.tickTimer = none

theorem driverTimers_iff (s : State) : DriverTimers s ↔ TimersMatch s.timers s.enc :=
  ⟨fun ⟨hdeb, htick, hpressed, hstopped⟩ => ⟨hdeb, htick, hpressed, hstopped⟩,
   fun h => ⟨h.debounce, h.tick, h.pressed, h.stopped⟩⟩

theorem expiry_words_ne : builtinWord .encDebounce ≠ builtinWord .encTick := by decide

section Match

variable {l : List Timer} {e : Enc}

/-- Cancelling the remembered debounce timer (rules R242, R270, R305). -/
theorem TimersMatch.cancelDebounce (h : TimersMatch l e) (hl : DistinctHandles l) :
    TimersMatch (withoutTimer e.debounceTimer l) { e with debounceTimer := none } := by
  cases hd : e.debounceTimer with
  | none =>
    exact ⟨h.debounce.trans (congrArg Option.toList hd), h.tick, h.pressed, fun hs => ⟨rfl, (h.stopped hs).2⟩⟩
  | some w =>
    have hdeb : kindHandles (builtinWord .encDebounce) l = [w] := by rw [h.debounce, hd]; rfl
    have hout : w ∉ kindHandles (builtinWord .encTick) l :=
      hl.not_mem_of_kind expiry_words_ne (by rw [hdeb]; exact List.mem_singleton_self w)
    refine ⟨?_, ?_, h.pressed, fun hs => ⟨rfl, (h.stopped hs).2⟩⟩
    · rw [withoutTimer, kindHandles_cancel hl, hdeb, List.erase_cons_head]; rfl
    · rw [withoutTimer, kindHandles_cancel hl, List.erase_of_not_mem hout, h.tick]

/-- Cancelling the remembered tick timer (rules R242, R272, R273, R305). -/
theorem TimersMatch.cancelTick (h : TimersMatch l e) (hl : DistinctHandles l) :
    TimersMatch (withoutTimer e.tickTimer l) { e with tickTimer := none } := by
  cases hd : e.tickTimer with
  | none =>
    exact ⟨h.debounce, h.tick.trans (congrArg Option.toList hd), (fun hc => nomatch hc),
      fun hs => ⟨(h.stopped hs).1, rfl⟩⟩
  | some w =>
    have htick : kindHandles (builtinWord .encTick) l = [w] := by rw [h.tick, hd]; rfl
    have hout : w ∉ kindHandles (builtinWord .encDebounce) l :=
      hl.not_mem_of_kind expiry_words_ne.symm (by rw [htick]; exact List.mem_singleton_self w)
    refine ⟨?_, ?_, (fun hc => nomatch hc), fun hs => ⟨(h.stopped hs).1, rfl⟩⟩
    · rw [withoutTimer, kindHandles_cancel hl, List.erase_of_not_mem hout, h.debounce]
    · rw [withoutTimer, kindHandles_cancel hl, htick, List.erase_cons_head]; rfl

/-- The debounce timer leaves the list as it expires (rules R271, R307). -/
theorem TimersMatch.expireDebounce (h : TimersMatch l e) (hl : DistinctHandles l) {x : Timer} (hx : x ∈ l)
    (hc : x.callback = builtinWord .encDebounce) : TimersMatch (l.erase x) { e with debounceTimer := none } := by
  have hin : x.handle ∈ kindHandles (builtinWord .encDebounce) l := mem_kindHandles.2 ⟨x, hx, hc, rfl⟩
  have hsome : e.debounceTimer = some x.handle := by rw [h.debounce] at hin; simpa using hin
  refine ⟨?_, ?_, h.pressed, fun hs => ⟨rfl, (h.stopped hs).2⟩⟩
  · rw [kindHandles_erase hl _ hx, h.debounce, hsome]; simp
  · rw [kindHandles_erase hl _ hx, List.erase_of_not_mem (hl.not_mem_of_kind expiry_words_ne hin), h.tick]

/-- The tick timer leaves the list as it expires (rules R274, R307). -/
theorem TimersMatch.expireTick (h : TimersMatch l e) (hl : DistinctHandles l) {x : Timer} (hx : x ∈ l)
    (hc : x.callback = builtinWord .encTick) : TimersMatch (l.erase x) { e with tickTimer := none } := by
  have hin : x.handle ∈ kindHandles (builtinWord .encTick) l := mem_kindHandles.2 ⟨x, hx, hc, rfl⟩
  have hsome : e.tickTimer = some x.handle := by rw [h.tick] at hin; simpa using hin
  refine ⟨?_, ?_, (fun hc => nomatch hc), fun hs => ⟨(h.stopped hs).1, rfl⟩⟩
  · rw [kindHandles_erase hl _ hx, List.erase_of_not_mem (hl.not_mem_of_kind expiry_words_ne.symm hin), h.debounce]
  · rw [kindHandles_erase hl _ hx, h.tick, hsome]; simp

/-- A timer of another kind leaves the list. -/
theorem TimersMatch.expireOther (h : TimersMatch l e) (hl : DistinctHandles l) {x : Timer} (hx : x ∈ l)
    (hc : NotExpiry x.callback) : TimersMatch (l.erase x) e := by
  have hin : x.handle ∈ kindHandles x.callback l := mem_kindHandles.2 ⟨x, hx, rfl, rfl⟩
  have hdeb : x.handle ∉ kindHandles (builtinWord .encDebounce) l := hl.not_mem_of_kind hc.1 hin
  have htick : x.handle ∉ kindHandles (builtinWord .encTick) l := hl.not_mem_of_kind hc.2 hin
  refine ⟨?_, ?_, h.pressed, h.stopped⟩
  · rw [kindHandles_erase hl _ hx, List.erase_of_not_mem hdeb, h.debounce]
  · rw [kindHandles_erase hl _ hx, List.erase_of_not_mem htick, h.tick]

/-- Starting a debounce timer where none is remembered (rule R270). -/
theorem TimersMatch.startDebounce (h : TimersMatch l e) (hnone : e.debounceTimer = none) (hinit : e.initialized = true)
    {x : Timer} (hx : x.callback = builtinWord .encDebounce) :
    TimersMatch (l ++ [x]) { e with debounceTimer := some x.handle } := by
  have hne : x.callback ≠ builtinWord .encTick := hx ▸ expiry_words_ne
  refine ⟨?_, ?_, h.pressed, fun hs => absurd (hinit.symm.trans hs) (by decide)⟩
  · rw [kindHandles_append, kindHandles_cons_same hx, h.debounce, hnone]; rfl
  · rw [kindHandles_append, kindHandles_cons_other hne, h.tick]; exact List.append_nil _

/-- Starting a tick timer where none is remembered, while the switch is pressed (rules R272, R274). -/
theorem TimersMatch.startTick (h : TimersMatch l e) (hnone : e.tickTimer = none) (hinit : e.initialized = true)
    (hsw : e.swStable = false) {x : Timer} (hx : x.callback = builtinWord .encTick) :
    TimersMatch (l ++ [x]) { e with tickTimer := some x.handle } := by
  have hne : x.callback ≠ builtinWord .encDebounce := hx ▸ expiry_words_ne.symm
  refine ⟨?_, ?_, fun _ => hsw, fun hs => absurd (hinit.symm.trans hs) (by decide)⟩
  · rw [kindHandles_append, kindHandles_cons_other hne, h.debounce]; exact List.append_nil _
  · rw [kindHandles_append, kindHandles_cons_same hx, h.tick, hnone]; rfl

end Match

/-! ### What every operation keeps -/

/-- The running driver timers are the remembered ones while the handle map lasts, and the timers alone invoke the expiry
handlers. -/
structure DriverSound (s : State) : Prop where
  map : s.cfg.timerHandles = []
  ordered : TimersOrdered s
  handles : HandlesDefault s
  expiry : ExpiryByTimerOnly s
  timers : s.timerSeq < 4294967296 → TimersMatch s.timers s.enc

theorem DriverSound.distinct {s : State} (hs : DriverSound s) (hseq : s.timerSeq < 4294967296) :
    DistinctHandles s.timers := by
  refine List.pairwise_map.2 (hs.ordered.1.imp_of_mem fun {a b} ha hb hlt he => ?_)
  have hnat := congrArg BitVec.toNat he
  rw [handle_toNat hs.map hs.ordered hs.handles hseq ha, handle_toNat hs.map hs.ordered hs.handles hseq hb] at hnat
  omega

/-- The application callback is none of the two expiry handlers. -/
theorem DriverSound.callback {s : State} (hs : DriverSound s) : ∀ cb ∈ s.enc.appCallback, NotExpiry cb.handler := by
  obtain ⟨-, -, hcb, -⟩ := hs.expiry
  exact hcb

/-- Fewer timers, and a driver's record that matches them and has the callback it had. -/
theorem DriverSound.fewerTimers {s t : State} (hs : DriverSound s) (hexpiry : ExpiryByTimerOnly t)
    (hcfg : t.cfg = s.cfg) (hsub : t.timers.Sublist s.timers) (hseq : t.timerSeq = s.timerSeq)
    (hmatch : DistinctHandles s.timers → TimersMatch s.timers s.enc → TimersMatch t.timers t.enc) : DriverSound t where
  map := hcfg ▸ hs.map
  ordered := timersOrdered_sublist hs.ordered hsub hseq
  handles := fun hmap x hx => hs.handles (hcfg ▸ hmap) x (hsub.subset hx)
  expiry := hexpiry
  timers := fun hlt => hmatch (hs.distinct (hseq ▸ hlt)) (hs.timers (hseq ▸ hlt))

theorem withoutTimer_sublist (h : Option Word) (l : List Timer) : (withoutTimer h l).Sublist l := by
  cases h with
  | none => exact .refl l
  | some w => exact List.eraseP_sublist

/-- Cancelling and forgetting the debounce timer. -/
theorem DriverSound.cancelDebounce {s : State} (hs : DriverSound s) :
    DriverSound ((cancelOptional s s.enc.debounceTimer).setEnc fun e => { e with debounceTimer := none }) := by
  rw [cancelOptional_eq]
  exact hs.fewerTimers hs.expiry rfl (withoutTimer_sublist _ _) rfl fun hl h => h.cancelDebounce hl

/-- Cancelling and forgetting the tick timer. -/
theorem DriverSound.cancelTick {s : State} (hs : DriverSound s) :
    DriverSound ((Machine.cancelTick s).setEnc fun e => { e with tickTimer := none }) := by
  rw [Machine.cancelTick, cancelOptional_eq]
  exact hs.fewerTimers hs.expiry rfl (withoutTimer_sublist _ _) rfl fun hl h => h.cancelTick hl

/-- Starting and remembering a debounce timer where none is remembered. -/
theorem DriverSound.startDebounce {s : State} (hs : DriverSound s) (hnone : s.enc.debounceTimer = none)
    (hinit : s.enc.initialized = true) (d : Nat) :
    DriverSound ((startTimer s d (builtinWord .encDebounce) 0).setEnc fun e =>
      { e with debounceTimer := some (nextHandle s) }) where
  map := hs.map
  ordered := startTimer_ordered hs.ordered _ _ _
  handles := startTimer_handlesDefault hs.handles _ _ _
  expiry := hs.expiry
  timers := fun hseq => (hs.timers (Nat.lt_of_succ_lt hseq)).startDebounce hnone hinit rfl

/-- Starting and remembering a tick timer where none is remembered, while the switch is pressed. -/
theorem DriverSound.startTick {s : State} (hs : DriverSound s) (hnone : s.enc.tickTimer = none)
    (hinit : s.enc.initialized = true) (hsw : s.enc.swStable = false) : DriverSound (Machine.startTick s) where
  map := hs.map
  ordered := startTimer_ordered hs.ordered _ _ _
  handles := startTimer_handlesDefault hs.handles _ _ _
  expiry := hs.expiry
  timers := fun hseq => (hs.timers (Nat.lt_of_succ_lt hseq)).startTick hnone hinit hsw rfl

/-- A change of the driver's record that forgets no timer. -/
theorem DriverSound.setEnc {s : State} (hs : DriverSound s) (f : Enc → Enc)
    (hdeb : (f s.enc).debounceTimer = s.enc.debounceTimer) (htick : (f s.enc).tickTimer = s.enc.tickTimer)
    (hsw : (s.enc.tickTimer.isSome = true → s.enc.swStable = false) →
      (f s.enc).tickTimer.isSome = true → (f s.enc).swStable = false)
    (hinit : (f s.enc).initialized = false → s.enc.initialized = false)
    (hcb : ∀ cb ∈ (f s.enc).appCallback, NotExpiry cb.handler) : DriverSound (s.setEnc f) := by
  obtain ⟨hlines, hpins, -, hbodies⟩ := hs.expiry
  exact hs.fewerTimers ⟨hlines, hpins, hcb, hbodies⟩ rfl (.refl _) rfl fun _ h =>
    ⟨h.debounce.trans (congrArg _ hdeb.symm), h.tick.trans (congrArg _ htick.symm), hsw h.pressed, fun hoff => by
      obtain ⟨hd, ht⟩ := h.stopped (hinit hoff)
      exact ⟨hdeb.trans hd, htick.trans ht⟩⟩

/-- The driver starts with no timer remembered, as it has none while it is stopped (rule R240). -/
theorem DriverSound.encStart {s : State} (hs : DriverSound s) (hoff : s.enc.initialized = false) :
    DriverSound (s.setEnc encStarted) :=
  hs.fewerTimers hs.expiry rfl (.refl _) rfl fun _ h => by
    obtain ⟨hdeb, htick⟩ := h.stopped hoff
    exact ⟨h.debounce.trans (congrArg Option.toList hdeb), h.tick.trans (congrArg Option.toList htick),
      (fun hc => nomatch hc), fun _ => ⟨rfl, rfl⟩⟩

/-- The driver stops when no timer is remembered (rule R242). -/
theorem DriverSound.encStop {s : State} (hs : DriverSound s) (hdeb : s.enc.debounceTimer = none)
    (htick : s.enc.tickTimer = none) : DriverSound (s.setEnc encStopped) := by
  obtain ⟨hlines, hpins, -, hbodies⟩ := hs.expiry
  exact hs.fewerTimers ⟨hlines, hpins, (fun cb hc => nomatch hc), hbodies⟩ rfl (.refl _) rfl fun _ h =>
    ⟨h.debounce, h.tick, h.pressed, fun _ => ⟨hdeb, htick⟩⟩

/-- Cancelling the tick timer and starting another, while the switch is pressed (rule R272). -/
theorem DriverSound.restartTick {s : State} (hs : DriverSound s) (hinit : s.enc.initialized = true)
    (hsw : s.enc.swStable = false) : DriverSound (Machine.startTick (Machine.cancelTick s)) := by
  have henc : (Machine.cancelTick s).enc = s.enc := cancelOptional_enc s _
  have hforget : Machine.startTick ((Machine.cancelTick s).setEnc fun e => { e with tickTimer := none }) =
      Machine.startTick (Machine.cancelTick s) := rfl
  rw [← hforget]
  exact hs.cancelTick.startTick rfl ((congrArg Enc.initialized henc).trans hinit)
    ((congrArg Enc.swStable henc).trans hsw)

/-- Cancelling the debounce timer and starting another (rule R270). -/
theorem DriverSound.restartDebounce {s : State} (hs : DriverSound s) (hinit : s.enc.initialized = true) (d : Nat) :
    DriverSound ((startTimer (cancelOptional s s.enc.debounceTimer) d (builtinWord .encDebounce) 0).setEnc fun e =>
      { e with debounceTimer := some (nextHandle (cancelOptional s s.enc.debounceTimer)) }) := by
  have henc : (cancelOptional s s.enc.debounceTimer).enc = s.enc := cancelOptional_enc s _
  have hforget : ∀ u : State, (startTimer (u.setEnc fun e => { e with debounceTimer := none }) d
      (builtinWord .encDebounce) 0).setEnc (fun e => { e with debounceTimer := some (nextHandle u) }) =
      (startTimer u d (builtinWord .encDebounce) 0).setEnc fun e => { e with debounceTimer := some (nextHandle u) } :=
    fun _ => rfl
  rw [← hforget]
  exact hs.cancelDebounce.startDebounce rfl ((congrArg Enc.initialized henc).trans hinit) d

/-! ### Updates that leave the timers and the driver's record alone -/

/-- No line has an expiry handler. -/
def LinesClear (s : State) : Prop := ∀ l ∈ s.lines, ∀ r ∈ l.handler, NotExpiry r.handler

/-- No pin object has an expiry handler. -/
def PinsClear (s : State) : Prop := ∀ p ∈ s.pinObj, ∀ h ∈ p.handler, NotExpiry h.callback

/-- The timers and the driver's record stay, and no expiry handler is registered. -/
structure Bystander (s t : State) : Prop where
  timers : t.timers = s.timers
  timerSeq : t.timerSeq = s.timerSeq
  enc : t.enc = s.enc
  cfg : t.cfg = s.cfg
  lines : LinesClear s → LinesClear t
  pins : PinsClear s → PinsClear t

theorem Bystander.refl (s : State) : Bystander s s := ⟨rfl, rfl, rfl, rfl, id, id⟩

theorem Bystander.trans {s t u : State} (h : Bystander s t) (h' : Bystander t u) : Bystander s u :=
  ⟨h'.timers.trans h.timers, h'.timerSeq.trans h.timerSeq, h'.enc.trans h.enc, h'.cfg.trans h.cfg,
    h'.lines ∘ h.lines, h'.pins ∘ h.pins⟩

theorem DriverSound.bystander {s t : State} (hs : DriverSound s) (h : Bystander s t) : DriverSound t := by
  obtain ⟨hlines, hpins, hcb, hbodies⟩ := hs.expiry
  refine hs.fewerTimers ⟨h.lines hlines, h.pins hpins, by rwa [h.enc], by rwa [h.cfg]⟩ h.cfg (h.timers ▸ .refl _)
    h.timerSeq fun _ hm => ?_
  rw [h.timers, h.enc]
  exact hm

theorem memRead_lines (s : State) (r : Reg) : (memRead s r).lines = s.lines := by
  cases r with
  | icIar => rw [memRead_icIar]
  | _ => rfl

theorem memRead_bystander (s : State) (r : Reg) : Bystander s (memRead s r) :=
  ⟨(memRead_timers s r).1, (memRead_timers s r).2, memRead_enc s r, readEffect_cfg s r,
    fun h => by rwa [LinesClear, memRead_lines], fun h => by rwa [PinsClear, memRead_pinObj]⟩

/-- Enabling and disabling lines changes no registration (rules R76, R85). -/
theorem writeEnable_linesClear {s : State} (h : LinesClear s) (w : Nat) (v : Word) (b : Bool) :
    LinesClear (s.writeEnable w v b) := by
  intro l hl
  obtain ⟨i, hi, rfl⟩ := List.mem_mapIdx.1 hl
  have hold := h _ (List.getElem_mem hi)
  split <;> exact hold

theorem memWrite_linesClear {s : State} (h : LinesClear s) (r : Reg) (v : Word) : LinesClear (memWrite s r v) := by
  rw [memWrite_eq]
  cases r with
  | icEnset w => exact writeEnable_linesClear h w v true
  | icEnclr w => exact writeEnable_linesClear h w v false
  | trig k w => cases k <;> exact h
  | icEoir => simp only [writeEffect]; split <;> exact h
  | _ => exact h

theorem memWrite_bystander (s : State) (r : Reg) (v : Word) : Bystander s (memWrite s r v) :=
  ⟨(memWrite_timers s r v).1, (memWrite_timers s r v).2, memWrite_enc s r v, writeEffect_cfg s r v,
    fun h => memWrite_linesClear h r v, fun h => by rwa [PinsClear, memWrite_pinObj]⟩

theorem memModify_bystander (s : State) (r : Reg) (f : Word → Word) : Bystander s (memModify s r f) :=
  (memRead_bystander s r).trans (memWrite_bystander _ r _)

/-- Changing a line so that it gets no expiry handler. -/
theorem setLine_bystander (s : State) (i : Nat) {f : IrqLine → IrqLine}
    (hf : ∀ l : IrqLine, (∀ r ∈ l.handler, NotExpiry r.handler) → ∀ r ∈ (f l).handler, NotExpiry r.handler) :
    Bystander s (s.setLine i f) := by
  refine ⟨rfl, rfl, rfl, rfl, fun h l hl => ?_, id⟩
  obtain ⟨j, hj, rfl⟩ := List.mem_iff_getElem.1 hl
  simp only [setLine_lines, List.length_modify] at hj
  have hold := h _ (List.getElem_mem hj)
  simp only [setLine_lines, List.getElem_modify]
  split
  · exact hf _ hold
  · exact hold

/-- Replacing a pin object by one without an expiry handler. -/
theorem Bystander.setObj {s u : State} (h : Bystander s u) (obj : Nat) {p : PinObj}
    (hp : PinsClear s → ∀ hd ∈ p.handler, NotExpiry hd.callback) : Bystander s (u.setObj obj p) := by
  refine ⟨h.timers, h.timerSeq, h.enc, h.cfg, h.lines, fun hs q hq => ?_⟩
  obtain hq | rfl := List.mem_or_eq_of_mem_set hq
  · exact h.pins hs q hq
  · exact hp hs

theorem PinsClear.obj {s : State} (h : PinsClear s) (o : Nat) : ∀ hd ∈ (s.obj o).handler, NotExpiry hd.callback := by
  rw [State.obj, List.getD_eq_getElem?_getD]
  cases hget : s.pinObj[o]? with
  | none => exact fun hd hc => nomatch hc
  | some p => exact h p (List.mem_of_getElem? hget)

/-- The handler of a line is none of the two. -/
theorem irqTable_notExpiry {s : State} (h : ExpiryByTimerOnly s) {i : Nat} {r : Registration}
    (hr : s.irqTable i = some r) : NotExpiry r.handler := by
  rw [State.irqTable, State.line, List.getD_eq_getElem?_getD] at hr
  cases hget : s.lines[i]? with
  | none => rw [hget] at hr; cases hr
  | some l => rw [hget] at hr; exact h.1 l (List.mem_of_getElem? hget) r hr

theorem DriverSound.pinsClear {s : State} (hs : DriverSound s) : PinsClear s := by
  obtain ⟨-, hpins, -, -⟩ := hs.expiry
  exact hpins

/-- A pin level is read before what follows (rule R212). -/
theorem pinLevel_ok {obj : Nat} {s t : State} {k : Bool → State → Res} (h : pinLevel obj s k = .ok t) :
    ∃ lvl u, Bystander s u ∧ k lvl u = .ok t := by
  unfold pinLevel at h
  split at h
  · cases h
  · exact ⟨_, _, memRead_bystander s _, h⟩

theorem pinObjReset_clear : ∀ hd ∈ pinObjReset.handler, NotExpiry hd.callback := by
  intro hd hc
  cases hc

theorem destroyPins_bystander (s : State) : Bystander s (destroyPins s) :=
  (((Bystander.refl s).setObj clkObj fun _ => pinObjReset_clear).setObj dtObj fun _ => pinObjReset_clear).setObj swObj
    fun _ => pinObjReset_clear

theorem tickOnce_bystander (s : State) : Bystander s (tickOnce s) := by
  have h : Bystander s (s.setLine s.cfg.timerLine fun l => { l with pending := false }) :=
    setLine_bystander s s.cfg.timerLine fun _ hl => hl
  exact ⟨h.timers, h.timerSeq, h.enc, h.cfg, h.lines, h.pins⟩

theorem clearEnableWords_bystander (s : State) (n : Nat) : Bystander s (clearEnableWords s n) := by
  induction n with
  | zero => exact .refl s
  | succ n ih => exact ih.trans (memWrite_bystander _ _ _)

theorem readPendWords_bystander (s : State) (n : Nat) : Bystander s (readPendWords s n) := by
  induction n with
  | zero => exact .refl s
  | succ n ih => exact ih.trans (memRead_bystander _ _)

theorem afterSelect_bystander (s : State) : Bystander s (afterSelect s) := by
  unfold afterSelect
  split
  · exact readPendWords_bystander s _
  · exact memRead_bystander s _

theorem complete_bystander (s : State) (i : Nat) : Bystander s (complete s i) := by
  unfold complete
  split
  · exact .refl s
  · exact memWrite_bystander s _ _

theorem log_bystander (s : State) (c : LogCode) (a : Nat) : Bystander s (s.log c a) := ⟨rfl, rfl, rfl, rfl, id, id⟩

theorem unhandled_bystander (s : State) (i : Nat) : Bystander s (unhandled s i) :=
  (log_bystander s _ i).trans (memWrite_bystander _ _ _)

theorem applyFunction_bystander (s : State) (n : PinNo) (fn : PinFunction) : Bystander s (applyFunction s n fn) :=
  memModify_bystander s _ _

theorem applyPull_bystander (s : State) (n : PinNo) (p : Pull) : Bystander s (applyPull s n p) := by
  unfold applyPull
  split
  · exact ((memWrite_bystander s _ _).trans (memWrite_bystander _ _ _)).trans (memWrite_bystander _ _ _)
  · exact memModify_bystander s _ _

theorem modifyKinds_bystander (n : PinNo) (f : Word → Word) (ks : List TrigKind) (s : State) :
    Bystander s (modifyKinds n f ks s) := by
  induction ks generalizing s with
  | nil => exact .refl s
  | cons k ks ih => exact (memModify_bystander s _ f).trans (ih _)

theorem readStatus_bystander (s : State) : Bystander s (readStatus s) := by
  unfold readStatus
  split
  · exact (memRead_bystander s _).trans (memRead_bystander _ _)
  · exact memRead_bystander s _

theorem clearFsel_bystander (ks : List (Fin 6)) (s : State) : Bystander s (clearFsel s ks) := by
  induction ks generalizing s with
  | nil => exact .refl s
  | cons k ks ih => exact (memWrite_bystander s (.fsel k) 0).trans (ih _)

theorem clearPuppdn_bystander (js : List (Fin 4)) (s : State) : Bystander s (clearPuppdn s js) := by
  induction js generalizing s with
  | nil => exact .refl s
  | cons j js ih => exact (memWrite_bystander s (.puppdn j) 0).trans (ih _)

theorem strobeAllOff_bystander (s : State) : Bystander s (strobeAllOff s) :=
  ((((memWrite_bystander s .pud 0).trans (memWrite_bystander _ _ _)).trans (memWrite_bystander _ _ _)).trans
    (memWrite_bystander _ _ _)).trans (memWrite_bystander _ _ _)

/-! ### Rules that leave the timers and the driver's record alone -/

/-- A rule that, where it ends well, leaves the timers and the driver's record alone and registers no expiry handler. -/
def LeavesDriver (f : State → Res) : Prop := ∀ s t, f s = .ok t → Bystander s t

theorem leavesDriver_ok {f : State → State} (hf : ∀ s, Bystander s (f s)) : LeavesDriver fun s => .ok (f s) := by
  rintro s _ ⟨⟩
  exact hf s

theorem LeavesDriver.andThen {f k : State → Res} (hf : LeavesDriver f) (hk : LeavesDriver k) :
    LeavesDriver fun s => (f s).andThen k := by
  intro s t h
  obtain ⟨u, hu, ht⟩ := andThen_eq_ok.1 h
  exact (hf s u hu).trans (hk u t ht)

theorem leavesDriver_checkAssigned (obj : Nat) {k : PinNo → State → Res} (hk : ∀ n, LeavesDriver (k n)) :
    LeavesDriver (checkAssigned obj · k) := by
  intro s t h
  obtain ⟨-, n, -, ht⟩ := checkAssigned_ok h
  exact hk n s t ht

theorem leavesDriver_checkAccess {addr : Word} {width : Nat} {s t : State} {k : Reg → Res}
    (hk : ∀ r, k r = .ok t → Bystander s t) (h : checkAccess addr width s k = .ok t) : Bystander s t := by
  unfold checkAccess at h
  split at h
  · split at h
    · exact hk _ h
    · cases h
  · cases h

theorem leavesDriver_icRegisterHandler (i : Nat) {hd : Word} (hw : NotExpiry hd) (ctx : Word) :
    LeavesDriver (ruleIcRegisterHandler i hd ctx) := by
  intro s t h
  unfold ruleIcRegisterHandler at h
  split at h
  · split at h
    · cases h
    · cases h
      refine (setLine_bystander s i fun l _ r hr => ?_).trans (memWrite_bystander _ _ _)
      cases hr
      exact hw
  · cases h

theorem leavesDriver_icUnregisterHandler (i : Nat) : LeavesDriver (ruleIcUnregisterHandler i) := by
  intro s t h
  unfold ruleIcUnregisterHandler at h
  split at h
  · split at h
    · cases h
      exact (memWrite_bystander s _ _).trans (setLine_bystander _ i fun _ _ _ hr => nomatch hr)
    · cases h
  · cases h

theorem leavesDriver_icEnableLine (i : Nat) : LeavesDriver (ruleIcEnableLine i) := by
  intro s t h
  unfold ruleIcEnableLine at h
  split at h
  · cases h; exact memWrite_bystander s _ _
  · cases h

theorem leavesDriver_icDisableLine (i : Nat) : LeavesDriver (ruleIcDisableLine i) := by
  intro s t h
  unfold ruleIcDisableLine at h
  split at h
  · cases h; exact memWrite_bystander s _ _
  · cases h

theorem leavesDriver_icDisableAllLines : LeavesDriver ruleIcDisableAllLines :=
  leavesDriver_ok fun s => clearEnableWords_bystander s _

theorem setSlot_bystander (s : State) (n : PinNo) (v : Option Nat) : Bystander s (s.setSlot n v) :=
  ⟨rfl, rfl, rfl, rfl, id, id⟩

theorem leavesDriver_gmConnectInterrupt (obj : Nat) : LeavesDriver (ruleGmConnectInterrupt obj) :=
  leavesDriver_checkAssigned obj fun n s t h => by
    split at h
    · cases h
    · cases h; exact setSlot_bystander s n _

theorem leavesDriver_gmDisconnectInterrupt (obj : Nat) : LeavesDriver (ruleGmDisconnectInterrupt obj) :=
  leavesDriver_checkAssigned obj fun n s t h => by
    split at h
    · cases h; exact setSlot_bystander s n _
    · cases h

theorem leavesDriver_gmInitialize : LeavesDriver ruleGmInitialize := by
  intro s t h
  unfold ruleGmInitialize at h
  split at h
  · cases h; exact .refl _
  · exact (leavesDriver_icRegisterHandler s.cfg.gpioLine (hd := builtinWord .gm) (by decide) 0).andThen
      (leavesDriver_ok (f := fun u => { u with gmInitialized := true }) fun _ => ⟨rfl, rfl, rfl, rfl, id, id⟩) s t h

theorem leavesDriver_gmAllOff : LeavesDriver ruleGmAllOff := by
  intro s t h
  have hf := clearFsel_bystander [0, 1, 2, 3, 4, 5] s
  unfold ruleGmAllOff at h
  dsimp only at h
  split at h
  · cases h; exact hf.trans (strobeAllOff_bystander _)
  · cases h; exact hf.trans (clearPuppdn_bystander _ _)

theorem leavesDriver_pinAssignPin (obj n : Nat) : LeavesDriver (rulePinAssignPin obj n) := by
  intro s t h
  unfold rulePinAssignPin checkObj at h
  split at h
  · dsimp only at h
    split at h
    · split at h
      · cases h
      · cases h; exact (Bystander.refl s).setObj obj fun hs => hs.obj obj
    · cases h
  · cases h

theorem leavesDriver_pinSetMode (obj : Nat) (fn : PinFunction) (code : BitVec 2) :
    LeavesDriver (rulePinSetMode obj fn code) :=
  leavesDriver_checkAssigned obj fun n s t h => by
    split at h
    · cases h
    · cases h
      exact ((applyFunction_bystander s n fn).trans (applyPull_bystander _ n _)).setObj obj fun hs => hs.obj obj

theorem leavesDriver_pinEnableInterrupt (obj : Nat) (types : BitVec 6) :
    LeavesDriver (rulePinEnableInterrupt obj types) :=
  leavesDriver_checkAssigned obj fun n =>
    leavesDriver_ok fun s => (modifyKinds_bystander n _ _ s).setObj obj fun hs => hs.obj obj

theorem leavesDriver_pinDisableInterrupt (obj : Nat) (types : BitVec 6) :
    LeavesDriver (rulePinDisableInterrupt obj types) :=
  leavesDriver_checkAssigned obj fun n =>
    leavesDriver_ok fun s => (modifyKinds_bystander n _ _ s).setObj obj fun hs => hs.obj obj

theorem leavesDriver_pinConnectInterrupt (obj : Nat) (ack : Bool) {hd : Word} (hw : NotExpiry hd) (ctx : Word) :
    LeavesDriver (rulePinConnectInterrupt obj ack hd ctx) :=
  leavesDriver_checkAssigned obj fun _ s t h => by
    split at h
    · cases h
    · refine (leavesDriver_gmConnectInterrupt obj).andThen (leavesDriver_ok fun u => ?_) s t h
      refine (Bystander.refl u).setObj obj fun _ p hp => ?_
      cases hp
      exact hw

theorem leavesDriver_pinDisconnectInterrupt (obj : Nat) : LeavesDriver (rulePinDisconnectInterrupt obj) :=
  leavesDriver_checkAssigned obj fun _ s t h => by
    split at h
    · cases h
    · refine (leavesDriver_gmDisconnectInterrupt obj).andThen (leavesDriver_ok fun u => ?_) s t h
      refine (Bystander.refl u).setObj obj fun _ p hp => ?_
      cases hp

theorem leavesDriver_pinAcknowledgeInterrupt (obj : Nat) : LeavesDriver (rulePinAcknowledgeInterrupt obj) :=
  leavesDriver_checkAssigned obj fun _ => leavesDriver_ok fun s => memWrite_bystander s _ _

theorem leavesDriver_memRead32 (addr : Word) : LeavesDriver (ruleMemRead32 addr) := fun s _ =>
  leavesDriver_checkAccess fun r hr => by
    cases hr
    exact (memRead_bystander s r).trans ⟨rfl, rfl, rfl, rfl, id, id⟩

theorem leavesDriver_memWrite32 (addr v : Word) : LeavesDriver (ruleMemWrite32 addr v) := fun s _ =>
  leavesDriver_checkAccess fun r hr => by
    cases hr
    exact memWrite_bystander s r v

theorem leavesDriver_evPinLevel (n : Nat) (level : Bool) : LeavesDriver (ruleEvPinLevel n level) := by
  intro s t h
  unfold ruleEvPinLevel at h
  split at h
  · cases h; exact ⟨rfl, rfl, rfl, rfl, id, id⟩
  · cases h; exact .refl _

theorem leavesDriver_evIrqLine (i : Nat) (level : Bool) : LeavesDriver (ruleEvIrqLine i level) := by
  intro s t h
  unfold ruleEvIrqLine at h
  split at h
  · cases h; exact setLine_bystander s i fun _ hl => hl
  · cases h; exact .refl _

theorem leavesDriver_evTimerPeriod : LeavesDriver ruleEvTimerPeriod :=
  leavesDriver_ok fun s => setLine_bystander s s.cfg.timerLine fun _ hl => hl

/-! ### Rules that keep the driver's timers and its record together -/

/-- A rule that keeps the invariant where it ends well. -/
def KeepsSound (f : State → Res) : Prop := ∀ s t, DriverSound s → f s = .ok t → DriverSound t

theorem LeavesDriver.keepsSound {f : State → Res} (hf : LeavesDriver f) : KeepsSound f :=
  fun s t hs h => hs.bystander (hf s t h)

theorem KeepsSound.andThen {f k : State → Res} (hf : KeepsSound f) (hk : KeepsSound k) :
    KeepsSound fun s => (f s).andThen k := by
  intro s t hs h
  obtain ⟨u, hu, ht⟩ := andThen_eq_ok.1 h
  exact hk u t (hf s u hs hu) ht

theorem keepsSound_ok : KeepsSound Res.ok := by
  rintro s _ hs ⟨⟩
  exact hs

/-- What is known where a handler word is called: an expiry handler is called as its timer leaves the list, and forgets
the timer first. -/
structure ReadyFor (h : Word) (s : State) : Prop where
  debounce : h = builtinWord .encDebounce → DriverSound (s.setEnc fun e => { e with debounceTimer := none })
  tick : h = builtinWord .encTick → DriverSound (s.setEnc fun e => { e with tickTimer := none })
  other : NotExpiry h → DriverSound s

/-- Calls of handler words that end well keep the invariant. -/
def SoundCalls (inv : Invoker) : Prop :=
  ∀ h ctx arg s t, ReadyFor h s → inv h ctx arg s = .ok t → DriverSound t

theorem readyFor_of_notExpiry {h : Word} {s : State} (hh : NotExpiry h) (hs : DriverSound s) : ReadyFor h s :=
  ⟨fun he => absurd he hh.1, fun he => absurd he hh.2, fun _ => hs⟩

theorem SoundCalls.keepsSound {inv : Invoker} (hi : SoundCalls inv) {h : Word} (hh : NotExpiry h) (ctx : Word)
    (arg : Option AppEvent) : KeepsSound (inv h ctx arg) :=
  fun s t hs ht => hi h ctx arg s t (readyFor_of_notExpiry hh hs) ht

/-- A timer that fires leaves the list first (rule R307). -/
theorem readyFor_of_expired {s : State} (hs : DriverSound s) {x : Timer} (hx : x ∈ s.timers) :
    ReadyFor x.callback { s with timers := s.timers.erase x } where
  debounce hc := hs.fewerTimers hs.expiry rfl List.erase_sublist rfl fun hl h => h.expireDebounce hl hx hc
  tick hc := hs.fewerTimers hs.expiry rfl List.erase_sublist rfl fun hl h => h.expireTick hl hx hc
  other hc := hs.fewerTimers hs.expiry rfl List.erase_sublist rfl fun hl h => h.expireOther hl hx hc

section Calls

variable {inv : Invoker} (hi : SoundCalls inv)

include hi

theorem keepsSound_serveLine (i : Nat) : KeepsSound (serveLine inv i) := by
  intro s t hs h
  unfold serveLine at h
  split at h
  · next r hr => exact hi.keepsSound (irqTable_notExpiry hs.expiry hr) _ _ s t hs h
  · cases h; exact hs.bystander (unhandled_bystander s i)

theorem keepsSound_icDispatch : KeepsSound (ruleIcDispatch inv) := by
  intro s t hs h
  have hentered : Bystander s s.enterIrq := ⟨rfl, rfl, rfl, rfl, id, id⟩
  have hselected := hs.bystander (hentered.trans (afterSelect_bystander _))
  unfold ruleIcDispatch at h
  split at h
  · cases h
  · split at h
    · cases h
      exact hselected.bystander ⟨rfl, rfl, rfl, rfl, id, id⟩
    · next i _ =>
      obtain ⟨u, hu, ht⟩ := andThen_eq_ok.1 h
      cases ht
      exact ((keepsSound_serveLine hi i _ u hselected hu).bystander (complete_bystander u i)).bystander
        ⟨rfl, rfl, rfl, rfl, id, id⟩

theorem keepsSound_icDispatchFiq : KeepsSound (ruleIcDispatchFiq inv) := by
  intro s t hs h
  have hentered : Bystander s s.enterFiq := ⟨rfl, rfl, rfl, rfl, id, id⟩
  unfold ruleIcDispatchFiq at h
  split at h
  · cases h
  · split at h
    · cases h; exact hs
    · next i _ =>
      split at h
      · obtain ⟨u, hu, ht⟩ := andThen_eq_ok.1 h
        cases ht
        exact (keepsSound_serveLine hi i _ u (hs.bystander hentered) hu).bystander ⟨rfl, rfl, rfl, rfl, id, id⟩
      · cases h; exact hs

theorem keepsSound_pinDispatch (obj : Nat) : KeepsSound (rulePinDispatch inv obj) := by
  intro s t hs h
  unfold rulePinDispatch checkObj at h
  split at h
  · dsimp only at h
    split at h
    · cases h; exact hs
    · split at h
      · next hd hhd => exact hi.keepsSound (hs.pinsClear.obj obj hd hhd) _ _ s t hs h
      · cases h; exact hs
  · cases h

theorem keepsSound_servePin (n : PinNo) : KeepsSound (servePin inv n) := by
  intro s t hs h
  unfold servePin at h
  split at h
  · cases h
    exact hs.bystander ((log_bystander s _ _).trans (memWrite_bystander _ _ _))
  · next obj _ =>
    obtain ⟨u, hu, ht⟩ := andThen_eq_ok.1 h
    have hsound := keepsSound_pinDispatch hi obj s u hs hu
    split at ht
    · cases ht; exact hsound.bystander (memWrite_bystander u _ _)
    · cases ht; exact hsound

theorem keepsSound_gmDispatch : KeepsSound (ruleGmDispatch inv) := by
  intro s t hs h
  have hbusy : Bystander s { s with gmBusy := true } := ⟨rfl, rfl, rfl, rfl, id, id⟩
  have hread := hs.bystander (hbusy.trans (readStatus_bystander _))
  unfold ruleGmDispatch at h
  split at h
  · cases h
  · dsimp only at h
    split at h
    · cases h
      exact hread.bystander ⟨rfl, rfl, rfl, rfl, id, id⟩
    · next n _ =>
      obtain ⟨u, hu, ht⟩ := andThen_eq_ok.1 h
      cases ht
      exact (keepsSound_servePin hi n _ u hread hu).bystander ⟨rfl, rfl, rfl, rfl, id, id⟩

theorem keepsSound_emitOutput (out : Option AppEvent) : KeepsSound (emitOutput inv out) := by
  intro s t hs h
  cases out with
  | none => cases h; exact hs
  | some e =>
    unfold emitOutput emitEvent at h
    dsimp only at h
    split at h
    · cases h; exact hs
    · next cb hcb =>
      have hrecorded : DriverSound { s with appTrace := s.appTrace ++ [⟨e, cb.ctx⟩] } :=
        hs.bystander ⟨rfl, rfl, rfl, rfl, id, id⟩
      exact hi.keepsSound (hs.callback cb hcb) _ _ _ t hrecorded h

theorem keepsSound_btnStep (ev : ButtonEvent) : KeepsSound (btnStep inv ev) := fun _ t hs h =>
  keepsSound_emitOutput hi _ _ t (hs.setEnc _ rfl rfl id id hs.callback) h

theorem keepsSound_encClkDt : KeepsSound (ruleEncClkDt inv) := by
  intro s t hs h
  unfold ruleEncClkDt at h
  split at h
  · obtain ⟨clk, u, hu, h⟩ := pinLevel_ok h
    obtain ⟨dt, v, hv, h⟩ := pinLevel_ok h
    have hsound : DriverSound v := hs.bystander (hu.trans hv)
    exact keepsSound_emitOutput hi _ _ t (hsound.setEnc _ rfl rfl id id hsound.callback) h
  · cases h; exact hs

/-- A press restarts the tick timer (rule R272). -/
theorem classifyPress_sound {s t : State} (hs : DriverSound s) (hinit : s.enc.initialized = true)
    (hsw : s.enc.swStable = false) (h : classifyPress inv s = .ok t) : DriverSound t := by
  have hpress : DriverSound (s.setEnc fun e => { e with lastPress := s.ticks, pressSeen := true }) :=
    hs.setEnc _ rfl rfl id id hs.callback
  exact keepsSound_btnStep hi _ _ t (hpress.restartTick hinit hsw) h

/-- A release cancels the tick timer (rule R273). -/
theorem classifyRelease_sound {s t : State} (hs : DriverSound s)
    (h : classifyRelease inv (s.setEnc fun e => { e with swStable := true }) = .ok t) : DriverSound t := by
  have hreleased := hs.cancelTick.setEnc (fun e => { e with swStable := true, lastRelease := s.ticks }) rfl rfl
    (fun _ hc => nomatch hc) id hs.cancelTick.callback
  refine keepsSound_btnStep hi _ _ t ?_ h
  rw [show (s.setEnc fun e => { e with swStable := true }).ticks = s.ticks from rfl, release_gathered]
  exact hreleased

/-- The debounce handler, called as its timer leaves the list (rule R271). -/
theorem encDebounce_sound {s t : State} (hs : DriverSound (s.setEnc fun e => { e with debounceTimer := none }))
    (h : ruleEncDebounce inv s = .ok t) : DriverSound t := by
  unfold ruleEncDebounce at h
  dsimp only at h
  generalize s.setEnc _ = u at hs h
  split at h
  · next hinit =>
    obtain ⟨lvl, v, hv, h⟩ := pinLevel_ok h
    have hsound := hs.bystander hv
    split at h
    · cases h; exact hsound
    · cases lvl with
      | true => exact classifyRelease_sound hi hsound h
      | false =>
        have hpressed := hsound.setEnc (fun e => { e with swStable := false }) rfl rfl (fun _ _ => rfl) id
          hsound.callback
        exact classifyPress_sound hi hpressed ((congrArg Enc.initialized hv.enc).trans hinit) rfl h
  · cases h; exact hs

/-- The tick handler, called as its timer leaves the list (rule R274). -/
theorem encTick_sound {s t : State} (hs : DriverSound (s.setEnc fun e => { e with tickTimer := none }))
    (h : ruleEncTick inv s = .ok t) : DriverSound t := by
  unfold ruleEncTick at h
  dsimp only at h
  split at h
  · next hinit =>
    split at h
    · exact keepsSound_btnStep hi _ _ t hs h
    · next hsw => exact keepsSound_btnStep hi _ _ t (hs.startTick rfl hinit (by simpa using hsw)) h
  · cases h; exact hs

theorem keepsSound_fireTimers (l : List Timer) : KeepsSound (fireTimers inv l) := by
  induction l with
  | nil => exact keepsSound_ok
  | cons x xs ih =>
    refine KeepsSound.andThen (fun s t hs h => ?_) ih
    unfold fireTimer at h
    split at h
    · next hx => exact hi _ _ _ _ t (readyFor_of_expired hs hx) h
    · cases h; exact hs

theorem keepsSound_timer : KeepsSound (ruleTimer inv) := fun s t hs h =>
  keepsSound_fireTimers hi _ _ t (hs.bystander (tickOnce_bystander s)) h

end Calls

/-! ### The driver's lifecycle and its SW handler -/

theorem keepsSound_encSw : KeepsSound ruleEncSw := by
  intro s t hs h
  unfold ruleEncSw at h
  split at h
  · next hinit => cases h; exact hs.restartDebounce hinit _
  · cases h; exact hs

/-- The driver starts from a stopped driver, whose record the checks and the pin operations leave alone (rule R240). -/
theorem keepsSound_encInitialize (sw dt clk : Nat) : KeepsSound (ruleEncInitialize sw dt clk) := by
  intro s t hs h
  unfold ruleEncInitialize at h
  split at h
  · cases h
  · next hoff =>
    split at h
    · cases h
    · split at h
      · cases h
      · obtain ⟨u, hu, ht⟩ := andThen_eq_ok.1 h
        cases ht
        have hpins : Bystander s u :=
          (leavesDriver_pinAssignPin clkObj clk)
            |>.andThen (leavesDriver_pinAssignPin dtObj dt)
            |>.andThen (leavesDriver_pinAssignPin swObj sw)
            |>.andThen (leavesDriver_pinSetMode clkObj .input 1)
            |>.andThen (leavesDriver_pinSetMode dtObj .input 1)
            |>.andThen (leavesDriver_pinSetMode swObj .input 1)
            |>.andThen (leavesDriver_pinConnectInterrupt clkObj true (hd := builtinWord .encClkDt) (by decide) 0)
            |>.andThen (leavesDriver_pinConnectInterrupt dtObj true (hd := builtinWord .encClkDt) (by decide) 0)
            |>.andThen (leavesDriver_pinConnectInterrupt swObj true (hd := builtinWord .encSw) (by decide) 0)
            |>.andThen (leavesDriver_pinEnableInterrupt clkObj bothEdges)
            |>.andThen (leavesDriver_pinEnableInterrupt dtObj bothEdges)
            |>.andThen (leavesDriver_pinEnableInterrupt swObj bothEdges) s u hu
        exact (hs.bystander hpins).encStart
          ((congrArg Enc.initialized hpins.enc).trans (Bool.eq_false_iff.2 hoff))

theorem keepsSound_encRegisterEventHandler {hd : Word} (hw : NotExpiry hd) (ctx : Word) :
    KeepsSound (ruleEncRegisterEventHandler hd ctx) := by
  intro s t hs h
  unfold ruleEncRegisterEventHandler at h
  split at h
  · cases h
  · cases h
    refine hs.setEnc _ rfl rfl id id fun cb hcb => ?_
    cases hcb
    exact hw

/-- `Enc.Uninitialize` cancels and forgets both timers first (rule R242). -/
theorem cancelEncTimers_sound {s : State} (hs : DriverSound s) : DriverSound (cancelEncTimers s) :=
  hs.cancelDebounce.cancelTick

theorem cancelEncTimers_enc (s : State) :
    (cancelEncTimers s).enc = { s.enc with debounceTimer := none, tickTimer := none } := by
  simp [cancelEncTimers, State.setEnc]

theorem keepsSound_encUninitialize : KeepsSound ruleEncUninitialize := by
  intro s t hs h
  unfold ruleEncUninitialize at h
  split at h
  · obtain ⟨u, hu, ht⟩ := andThen_eq_ok.1 h
    cases ht
    have hpins : Bystander (cancelEncTimers s) u :=
      (leavesDriver_pinDisconnectInterrupt clkObj)
        |>.andThen (leavesDriver_pinDisconnectInterrupt dtObj)
        |>.andThen (leavesDriver_pinDisconnectInterrupt swObj) _ u hu
    have hdestroyed := hpins.trans (destroyPins_bystander u)
    have henc := hdestroyed.enc.trans (cancelEncTimers_enc s)
    exact ((cancelEncTimers_sound hs).bystander hdestroyed).encStop
      (congrArg Enc.debounceTimer henc) (congrArg Enc.tickTimer henc)
  · cases h

/-! ### Calls, commands and operations -/

/-- A command that registers no expiry handler. -/
theorem keepsSound_command {inv : Invoker} (hi : SoundCalls inv) {i : Instr}
    (hw : ∀ w ∈ registeredWord i, NotExpiry w) : KeepsSound (command inv i) := by
  cases i with
  | icRegisterHandler id h c => exact (leavesDriver_icRegisterHandler id (hw h rfl) c).keepsSound
  | icUnregisterHandler id => exact (leavesDriver_icUnregisterHandler id).keepsSound
  | icEnableLine id => exact (leavesDriver_icEnableLine id).keepsSound
  | icDisableLine id => exact (leavesDriver_icDisableLine id).keepsSound
  | icDisableAllLines => exact leavesDriver_icDisableAllLines.keepsSound
  | icDispatch => exact keepsSound_icDispatch hi
  | icDispatchFiq => exact keepsSound_icDispatchFiq hi
  | gmInitialize => exact leavesDriver_gmInitialize.keepsSound
  | gmConnectInterrupt obj => exact (leavesDriver_gmConnectInterrupt obj).keepsSound
  | gmDisconnectInterrupt obj => exact (leavesDriver_gmDisconnectInterrupt obj).keepsSound
  | gmDispatch => exact keepsSound_gmDispatch hi
  | gmAllOff => exact leavesDriver_gmAllOff.keepsSound
  | pinAssignPin obj n => exact (leavesDriver_pinAssignPin obj n).keepsSound
  | pinSetMode obj fn p => exact (leavesDriver_pinSetMode obj fn p).keepsSound
  | pinEnableInterrupt obj types => exact (leavesDriver_pinEnableInterrupt obj types).keepsSound
  | pinDisableInterrupt obj types => exact (leavesDriver_pinDisableInterrupt obj types).keepsSound
  | pinConnectInterrupt obj a h c => exact (leavesDriver_pinConnectInterrupt obj a (hw h rfl) c).keepsSound
  | pinDisconnectInterrupt obj => exact (leavesDriver_pinDisconnectInterrupt obj).keepsSound
  | pinAcknowledgeInterrupt obj => exact (leavesDriver_pinAcknowledgeInterrupt obj).keepsSound
  | pinDispatch obj => exact keepsSound_pinDispatch hi obj
  | encInitialize sw dt clk => exact keepsSound_encInitialize sw dt clk
  | encRegisterEventHandler h c => exact keepsSound_encRegisterEventHandler (hw h rfl) c
  | encUninitialize => exact keepsSound_encUninitialize
  | memRead32 a => exact (leavesDriver_memRead32 a).keepsSound
  | memWrite32 a v => exact (leavesDriver_memWrite32 a v).keepsSound
  | evPinLevel | evIrqLine | evTimerPeriod => exact keepsSound_ok

theorem keepsSound_runBody {inv : Invoker} (hi : SoundCalls inv) {is : List Instr}
    (hw : ∀ i ∈ is, ∀ w ∈ registeredWord i, NotExpiry w) : KeepsSound (runBody inv is) := by
  induction is with
  | nil => exact keepsSound_ok
  | cons i is ih =>
    exact (keepsSound_command hi (hw i List.mem_cons_self)).andThen
      (ih fun j hj => hw j (List.mem_cons_of_mem i hj))

/-- No command of a body registers an expiry handler (rule R334). -/
theorem handlerBody_notExpiry {s : State} (h : ExpiryByTimerOnly s) (hd ctx : Word) (arg : Option AppEvent) :
    ∀ i ∈ handlerBody s.cfg hd ctx arg, ∀ w ∈ registeredWord i, NotExpiry w := by
  obtain ⟨-, -, -, hbodies⟩ := h
  intro i hi
  unfold handlerBody at hi
  split at hi
  · next e he => exact hbodies e (List.mem_of_find?_eq_some he) i (List.mem_of_mem_filter hi)
  · cases hi

theorem keepsSound_runExternal {inv : Invoker} (hi : SoundCalls inv) (hd ctx : Word) (arg : Option AppEvent) :
    KeepsSound (runExternal inv hd ctx arg) := by
  intro s t hs h
  obtain hcall | hdeep := Nat.lt_or_ge s.invokeDepth s.cfg.maxNest
  · rw [runExternal_of_callable hcall] at h
    obtain ⟨u, hu, ht⟩ := andThen_eq_ok.1 h
    cases ht
    have hentered : DriverSound (inHandler hd ctx s) := hs.bystander ⟨rfl, rfl, rfl, rfl, id, id⟩
    exact (keepsSound_runBody hi (handlerBody_notExpiry hs.expiry hd ctx arg) _ u hentered hu).bystander
      ⟨rfl, rfl, rfl, rfl, id, id⟩
  · rw [runExternal_of_deep hdeep] at h
    cases h

/-- A built-in word runs its handler: the expiry handlers where their timers have left the list. -/
theorem runBuiltin_sound {inv : Invoker} (hi : SoundCalls inv) {b : Builtin} {s t : State}
    (hr : ReadyFor (builtinWord b) s) (h : runBuiltin inv b s = .ok t) : DriverSound t := by
  cases b with
  | gm => exact keepsSound_gmDispatch hi s t (hr.other (by decide)) h
  | timer => exact keepsSound_timer hi s t (hr.other (by decide)) h
  | encClkDt => exact keepsSound_encClkDt hi s t (hr.other (by decide)) h
  | encSw => exact keepsSound_encSw s t (hr.other (by decide)) h
  | encDebounce => exact encDebounce_sound hi (hr.debounce rfl) h
  | encTick => exact encTick_sound hi (hr.tick rfl) h

theorem notExpiry_of_external {h : Word} (hc : handlerClass h = .external) : NotExpiry h := by
  refine ⟨?_, ?_⟩
  · rintro rfl
    cases hc
  · rintro rfl
    cases hc

theorem soundCalls_invokeWith {inv : Invoker} (hi : SoundCalls inv) : SoundCalls (invokeWith inv) := by
  intro hd ctx arg s t hr h
  unfold invokeWith at h
  split at h
  · next b hb =>
    obtain rfl := handlerClass_builtin.1 hb
    exact runBuiltin_sound hi hr h
  · cases h
  · next hc => exact keepsSound_runExternal hi hd ctx arg s t (hr.other (notExpiry_of_external hc)) h

theorem soundCalls_splitCall {runs calls : Invoker} (hr : SoundCalls runs) (hc : SoundCalls calls) :
    SoundCalls (splitCall runs calls) := by
  intro hd ctx arg s t hready h
  unfold splitCall at h
  split at h
  · exact hr hd ctx arg s t hready h
  · exact hc hd ctx arg s t hready h

theorem soundCalls_nestedCall {runs : Invoker} (hr : SoundCalls runs) (n : Nat) : SoundCalls (nestedCall runs n) := by
  induction n with
  | zero => exact fun _ _ _ _ _ _ h => nomatch h
  | succ n ih => exact soundCalls_invokeWith (soundCalls_splitCall hr ih)

theorem soundCalls_timedCall (n : Nat) : SoundCalls (timedCall n) := by
  induction n with
  | zero => exact fun _ _ _ _ _ _ h => nomatch h
  | succ n ih => exact fun hd ctx arg s t hr h => soundCalls_nestedCall ih _ hd ctx arg s t hr h

theorem soundCalls_invoke : SoundCalls invoke := soundCalls_timedCall tickLimit

theorem keepsSound_ruleOf {i : Instr} (hw : ∀ w ∈ registeredWord i, NotExpiry w) : KeepsSound (ruleOf i) := by
  have hcommand := keepsSound_command soundCalls_invoke hw
  cases i with
  | evPinLevel n level => exact (leavesDriver_evPinLevel n level).keepsSound
  | evIrqLine i level => exact (leavesDriver_evIrqLine i level).keepsSound
  | evTimerPeriod => exact leavesDriver_evTimerPeriod.keepsSound
  | _ => exact hcommand

/-- An operation that raises nothing has ended its rule well (rule R321). -/
theorem ruleOf_ok_of_exec {i : Instr} {s t : State} (h : exec i s = .next t) (hf : t.fault = none) :
    ruleOf i s = .ok t := by
  rw [exec_eq_perform] at h
  obtain ⟨-, ht | ⟨e, u, -, rfl⟩⟩ := perform_next h
  · exact ht
  · cases hf

theorem expiryByTimerOnly_reset : ExpiryByTimerOnly State.reset := by
  refine ⟨fun l hl r hr => ?_, fun p hp hd hhd => ?_, (fun cb hcb => nomatch hcb), fun e he => nomatch he⟩
  · obtain rfl := List.eq_of_mem_replicate hl
    cases hr
  · obtain rfl := List.eq_of_mem_replicate hp
    cases hhd

/-- Settles O58: an expiry handler runs only as its timer leaves the list, and forgets it; every other start, cancel and
write of the driver's record keeps the list and the record together, since handles are distinct. -/
theorem driverTimersMatchHandles : Obligations.DriverTimersMatchHandles := by
  refine ⟨⟨(driverTimers_iff _).2 ⟨rfl, rfl, (fun hc => nomatch hc), fun _ => ⟨rfl, rfl⟩⟩, expiryByTimerOnly_reset⟩, ?_⟩
  intro i s t hmap hord hhandles hdriver hexpiry hw hexec hfault hseq
  have hs : DriverSound s := ⟨hmap, hord, hhandles, hexpiry, fun _ => (driverTimers_iff s).1 hdriver⟩
  have ht : DriverSound t := keepsSound_ruleOf hw s t hs (ruleOf_ok_of_exec hexec hfault)
  exact ⟨(driverTimers_iff t).2 (ht.timers hseq), ht.expiry⟩

end Sys2Proof.Proofs
end

section
/-! PROOFS. The register window (spec/20_memory.md): the line that the acknowledge register and a dispatch select, raw
reads and writes, the effect of a write on each GPIO register, and the status bits of a pin without an owner. -/

namespace Sys2Proof.Proofs

open Sys2Proof.Machine Sys2Proof.Safety Sys2Proof.Laws

/-! ### The selected line (rules R78, R146, R147) -/

theorem lowestCandidate_of_first {s : State} {id : Nat} (hid : s.irqCandidate id = true)
    (hlow : ∀ j < id, s.irqCandidate j = false) : s.lowestCandidate = some id :=
  List.find?_range_eq_some.2 ⟨hid, List.mem_range.2 (lt_of_candidate hid), fun j hj => by simp [hlow j hj]⟩

theorem lowestCandidate_of_none {s : State} (h : ∀ id, s.irqCandidate id = false) : s.lowestCandidate = none :=
  List.find?_eq_none.2 fun id _ => by simp [h id]

theorem ackSelect_of_free {s : State} (h : s.icActive = none) : s.ackSelect = s.lowestCandidate := by
  rw [State.ackSelect, h]

/-- Nothing is acknowledged with no line to serve or with one in service (rule R78). -/
theorem ackSelect_eq_none {s : State} (h : (∀ id, s.irqCandidate id = false) ∨ s.icActive.isSome = true) :
    s.ackSelect = none := by
  cases hactive : s.icActive with
  | some id => rw [State.ackSelect, hactive]
  | none =>
    obtain hnone | hsome := h
    · exact (ackSelect_of_free hactive).trans (lowestCandidate_of_none hnone)
    · rw [hactive] at hsome
      cases hsome

theorem regValue_icIar_of_some {s : State} {id : Nat} (h : s.ackSelect = some id) :
    regValue s .icIar = BitVec.ofNat 32 id := by
  simp only [regValue, h]

theorem regValue_icIar_of_none {s : State} (h : s.ackSelect = none) : regValue s .icIar = s.cfg.spuriousId := by
  simp only [regValue, h]

/-- With no line selected `SelectLine` answers none; the spurious id is no line (rules R146, R147). -/
theorem selectLine_of_noneSelected {s : State} (hfit : IdsFit s) (h : NoneSelected s) : selectLine s = none := by
  cases hp : s.cfg.platformIc with
  | pendingMask =>
    have hnone : ∀ id, s.irqCandidate id = false := by simpa [NoneSelected, hp] using h
    have hbit : ∀ id, (pendBit s id && s.cfg.fiqLine != some id) = false := fun id => by
      rw [pendBit_eq]
      exact hnone id
    simp [selectLine, hp, pickPending, hbit]
  | ackRegister =>
    have hread := regValue_icIar_of_none (ackSelect_eq_none (h.imp_right And.right))
    simp only [selectLine, hp, ackedLine, hread]
    exact if_neg (Nat.not_lt.2 hfit.2)

/-- Unless no line can be served, some line is selected: the timer line or the lowest one. -/
theorem exists_selected {s : State} (h : ¬ NoneSelected s) : ∃ id, Selected s id := by
  obtain ⟨hsome, hfree⟩ := not_or.1 h
  have hex : ∃ id, s.irqCandidate id = true := by simpa using hsome
  have hlow : ∀ j < Nat.find hex, s.irqCandidate j = false := fun j hj => by simpa using Nat.find_min hex hj
  cases hp : s.cfg.platformIc with
  | pendingMask =>
    by_cases htimer : s.irqCandidate s.cfg.timerLine = true
    · exact ⟨s.cfg.timerLine, htimer, by simp [hp]⟩
    · exact ⟨Nat.find hex, Nat.find_spec hex, by simpa only [hp] using .inr ⟨by simpa using htimer, hlow⟩⟩
  | ackRegister =>
    have hactive : s.icActive = none := by simpa [hp] using hfree
    exact ⟨Nat.find hex, Nat.find_spec hex, by simpa only [hp] using ⟨hactive, hlow⟩⟩

theorem not_selected_of_noneSelected {s : State} (h : NoneSelected s) (id : Nat) : ¬ Selected s id := by
  rintro ⟨hid, hfirst⟩
  obtain hnone | ⟨hp, hactive⟩ := h
  · rw [hnone id] at hid
    cases hid
  · simp only [hp] at hfirst
    obtain ⟨hfree, -⟩ := hfirst
    rw [hfree] at hactive
    cases hactive

/-- Settles O12: either no line can be served and the answer is none, or a line is selected and it is the answer. -/
theorem selectionPriority : Obligations.SelectionPriority := by
  intro s hfit
  by_cases hnone : NoneSelected s
  · have hanswer := selectLine_of_noneSelected hfit hnone
    refine ⟨fun id => ⟨fun h => (nomatch hanswer.symm.trans h), fun h => ?_⟩, fun _ => hnone, fun _ => hanswer⟩
    exact absurd h (not_selected_of_noneSelected hnone id)
  · obtain ⟨first, hfirst⟩ := exists_selected hnone
    have hanswer := selectLine_of_selected hfit hfirst
    refine ⟨fun id => ⟨fun h => ?_, selectLine_of_selected hfit⟩, fun h => (nomatch hanswer.symm.trans h),
      fun h => absurd h hnone⟩
    obtain rfl : first = id := Option.some.inj (hanswer.symm.trans h)
    exact hfirst

/-! ### Raw accesses (rules R72, R84, R300, R301) -/

theorem addrOf_of_regAt {s : State} {a : Word} {r : Reg} (h : regAt s a = some r) : addrOf s.cfg r = a := by
  simpa using List.find?_some h

theorem checkAccess_of_regAt {s : State} {a : Word} {r : Reg} (ha : a.toNat % 4 = 0) (hr : regAt s a = some r)
    (k : Reg → Res) : checkAccess a 4 s k = k r := by
  simp [checkAccess, ha, hr]

theorem checkAccess_misaligned {s : State} {a : Word} (ha : a.toNat % 4 ≠ 0) (k : Reg → Res) :
    checkAccess a 4 s k = .raised .badAddress s := by
  simp [checkAccess, ha]

theorem checkAccess_unmapped {s : State} {a : Word} (hr : regAt s a = none) (k : Reg → Res) :
    checkAccess a 4 s k = .raised .badAddress s := by
  simp [checkAccess, hr]

/-- Only the acknowledge register's read has an effect (rule R78). -/
theorem readEffect_of_ne {r : Reg} (h : r ≠ .icIar) (s : State) : readEffect s r = s := by
  cases r with
  | icIar => exact absurd rfl h
  | _ => rfl

theorem readEffect_icIar_of_some {s : State} {id : Nat} (h : s.ackSelect = some id) :
    readEffect s .icIar = { s with icActive := some id } := by
  simp only [readEffect, h]

theorem readEffect_icIar_of_none {s : State} (h : s.ackSelect = none) : readEffect s .icIar = s := by
  simp only [readEffect, h]

/-- A raw read of a mapped address. -/
theorem exec_memRead32 {s : State} {a : Word} {r : Reg} (hs : s.fault = none) (ha : a.toNat % 4 = 0)
    (hr : regAt s a = some r) :
    exec (.memRead32 a) s = .next (withBus
      { readEffect s r with readTrace := s.readTrace ++ [⟨a, regValue s r⟩] } [.read a (regValue s r)]) := by
  refine exec_of_rule_ok hs ((checkAccess_of_regAt ha hr _).trans ?_)
  rw [memRead, addrOf_of_regAt hr]
  rfl

/-- A raw write to a mapped address. -/
theorem exec_memWrite32 {s : State} {a v : Word} {r : Reg} (hs : s.fault = none) (ha : a.toNat % 4 = 0)
    (hr : regAt s a = some r) : exec (.memWrite32 a v) s = .next (memWrite s r v) :=
  exec_of_rule_ok hs (checkAccess_of_regAt ha hr _)

theorem exec_memWrite32_effect {s : State} {a v : Word} {r : Reg} (hs : s.fault = none) (ha : a.toNat % 4 = 0)
    (hr : regAt s a = some r) : exec (.memWrite32 a v) s = .next (withBus (writeEffect s r v) [.write a v]) := by
  rw [exec_memWrite32 hs ha hr, memWrite_eq, writeOf, addrOf_of_regAt hr]

/-- Settles O20: the acknowledge read by what it selects, the end-of-interrupt write by its own effect. -/
theorem acknowledgeAndEndOfInterrupt : Obligations.AcknowledgeAndEndOfInterrupt := by
  refine ⟨fun s a hs ha hr => ⟨fun id hfree hid hlow => ?_, fun h => ?_⟩, fun s a v hs ha hr => ?_, memRead_withBus⟩
  · have hsel : s.ackSelect = some id := (ackSelect_of_free hfree).trans (lowestCandidate_of_first hid hlow)
    rw [exec_memRead32 hs ha hr, readEffect_icIar_of_some hsel, regValue_icIar_of_some hsel]
  · have hsel := ackSelect_eq_none h
    rw [exec_memRead32 hs ha hr, readEffect_icIar_of_none hsel, regValue_icIar_of_none hsel]
  · exact exec_memWrite32_effect hs ha hr

/-- Settles O51: the two checks, then the read of the register found. -/
theorem rawRead : Obligations.RawRead := by
  intro s a hs
  refine ⟨rfl, ?_⟩
  split
  · next ha => exact exec_of_rule_raised hs (checkAccess_misaligned ha _)
  · next ha =>
    have ha := not_not.1 ha
    split
    · next hr => exact exec_of_rule_raised hs (checkAccess_unmapped hr _)
    · next r hr =>
      refine ⟨⟨_, exec_memRead32 hs ha hr, rfl⟩, fun hne => ?_⟩
      rw [exec_memRead32 hs ha hr, readEffect_of_ne hne]

/-! ### The effect of a write on each GPIO register (rules R75, R76, R77, R116, R203) -/

/-- The pins that a written word names: those of its word whose bit is 1. -/
theorem pinBit_wordPins (w : Fin 2) (v : Word) (m : PinNo) :
    pinBit (wordPins w v) m = (decide (pinWord m = w) && v.getLsbD (m.val % 32)) := by
  rw [pinBit, getLsbD_wordPins]
  by_cases hw : pinWord m = w
  · subst hw
    have hle : 32 * (m.val / 32) ≤ m.val := Nat.mul_div_le m.val 32
    have hsub : m.val - 32 * (m.val / 32) = m.val % 32 := by omega
    simp [pinWord_val, hle, hsub]
  · have hne : m.val / 32 ≠ w.val := fun e => hw (Fin.ext e)
    by_cases hle : 32 * w.val ≤ m.val
    · simp [hw, BitVec.getLsbD_of_ge v _ (show 32 ≤ m.val - 32 * w.val by omega)]
    · simp [hw, hle]

/-- A status bit after a write to a status word: cleared where 1 is written, set where a level holds (rules R75,
R171). -/
theorem writeEffect_eds (s : State) (w : Fin 2) (v : Word) (m : PinNo) :
    pinBit (writeEffect s (.eds w) v).eds m =
      (pinBit s.eds m && !(decide (pinWord m = w) && v.getLsbD (m.val % 32)) ||
        pinBit (levelPins s.lev s.hen s.len) m) := by
  simp only [writeEffect, levelDetect_eds, clearBankBits, pinBit_or, pinBit_and, pinBit_not, pinBit_wordPins]

/-- The enable bits of every kind after a write to a word of one kind. -/
theorem pinBit_writeEffect_trig (s : State) (k j : TrigKind) (w : Fin 2) (v : Word) (m : PinNo) :
    pinBit ((writeEffect s (.trig k w) v).trig j) m =
      if j = k ∧ pinWord m = w then v.getLsbD (m.val % 32) else pinBit (s.trig j) m := by
  rw [writeEffect_trig]
  by_cases hj : j = k
  · subst hj
    simp only [if_true, pinBit_setBankWord, true_and]
  · simp only [hj, if_false, false_and]

/-- Level detection follows a write to an enable word of a level kind, and no other (rule R76). -/
theorem writeEffect_trig_eds (s : State) (k : TrigKind) (w : Fin 2) (v : Word) :
    (writeEffect s (.trig k w) v).eds =
      if k = .highLevel ∨ k = .lowLevel then
        s.eds ||| levelPins s.lev (writeEffect s (.trig k w) v).hen (writeEffect s (.trig k w) v).len
      else s.eds := by
  cases k <;> rfl

/-- A write to an enable word changes the enable groups and the status bits only. -/
theorem writeEffect_trig_frame (s : State) (k : TrigKind) (w : Fin 2) (v : Word) :
    { writeEffect s (.trig k w) v with
      ren := s.ren, fen := s.fen, hen := s.hen, len := s.len, aren := s.aren, afen := s.afen, eds := s.eds } = s := by
  cases k <;> rfl

theorem pudPull_getD (c : BitVec 2) (old : Pull) :
    (pudPull c).getD old = if c = 0 then .off else if c = 1 then .down else if c = 2 then .up else old := by
  unfold pudPull
  split_ifs <;> rfl

theorem pupPull_getD (c : BitVec 2) (old : Pull) :
    (pupPull c).getD old = if c = 0 then .off else if c = 1 then .up else if c = 2 then .down else old := by
  unfold pupPull
  split_ifs <;> rfl

/-- The strobe latches the pull that the selection code stands for into the pins written 1, code 3 into none (rules
R116, R203). -/
theorem getElem_strobePulls (old : Vector Pull 54) (sel : BitVec 2) (w : Fin 2) (v : Word) (m : PinNo) :
    (strobePulls old sel w v)[m] =
      if pinWord m = w ∧ v.getLsbD (m.val % 32) = true then (pudPull sel).getD old[m] else old[m] := by
  cases hsel : pudPull sel with
  | none => simp [strobePulls, hsel]
  | some p => simp [strobePulls, hsel, pinBit_wordPins]

theorem getElem_combinedPulls (old : Vector Pull 54) (p : BitVec 108) (j : Fin 4) (m : PinNo) :
    (combinedPulls old p j)[m] = if puppdnIndex m = j then (pupPull (puppdnField p m)).getD old[m] else old[m] := by
  simp [combinedPulls]

/-- Settles O52: the two checks, then the effect on the register found, register by register. -/
theorem rawWrite : Obligations.RawWrite := by
  intro s a v hs
  refine ⟨rfl, ?_⟩
  split
  · next ha => exact exec_of_rule_raised hs (checkAccess_misaligned ha _)
  · next ha =>
    have ha := not_not.1 ha
    split
    · next hr => exact exec_of_rule_raised hs (checkAccess_unmapped hr _)
    · next r hr =>
      have hends := exec_memWrite32_effect (v := v) hs ha hr
      refine ⟨⟨exec_memWrite32 hs ha hr, addrOf_of_regAt hr⟩, ?_, ?_, ?_, ?_, ?_, ?_, ?_⟩
      · rintro (⟨w, rfl⟩ | ⟨w, rfl⟩) <;> exact hends
      · rintro w rfl
        exact ⟨_, hends, writeEffect_eds s w v⟩
      · rintro k w rfl
        exact ⟨_, hends, fun j m => pinBit_writeEffect_trig s k j w v m, writeEffect_trig_eds s k w v,
          writeEffect_trig_frame s k w v⟩
      · rintro j rfl
        refine ⟨_, hends, fun m => ?_⟩
        rw [fselField_setFselWord, BitVec.setWidth_ushiftRight_eq_extractLsb]
      · rintro rfl
        exact hends
      · rintro w rfl
        refine ⟨_, _, hends, fun m => ⟨pinBit_setBankWord s.pudclk w v m, ?_⟩⟩
        rw [getElem_strobePulls, pudPull_getD]
      · rintro j rfl
        refine ⟨_, _, hends, fun m => ⟨?_, ?_⟩⟩
        · rw [puppdnField_setPuppdnWord, BitVec.setWidth_ushiftRight_eq_extractLsb]
        · rw [getElem_combinedPulls, pupPull_getD]

/-! ### A pin without an owner (rules R75, R171, R172, R176) -/

theorem clear_gmBusy {s : State} (hb : s.gmBusy = false) : { s with gmBusy := false } = s := by rw [← hb]

theorem gmDispatch_nothing_pending {s : State} (hb : s.gmBusy = false) (he : s.eds = 0) (inv : Invoker) :
    ruleGmDispatch inv s = .ok (withBus s (statusReads s)) := by
  rw [ruleGmDispatch, if_neg (by simp [hb]), (firstStatusPin_none s).2 he, readStatus_eq]
  exact congrArg (fun t => Res.ok (withBus t (statusReads s))) (clear_gmBusy hb)

/-- A dispatch by a manager that is not busy serves the first pending pin after the status reads. -/
theorem gmDispatch_of_firstPending {s : State} {n : PinNo} (hb : s.gmBusy = false) (hfirst : FirstPending s n)
    (inv : Invoker) :
    ruleGmDispatch inv s = (servePin inv n (withBus { s with gmBusy := true } (statusReads s))).andThen fun t =>
      .ok { t with gmBusy := false } := by
  rw [ruleGmDispatch, if_neg (by simp [hb]), (firstStatusPin_some s n).2 hfirst, readStatus_eq]
  rfl

/-- A pin without an owner is logged and its status bit written back (rule R176), after the accesses `l`. -/
theorem servePin_ownerless {s : State} {n : PinNo} (hslot : s.pinTable[n] = none) (l : List BusAccess) (inv : Invoker) :
    servePin inv n (withBus s l) = .ok (withBus
      { s with eds := cleared s n, logTrace := s.logTrace ++ [⟨.unregisteredPin, n.val⟩] }
      (l ++ [writeOf s.cfg (.eds (pinWord n)) (pinMask n)])) := by
  have hslot : (withBus s l).pinTable[n] = none := hslot
  rw [servePin, hslot, ackPin_cleared, ← withBus_withBus]
  rfl

/-- The state after a dispatch of a pin without an owner. -/
def ownerlessServed (s : State) (n : PinNo) : State :=
  withBus { s with eds := cleared s n, logTrace := s.logTrace ++ [⟨.unregisteredPin, n.val⟩] }
    (statusReads s ++ [writeOf s.cfg (.eds (pinWord n)) (pinMask n)])

theorem gmDispatch_ownerless {s : State} {n : PinNo} (hb : s.gmBusy = false) (hfirst : FirstPending s n)
    (hslot : s.pinTable[n] = none) (inv : Invoker) : ruleGmDispatch inv s = .ok (ownerlessServed s n) := by
  have hserve := servePin_ownerless (s := { s with gmBusy := true }) hslot (statusReads s) inv
  rw [gmDispatch_of_firstPending hb hfirst, hserve, andThen_ok]
  exact congrArg (fun u => Res.ok (ownerlessServed u n)) (clear_gmBusy hb)

/-- Settles O24: the two ends of the rule. -/
theorem gmDispatchWithoutOwner : Obligations.GmDispatchWithoutOwner := by
  intro s hs hb
  exact ⟨fun he => exec_of_rule_ok hs (gmDispatch_nothing_pending hb he invoke),
    fun n hfirst hslot => exec_of_rule_ok hs (gmDispatch_ownerless hb hfirst hslot invoke)⟩

theorem firstPending_of_onePin {s : State} {n : PinNo} (h : s.eds = onePin n) : FirstPending s n := by
  rw [FirstPending, h]
  exact ⟨by simp [pinBit_onePin], fun m hm => by simp [pinBit_onePin, hm.ne]⟩

/-- Clearing the only status bit leaves the levels that hold (rules R75, R171). -/
theorem cleared_of_onePin {s : State} {n : PinNo} (he : s.eds = onePin n) :
    cleared s n = levelPins s.lev s.hen s.len := by
  simp [cleared, he]

/-- A group with no bit set but possibly one pin's. -/
theorem eq_onePin_or_zero {b : PinBank} {n : PinNo} (h : b &&& ~~~(onePin n) = 0) :
    b = if pinBit b n = true then onePin n else 0 := by
  apply pinBit_ext
  intro m
  have hm : pinBit (b &&& ~~~(onePin n)) m = false := by rw [h, pinBit_zero]
  by_cases hmn : m = n
  · subst hmn
    cases hbit : pinBit b m
    · exact (pinBit_zero m).symm
    · simp [pinBit_onePin]
  · have hbit : pinBit b m = false := by simpa [pinBit_onePin, hmn] using hm
    split
    · rw [hbit, pinBit_onePin, decide_eq_false hmn]
    · rw [hbit, pinBit_zero]

/-- Settles O26: after the first dispatch the status bits are none or the same one, as the level says. -/
theorem noStormOnOwnerlessPin : Obligations.NoStormOnOwnerlessPin := by
  intro s n hs hb hlatch he hslot
  have hfirst : exec .gmDispatch s = .next (ownerlessServed s n) :=
    exec_of_rule_ok hs (gmDispatch_ownerless hb (firstPending_of_onePin he) hslot invoke)
  have hlevels := eq_onePin_or_zero (b := levelPins s.lev s.hen s.len) (n := n) (by rw [← he]; exact hlatch)
  have heds : (ownerlessServed s n).eds = levelPins s.lev s.hen s.len := cleared_of_onePin he
  cases hlevel : pinBit (levelPins s.lev s.hen s.len) n with
  | false =>
    have hzero : (ownerlessServed s n).eds = 0 := by rw [heds, hlevels, hlevel]; rfl
    have hsecond := exec_of_rule_ok (s := ownerlessServed s n) hs (i := .gmDispatch)
      (gmDispatch_nothing_pending (s := ownerlessServed s n) hb hzero invoke)
    refine ⟨_, _, hfirst, hsecond, rfl, fun _ => ⟨hzero, ?_, rfl⟩, fun h => nomatch h⟩
    rw [State.irqPending, hzero]
    exact if_pos rfl
  | true =>
    have hsame : (ownerlessServed s n).eds = onePin n := by rw [heds, hlevels, hlevel]; rfl
    have hsecond := exec_of_rule_ok (s := ownerlessServed s n) hs (i := .gmDispatch)
      (gmDispatch_ownerless (s := ownerlessServed s n) hb (firstPending_of_onePin hsame) hslot invoke)
    refine ⟨_, _, hfirst, hsecond, rfl, (fun h => nomatch h), fun _ => ⟨hsame.trans he.symm, ?_, rfl⟩⟩
    exact (cleared_of_onePin (s := ownerlessServed s n) hsame).trans (heds.symm.trans (hsame.trans he.symm))

end Sys2Proof.Proofs
end

section
/-! PROOFS. Operation words (spec/30_encoding.md): the decoder and the encoder are inverse to each other, illegal words,
and the calls of handler words (rule R113) that a dispatch of a line, a dispatch of a pin and the quadrature decoder
make. -/

namespace Sys2Proof.Proofs

open Sys2Proof.Machine Sys2Proof.Safety Sys2Proof.Laws

/-! ### Rows of the opcode table (rules R100, R101, R104) -/

theorem opWord_inj {op f b1 b0 op' f' b1' b0' : BitVec 8} :
    opWord op f b1 b0 = opWord op' f' b1' b0' ↔ op = op' ∧ f = f' ∧ b1 = b1' ∧ b0 = b0' := by
  refine ⟨fun h => ⟨?_, ?_, ?_, ?_⟩, by rintro ⟨rfl, rfl, rfl, rfl⟩; rfl⟩
  · simpa using congrArg (byteOf · 3) h
  · simpa using congrArg (byteOf · 2) h
  · simpa using congrArg (byteOf · 1) h
  · simpa using congrArg (byteOf · 0) h

/-- Mask and match of a row check the opcode byte and the unused bits, byte by byte. -/
theorem and_mask_iff (r : OpRow) (w : Word) :
    w &&& r.mask = r.matchWord ↔ byteOf w 3 = r.opcode ∧ r.unusedZero w = true := by
  conv_lhs => rw [← opWord_byteOf w]
  rw [OpRow.mask, OpRow.matchWord, EncodeLength.opWord_and, opWord_inj,
    show (0xFF : BitVec 8) = BitVec.allOnes 8 from rfl, BitVec.and_allOnes]
  simp [OpRow.unusedZero, and_assoc]

theorem rowOf_opcode : ∀ r ∈ opTable, rowOf r.opcode = some r := by decide

theorem rowOf_eq_some_iff {op : BitVec 8} {r : OpRow} : rowOf op = some r ↔ r ∈ opTable ∧ r.opcode = op :=
  ⟨rowOf_some, by rintro ⟨hr, rfl⟩; exact rowOf_opcode r hr⟩

/-- The row that a word matches is the row of its opcode byte. -/
theorem matches_row_iff {r : OpRow} {w : Word} :
    r ∈ opTable ∧ w &&& r.mask = r.matchWord ↔ rowOf (byteOf w 3) = some r ∧ r.unusedZero w = true := by
  rw [and_mask_iff, rowOf_eq_some_iff, and_assoc, eq_comm (a := r.opcode)]

theorem words_le_three : ∀ r ∈ opTable, r.words ≤ 3 := by decide

/-! ### Decoding by rows (rules R100, R101) -/

theorem decode_of_row {r : OpRow} {w : Word} (hrow : rowOf (byteOf w 3) = some r) (hzero : r.unusedZero w = true)
    {ops : List Word} (hlen : ops.length + 1 = r.words) (rest : List Word) :
    decode (w :: ops ++ rest) = .ok (r.build w (ops.getD 0 0) (ops.getD 1 0), rest) := by
  have hmax := words_le_three r (rowOf_some hrow).1
  match ops, hlen with
  | [], hlen => simp [decode, hrow, hzero, ← hlen]
  | [w1], hlen => simp [decode, hrow, hzero, ← hlen]
  | [w1, w2], hlen => simp [decode, hrow, hzero, ← hlen]
  | w1 :: w2 :: w3 :: ops, hlen => simp only [List.length_cons] at hlen; omega

theorem row_of_decode {ws rest : List Word} {i : Instr} (h : decode ws = .ok (i, rest)) :
    ∃ r w ops, rowOf (byteOf w 3) = some r ∧ r.unusedZero w = true ∧ ops.length + 1 = r.words ∧
      ws = w :: ops ++ rest ∧ i = r.build w (ops.getD 0 0) (ops.getD 1 0) := by
  unfold decode at h
  split at h
  · cases h
  next w tail =>
  split at h
  · cases h
  next r hrow =>
  split at h
  case isFalse => cases h
  next hzero =>
  split at h
  · next hwords => cases h; exact ⟨r, w, [], hrow, hzero, hwords.symm, rfl, rfl⟩
  · next w1 _ hwords => cases h; exact ⟨r, w, [w1], hrow, hzero, hwords.symm, rfl, rfl⟩
  · next w1 w2 _ hwords => cases h; exact ⟨r, w, [w1, w2], hrow, hzero, hwords.symm, rfl, rfl⟩
  · cases h

/-- Everything the decoder can answer: the operation that a row builds from a word it matches and from its operand
words, and the words after them. -/
theorem decode_eq_ok_iff {ws rest : List Word} {i : Instr} :
    decode ws = .ok (i, rest) ↔ ∃ r ∈ opTable, ∃ w ops, ws = w :: ops ++ rest ∧ w &&& r.mask = r.matchWord ∧
      ops.length + 1 = r.words ∧ i = r.build w (ops.getD 0 0) (ops.getD 1 0) := by
  constructor
  · intro h
    obtain ⟨r, w, ops, hrow, hzero, hlen, hws, hi⟩ := row_of_decode h
    obtain ⟨hr, hmatch⟩ := matches_row_iff.2 ⟨hrow, hzero⟩
    exact ⟨r, hr, w, ops, hws, hmatch, hlen, hi⟩
  · rintro ⟨r, hr, w, ops, rfl, hmatch, hlen, rfl⟩
    obtain ⟨hrow, hzero⟩ := matches_row_iff.1 ⟨hr, hmatch⟩
    exact decode_of_row hrow hzero hlen rest

/-! ### Operand fields of an operation word (rules R102, R103, R106, R107) -/

theorem and_ff_eq_zero {b : BitVec 8} : b &&& 0xFF = 0 ↔ b = 0 := by
  rw [show (0xFF : BitVec 8) = BitVec.allOnes 8 from rfl, BitVec.and_allOnes]

theorem id_lt (b1 b0 : BitVec 8) : (b1 ++ b0 : BitVec 16).toNat < 65536 := (b1 ++ b0).isLt

theorem byte_lt (b : BitVec 8) : b.toNat < 256 := b.isLt

theorem id_toNat (b1 b0 : BitVec 8) : (b1 ++ b0 : BitVec 16).toNat = b1.toNat * 256 + b0.toNat := by
  rw [BitVec.toNat_append, ← Nat.shiftLeft_add_eq_or_of_lt b0.isLt, Nat.shiftLeft_eq]

theorem hiByte_id (b1 b0 : BitVec 8) : hiByte (b1 ++ b0 : BitVec 16).toNat = b1 := by
  apply BitVec.eq_of_toNat_eq
  rw [hiByte, id_toNat, BitVec.toNat_ofNat]
  omega

theorem loByte_id (b1 b0 : BitVec 8) : loByte (b1 ++ b0 : BitVec 16).toNat = b0 := by
  apply BitVec.eq_of_toNat_eq
  rw [loByte, id_toNat, BitVec.toNat_ofNat]
  omega

theorem loByte_toNat (b : BitVec 8) : loByte b.toNat = b := by simp [loByte]

theorem flagByte_getElem (b : Bool) : (flagByte b)[0] = b := flagByte_bit b

/-- A byte whose unused bits are 0 is its field. -/
theorem flagByte_of_byte : ∀ f : BitVec 8, f &&& 0xFE = 0 → flagByte f[0] = f := by decide

theorem modeByte_of_byte : ∀ f : BitVec 8, f &&& 0xC8 = 0 →
    modeByte (pinFunctionOf (f.extractLsb' 0 3)) (f.extractLsb' 4 2) = f := by decide

theorem typesByte_of_byte : ∀ f : BitVec 8, f &&& 0xC0 = 0 → typesByte (f.extractLsb' 0 6) = f := by decide

/-! ### From an operation to its words and back -/

/-- The words of every operation are those of its row. -/
theorem row_of_encode (i : Instr) : EncodeLength.Statement i := by
  cases i with
  | icRegisterHandler id h c => exact EncodeLength.icRegisterHandler id h c
  | icUnregisterHandler id => exact EncodeLength.icUnregisterHandler id
  | icEnableLine id => exact EncodeLength.icEnableLine id
  | icDisableLine id => exact EncodeLength.icDisableLine id
  | icDisableAllLines => exact EncodeLength.icDisableAllLines
  | icDispatch => exact EncodeLength.icDispatch
  | icDispatchFiq => exact EncodeLength.icDispatchFiq
  | gmInitialize => exact EncodeLength.gmInitialize
  | gmConnectInterrupt obj => exact EncodeLength.gmConnectInterrupt obj
  | gmDisconnectInterrupt obj => exact EncodeLength.gmDisconnectInterrupt obj
  | gmDispatch => exact EncodeLength.gmDispatch
  | gmAllOff => exact EncodeLength.gmAllOff
  | pinAssignPin obj n => exact EncodeLength.pinAssignPin obj n
  | pinSetMode obj fn pull => exact EncodeLength.pinSetMode obj fn pull
  | pinEnableInterrupt obj types => exact EncodeLength.pinEnableInterrupt obj types
  | pinDisableInterrupt obj types => exact EncodeLength.pinDisableInterrupt obj types
  | pinConnectInterrupt obj ack h c => exact EncodeLength.pinConnectInterrupt obj ack h c
  | pinDisconnectInterrupt obj => exact EncodeLength.pinDisconnectInterrupt obj
  | pinAcknowledgeInterrupt obj => exact EncodeLength.pinAcknowledgeInterrupt obj
  | pinDispatch obj => exact EncodeLength.pinDispatch obj
  | encInitialize sw dt clk => exact EncodeLength.encInitialize sw dt clk
  | encRegisterEventHandler h c => exact EncodeLength.encRegisterEventHandler h c
  | encUninitialize => exact EncodeLength.encUninitialize
  | memRead32 a => exact EncodeLength.memRead32 a
  | memWrite32 a v => exact EncodeLength.memWrite32 a v
  | evPinLevel n level => exact EncodeLength.evPinLevel n level
  | evIrqLine id level => exact EncodeLength.evIrqLine id level
  | evTimerPeriod => exact EncodeLength.evTimerPeriod

/-- The row of an operation builds it from its words: each field is read back from its bytes. -/
theorem build_encode {i : Instr} {r : OpRow} (hw : i.wellFormed = true) (hrow : rowOf (byteOf i.opword 3) = some r) :
    r.build i.opword (i.operands.getD 0 0) (i.operands.getD 1 0) = i := by
  cases i with
    (simp only [Instr.opword, byteOf_opWord_3] at hrow
     simp only [Instr.wellFormed, idFits, objFits, pinFits, Bool.and_eq_true, decide_eq_true_eq] at hw
     simp only [Instr.opword, Instr.operands])
  | icDisableAllLines | icDispatch | icDispatchFiq | gmInitialize | gmDispatch | gmAllOff | encUninitialize
  | evTimerPeriod | encRegisterEventHandler | memRead32 | memWrite32 => cases hrow; rfl
  | icRegisterHandler | icUnregisterHandler | icEnableLine | icDisableLine =>
    cases hrow; simp [OpRow.build, id_bytes hw]
  | gmConnectInterrupt | gmDisconnectInterrupt | pinDisconnectInterrupt | pinAcknowledgeInterrupt | pinDispatch =>
    cases hrow; simp [OpRow.build, lo_byte hw]
  | pinAssignPin =>
    obtain ⟨hobj, hn⟩ := hw
    cases hrow; simp [OpRow.build, lo_byte hobj, lo_byte hn]
  | encInitialize =>
    obtain ⟨⟨hsw, hdt⟩, hclk⟩ := hw
    cases hrow; simp [OpRow.build, lo_byte hsw, lo_byte hdt, lo_byte hclk]
  | pinSetMode => cases hrow; simp [OpRow.build, lo_byte hw, modeByte_fn, modeByte_pull]
  | pinEnableInterrupt | pinDisableInterrupt => cases hrow; simp [OpRow.build, lo_byte hw, typesByte_types]
  | pinConnectInterrupt | evPinLevel => cases hrow; simp [OpRow.build, lo_byte hw, flagByte_getElem]
  | evIrqLine => cases hrow; simp [OpRow.build, id_bytes hw, flagByte_getElem]

/-- Settles O1: the operation's row matches its word, and builds it from its words. -/
theorem encodedOperationDecodes : Obligations.EncodedOperationDecodes := by
  intro i rest hw
  obtain ⟨r, hr, hrow, hmatch, hlen⟩ := row_of_encode i
  exact decode_eq_ok_iff.2 ⟨r, hr, i.opword, i.operands, rfl, hmatch, hlen, (build_encode hw hrow).symm⟩

/-! ### From words to an operation and back -/

theorem build_wellFormed (r : OpRow) (w w1 w2 : Word) : (r.build w w1 w2).wellFormed = true := by
  unfold OpRow.build
  cases r.op <;> simp [Instr.wellFormed, id_lt, byte_lt]

/-- The word of the operation that a row builds: each byte is made of its field again, and an unused byte is 0. -/
theorem build_opword {r : OpRow} (hr : r ∈ opTable) {f b1 b0 : BitVec 8} (hf : f &&& r.zeroF = 0)
    (h1 : b1 &&& r.zeroB1 = 0) (h0 : b0 &&& r.zeroB0 = 0) (w1 w2 : Word) :
    (r.build (opWord r.opcode f b1 b0) w1 w2).opword = opWord r.opcode f b1 b0 := by
  obtain ⟨op, opcode, zeroF, zeroB1, zeroB0, words⟩ := r
  cases op with
    (simp only [opTable, List.mem_cons, OpRow.mk.injEq, reduceCtorEq, false_and, true_and, false_or, or_false,
       List.not_mem_nil] at hr
     obtain ⟨rfl, rfl, rfl, rfl, rfl⟩ := hr
     simp only [and_ff_eq_zero] at hf h1 h0)
  | icDisableAllLines | icDispatch | icDispatchFiq | gmInitialize | gmDispatch | gmAllOff | encUninitialize
  | evTimerPeriod | encRegisterEventHandler | memRead32 | memWrite32 =>
    simp [OpRow.build, Instr.opword, hf, h1, h0]
  | icRegisterHandler | icUnregisterHandler | icEnableLine | icDisableLine =>
    simp [OpRow.build, Instr.opword, hf, hiByte_id, loByte_id]
  | gmConnectInterrupt | gmDisconnectInterrupt | pinDisconnectInterrupt | pinAcknowledgeInterrupt | pinDispatch =>
    simp [OpRow.build, Instr.opword, hf, loByte_toNat, h0]
  | pinAssignPin => simp [OpRow.build, Instr.opword, hf, loByte_toNat]
  | encInitialize => simp [OpRow.build, Instr.opword, loByte_toNat]
  | pinSetMode => simp [OpRow.build, Instr.opword, modeByte_of_byte f hf, loByte_toNat, h0]
  | pinEnableInterrupt | pinDisableInterrupt =>
    simp [OpRow.build, Instr.opword, typesByte_of_byte f hf, loByte_toNat, h0]
  | pinConnectInterrupt => simp [OpRow.build, Instr.opword, flagByte_of_byte f hf, loByte_toNat, h0]
  | evPinLevel => simp [OpRow.build, Instr.opword, flagByte_of_byte f hf, h1, loByte_toNat]
  | evIrqLine => simp [OpRow.build, Instr.opword, flagByte_of_byte f hf, hiByte_id, loByte_id]

/-- A row of `n` words makes the first `n - 1` operand words into operands. -/
theorem build_operands {r : OpRow} (hr : r ∈ opTable) (w w1 w2 : Word) :
    (r.build w w1 w2).operands = [w1, w2].take (r.words - 1) := by
  fin_cases hr <;> rfl

/-- The words of the operation that a row builds from a word that it matches and from its operand words. -/
theorem encode_build {r : OpRow} (hr : r ∈ opTable) {w : Word} (hmatch : w &&& r.mask = r.matchWord) {ops : List Word}
    (hlen : ops.length + 1 = r.words) : encode (r.build w (ops.getD 0 0) (ops.getD 1 0)) = w :: ops := by
  obtain ⟨hop, hzero⟩ := (and_mask_iff r w).1 hmatch
  simp only [OpRow.unusedZero, Bool.and_eq_true, beq_iff_eq] at hzero
  obtain ⟨⟨hf, h1⟩, h0⟩ := hzero
  have hword : (r.build w (ops.getD 0 0) (ops.getD 1 0)).opword = w := by
    have h := build_opword hr hf h1 h0 (ops.getD 0 0) (ops.getD 1 0)
    rwa [← hop, opWord_byteOf] at h
  have hops : (r.build w (ops.getD 0 0) (ops.getD 1 0)).operands = ops := by
    have hmax := words_le_three r hr
    rw [build_operands hr, ← hlen]
    match ops, hlen with
    | [], _ => rfl
    | [w1], _ => rfl
    | [w1, w2], _ => rfl
    | w1 :: w2 :: w3 :: ops, hlen => simp only [List.length_cons] at hlen; omega
  rw [encode, hword, hops]

/-- Settles O2: what the decoder answers was built by a row, whose fields keep every bit of the word. -/
theorem decodedOperationEncodes : Obligations.DecodedOperationEncodes := by
  intro ws rest i h
  obtain ⟨r, hr, w, ops, rfl, hmatch, hlen, rfl⟩ := decode_eq_ok_iff.1 h
  exact ⟨build_wellFormed r w _ _, by rw [encode_build hr hmatch hlen]⟩

/-- Settles O4: the decoder evaluates on each of the words. -/
theorem exampleWordsDecode : Obligations.ExampleWordsDecode :=
  ⟨rfl, rfl, rfl, rfl, rfl, rfl, rfl, rfl, rfl, rfl, rfl, rfl⟩

/-! ### Illegal words and the reserved pull code (rules R100, R105, R107, R201) -/

/-- A word that matches no row has an unassigned opcode or an unused bit that is not 0. -/
theorem fetch_of_no_row {w : Word} (h : ∀ r ∈ opTable, w &&& r.mask ≠ r.matchWord) (ws : List Word) :
    fetch (w :: ws) = .illegal w := by
  cases hrow : rowOf (byteOf w 3) with
  | none => simp [fetch, decode, hrow]
  | some r =>
    have hzero : ¬ r.unusedZero w = true := by
      intro hzero
      obtain ⟨hr, hmatch⟩ := matches_row_iff.2 ⟨hrow, hzero⟩
      exact h r hr hmatch
    simp [fetch, decode, hrow, hzero]

theorem rulePinSetMode_reservedPull {s : State} {obj : Nat} {n : PinNo} (h : AssignedTo s obj n) (fn : PinFunction) :
    rulePinSetMode obj fn 3 s = .raised .badOperand s := by
  obtain ⟨hobj, hn⟩ := h
  exact checkAssigned_some hobj hn

/-- Settles O3: the port's turn on a word without a row, the opcodes of the table, O1, and the reserved pull code. -/
theorem illegalWordRaises : Obligations.IllegalWordRaises := by
  refine ⟨fun s w ws hs hturns hport hrow => ?_, by decide, fun obj fn rest hobj => ?_, fun s obj fn n hs hn => ?_⟩
  · have hfetch : fetch s.port = .illegal w := by rw [hport, fetch_of_no_row hrow]
    rw [step_of_turns_nil hturns, portTurn_of_illegal hfetch, hport]
    exact perform_raised (s := { s with port := ws }) hs rfl
  · exact encodedOperationDecodes _ rest (decide_eq_true hobj)
  · exact exec_of_rule_raised hs (rulePinSetMode_reservedPull hn fn)

/-! ### Calls of a handler word (rules R113, R334) -/

/-- A word of the reserved range that is no built-in word. -/
theorem handlerClass_reserved {h : Word} (hh : 0xFFFF0007#32 ≤ h ∨ h = 0xFFFF0000#32) :
    handlerClass h = .reserved := by
  obtain hle | rfl := hh
  · have hne : ∀ b, h ≠ builtinWord b := by
      rintro b rfl
      cases b <;> exact absurd hle (by decide)
    have hge : 0xFFFF0000#32 ≤ h := BitVec.le_trans (by decide) hle
    simp only [handlerClass, hne, if_false, hge, if_true]
  · rfl

theorem invoke_reserved {h : Word} (hh : handlerClass h = .reserved) (ctx : Word) (arg : Option AppEvent) (s : State) :
    invoke h ctx arg s = .raised .badOperand s := by
  rw [invoke_eq, invokeWith, hh]

/-! ### `Pin.Dispatch` (rule R210) -/

theorem rulePinDispatch_ge {s : State} {obj : Nat} (hobj : s.nPinObj ≤ obj) (inv : Invoker) :
    rulePinDispatch inv obj s = .raised .badOperand s :=
  checkObj_ge hobj

theorem rulePinDispatch_untriggered {s : State} {obj : Nat} (hobj : obj < s.nPinObj)
    (hmask : (s.obj obj).triggerMask = 0) (inv : Invoker) : rulePinDispatch inv obj s = .ok s := by
  rw [rulePinDispatch, checkObj_lt hobj, if_pos hmask]

theorem rulePinDispatch_unhandled {s : State} {obj : Nat} (hobj : obj < s.nPinObj)
    (hnone : (s.obj obj).handler = none) (inv : Invoker) : rulePinDispatch inv obj s = .ok s := by
  simp [rulePinDispatch, checkObj_lt hobj, hnone]

/-- A trigger mask that is not empty lets the callback be called. -/
theorem rulePinDispatch_calls {s : State} {obj : Nat} {h : PinHandler} (hobj : obj < s.nPinObj)
    (hmask : (s.obj obj).triggerMask ≠ 0) (hsome : (s.obj obj).handler = some h) (inv : Invoker) :
    rulePinDispatch inv obj s = inv h.callback h.ctx none s := by
  rw [rulePinDispatch, checkObj_lt hobj, if_neg hmask, hsome]

/-- Settles O35: the checks of the rule, then what the call of the callback does. -/
theorem pinDispatch : Obligations.PinDispatch := by
  intro s obj hs
  refine ⟨rfl, ?_⟩
  split
  · next hobj => exact exec_of_rule_raised hs (rulePinDispatch_ge hobj invoke)
  next hobj =>
  have hobj := Nat.lt_of_not_le hobj
  split
  · next hmask => exact exec_of_rule_ok hs (rulePinDispatch_untriggered hobj hmask invoke)
  next hmask =>
  split
  · next hnone => exact exec_of_rule_ok hs (rulePinDispatch_unhandled hobj hnone invoke)
  next h hsome =>
  have hrule := rulePinDispatch_calls hobj hmask hsome invoke
  refine ⟨fun u hu => exec_of_rule_ok hs (hrule.trans hu), fun e u hu => exec_of_rule_raised hs (hrule.trans hu),
    fun hq => exec_of_rule_ok hs (hrule.trans (invoke_quiet hq)), fun hh => ?_⟩
  exact exec_of_rule_raised hs (hrule.trans (invoke_reserved (handlerClass_reserved hh) h.ctx none s))

/-! ### The CLK/DT handler (rules R112, R212, R243, R244) -/

theorem quadInput_eq (s : State) (clk dt : PinNo) :
    quadInput s clk dt = 2 * (pinBit s.lev clk).toNat + (pinBit s.lev dt).toNat := by
  simp only [quadInput, qin, regValue, bankWord_pin]

/-- The two level reads and the move of the decoder, as one update. -/
theorem afterClkDt_eq (s : State) (clk dt : PinNo) :
    afterClkDt s clk dt =
      withBus { s with enc := { s.enc with encState := qdecNext s.cfg s.enc.encState (quadInput s clk dt) } }
        [readOf s.cfg (.lev (pinWord clk)) (bankWord s.lev (pinWord clk)),
          readOf s.cfg (.lev (pinWord dt)) (bankWord s.lev (pinWord dt))] := by
  rw [afterClkDt, memRead_withBus s _ (by simp), memRead_withBus _ _ (by simp), withBus_withBus, withBus_regValue]
  rfl

/-- The access record feeds no emission. -/
theorem emitted_withBus (s : State) (l : List BusAccess) (out : Option AppEvent) :
    emitted (withBus s l) out = withBus (emitted s out) l := by
  simp only [emitted, withBus_enc]
  split <;> rfl

theorem ruleEncClkDt_off {s : State} (h : s.enc.initialized = false) (inv : Invoker) : ruleEncClkDt inv s = .ok s := by
  simp [ruleEncClkDt, h]

/-- Settles O39: the handler is the rule over the inner calls, and its event, if it has one, can be delivered. -/
theorem clkDtHandler : Obligations.ClkDtHandler := by
  refine fun s ctx arg => ⟨fun hoff => ?_, fun clk dt hon hclk hdt => ?_⟩
  · exact (invoke_builtin .encClkDt ctx arg s).trans (ruleEncClkDt_off hoff innerCall)
  · rw [← quadInput_eq]
    intro q out hemit
    have hemit' : CanEmit (afterClkDt s clk dt) out := by rw [afterClkDt_eq]; exact hemit
    have hrule : ruleEncClkDt innerCall s = .ok (emitted (afterClkDt s clk dt) out) :=
      (ruleEncClkDt_eq hon hclk hdt innerCall).trans (emitOutput_quiet hemit')
    rw [afterClkDt_eq, emitted_withBus] at hrule
    exact (invoke_builtin .encClkDt ctx arg s).trans hrule

/-! ### `IC.Dispatch` of a line with a handler (rules R145, R146, R147) -/

theorem ackSelect_of_selected {s : State} {id : Nat} (hp : s.cfg.platformIc = .ackRegister) (h : Selected s id) :
    s.ackSelect = some id := by
  obtain ⟨hid, hfirst⟩ := h
  simp only [hp] at hfirst
  obtain ⟨hfree, hlow⟩ := hfirst
  exact (ackSelect_of_free hfree).trans (lowestCandidate_of_first hid hlow)

/-- The state in which a dispatch calls the handler of the line that it has selected. -/
def servingLine (s : State) (id : Nat) : State :=
  withBus { s with inIrq := true, icActive := if s.cfg.platformIc = .ackRegister then some id else s.icActive }
    (selectReads s)

theorem selectReads_enterIrq (s : State) : selectReads s.enterIrq = selectReads s := rfl

theorem afterSelect_of_selected {s : State} {id : Nat} (h : Selected s id) :
    afterSelect s.enterIrq = servingLine s id := by
  cases hp : s.cfg.platformIc with
  | pendingMask =>
    rw [afterSelect_pendingMask (s := s.enterIrq) hp, selectReads_enterIrq, servingLine, if_neg (by simp [hp])]
    rfl
  | ackRegister =>
    have hsel : s.enterIrq.ackSelect = some id := ackSelect_of_selected hp h
    rw [afterSelect_ackRegister (s := s.enterIrq) hp, hsel, selectReads_enterIrq, servingLine, if_pos hp]
    rfl

/-- The end of a dispatch: the line completed, and the dispatch over. -/
def lineServed (u : State) (id : Nat) : State :=
  if u.cfg.platformIc = .ackRegister then
    withBus { u with inIrq := false, icActive := if u.icActive = some id then none else u.icActive }
      [writeOf u.cfg .icEoir (BitVec.ofNat 32 id)]
  else { u with inIrq := false }

theorem complete_leaveIrq {id : Nat} (hid : id < 65536) (u : State) : (complete u id).leaveIrq = lineServed u id := by
  have hnat : ((BitVec.ofNat 32 id).setWidth 16).toNat = id := by
    rw [BitVec.toNat_setWidth, BitVec.toNat_ofNat]
    omega
  cases hp : u.cfg.platformIc with
  | pendingMask => simp [complete, lineServed, hp, State.leaveIrq]
  | ackRegister =>
    simp only [complete, lineServed, hp, if_true, memWrite_eq, writeEffect, hnat]
    split <;> rfl

theorem ruleIcDispatch_of_selected {s : State} {id : Nat} {r : Registration} (hirq : s.inIrq = false)
    (hfiq : s.inFiq = false) (hfit : IdsFit s) (hsel : Selected s id) (htable : s.irqTable id = some r) :
    ruleIcDispatch invoke s =
      (invoke r.handler r.ctx none (servingLine s id)).andThen fun u => .ok (lineServed u id) := by
  have hid : id < 65536 := Nat.lt_of_lt_of_le (lt_of_candidate hsel.1) hfit.1
  have hchoice : selectLine s.enterIrq = some id := selectLine_of_selected (s := s.enterIrq) hfit hsel
  have htable' : (servingLine s id).irqTable id = some r := htable
  simp only [ruleIcDispatch, State.inDispatch, hirq, hfiq, hchoice, afterSelect_of_selected hsel, serveLine, htable',
    complete_leaveIrq hid]
  rfl

/-- A source that has not withdrawn asserts the request again when no dispatch is in progress (rule R26). -/
theorem nIrqRequest_of_candidate {s : State} {id : Nat} (hid : s.irqCandidate id = true) (hirq : s.inIrq = false)
    (hfiq : s.inFiq = false) : s.nIrqRequest = true := by
  obtain ⟨hne, hpend, hen⟩ := (irqCandidate_iff s id).1 hid
  exact (nIrqRequest_iff s).2 ⟨⟨id, lt_of_candidate hid, hne, hpend, hen⟩, hirq, hfiq⟩

/-- A served line whose handler did nothing but record its call leaves `inIrq` and the active line as they were. -/
theorem lineServed_quiet {s : State} {id : Nat} (hirq : s.inIrq = false) (hsel : Selected s id)
    (l : List Registration) :
    lineServed { servingLine s id with callTrace := l } id =
      withBus { s with callTrace := l } (selectReads s ++ completeWrites s.cfg id) := by
  cases hp : s.cfg.platformIc with
  | pendingMask => simp [lineServed, servingLine, withBus, completeWrites, hp, ← hirq]
  | ackRegister =>
    obtain ⟨-, hfirst⟩ := hsel
    simp only [hp] at hfirst
    obtain ⟨hfree, -⟩ := hfirst
    simp [lineServed, servingLine, withBus, completeWrites, hp, ← hirq, ← hfree]

/-- Settles O15: the dispatch is the handler's call, between the reads of the selection and the line's completion. -/
theorem dispatchHandler : Obligations.DispatchHandler := by
  intro s id r hs hirq hfiq hfit hsel htable called
  have hrule := ruleIcDispatch_of_selected hirq hfiq hfit hsel htable
  refine ⟨fun u hu => ?_, fun e u hu => ?_, fun hq => ⟨_, rfl, ?_, ?_⟩, fun hh => ?_⟩
  · exact exec_of_rule_ok hs (hrule.trans (congrArg (Res.andThen · _) hu))
  · exact exec_of_rule_raised hs (hrule.trans (congrArg (Res.andThen · _) hu))
  · have hcall := invoke_quiet (s := servingLine s id) hq
    rw [hcall, andThen_ok] at hrule
    rw [← lineServed_quiet hirq hsel]
    exact exec_of_rule_ok hs hrule
  · exact nIrqRequest_of_candidate (s := withBus { s with callTrace := s.callTrace ++ [r] } _) hsel.1 hirq hfiq
  · have hcall := invoke_reserved (handlerClass_reserved hh) r.ctx none called
    exact exec_of_rule_raised hs (hrule.trans (congrArg (Res.andThen · _) hcall))

end Sys2Proof.Proofs
end

section
/-! PROOFS. The interrupt controller (spec/40_irq_controller.md): registering and unregistering a handler, masking one
line or all, a dispatch that finds no line or a line without a handler, and the FIQ dispatch. -/

namespace Sys2Proof.Proofs

open Sys2Proof.Machine Sys2Proof.Safety Sys2Proof.Laws

/-! ### One line and its enable bit (rules R21, R22, R85) -/

theorem setLine_setLine (s : State) (id : Nat) (f g : IrqLine → IrqLine) :
    (s.setLine id f).setLine id g = s.setLine id (g ∘ f) := by
  simp only [State.setLine, List.modify_modify_eq]

/-- A line with its enable bit set or cleared. -/
def withEnable (b : Bool) (l : IrqLine) : IrqLine := { l with enable := b }

/-- Writing the same enable bit again changes nothing (rules R142, R143). -/
theorem setLine_withEnable_twice_lines (s : State) (id : Nat) (b : Bool) :
    ((s.setLine id (withEnable b)).setLine id (withEnable b)).lines = (s.setLine id (withEnable b)).lines :=
  congrArg State.lines (setLine_setLine s id (withEnable b) (withEnable b))

/-- `enset(id)` as one update of the line and one register write. -/
theorem enset_withBus (s : State) (id : Nat) :
    enset s id =
      withBus (s.setLine id (withEnable true)) [writeOf s.cfg (.icEnset (id / 32)) (1#32 <<< (id % 32))] :=
  enset_eq s id

/-- `enclr(id)` as one update of the line and one register write. -/
theorem enclr_withBus (s : State) (id : Nat) :
    enclr s id =
      withBus (s.setLine id (withEnable false)) [writeOf s.cfg (.icEnclr (id / 32)) (1#32 <<< (id % 32))] :=
  enclr_eq s id

theorem enset_nIrq (s : State) (id : Nat) : (enset s id).nIrq = s.nIrq := by
  rw [enset_withBus, withBus_nIrq, setLine_nIrq]

theorem enclr_nIrq (s : State) (id : Nat) : (enclr s id).nIrq = s.nIrq := by
  rw [enclr_withBus, withBus_nIrq, setLine_nIrq]

theorem enset_enset_lines (s : State) (id : Nat) : (enset (enset s id) id).lines = (enset s id).lines := by
  simp only [enset_withBus]
  exact setLine_withEnable_twice_lines s id true

theorem enclr_enclr_lines (s : State) (id : Nat) : (enclr (enclr s id) id).lines = (enclr s id).lines := by
  simp only [enclr_withBus]
  exact setLine_withEnable_twice_lines s id false

/-! ### `IC.RegisterHandler` (rule R140) -/

theorem ruleIcRegisterHandler_outOfRange {s : State} {id : Nat} (hid : s.nIrq ≤ id) (handler ctx : Word) :
    ruleIcRegisterHandler id handler ctx s = .raised .invalidIrq s :=
  if_neg (Nat.not_lt.2 hid)

theorem ruleIcRegisterHandler_bound {s : State} {id : Nat} {r : Registration} (hbound : s.irqTable id = some r)
    (handler ctx : Word) : ruleIcRegisterHandler id handler ctx s = .raised .irqAlreadyBound s := by
  rw [ruleIcRegisterHandler, if_pos (lt_of_irqTable hbound), hbound]

/-- The registration and the enable bit are written one after the other, to the same line. -/
theorem ruleIcRegisterHandler_free {s : State} {id : Nat} (hid : id < s.nIrq) (hfree : s.irqTable id = none)
    (handler ctx : Word) :
    ruleIcRegisterHandler id handler ctx s = .ok (withBus
      (s.setLine id fun l => { l with handler := some ⟨handler, ctx⟩, enable := true })
      [writeOf s.cfg (.icEnset (id / 32)) (1#32 <<< (id % 32))]) := by
  rw [ruleIcRegisterHandler, if_pos hid, hfree, enset_withBus, setLine_setLine]
  rfl

/-- Settles O8: the two checks in their order, then the registration. -/
theorem registerHandler : Obligations.RegisterHandler := by
  intro s id handler ctx hs
  refine ⟨rfl, ?_⟩
  split
  · next hid => exact exec_of_rule_raised hs (ruleIcRegisterHandler_outOfRange hid handler ctx)
  next hid =>
  split
  · next hbound =>
    obtain ⟨r, hr⟩ := Option.isSome_iff_exists.1 hbound
    exact exec_of_rule_raised hs (ruleIcRegisterHandler_bound hr handler ctx)
  · next hfree =>
    have hnone : s.irqTable id = none := Option.not_isSome_iff_eq_none.1 hfree
    exact exec_of_rule_ok hs (ruleIcRegisterHandler_free (Nat.lt_of_not_le hid) hnone handler ctx)

/-! ### `IC.UnregisterHandler` (rule R141) -/

theorem ruleIcUnregisterHandler_outOfRange {s : State} {id : Nat} (hid : s.nIrq ≤ id) :
    ruleIcUnregisterHandler id s = .raised .invalidIrq s :=
  if_neg (Nat.not_lt.2 hid)

theorem ruleIcUnregisterHandler_unbound {s : State} {id : Nat} (hid : id < s.nIrq) (hnone : s.irqTable id = none) :
    ruleIcUnregisterHandler id s = .raised .irqNotBound s := by
  rw [ruleIcUnregisterHandler, if_pos hid, hnone]

/-- The state after a handler is unregistered: the line masked and its registration cleared. -/
def unregistered (s : State) (id : Nat) : State :=
  withBus (s.setLine id fun l => { l with handler := none, enable := false })
    [writeOf s.cfg (.icEnclr (id / 32)) (1#32 <<< (id % 32))]

theorem ruleIcUnregisterHandler_bound {s : State} {id : Nat} {r : Registration} (hbound : s.irqTable id = some r) :
    ruleIcUnregisterHandler id s = .ok (unregistered s id) := by
  have hline := setLine_setLine s id (withEnable false) fun l => { l with handler := none }
  rw [ruleIcUnregisterHandler, if_pos (lt_of_irqTable hbound), hbound, enclr_withBus]
  exact congrArg (fun t => Res.ok (withBus t _)) hline

theorem unregistered_nIrq (s : State) (id : Nat) : (unregistered s id).nIrq = s.nIrq := by
  rw [unregistered, withBus_nIrq, setLine_nIrq]

theorem unregistered_irqTable {s : State} {id : Nat} (hid : id < s.nIrq) : (unregistered s id).irqTable id = none := by
  rw [unregistered, withBus_irqTable, State.irqTable, setLine_line, if_pos ⟨rfl, hid⟩]

/-- Settles O9: the two checks, and the second one again on the state that the operation leaves. -/
theorem unregisterHandler : Obligations.UnregisterHandler := by
  intro s id hs
  refine ⟨rfl, ?_⟩
  split
  · next hid => exact exec_of_rule_raised hs (ruleIcUnregisterHandler_outOfRange hid)
  next hid =>
  have hid := Nat.lt_of_not_le hid
  split
  · next hnone => exact exec_of_rule_raised hs (ruleIcUnregisterHandler_unbound hid hnone)
  · next hbound =>
    obtain ⟨r, hr⟩ := Option.ne_none_iff_exists'.1 hbound
    have hid' : id < (unregistered s id).nIrq := by rwa [unregistered_nIrq]
    have hagain := ruleIcUnregisterHandler_unbound hid' (unregistered_irqTable hid)
    exact ⟨unregistered s id, rfl, exec_of_rule_ok hs (ruleIcUnregisterHandler_bound hr),
      exec_of_rule_raised (s := unregistered s id) hs hagain⟩

/-! ### `IC.EnableLine` and `IC.DisableLine` (rules R142, R143) -/

theorem exec_icEnableLine {s : State} {id : Nat} (hs : s.fault = none) (hid : id < s.nIrq) :
    exec (.icEnableLine id) s = .next (enset s id) :=
  exec_of_rule_ok hs (if_pos hid)

theorem exec_icDisableLine {s : State} {id : Nat} (hs : s.fault = none) (hid : id < s.nIrq) :
    exec (.icDisableLine id) s = .next (enclr s id) :=
  exec_of_rule_ok hs (if_pos hid)

/-- Settles O10: both are one write to the line's word, and the second write finds the bit as the first left it. -/
theorem enableAndDisableLine : Obligations.EnableAndDisableLine := by
  intro s id hs
  refine ⟨rfl, rfl, ?_⟩
  split
  · next hid =>
    have hid := Nat.not_lt.2 hid
    exact ⟨exec_of_rule_raised hs (if_neg hid), exec_of_rule_raised hs (if_neg hid)⟩
  · next hid =>
    have hid := Nat.lt_of_not_le hid
    have hset : id < (enset s id).nIrq := by rwa [enset_nIrq]
    have hclr : id < (enclr s id).nIrq := by rwa [enclr_nIrq]
    exact ⟨⟨enset s id, _, enset_withBus s id, exec_icEnableLine hs hid, exec_icEnableLine hs hset,
        enset_enset_lines s id⟩,
      ⟨enclr s id, _, enclr_withBus s id, exec_icDisableLine hs hid, exec_icDisableLine hs hclr,
        enclr_enclr_lines s id⟩⟩

/-! ### `IC.DisableAllLines` (rule R144) -/

/-- A write of all ones to a word of a one-bit-per-id group names every id of that word (rule R85). -/
theorem idBit_ones (w id : Nat) : idBit w 0xFFFFFFFF id = decide (id / 32 = w) := by
  have hbit : id % 32 < 32 := Nat.mod_lt id (by decide)
  rw [idBit, getLsbD_ones, decide_eq_true hbit, Bool.and_true]
  exact Bool.beq_eq_decide_eq _ _

/-- The lines of the first `n` words masked. -/
def maskedBelow (s : State) (n : Nat) : State :=
  { s with lines := s.lines.mapIdx fun id l => if id / 32 < n then withEnable false l else l }

theorem maskedBelow_zero (s : State) : maskedBelow s 0 = s := by
  have hlines : s.lines.mapIdx (fun _ l => l) = s.lines := List.mapIdx_eq_iff.2 fun i => by simp
  simp [maskedBelow, hlines]

/-- Masking the next word's lines. -/
theorem writeEffect_maskedBelow (s : State) (n : Nat) :
    writeEffect (maskedBelow s n) (.icEnclr n) 0xFFFFFFFF = maskedBelow s (n + 1) := by
  simp only [writeEffect, State.writeEnable, maskedBelow, List.mapIdx_mapIdx, idBit_ones]
  congr 2
  funext id l
  rcases Nat.lt_trichotomy (id / 32) n with hlt | heq | hgt
  · simp [hlt, hlt.ne, Nat.lt_succ_of_lt hlt]
  · simp [heq, withEnable]
  · simp [hgt.ne', Nat.not_lt.2 hgt.le, show ¬ id / 32 < n + 1 by omega]

/-- The first `n` writes mask the lines of the first `n` words. -/
theorem clearEnableWords_eq (s : State) (n : Nat) :
    clearEnableWords s n =
      withBus (maskedBelow s n) ((List.range n).map fun w => writeOf s.cfg (.icEnclr w) 0xFFFFFFFF) := by
  induction n with
  | zero => simp [clearEnableWords, maskedBelow_zero]
  | succ n ih =>
    rw [clearEnableWords, ih, memWrite_withBus, writeEffect_maskedBelow, List.range_succ, List.map_append]
    rfl

/-- The words of the controller hold every line (rule R85). -/
theorem maskedBelow_icWords (s : State) :
    maskedBelow s (icWords s.nIrq) = { s with lines := s.lines.map (withEnable false) } := by
  rw [maskedBelow]
  congr 1
  apply List.ext_getElem
  · simp
  · intro id hid _
    have hword : id / 32 < icWords s.nIrq := word_lt_icWords (by simpa [State.nIrq] using hid)
    simp [hword]

/-- Settles O11: one write for each word, and every line is in one of the words. -/
theorem disableAllLines : Obligations.DisableAllLines := by
  intro s hs
  have hwords := clearEnableWords_eq s (icWords s.nIrq)
  rw [maskedBelow_icWords] at hwords
  exact ⟨rfl, exec_of_rule_ok hs (congrArg Res.ok hwords)⟩

/-! ### A dispatch with no line to serve (rules R145, R146, R147) -/

/-- With no line to serve the reads of the selection mark no line active (rule R78). -/
theorem afterSelect_of_noneSelected {s : State} (h : NoneSelected s) : afterSelect s = withBus s (selectReads s) := by
  cases hp : s.cfg.platformIc with
  | pendingMask => exact afterSelect_pendingMask hp
  | ackRegister =>
    have hnone : s.ackSelect = none := ackSelect_eq_none (h.imp_right And.right)
    rw [afterSelect_ackRegister hp, hnone]

theorem leaveIrq_enterIrq {s : State} (hirq : s.inIrq = false) : s.enterIrq.leaveIrq = s := by
  rw [State.leaveIrq, State.enterIrq, ← hirq]

theorem not_inDispatch {s : State} (hirq : s.inIrq = false) (hfiq : s.inFiq = false) : ¬ s.inDispatch = true := by
  simp [State.inDispatch, hirq, hfiq]

theorem ruleIcDispatch_of_noneSelected {s : State} (hirq : s.inIrq = false) (hfiq : s.inFiq = false) (hfit : IdsFit s)
    (hnone : NoneSelected s) (inv : Invoker) : ruleIcDispatch inv s = .ok (withBus s (selectReads s)) := by
  rw [ruleIcDispatch, if_neg (not_inDispatch hirq hfiq), selectLine_of_noneSelected (s := s.enterIrq) hfit hnone,
    afterSelect_of_noneSelected (s := s.enterIrq) hnone, selectReads_enterIrq]
  exact congrArg (fun t => Res.ok (withBus t (selectReads s))) (leaveIrq_enterIrq hirq)

/-- Settles O13: the reads of the selection, between the entry and the return that cancel out. -/
theorem dispatchWithoutRequest : Obligations.DispatchWithoutRequest := by
  intro s hs hirq hfiq hfit hnone
  exact exec_of_rule_ok hs (ruleIcDispatch_of_noneSelected hirq hfiq hfit hnone invoke)

/-! ### A line without a handler (rules R145, R148, R323) -/

/-- The unhandled path as one update: a log record and the line masked. -/
theorem unhandled_eq (s : State) (id : Nat) :
    unhandled s id = withBus ((s.log .unhandledIrq id).setLine id (withEnable false))
      [writeOf s.cfg (.icEnclr (id / 32)) (1#32 <<< (id % 32))] :=
  enclr_withBus (s.log .unhandledIrq id) id

theorem serveLine_unhandled {s : State} {id : Nat} (hnone : s.irqTable id = none) (inv : Invoker) :
    serveLine inv id s = .ok (unhandled s id) := by
  rw [serveLine, hnone]

theorem serveLine_handled {s : State} {id : Nat} {r : Registration} (hsome : s.irqTable id = some r) (inv : Invoker) :
    serveLine inv id s = inv r.handler r.ctx none s := by
  rw [serveLine, hsome]

/-- The state after a dispatch of a line without a handler. -/
def unhandledServed (s : State) (id : Nat) : State :=
  withBus ((s.log .unhandledIrq id).setLine id (withEnable false))
    (selectReads s ++ [writeOf s.cfg (.icEnclr (id / 32)) (1#32 <<< (id % 32))] ++ completeWrites s.cfg id)

/-- Completing the unhandled line undoes what entry and selection did to `inIrq` and the active line. -/
theorem lineServed_unhandled {s : State} {id : Nat} (hirq : s.inIrq = false) (hsel : Selected s id) :
    lineServed (unhandled (servingLine s id) id) id = unhandledServed s id := by
  rw [unhandled_eq]
  cases hp : s.cfg.platformIc with
  | pendingMask =>
    simp [lineServed, servingLine, unhandledServed, withBus, completeWrites, State.log, State.setLine, hp, ← hirq]
  | ackRegister =>
    obtain ⟨-, hfirst⟩ := hsel
    simp only [hp] at hfirst
    obtain ⟨hfree, -⟩ := hfirst
    simp [lineServed, servingLine, unhandledServed, withBus, completeWrites, State.log, State.setLine, hp, ← hirq,
      ← hfree]

/-- A selected line is served between the reads of the selection and the line's completion (rule R145). -/
theorem ruleIcDispatch_serves {s : State} {id : Nat} (hirq : s.inIrq = false) (hfiq : s.inFiq = false)
    (hfit : IdsFit s) (hsel : Selected s id) (inv : Invoker) :
    ruleIcDispatch inv s = (serveLine inv id (servingLine s id)).andThen fun u => .ok (lineServed u id) := by
  have hid : id < 65536 := Nat.lt_of_lt_of_le (lt_of_candidate hsel.1) hfit.1
  rw [ruleIcDispatch, if_neg (not_inDispatch hirq hfiq), selectLine_of_selected (s := s.enterIrq) hfit hsel,
    afterSelect_of_selected hsel]
  simp only [complete_leaveIrq hid]

theorem ruleIcDispatch_unhandled {s : State} {id : Nat} (hirq : s.inIrq = false) (hfiq : s.inFiq = false)
    (hfit : IdsFit s) (hsel : Selected s id) (hnone : s.irqTable id = none) (inv : Invoker) :
    ruleIcDispatch inv s = .ok (unhandledServed s id) := by
  rw [ruleIcDispatch_serves hirq hfiq hfit hsel, serveLine_unhandled (s := servingLine s id) hnone, andThen_ok,
    lineServed_unhandled hirq hsel]

/-- A line that is masked is not effective (rule R26). -/
theorem unhandledServed_eff {s : State} {id : Nat} (hid : id < s.nIrq) : (unhandledServed s id).eff id = false := by
  have henable : (unhandledServed s id).irqEnable id = false := by
    have hline := setLine_line (s.log .unhandledIrq id) id id (withEnable false)
    rw [if_pos ⟨rfl, hid⟩] at hline
    exact congrArg IrqLine.enable hline
  rw [State.eff, henable, Bool.and_false]

/-- Only an effective line is selected (rules R26, R146). -/
theorem not_selected_of_not_eff {s : State} {id : Nat} (h : s.eff id = false) : ¬ Selected s id := by
  rintro ⟨hcandidate, -⟩
  simp [State.irqCandidate, h] at hcandidate

/-- Settles O14: the reads, the unhandled path and the completion; masking takes the line out of the selection. -/
theorem dispatchUnhandledLine : Obligations.DispatchUnhandledLine := by
  intro s id hs hirq hfiq hfit hsel hnone
  have heff : (unhandledServed s id).eff id = false := unhandledServed_eff (lt_of_candidate hsel.1)
  exact ⟨unhandledServed s id, rfl,
    exec_of_rule_ok hs (ruleIcDispatch_unhandled hirq hfiq hfit hsel hnone invoke), heff,
    not_selected_of_not_eff heff⟩

/-! ### `IC.DispatchFiq` (rules R148, R150, R321, R334) -/

theorem eff_iff (s : State) (id : Nat) : s.eff id = true ↔ s.irqPending id = true ∧ s.irqEnable id = true :=
  Bool.and_eq_true_iff

theorem ruleIcDispatchFiq_noLine {s : State} (hd : ¬ s.inDispatch = true) (hnone : s.cfg.fiqLine = none)
    (inv : Invoker) : ruleIcDispatchFiq inv s = .ok s := by
  rw [ruleIcDispatchFiq, if_neg hd, hnone]

theorem ruleIcDispatchFiq_quietLine {s : State} {f : Nat} (hd : ¬ s.inDispatch = true) (hline : s.cfg.fiqLine = some f)
    (heff : ¬ s.eff f = true) (inv : Invoker) : ruleIcDispatchFiq inv s = .ok s := by
  simp only [ruleIcDispatchFiq, if_neg hd, hline, if_neg heff]

/-- An effective FIQ line is served between entry and return. -/
theorem ruleIcDispatchFiq_serves {s : State} {f : Nat} (hd : ¬ s.inDispatch = true) (hline : s.cfg.fiqLine = some f)
    (heff : s.eff f = true) (inv : Invoker) :
    ruleIcDispatchFiq inv s = (serveLine inv f s.enterFiq).andThen fun t => .ok t.leaveFiq := by
  simp only [ruleIcDispatchFiq, if_neg hd, hline, if_pos heff]

theorem leaveFiq_enterFiq {s : State} (hfiq : s.inFiq = false) : s.enterFiq.leaveFiq = s := by
  rw [State.leaveFiq, State.enterFiq, ← hfiq]

/-- The unhandled path does not look at the FIQ flag. -/
theorem leaveFiq_unhandled_enterFiq {s : State} (hfiq : s.inFiq = false) (id : Nat) :
    (unhandled s.enterFiq id).leaveFiq = unhandled s id := by
  simp only [unhandled_eq]
  exact congrArg (fun t : State => withBus ((t.log .unhandledIrq id).setLine id (withEnable false))
    [writeOf s.cfg (.icEnclr (id / 32)) (1#32 <<< (id % 32))]) (leaveFiq_enterFiq hfiq)

/-- A quiet handler's call is recorded, and the flag is as it was. -/
theorem ruleIcDispatchFiq_quietCall {s : State} {r : Registration} (hfiq : s.inFiq = false)
    (hrule : ruleIcDispatchFiq invoke s =
      (invoke r.handler r.ctx none s.enterFiq).andThen fun t => .ok t.leaveFiq)
    (hq : CallableQuietly s r.handler r.ctx none) :
    ruleIcDispatchFiq invoke s = .ok { s with callTrace := s.callTrace ++ [r] } := by
  rw [hrule, invoke_quiet (s := s.enterFiq) hq]
  exact congrArg (fun t : State => Res.ok { t with callTrace := s.callTrace ++ [r] }) (leaveFiq_enterFiq hfiq)

/-- Settles O17: the checks of the rule; an effective line is served by the unhandled path or by its handler's call. -/
theorem dispatchFiq : Obligations.DispatchFiq := by
  intro s hs
  refine ⟨rfl, ?_⟩
  split
  · next hd => exact exec_of_rule_raised hs (icDispatchFiq_nested hd invoke)
  next hd =>
  obtain ⟨hirq, hfiq⟩ : s.inIrq = false ∧ s.inFiq = false := by simpa using hd
  have hd := not_inDispatch hirq hfiq
  split
  · next hnone => exact exec_of_rule_ok hs (ruleIcDispatchFiq_noLine hd hnone invoke)
  next f hline =>
  split
  next hpend =>
    have hserves := ruleIcDispatchFiq_serves hd hline ((eff_iff s f).2 hpend) invoke
    split
    · next hnone =>
      rw [serveLine_unhandled (s := s.enterFiq) hnone, andThen_ok, leaveFiq_unhandled_enterFiq hfiq,
        unhandled_eq] at hserves
      exact exec_of_rule_ok hs hserves
    · next r hsome =>
      rw [serveLine_handled (s := s.enterFiq) hsome] at hserves
      refine ⟨fun u hu => ?_, fun e u hu => ?_, fun hq => ?_⟩
      · exact exec_of_rule_ok hs (hserves.trans (congrArg (Res.andThen · _) hu))
      · exact exec_of_rule_raised hs (hserves.trans (congrArg (Res.andThen · _) hu))
      · exact exec_of_rule_ok hs (ruleIcDispatchFiq_quietCall hfiq hserves hq)
  · next hpend =>
    have heff := mt (eff_iff s f).1 hpend
    exact exec_of_rule_ok hs (ruleIcDispatchFiq_quietLine hd hline heff invoke)

end Sys2Proof.Proofs
end

section
/-! PROOFS. The GPIO manager (spec/41_gpio_manager.md): level stimuli, registering the manager, the pin table, the
dispatch of a pin with an owner, and switching all pins off. -/

namespace Sys2Proof.Proofs

open Sys2Proof.Machine Sys2Proof.Safety Sys2Proof.Laws

/-! ### `GM.Dispatch` of a pin with an owner (rules R176, R210, R321, R334) -/

/-- The state after a pin of this handler is served: acknowledged if the auto-acknowledge flag is set. -/
def autoAcked (h : PinHandler) (n : PinNo) (u : State) : State :=
  if h.autoAck then withBus { u with eds := cleared u n } [writeOf u.cfg (.eds (pinWord n)) (pinMask n)] else u

/-- The acknowledge does not look at the manager's flag. -/
theorem autoAcked_clear_gmBusy (h : PinHandler) (n : PinNo) (u : State) :
    { autoAcked h n u with gmBusy := false } = autoAcked h n { u with gmBusy := false } := by
  unfold autoAcked
  split <;> rfl

/-- A pin whose owner has a handler: the owner's dispatch, then the acknowledge. -/
theorem servePin_handled {s : State} {n : PinNo} {obj : Nat} {h : PinHandler} (hslot : s.pinTable[n] = some obj)
    (hsome : (s.obj obj).handler = some h) (inv : Invoker) :
    servePin inv n s = (rulePinDispatch inv obj s).andThen fun t => .ok (autoAcked h n t) := by
  have hflag : autoAckOf (s.obj obj) = h.autoAck := by rw [autoAckOf, hsome]
  simp only [servePin, hslot, hflag, ackPin_cleared]
  rfl

theorem servePin_unhandled {s : State} {n : PinNo} {obj : Nat} (hslot : s.pinTable[n] = some obj)
    (hobj : obj < s.nPinObj) (hnone : (s.obj obj).handler = none) (inv : Invoker) : servePin inv n s = .ok s := by
  have hflag : autoAckOf (s.obj obj) = false := by rw [autoAckOf, hnone]
  simp only [servePin, hslot, hflag, rulePinDispatch_unhandled hobj hnone, andThen_ok]
  rfl

/-- Settles O25: between the status reads and the end of the dispatch, the owner's own dispatch and the acknowledge. -/
theorem gmDispatchOwner : Obligations.GmDispatchOwner := by
  intro s n obj hs hb hfirst hslot hobj busy
  have hserves := gmDispatch_of_firstPending hb hfirst invoke
  have hidle : { busy with gmBusy := false } = withBus s (statusReads s) :=
    congrArg (withBus · (statusReads s)) (clear_gmBusy hb)
  split
  · next hnone =>
    rw [servePin_unhandled (s := busy) hslot hobj hnone, andThen_ok, hidle] at hserves
    exact exec_of_rule_ok hs hserves
  next h hsome =>
  rw [servePin_handled (s := busy) hslot hsome] at hserves
  intro acked
  split
  · next hmask =>
    rw [rulePinDispatch_untriggered (s := busy) hobj hmask, andThen_ok, andThen_ok, autoAcked_clear_gmBusy,
      hidle] at hserves
    exact exec_of_rule_ok hs hserves
  next hmask =>
  rw [rulePinDispatch_calls (s := busy) hobj hmask hsome] at hserves
  refine ⟨fun u hu => ?_, fun e u hu => ?_, fun hq => ?_⟩
  · rw [hu] at hserves
    exact exec_of_rule_ok hs hserves
  · rw [hu] at hserves
    exact exec_of_rule_raised hs hserves
  · have hcall : invoke h.callback h.ctx none busy = .ok (recordCall h.callback h.ctx busy) := invoke_quiet hq
    have hcalled : { recordCall h.callback h.ctx busy with gmBusy := false } =
        withBus (recordCall h.callback h.ctx s) (statusReads s) := congrArg (recordCall h.callback h.ctx) hidle
    rw [hcall, andThen_ok, andThen_ok, autoAcked_clear_gmBusy, hcalled] at hserves
    exact exec_of_rule_ok hs hserves

/-! ### `GM.AllOff` (rules R177, R203) -/

theorem pulls_ext {p q : Vector Pull 54} (h : ∀ m : PinNo, p[m] = q[m]) : p = q :=
  Vector.ext fun i hi => h ⟨i, hi⟩

/-- A strobe of Off into every pin of a word. -/
theorem getElem_strobePulls_off (old : Vector Pull 54) (w : Fin 2) (m : PinNo) :
    (strobePulls old 0 w 0xFFFFFFFF)[m] = if pinWord m = w then .off else old[m] := by
  have hbit : m.val % 32 < 32 := Nat.mod_lt _ (by decide)
  rw [getElem_strobePulls, getLsbD_ones, decide_eq_true hbit]
  simp [pudPull]

theorem strobePulls_off_both (old : Vector Pull 54) :
    strobePulls (strobePulls old 0 0 0xFFFFFFFF) 0 1 0xFFFFFFFF = Vector.replicate 54 .off := by
  apply pulls_ext
  intro m
  have hword : pinWord m = 0 ∨ pinWord m = 1 := by omega
  rw [getElem_strobePulls_off, getElem_strobePulls_off]
  rcases hword with h | h <;> simp [h]

theorem setBankWord_zero_both (b : PinBank) : setBankWord (setBankWord b 0 0) 1 0 = 0 := by
  apply pinBit_ext
  intro m
  have hword : pinWord m = 0 ∨ pinWord m = 1 := by omega
  rw [pinBit_setBankWord, pinBit_setBankWord, pinBit_zero]
  rcases hword with h | h <;> simp [h]

/-- The pull half of `GM.AllOff` under LegacyStrobe as one update, after the accesses `l`. -/
theorem strobeAllOff_withBus (s : State) (l : List BusAccess) :
    strobeAllOff (withBus s l) = withBus { s with pud := 0, pudclk := 0, pullState := Vector.replicate 54 .off }
      (l ++ [writeOf s.cfg .pud 0, writeOf s.cfg (.pudclk 0) 0xFFFFFFFF, writeOf s.cfg (.pudclk 1) 0xFFFFFFFF,
        writeOf s.cfg (.pudclk 0) 0, writeOf s.cfg (.pudclk 1) 0]) := by
  have hpud : ((0 : Word).setWidth 2 : BitVec 2) = 0 := rfl
  simp only [strobeAllOff, strobeWait, memWrite_withBus, writeEffect, hpud, strobePulls_off_both, strobePulls_none,
    setBankWord_zero_both, List.append_assoc]
  rfl

/-- The pulls with those of the pins of one pull word switched off. -/
def pullsOffIn (j : Fin 4) (old : Vector Pull 54) : Vector Pull 54 :=
  Vector.ofFn fun m => if puppdnIndex m = j then .off else old[m]

theorem getElem_pullsOffIn (j : Fin 4) (old : Vector Pull 54) (m : PinNo) :
    (pullsOffIn j old)[m] = if puppdnIndex m = j then .off else old[m] :=
  Vector.getElem_ofFn m.isLt

/-- A pull word written 0 switches off the pulls of its pins (rule R203). -/
theorem combinedPulls_zero (old : Vector Pull 54) (p : BitVec 108) (j : Fin 4) :
    combinedPulls old (setPuppdnWord p j 0) j = pullsOffIn j old := by
  apply pulls_ext
  intro m
  rw [getElem_combinedPulls, puppdnField_setPuppdnWord, getElem_pullsOffIn]
  split
  · simp [pupPull]
  · rfl

/-- Every pin is in one of the four pull words. -/
theorem pullsOffIn_all (old : Vector Pull 54) :
    pullsOffIn 3 (pullsOffIn 2 (pullsOffIn 1 (pullsOffIn 0 old))) = Vector.replicate 54 .off := by
  apply pulls_ext
  intro m
  have hword : puppdnIndex m = 0 ∨ puppdnIndex m = 1 ∨ puppdnIndex m = 2 ∨ puppdnIndex m = 3 := by omega
  simp only [getElem_pullsOffIn]
  rcases hword with h | h | h | h <;> simp [h]

/-- The pull half of `GM.AllOff` under Combined2Bit as one update, after the accesses `l`. -/
theorem clearPuppdn_withBus (s : State) (l : List BusAccess) :
    clearPuppdn (withBus s l) [0, 1, 2, 3] = withBus { s with puppdn := 0, pullState := Vector.replicate 54 .off }
      (l ++ ([0, 1, 2, 3] : List (Fin 4)).map fun j => writeOf s.cfg (.puppdn j) 0) := by
  simp only [clearPuppdn, List.foldl_cons, List.foldl_nil, memWrite_withBus, writeEffect, combinedPulls_zero,
    pullsOffIn_all, List.append_assoc]
  rw [setPuppdnWord_zero_all]
  rfl

/-- Settles O27: the function half, then the pull half of the pull style. -/
theorem gmAllOff : Obligations.GmAllOff := by
  intro s hs
  refine ⟨rfl, ?_⟩
  intro fselWrites
  have hfsel : clearFsel s [0, 1, 2, 3, 4, 5] = withBus { s with fsel := 0 } fselWrites := clearFsel_eq s
  have hcfg : (clearFsel s [0, 1, 2, 3, 4, 5]).cfg = s.cfg := by rw [hfsel]; rfl
  split
  · next hstyle =>
    have hrule : ruleGmAllOff s = .ok (strobeAllOff (clearFsel s [0, 1, 2, 3, 4, 5])) := by
      simp only [ruleGmAllOff, hcfg, hstyle]
    rw [hfsel, strobeAllOff_withBus] at hrule
    exact exec_of_rule_ok hs hrule
  · next hstyle =>
    have hrule : ruleGmAllOff s = .ok (clearPuppdn (clearFsel s [0, 1, 2, 3, 4, 5]) [0, 1, 2, 3]) := by
      simp only [ruleGmAllOff, hcfg, hstyle]
    rw [hfsel, clearPuppdn_withBus] at hrule
    exact exec_of_rule_ok hs hrule

/-! ### `Ev.PinLevel` (rules R170, R171) -/

theorem edgeDetected_eq (s : State) (n : PinNo) (level : Bool) :
    edgeDetected s n level =
      (!pinBit s.lev n && level && (pinBit s.ren n || pinBit s.aren n) ||
        pinBit s.lev n && !level && (pinBit s.fen n || pinBit s.afen n)) := by
  cases level <;> simp [edgeDetected]

/-- A status bit that an edge of pin `n` may set. -/
theorem pinBit_latched (b : PinBank) (n m : PinNo) (edge : Bool) :
    pinBit (if edge then setPinBit b n true else b) m = (pinBit b m || decide (m = n) && edge) := by
  cases edge
  · simp
  · by_cases hmn : m = n <;> simp [pinBit_setPinBit, hmn]

/-- Settles O54: the stimulus as one update of the levels and the status bits, read pin by pin. -/
theorem pinLevelStimulus : Obligations.PinLevelStimulus := by
  intro s n level hs
  split
  next h =>
    intro old
    refine ⟨_, _, exec_of_rule_ok hs (dif_pos h), fun m => ?_, fun m => ?_⟩
    · rw [pinBit_setPinBit]
      simp only [Fin.ext_iff]
    · rw [pinBit_or, pinBit_latched, pinBit_levelPins, edgeDetected_eq]
      by_cases hmn : m = ⟨n, h⟩
      · subst hmn
        simp [old]
      · have hval : m.val ≠ n := fun e => hmn (Fin.ext e)
        simp [hmn, hval]
  next h => exact exec_of_rule_ok hs (dif_neg h)

/-! ### `GM.Initialize` (rules R140, R173) -/

theorem ruleGmInitialize_again {s : State} (h : s.gmInitialized = true) : ruleGmInitialize s = .ok s := if_pos h

theorem ruleGmInitialize_bound {s : State} {r : Registration} (h : ¬ s.gmInitialized = true)
    (hbound : s.irqTable s.cfg.gpioLine = some r) : ruleGmInitialize s = .raised .irqAlreadyBound s := by
  rw [ruleGmInitialize, if_neg h, ruleIcRegisterHandler_bound hbound, andThen_raised]

/-- The state after the first call on a free line. -/
def gmRegistered (s : State) : State :=
  withBus
    { s with
      lines := s.lines.modify s.cfg.gpioLine fun l => { l with handler := some ⟨builtinWord .gm, 0⟩, enable := true }
      gmInitialized := true }
    [writeOf s.cfg (.icEnset (s.cfg.gpioLine / 32)) (1#32 <<< (s.cfg.gpioLine % 32))]

theorem ruleGmInitialize_free {s : State} (h : ¬ s.gmInitialized = true) (hline : s.cfg.gpioLine < s.nIrq)
    (hfree : s.irqTable s.cfg.gpioLine = none) :
    ruleGmInitialize s = .ok (gmRegistered s) := by
  rw [ruleGmInitialize, if_neg h, ruleIcRegisterHandler_free hline hfree]
  rfl

/-- Settles O22: the flag, then the registration of the GPIO line (rule R140). -/
theorem gmInitialize : Obligations.GmInitialize := by
  intro s hs hline
  refine ⟨rfl, ?_⟩
  split
  · next hinit => exact exec_of_rule_ok hs (ruleGmInitialize_again hinit)
  next hinit =>
  split
  · next hbound =>
    obtain ⟨r, hr⟩ := Option.isSome_iff_exists.1 hbound
    exact exec_of_rule_raised hs (ruleGmInitialize_bound hinit hr)
  · next hfree =>
    have hnone := Option.not_isSome_iff_eq_none.1 hfree
    exact ⟨gmRegistered s, rfl, exec_of_rule_ok hs (ruleGmInitialize_free hinit hline hnone),
      exec_of_rule_ok (s := gmRegistered s) hs (ruleGmInitialize_again (s := gmRegistered s) rfl)⟩

/-! ### The pin table (rules R174, R175) -/

theorem ruleGmConnectInterrupt_outOfRange {s : State} {obj : Nat} (hobj : s.nPinObj ≤ obj) :
    ruleGmConnectInterrupt obj s = .raised .badOperand s :=
  checkAssigned_ge hobj

theorem ruleGmConnectInterrupt_unassigned {s : State} {obj : Nat} (hobj : obj < s.nPinObj)
    (hpin : (s.obj obj).pinNumber = none) : ruleGmConnectInterrupt obj s = .raised .pinUnassigned s :=
  checkAssigned_none hobj hpin

theorem ruleGmConnectInterrupt_bound {s : State} {obj o : Nat} {n : PinNo} (hpin : (s.obj obj).pinNumber = some n)
    (hslot : s.pinTable[n] = some o) : ruleGmConnectInterrupt obj s = .raised .pinSlotBound s := by
  rw [ruleGmConnectInterrupt, checkAssigned_some (obj_lt_of_pinNumber hpin) hpin, hslot]

theorem ruleGmConnectInterrupt_free {s : State} {obj : Nat} {n : PinNo} (hpin : (s.obj obj).pinNumber = some n)
    (hslot : s.pinTable[n] = none) : ruleGmConnectInterrupt obj s = .ok (s.setSlot n (some obj)) := by
  rw [ruleGmConnectInterrupt, checkAssigned_some (obj_lt_of_pinNumber hpin) hpin, hslot]

theorem ruleGmDisconnectInterrupt_outOfRange {s : State} {obj : Nat} (hobj : s.nPinObj ≤ obj) :
    ruleGmDisconnectInterrupt obj s = .raised .badOperand s :=
  checkAssigned_ge hobj

theorem ruleGmDisconnectInterrupt_unassigned {s : State} {obj : Nat} (hobj : obj < s.nPinObj)
    (hpin : (s.obj obj).pinNumber = none) : ruleGmDisconnectInterrupt obj s = .raised .pinUnassigned s :=
  checkAssigned_none hobj hpin

theorem ruleGmDisconnectInterrupt_other {s : State} {obj : Nat} {n : PinNo} (hpin : (s.obj obj).pinNumber = some n)
    (hslot : s.pinTable[n] ≠ some obj) : ruleGmDisconnectInterrupt obj s = .raised .pinSlotUnbound s := by
  rw [ruleGmDisconnectInterrupt, checkAssigned_some (obj_lt_of_pinNumber hpin) hpin, if_neg hslot]

theorem ruleGmDisconnectInterrupt_owner {s : State} {obj : Nat} {n : PinNo} (hpin : (s.obj obj).pinNumber = some n)
    (hslot : s.pinTable[n] = some obj) : ruleGmDisconnectInterrupt obj s = .ok (s.setSlot n none) := by
  rw [ruleGmDisconnectInterrupt, checkAssigned_some (obj_lt_of_pinNumber hpin) hpin, if_pos hslot]

theorem setSlot_getElem (s : State) (n : PinNo) (v : Option Nat) : (s.setSlot n v).pinTable[n] = v :=
  Vector.getElem_set_self n.isLt

/-- Settles O23: the object's checks, then its slot; a second disconnect finds the slot empty. -/
theorem gmConnectAndDisconnect : Obligations.GmConnectAndDisconnect := by
  intro s obj hs
  refine ⟨rfl, rfl, ?_⟩
  split
  · next hobj =>
    exact ⟨exec_of_rule_raised hs (ruleGmConnectInterrupt_outOfRange hobj),
      exec_of_rule_raised hs (ruleGmDisconnectInterrupt_outOfRange hobj)⟩
  next hobj =>
  have hobj := Nat.lt_of_not_le hobj
  split
  · next hpin =>
    exact ⟨exec_of_rule_raised hs (ruleGmConnectInterrupt_unassigned hobj hpin),
      exec_of_rule_raised hs (ruleGmDisconnectInterrupt_unassigned hobj hpin)⟩
  next n hpin =>
  constructor
  · split
    · next hbound =>
      obtain ⟨o, hslot⟩ := Option.isSome_iff_exists.1 hbound
      exact exec_of_rule_raised hs (ruleGmConnectInterrupt_bound hpin hslot)
    · next hfree =>
      have hslot := Option.not_isSome_iff_eq_none.1 hfree
      exact exec_of_rule_ok hs (ruleGmConnectInterrupt_free hpin hslot)
  · split
    · next hslot => exact exec_of_rule_raised hs (ruleGmDisconnectInterrupt_other hpin hslot)
    · next hslot =>
      have hempty : (s.setSlot n none).pinTable[n] ≠ some obj := by rw [setSlot_getElem]; nofun
      exact ⟨s.setSlot n none, rfl, exec_of_rule_ok hs (ruleGmDisconnectInterrupt_owner hpin (not_not.1 hslot)),
        exec_of_rule_raised (s := s.setSlot n none) hs (ruleGmDisconnectInterrupt_other hpin hempty)⟩

end Sys2Proof.Proofs
end

section
/-! PROOFS. Pin objects (spec/42_gpio_pin.md): giving an object its pin, its function and pull, its trigger enables, its
callback, and acknowledging it. -/

namespace Sys2Proof.Proofs

open Sys2Proof.Machine Sys2Proof.Safety Sys2Proof.Laws

/-! ### The checks of the object and its pin (`CheckAssigned`; rules R321, R322) -/

/-- The object that an operation checks, with its pin, before anything else. -/
def checkedObj : Instr → Option Nat
  | .gmConnectInterrupt obj => some obj
  | .gmDisconnectInterrupt obj => some obj
  | .pinSetMode obj _ _ => some obj
  | .pinEnableInterrupt obj _ => some obj
  | .pinDisableInterrupt obj _ => some obj
  | .pinConnectInterrupt obj _ _ _ => some obj
  | .pinDisconnectInterrupt obj => some obj
  | .pinAcknowledgeInterrupt obj => some obj
  | _ => none

/-- What `checkedObj` says of an operation's rule. -/
theorem ruleOf_of_checkedObj {i : Instr} {obj : Nat} (h : checkedObj i = some obj) (s : State) :
    ∃ k, ruleOf i s = checkAssigned obj s k := by
  cases i <;> cases h <;> (unfold ruleOf command; exact ⟨_, rfl⟩)

theorem raises_badOperand_of_checkedObj {i : Instr} {s : State} {obj : Nat} (hs : s.fault = none)
    (h : checkedObj i = some obj) (hobj : s.nPinObj ≤ obj) : Raises i s .badOperand := by
  obtain ⟨k, hrule⟩ := ruleOf_of_checkedObj h s
  exact exec_of_rule_raised hs (hrule.trans (checkAssigned_ge hobj))

theorem raises_pinUnassigned_of_checkedObj {i : Instr} {s : State} {obj : Nat} (hs : s.fault = none)
    (h : checkedObj i = some obj) (hobj : obj < s.nPinObj) (hpin : (s.obj obj).pinNumber = none) :
    Raises i s .pinUnassigned := by
  obtain ⟨k, hrule⟩ := ruleOf_of_checkedObj h s
  exact exec_of_rule_raised hs (hrule.trans (checkAssigned_none hobj hpin))

/-! ### `Pin.AssignPin` (rule R200) -/

theorem rulePinAssignPin_outOfRange {s : State} {obj : Nat} (hobj : s.nPinObj ≤ obj) (n : Nat) :
    rulePinAssignPin obj n s = .raised .badOperand s :=
  checkObj_ge hobj

theorem rulePinAssignPin_invalidPin {s : State} {obj n : Nat} (hobj : obj < s.nPinObj) (hn : ¬ n < 54) :
    rulePinAssignPin obj n s = .raised .invalidPin s := by
  rw [rulePinAssignPin, checkObj_lt hobj, dif_neg hn]

theorem rulePinAssignPin_assigned {s : State} {obj n : Nat} {m : PinNo} (hobj : obj < s.nPinObj) (hn : n < 54)
    (hpin : (s.obj obj).pinNumber = some m) : rulePinAssignPin obj n s = .raised .pinAlreadyAssigned s := by
  rw [rulePinAssignPin, checkObj_lt hobj, dif_pos hn, hpin]

theorem rulePinAssignPin_free {s : State} {obj n : Nat} (hobj : obj < s.nPinObj) (hn : n < 54)
    (hpin : (s.obj obj).pinNumber = none) :
    rulePinAssignPin obj n s = .ok (s.setObj obj { s.obj obj with pinNumber := some ⟨n, hn⟩ }) := by
  rw [rulePinAssignPin, checkObj_lt hobj, dif_pos hn, hpin]

/-- Settles O28: the object, the pin number, and whether the object has one already. -/
theorem assignPin : Obligations.AssignPin := by
  intro s obj n hs
  refine ⟨rfl, ?_⟩
  split
  · next hobj => exact exec_of_rule_raised hs (rulePinAssignPin_outOfRange hobj n)
  next hobj =>
  have hobj := Nat.lt_of_not_le hobj
  split
  · next hn =>
    split
    · next hassigned =>
      obtain ⟨m, hm⟩ := Option.isSome_iff_exists.1 hassigned
      exact exec_of_rule_raised hs (rulePinAssignPin_assigned hobj hn hm)
    · next hfree =>
      exact exec_of_rule_ok hs (rulePinAssignPin_free hobj hn (Option.not_isSome_iff_eq_none.1 hfree))
  · next hn => exact exec_of_rule_raised hs (rulePinAssignPin_invalidPin hobj hn)

/-! ### `Pin.SetMode` (rules R201, R202) -/

/-- The function byte as the statement writes it (rule R103). -/
theorem modeByte_eq (fn : PinFunction) (code : BitVec 2) : modeByte fn code = 0#2 ++ code ++ 0#1 ++ fn.code := by
  cases fn <;> (revert code; decide)

/-- The state after `Pin.SetMode` of an object with pin `n`, `pull` being the pull that the function allows. -/
def modeSet (s : State) (obj : Nat) (n : PinNo) (fn : PinFunction) (pull : Pull) : State :=
  (applyPull (applyFunction s n fn) n pull).setObj obj { s.obj obj with fn := fn, pull := pull }

/-- The function word that `Pin.SetMode` writes. -/
def functionWord (s : State) (n : PinNo) (fn : PinFunction) : Word :=
  insertField (fselWord s.fsel (fselIndex n)) 3 (fselShift n) ((fselCode fn).setWidth 32)

/-- The two accesses of the function half. -/
def functionAccesses (s : State) (n : PinNo) (fn : PinFunction) : List BusAccess :=
  [readOf s.cfg (.fsel (fselIndex n)) (fselWord s.fsel (fselIndex n)),
    writeOf s.cfg (.fsel (fselIndex n)) (functionWord s n fn)]

/-- The word that `Pin.SetMode` writes under Combined2Bit. -/
def pullWord (s : State) (n : PinNo) (pull : Pull) : Word :=
  insertField (puppdnWord s.puppdn (puppdnIndex n)) 2 (puppdnShift n) ((pupCode pull).setWidth 32)

/-- `Pin.SetMode` under LegacyStrobe as one update. -/
theorem modeSet_legacy {s : State} (hstyle : s.cfg.pullStyle = .legacyStrobe) (obj : Nat) (n : PinNo) (fn : PinFunction)
    (pull : Pull) :
    modeSet s obj n fn pull =
      { s with
        fsel := setFselWord s.fsel (fselIndex n) (functionWord s n fn)
        pud := pudCode pull
        pudclk := setBankWord s.pudclk (pinWord n) 0
        pullState := s.pullState.set n pull
        pinObj := s.pinObj.set obj { s.obj obj with fn := fn, pull := pull }
        busTrace := s.busTrace ++ functionAccesses s n fn ++
          [writeOf s.cfg .pud ((pudCode pull).setWidth 32), writeOf s.cfg (.pudclk (pinWord n)) (pinMask n),
            writeOf s.cfg (.pudclk (pinWord n)) 0] } := by
  rw [modeSet, applyFunction_eq, applyPull_legacy (by exact hstyle)]
  rfl

/-- `Pin.SetMode` under Combined2Bit as one update. -/
theorem modeSet_combined {s : State} (hstyle : s.cfg.pullStyle = .combined2Bit) (obj : Nat) (n : PinNo)
    (fn : PinFunction) (pull : Pull) :
    modeSet s obj n fn pull =
      { s with
        fsel := setFselWord s.fsel (fselIndex n) (functionWord s n fn)
        puppdn := setPuppdnWord s.puppdn (puppdnIndex n) (pullWord s n pull)
        pullState :=
          combinedPulls s.pullState (setPuppdnWord s.puppdn (puppdnIndex n) (pullWord s n pull)) (puppdnIndex n)
        pinObj := s.pinObj.set obj { s.obj obj with fn := fn, pull := pull }
        busTrace := s.busTrace ++ functionAccesses s n fn ++
          [readOf s.cfg (.puppdn (puppdnIndex n)) (puppdnWord s.puppdn (puppdnIndex n)),
            writeOf s.cfg (.puppdn (puppdnIndex n)) (pullWord s n pull)] } := by
  rw [modeSet, applyFunction_eq, applyPull_combined (by exact hstyle)]
  rfl

/-- The strobe leaves the pin's clock word 0 and the other word as it was (rule R202). -/
theorem pinBit_setBankWord_zero (b : PinBank) (n m : PinNo) :
    pinBit (setBankWord b (pinWord n) 0) m = (pinBit b m && decide (pinWord m ≠ pinWord n)) := by
  rw [pinBit_setBankWord]
  by_cases h : pinWord m = pinWord n <;> simp [h]

theorem rulePinSetMode_legal {s : State} {obj : Nat} {n : PinNo} {code : BitVec 2} {asked : Pull}
    (hobj : obj < s.nPinObj) (hpin : (s.obj obj).pinNumber = some n) (hpull : pullOf code = some asked)
    (fn : PinFunction) :
    rulePinSetMode obj fn code s = .ok (modeSet s obj n fn (effectivePull fn asked)) := by
  rw [rulePinSetMode, checkAssigned_some hobj hpin, hpull]
  rfl

/-- Code 3 is the only reserved pull code (rule R107). -/
theorem eq_three_of_pullOf_none {code : BitVec 2} (h : pullOf code = none) : code = 3 := by
  revert code
  decide

/-- Settles O29: the checks, then the function's read-modify-write and the sequence of the pull style. -/
theorem setMode : Obligations.SetMode := by
  intro s obj fn code hs
  refine ⟨congrArg (fun f => [opWord 0x21 f (loByte obj) 0]) (modeByte_eq fn code), ?_⟩
  split
  · next hobj => exact raises_badOperand_of_checkedObj hs rfl hobj
  next hobj =>
  have hobj := Nat.lt_of_not_le hobj
  split
  · next hpin => exact raises_pinUnassigned_of_checkedObj hs rfl hobj hpin
  next n hpin =>
  split
  · next hpull =>
    obtain rfl := eq_three_of_pullOf_none hpull
    exact exec_of_rule_raised hs (rulePinSetMode_reservedPull ⟨hobj, hpin⟩ fn)
  next asked hpull =>
  intro pull v fselAccesses
  refine ⟨modeSet s obj n fn pull, exec_of_rule_ok hs (rulePinSetMode_legal hobj hpin hpull fn), ?_⟩
  cases hstyle : s.cfg.pullStyle with
  | legacyStrobe =>
    rw [modeSet_legacy hstyle]
    exact ⟨fun m => fselField_insert s.fsel n m (fselCode fn), fun _ => rfl, rfl, rfl,
      pinBit_setBankWord_zero s.pudclk n, rfl, rfl⟩
  | combined2Bit =>
    rw [modeSet_combined hstyle]
    exact ⟨fun m => fselField_insert s.fsel n m (fselCode fn), fun hmirror => combinedPulls_one hmirror hstyle n pull,
      rfl, fun m => puppdnField_insert s.puppdn n m (pupCode pull), rfl, rfl⟩

/-! ### Trigger enables (rules R76, R171, R204, R205) -/

/-- The state after the read-modify-writes of pin `n`'s bit in the groups that `types` names, and the object's record
replaced: the common form of `Pin.EnableInterrupt` and `Pin.DisableInterrupt`. -/
def triggersWritten (s : State) (obj : Nat) (n : PinNo) (f : Word → Word) (types : BitVec 6) (p : PinObj) : State :=
  (modifyKinds n f (kindsOf types) s).setObj obj p

theorem setObj_trig (s : State) (obj : Nat) (p : PinObj) (k : TrigKind) : (s.setObj obj p).trig k = s.trig k := by
  cases k <;> rfl

theorem triggersWritten_trig (s : State) (obj : Nat) (n : PinNo) (f : Word → Word) (types : BitVec 6) (p : PinObj)
    (k : TrigKind) :
    (triggersWritten s obj n f types p).trig k =
      if types.getLsbD (trigBit k) then modifiedBank n f (s.trig k) else s.trig k := by
  obtain ⟨htrig, _, _⟩ := modifyKinds_effect n f (kindsOf types) (kindsOf_nodup types) s
  rw [triggersWritten, setObj_trig, htrig]
  simp only [mem_kindsOf]

/-- The record, the accesses, and what stays as it was. -/
theorem triggersWritten_frame (s : State) (obj : Nat) (n : PinNo) (f : Word → Word) (types : BitVec 6) (p : PinObj) :
    let t := triggersWritten s obj n f types p
    t.pinObj = s.pinObj.set obj p ∧ t.busTrace = s.busTrace ++ kindAccesses s n f (kindsOf types) ∧
    { t with
      ren := s.ren, fen := s.fen, hen := s.hen, len := s.len, aren := s.aren, afen := s.afen, eds := s.eds
      pinObj := s.pinObj, busTrace := s.busTrace } = s := by
  obtain ⟨_, hbus, hframe⟩ := modifyKinds_effect n f (kindsOf types) (kindsOf_nodup types) s
  obtain ⟨_, _, hpinObj⟩ := trigFrame_fields hframe
  refine ⟨congrArg (·.set obj p) hpinObj, hbus, ?_⟩
  exact congrArg (fun u : State => { u with pinObj := s.pinObj }) hframe

theorem triggersWritten_fault (s : State) (obj : Nat) (n : PinNo) (f : Word → Word) (types : BitVec 6) (p : PinObj) :
    (triggersWritten s obj n f types p).fault = s.fault := by
  obtain ⟨_, _, hframe⟩ := triggersWritten_frame s obj n f types p
  have hfault := congrArg State.fault hframe
  exact hfault

/-- Each level group written is followed by level detection over the groups as they are then; the high-level group is
written first (rule R76). -/
theorem triggersWritten_eds (s : State) (obj : Nat) (n : PinNo) (f : Word → Word) (types : BitVec 6) (p : PinObj) :
    let t := triggersWritten s obj n f types p
    t.eds = s.eds ||| (if types.getLsbD 2 then levelPins s.lev t.hen s.len else 0) |||
      (if types.getLsbD 3 then levelPins s.lev t.hen t.len else 0) := by
  intro t
  have hhen : t.hen = if types.getLsbD 2 then modifiedBank n f s.hen else s.hen :=
    triggersWritten_trig s obj n f types p .highLevel
  have hlen : t.len = if types.getLsbD 3 then modifiedBank n f s.len else s.len :=
    triggersWritten_trig s obj n f types p .lowLevel
  have heds : t.eds = _ := modifyKinds_eds n f types s
  rw [heds, hhen, hlen]
  cases types.getLsbD 2 <;> cases types.getLsbD 3 <;> rfl

/-! ### `Pin.EnableInterrupt` (rule R204) -/

/-- The state after `Pin.EnableInterrupt` of an object with pin `n`. -/
def interruptEnabled (s : State) (obj : Nat) (n : PinNo) (types : BitVec 6) : State :=
  triggersWritten s obj n (fun v => v ||| pinMask n) types
    { s.obj obj with triggerMask := (s.obj obj).triggerMask ||| types }

theorem rulePinEnableInterrupt_assigned {s : State} {obj : Nat} {n : PinNo} (hobj : obj < s.nPinObj)
    (hpin : (s.obj obj).pinNumber = some n) (types : BitVec 6) :
    rulePinEnableInterrupt obj types s = .ok (interruptEnabled s obj n types) :=
  checkAssigned_some hobj hpin

theorem exec_pinEnableInterrupt {s : State} {obj : Nat} {n : PinNo} (hs : s.fault = none) (hobj : obj < s.nPinObj)
    (hpin : (s.obj obj).pinNumber = some n) (types : BitVec 6) :
    exec (.pinEnableInterrupt obj types) s = .next (interruptEnabled s obj n types) :=
  exec_of_rule_ok hs (rulePinEnableInterrupt_assigned hobj hpin types)

theorem pinBit_interruptEnabled (s : State) (obj : Nat) (n : PinNo) (types : BitVec 6) (k : TrigKind) (m : PinNo) :
    pinBit ((interruptEnabled s obj n types).trig k) m =
      (pinBit (s.trig k) m || (decide (m = n) && types.getLsbD (trigBit k))) := by
  rw [interruptEnabled, triggersWritten_trig, modifiedBank_or]
  cases types.getLsbD (trigBit k) <;> simp [pinBit_onePin]

/-- Enabling only adds to the groups, so the last level detection finds all that an earlier one found (rule R171). -/
theorem interruptEnabled_eds (s : State) (obj : Nat) (n : PinNo) (types : BitVec 6) :
    let t := interruptEnabled s obj n types
    t.eds = if types.getLsbD 2 || types.getLsbD 3 then s.eds ||| levelPins s.lev t.hen t.len else s.eds := by
  intro t
  have hgrow : ∀ k m, pinBit (s.trig k) m = true → pinBit (t.trig k) m = true := fun k m hm => by
    rw [pinBit_interruptEnabled, hm, Bool.true_or]
  have hlast : levelPins s.lev t.hen s.len ||| levelPins s.lev t.hen t.len = levelPins s.lev t.hen t.len :=
    levelPins_mono (fun _ hm => hm) (hgrow .lowLevel)
  have hlen : types.getLsbD 3 = false → t.len = s.len := fun h3 => by
    have htrig : t.trig .lowLevel = _ := triggersWritten_trig ..
    exact htrig.trans (if_neg (by rw [trigBit, h3]; decide))
  have heds : t.eds = s.eds ||| (if types.getLsbD 2 then levelPins s.lev t.hen s.len else 0) |||
      (if types.getLsbD 3 then levelPins s.lev t.hen t.len else 0) := triggersWritten_eds ..
  clear_value t
  rw [heds]
  cases h2 : types.getLsbD 2 <;> cases h3 : types.getLsbD 3
  · simp
  · simp
  · simp [hlen h3]
  · simp [BitVec.or_assoc, hlast]

/-- Settles O30: the checks, then the read-modify-writes of the groups named. -/
theorem enableInterrupt : Obligations.EnableInterrupt := by
  intro s obj types hs
  refine ⟨rfl, ?_⟩
  split
  · next hobj => exact raises_badOperand_of_checkedObj hs rfl hobj
  next hobj =>
  have hobj := Nat.lt_of_not_le hobj
  split
  · next hpin => exact raises_pinUnassigned_of_checkedObj hs rfl hobj hpin
  next n hpin =>
  obtain ⟨hpinObj, hbus, hframe⟩ := triggersWritten_frame s obj n (fun v => v ||| pinMask n) types
    { s.obj obj with triggerMask := (s.obj obj).triggerMask ||| types }
  exact ⟨interruptEnabled s obj n types, exec_pinEnableInterrupt hs hobj hpin types,
    pinBit_interruptEnabled s obj n types, hpinObj, interruptEnabled_eds s obj n types, hbus, hframe⟩

/-! ### `Pin.DisableInterrupt` (rule R205) -/

/-- The state after `Pin.DisableInterrupt` of an object with pin `n`. -/
def interruptDisabled (s : State) (obj : Nat) (n : PinNo) (types : BitVec 6) : State :=
  triggersWritten s obj n (fun v => v &&& ~~~(pinMask n)) types
    { s.obj obj with triggerMask := (s.obj obj).triggerMask &&& ~~~types }

theorem rulePinDisableInterrupt_assigned {s : State} {obj : Nat} {n : PinNo} (hobj : obj < s.nPinObj)
    (hpin : (s.obj obj).pinNumber = some n) (types : BitVec 6) :
    rulePinDisableInterrupt obj types s = .ok (interruptDisabled s obj n types) :=
  checkAssigned_some hobj hpin

theorem exec_pinDisableInterrupt {s : State} {obj : Nat} {n : PinNo} (hs : s.fault = none) (hobj : obj < s.nPinObj)
    (hpin : (s.obj obj).pinNumber = some n) (types : BitVec 6) :
    exec (.pinDisableInterrupt obj types) s = .next (interruptDisabled s obj n types) :=
  exec_of_rule_ok hs (rulePinDisableInterrupt_assigned hobj hpin types)

theorem pinBit_interruptDisabled (s : State) (obj : Nat) (n : PinNo) (types : BitVec 6) (k : TrigKind) (m : PinNo) :
    pinBit ((interruptDisabled s obj n types).trig k) m =
      (pinBit (s.trig k) m && !(decide (m = n) && types.getLsbD (trigBit k))) := by
  rw [interruptDisabled, triggersWritten_trig, modifiedBank_and]
  cases types.getLsbD (trigBit k) <;> simp [pinBit_onePin]

/-- Level detection never clears a status bit (rule R171). -/
theorem interruptDisabled_eds_grows (s : State) (obj : Nat) (n : PinNo) (types : BitVec 6) (m : PinNo)
    (hm : pinBit s.eds m = true) : pinBit (interruptDisabled s obj n types).eds m = true := by
  rw [interruptDisabled, triggersWritten_eds, pinBit_or, pinBit_or, hm, Bool.true_or, Bool.true_or]

/-- Level conditions of fewer enables are latched already (rule R171). -/
theorem or_levelPins_of_latched {s : State} (hlatch : LevelLatched s) {hen len : PinBank}
    (hhen : ∀ m, pinBit hen m = true → pinBit s.hen m = true) (hlen : ∀ m, pinBit len m = true → pinBit s.len m = true) :
    s.eds ||| levelPins s.lev hen len = s.eds := by
  have hlatched : s.eds ||| levelPins s.lev s.hen s.len = s.eds := by
    apply pinBit_ext
    intro m
    have hm : pinBit (levelPins s.lev s.hen s.len &&& ~~~s.eds) m = false := by rw [hlatch, pinBit_zero]
    rw [pinBit_and, pinBit_not] at hm
    rw [pinBit_or]
    cases he : pinBit s.eds m with
    | true => rfl
    | false => simpa [he] using hm
  calc s.eds ||| levelPins s.lev hen len
      = s.eds ||| levelPins s.lev s.hen s.len ||| levelPins s.lev hen len := by rw [hlatched]
    _ = s.eds ||| (levelPins s.lev hen len ||| levelPins s.lev s.hen s.len) := by
        rw [BitVec.or_assoc, BitVec.or_comm (levelPins s.lev s.hen s.len)]
    _ = s.eds := by rw [levelPins_mono hhen hlen, hlatched]

theorem or_ite_of_or_eq {b c : PinBank} {cond : Bool} (h : b ||| c = b) : (b ||| if cond then c else 0) = b := by
  cases cond with
  | true => exact h
  | false => exact BitVec.or_zero

/-- Disabling only takes from the groups, so level detection finds nothing new. -/
theorem interruptDisabled_eds_of_latched {s : State} (hlatch : LevelLatched s) (obj : Nat) (n : PinNo)
    (types : BitVec 6) : (interruptDisabled s obj n types).eds = s.eds := by
  have hshrink : ∀ k m, pinBit ((interruptDisabled s obj n types).trig k) m = true → pinBit (s.trig k) m = true := by
    intro k m hm
    rw [pinBit_interruptDisabled, Bool.and_eq_true] at hm
    exact hm.1
  have hhigh := or_ite_of_or_eq (cond := types.getLsbD 2)
    (or_levelPins_of_latched hlatch (hshrink .highLevel) fun _ hm => hm)
  have hlow := or_ite_of_or_eq (cond := types.getLsbD 3)
    (or_levelPins_of_latched hlatch (hshrink .highLevel) (hshrink .lowLevel))
  have heds : (interruptDisabled s obj n types).eds = _ := triggersWritten_eds ..
  exact heds.trans ((congrArg (· ||| _) hhigh).trans hlow)

/-- Settles O31: the checks, then the read-modify-writes of the groups named. -/
theorem disableInterrupt : Obligations.DisableInterrupt := by
  intro s obj types hs
  refine ⟨rfl, ?_⟩
  split
  · next hobj => exact raises_badOperand_of_checkedObj hs rfl hobj
  next hobj =>
  have hobj := Nat.lt_of_not_le hobj
  split
  · next hpin => exact raises_pinUnassigned_of_checkedObj hs rfl hobj hpin
  next n hpin =>
  obtain ⟨hpinObj, hbus, hframe⟩ := triggersWritten_frame s obj n (fun v => v &&& ~~~(pinMask n)) types
    { s.obj obj with triggerMask := (s.obj obj).triggerMask &&& ~~~types }
  exact ⟨interruptDisabled s obj n types, exec_pinDisableInterrupt hs hobj hpin types,
    pinBit_interruptDisabled s obj n types, hpinObj, interruptDisabled_eds_grows s obj n types,
    fun hlatch => interruptDisabled_eds_of_latched hlatch obj n types, hbus, hframe⟩

/-! ### Enabling and then disabling (rules R204, R205) -/

/-- Enabling keeps every object's pin. -/
theorem interruptEnabled_assigned {s : State} {obj : Nat} {n : PinNo} (h : AssignedTo s obj n) (types : BitVec 6) :
    AssignedTo (interruptEnabled s obj n types) obj n := by
  obtain ⟨hobj, hpin⟩ := h
  have hcount : (modifyKinds n (fun v => v ||| pinMask n) (kindsOf types) s).nPinObj = s.nPinObj := by
    obtain ⟨_, _, hframe⟩ := modifyKinds_effect n (fun v => v ||| pinMask n) (kindsOf types) (kindsOf_nodup types) s
    obtain ⟨_, _, hpinObj⟩ := trigFrame_fields hframe
    exact congrArg List.length hpinObj
  refine ⟨?_, ?_⟩
  · rw [interruptEnabled, triggersWritten, setObj_nPinObj, hcount]
    exact hobj
  · rw [interruptEnabled, triggersWritten, setObj_obj, hcount, if_pos ⟨rfl, hobj⟩]
    exact hpin

/-- After the pair the pin's bit is 0 in the groups named, and every other bit is as before. -/
theorem pinBit_enabled_disabled (s : State) (obj : Nat) (n : PinNo) (types : BitVec 6) (k : TrigKind) (m : PinNo) :
    pinBit ((interruptDisabled (interruptEnabled s obj n types) obj n types).trig k) m =
      (pinBit (s.trig k) m && !(decide (m = n) && types.getLsbD (trigBit k))) := by
  rw [pinBit_interruptDisabled, pinBit_interruptEnabled]
  cases decide (m = n) && types.getLsbD (trigBit k) <;> simp

/-- Settles O32: the two operations, and the bits of the groups after both. -/
theorem enableDisableRoundTrip : Obligations.EnableDisableRoundTrip := by
  intro s obj types n hs hassigned
  obtain ⟨hobj, hpin⟩ := hassigned
  obtain ⟨hobj', hpin'⟩ := interruptEnabled_assigned ⟨hobj, hpin⟩ types
  have hs' : (interruptEnabled s obj n types).fault = none := (triggersWritten_fault ..).trans hs
  have hbit := pinBit_enabled_disabled s obj n types
  have hnamed : ∀ k ∈ kindsOf types,
      pinBit ((interruptDisabled (interruptEnabled s obj n types) obj n types).trig k) n = false := fun k hk => by
    rw [hbit, (mem_kindsOf types k).1 hk]
    simp
  refine ⟨_, _, exec_pinEnableInterrupt hs hobj hpin types, exec_pinDisableInterrupt hs' hobj' hpin' types,
    ⟨fun hsame k hk => ?_, fun hzero k => pinBit_ext fun m => ?_⟩, hnamed, fun k m hmn => ?_⟩
  · rw [← hsame k]
    exact hnamed k hk
  · rw [hbit]
    by_cases hchanged : m = n ∧ types.getLsbD (trigBit k) = true
    · obtain ⟨rfl, hk⟩ := hchanged
      rw [hzero k ((mem_kindsOf types k).2 hk), Bool.false_and]
    · rw [← Bool.decide_coe (types.getLsbD (trigBit k)), ← Bool.decide_and, decide_eq_false hchanged]
      exact Bool.and_true _
  · rw [hbit, decide_eq_false hmn]
    exact Bool.and_true _

/-! ### `Pin.ConnectInterrupt` and `Pin.DisconnectInterrupt` (rules R207, R208) -/

theorem rulePinConnectInterrupt_connected {s : State} {obj : Nat} {n : PinNo} {h : PinHandler}
    (hpin : (s.obj obj).pinNumber = some n) (hsome : (s.obj obj).handler = some h) (autoAck : Bool)
    (callback ctx : Word) : rulePinConnectInterrupt obj autoAck callback ctx s = .raised .pinAlreadyConnected s := by
  rw [rulePinConnectInterrupt, checkAssigned_some (obj_lt_of_pinNumber hpin) hpin, hsome]

/-- Past its own checks the rule is the manager's rule and then the object's record (rule R174). -/
theorem rulePinConnectInterrupt_unconnected {s : State} {obj : Nat} {n : PinNo}
    (hpin : (s.obj obj).pinNumber = some n) (hnone : (s.obj obj).handler = none) (autoAck : Bool)
    (callback ctx : Word) :
    rulePinConnectInterrupt obj autoAck callback ctx s =
      (ruleGmConnectInterrupt obj s).andThen fun u =>
        .ok (u.setObj obj { u.obj obj with handler := some ⟨callback, ctx, autoAck⟩ }) := by
  rw [rulePinConnectInterrupt, checkAssigned_some (obj_lt_of_pinNumber hpin) hpin, hnone]

theorem rulePinDisconnectInterrupt_unconnected {s : State} {obj : Nat} {n : PinNo}
    (hpin : (s.obj obj).pinNumber = some n) (hnone : (s.obj obj).handler = none) :
    rulePinDisconnectInterrupt obj s = .raised .pinNotConnected s := by
  rw [rulePinDisconnectInterrupt, checkAssigned_some (obj_lt_of_pinNumber hpin) hpin, hnone]

/-- Past its own checks the rule is the manager's rule and then the object's record (rule R175). -/
theorem rulePinDisconnectInterrupt_connected {s : State} {obj : Nat} {n : PinNo}
    (hpin : (s.obj obj).pinNumber = some n) (hsome : (s.obj obj).handler ≠ none) :
    rulePinDisconnectInterrupt obj s =
      (ruleGmDisconnectInterrupt obj s).andThen fun u => .ok (u.setObj obj { u.obj obj with handler := none }) := by
  obtain ⟨h, hh⟩ := Option.ne_none_iff_exists'.1 hsome
  rw [rulePinDisconnectInterrupt, checkAssigned_some (obj_lt_of_pinNumber hpin) hpin, hh]

/-- The state after `Pin.DisconnectInterrupt` of an object with pin `n`. -/
def pinDisconnected (s : State) (obj : Nat) (n : PinNo) : State :=
  (s.setSlot n none).setObj obj { s.obj obj with handler := none }

/-- The object keeps its pin and has no handler. -/
theorem pinDisconnected_obj {s : State} {obj : Nat} (hobj : obj < s.nPinObj) (n : PinNo) :
    (pinDisconnected s obj n).obj obj = { s.obj obj with handler := none } := by
  have hobj : obj < (s.setSlot n none).nPinObj := hobj
  rw [pinDisconnected, setObj_obj, if_pos ⟨rfl, hobj⟩]

/-- Settles O33: the object's checks, its handler, and its slot as in O23. -/
theorem pinConnectAndDisconnect : Obligations.PinConnectAndDisconnect := by
  intro s obj autoAck callback ctx hs connect disconnect
  refine ⟨rfl, rfl, ?_⟩
  split
  · next hobj =>
    exact ⟨raises_badOperand_of_checkedObj hs rfl hobj, raises_badOperand_of_checkedObj hs rfl hobj⟩
  next hobj =>
  have hobj := Nat.lt_of_not_le hobj
  split
  · next hpin =>
    exact ⟨raises_pinUnassigned_of_checkedObj hs rfl hobj hpin, raises_pinUnassigned_of_checkedObj hs rfl hobj hpin⟩
  next n hpin =>
  constructor
  · split
    · next hconnected =>
      obtain ⟨h, hsome⟩ := Option.isSome_iff_exists.1 hconnected
      exact exec_of_rule_raised hs (rulePinConnectInterrupt_connected hpin hsome autoAck callback ctx)
    next hfree =>
    have hrule := rulePinConnectInterrupt_unconnected hpin (Option.not_isSome_iff_eq_none.1 hfree) autoAck callback ctx
    split
    · next hbound =>
      obtain ⟨o, hslot⟩ := Option.isSome_iff_exists.1 hbound
      rw [ruleGmConnectInterrupt_bound hpin hslot, andThen_raised] at hrule
      exact exec_of_rule_raised hs hrule
    · next hempty =>
      rw [ruleGmConnectInterrupt_free hpin (Option.not_isSome_iff_eq_none.1 hempty), andThen_ok] at hrule
      exact exec_of_rule_ok hs hrule
  · split
    · next hnone => exact exec_of_rule_raised hs (rulePinDisconnectInterrupt_unconnected hpin hnone)
    next hsome =>
    have hrule := rulePinDisconnectInterrupt_connected hpin hsome
    split
    · next hslot =>
      rw [ruleGmDisconnectInterrupt_other hpin hslot, andThen_raised] at hrule
      exact exec_of_rule_raised hs hrule
    · next hslot =>
      rw [ruleGmDisconnectInterrupt_owner hpin (not_not.1 hslot), andThen_ok] at hrule
      have hrecord := pinDisconnected_obj hobj n
      have hagain := rulePinDisconnectInterrupt_unconnected (s := pinDisconnected s obj n) (obj := obj) (n := n)
        (by rw [hrecord]; exact hpin) (by rw [hrecord])
      exact ⟨pinDisconnected s obj n, rfl, exec_of_rule_ok hs hrule,
        exec_of_rule_raised (s := pinDisconnected s obj n) hs hagain⟩

/-! ### `Pin.AcknowledgeInterrupt` (rules R75, R171, R209) -/

theorem rulePinAcknowledgeInterrupt_assigned {s : State} {obj : Nat} {n : PinNo} (hobj : obj < s.nPinObj)
    (hpin : (s.obj obj).pinNumber = some n) :
    rulePinAcknowledgeInterrupt obj s =
      .ok (withBus { s with eds := cleared s n } [writeOf s.cfg (.eds (pinWord n)) (pinMask n)]) := by
  rw [rulePinAcknowledgeInterrupt, checkAssigned_some hobj hpin, ackPin_cleared]

/-- Settles O34: the checks, then the write of the pin's mask, which level detection follows. -/
theorem acknowledgeInterrupt : Obligations.AcknowledgeInterrupt := by
  intro s obj hs
  refine ⟨rfl, ?_⟩
  split
  · next hobj => exact raises_badOperand_of_checkedObj hs rfl hobj
  next hobj =>
  have hobj := Nat.lt_of_not_le hobj
  split
  · next hpin => exact raises_pinUnassigned_of_checkedObj hs rfl hobj hpin
  next n hpin =>
  exact ⟨cleared s n, exec_of_rule_ok hs (rulePinAcknowledgeInterrupt_assigned hobj hpin), pinBit_cleared s n⟩

end Sys2Proof.Proofs
end

section
/-! PROOFS. The encoder driver (spec/43_quadrature.md): its lifecycle, its application callback, and the rotations that
the quadrature decoder recognizes. -/

namespace Sys2Proof.Proofs

open Sys2Proof.Machine Sys2Proof.Safety Sys2Proof.Laws

/-! ### Records of the driver's objects (rule R36) -/

/-- The pin objects after those of the driver are replaced. -/
def driverRecords (l : List PinObj) (clk dt sw : PinObj) : List PinObj := ((l.set 0 clk).set 1 dt).set 2 sw

/-- A later replacement hides an earlier one. -/
theorem driverRecords_driverRecords (l : List PinObj) (p q r p' q' r' : PinObj) :
    driverRecords (driverRecords l p q r) p' q' r' = driverRecords l p' q' r' := by
  obtain _ | ⟨a, _ | ⟨b, _ | ⟨c, l⟩⟩⟩ := l <;> rfl

/-! ### `Enc.Initialize`: its checks (rule R240; log entry 15) -/

theorem ruleEncInitialize_on {s : State} (h : s.enc.initialized = true) (sw dt clk : Nat) :
    ruleEncInitialize sw dt clk s = .raised .encState s :=
  if_pos h

theorem ruleEncInitialize_invalidPin {s : State} {sw dt clk : Nat} (hoff : ¬ s.enc.initialized = true)
    (hpins : 54 ≤ clk ∨ 54 ≤ dt ∨ 54 ≤ sw) : ruleEncInitialize sw dt clk s = .raised .invalidPin s :=
  (if_neg hoff).trans (if_pos hpins)

theorem ruleEncInitialize_equalPins {s : State} {sw dt clk : Nat} (hoff : ¬ s.enc.initialized = true)
    (hpins : ¬ (54 ≤ clk ∨ 54 ≤ dt ∨ 54 ≤ sw)) (hequal : clk = dt ∨ clk = sw ∨ dt = sw) :
    ruleEncInitialize sw dt clk s = .raised .badOperand s :=
  (if_neg hoff).trans ((if_neg hpins).trans (if_pos hequal))

/-- The first assignment's raise abandons the rest (rule R321). -/
theorem ruleEncInitialize_assignRaises {s : State} {sw dt clk : Nat} {e : ErrorCode}
    (hoff : ¬ s.enc.initialized = true) (hpins : ¬ (54 ≤ clk ∨ 54 ≤ dt ∨ 54 ≤ sw))
    (hne : ¬ (clk = dt ∨ clk = sw ∨ dt = sw)) (hassign : rulePinAssignPin clkObj clk s = .raised e s) :
    ruleEncInitialize sw dt clk s = .raised e s := by
  rw [ruleEncInitialize, if_neg hoff, if_neg hpins, if_neg hne, hassign]
  rfl

/-! ### One operation for each of the driver's pins -/

/-- The driver's objects, each with its pin (rules R36, R240). -/
inductive DriverPin (clk dt sw : PinNo) : Nat → PinNo → Prop where
  | clk : DriverPin clk dt sw clkObj clk
  | dt : DriverPin clk dt sw dtObj dt
  | sw : DriverPin clk dt sw swObj sw

theorem DriverPin.lt {clk dt sw : PinNo} {obj : Nat} {n : PinNo} (h : DriverPin clk dt sw obj n) : obj < 3 := by
  cases h <;> decide

/-- One operation, run for the driver's pins in the order of rule R240. -/
def runForPins (rule : Nat → PinNo → State → Res) (clk dt sw : PinNo) (r : Res) : Res :=
  ((r.andThen (rule clkObj clk)).andThen (rule dtObj dt)).andThen (rule swObj sw)

/-- One update of an object and its pin, made for the driver's pins in the order of rule R240. -/
def forPins (f : Nat → PinNo → State → State) (clk dt sw : PinNo) (s : State) : State :=
  f swObj sw (f dtObj dt (f clkObj clk s))

/-- What no operation of the pins changes (rules R200, R201, R204, R207). -/
def SameButPins (s t : State) : Prop :=
  { t with
    pinTable := s.pinTable, pinObj := s.pinObj, ren := s.ren, fen := s.fen, fsel := s.fsel
    pullState := s.pullState, pud := s.pud, pudclk := s.pudclk, puppdn := s.puppdn, busTrace := s.busTrace } = s

theorem SameButPins.trans {s t u : State} (h : SameButPins s t) (h' : SameButPins t u) : SameButPins s u := by
  unfold SameButPins at *
  rw [← h'] at h
  exact h

theorem SameButPins.enc_eq {s t : State} (h : SameButPins s t) : t.enc = s.enc := by
  have henc := congrArg State.enc h
  exact henc

/-- The same with the driver's record aside. -/
theorem SameButPins.setEnc {s t : State} (h : SameButPins s t) (f : Enc → Enc) :
    { t.setEnc f with
      enc := s.enc, pinTable := s.pinTable, pinObj := s.pinObj, ren := s.ren, fen := s.fen, fsel := s.fsel
      pullState := s.pullState, pud := s.pud, pudclk := s.pudclk, puppdn := s.puppdn, busTrace := s.busTrace } = s := by
  have hframe := congrArg (fun u : State => { u with enc := s.enc }) h
  exact hframe

/-- An operation on an object and its pin: where it is ready it ends in the update `f`, which changes the object's
record by `g` and no slot of another pin. -/
structure PinOp (rule : Nat → PinNo → State → Res) (ready : PinNo → PinObj → Option Nat → Prop)
    (f : Nat → PinNo → State → State) (g : Nat → PinNo → PinObj → PinObj) : Prop where
  ends : ∀ {obj n s}, obj < s.nPinObj → ready n (s.obj obj) s.pinTable[n] → rule obj n s = .ok (f obj n s)
  record : ∀ obj n s, (f obj n s).pinObj = s.pinObj.set obj (g obj n (s.obj obj))
  slots : ∀ obj {n m : PinNo} s, m ≠ n → (f obj n s).pinTable[m] = s.pinTable[m]
  frame : ∀ obj n s, SameButPins s (f obj n s)

namespace PinOp

variable {rule : Nat → PinNo → State → Res} {ready : PinNo → PinObj → Option Nat → Prop}
  {f : Nat → PinNo → State → State} {g : Nat → PinNo → PinObj → PinObj} {clk dt sw : PinNo}

theorem nPinObj_eq (h : PinOp rule ready f g) (obj : Nat) (n : PinNo) (s : State) :
    (f obj n s).nPinObj = s.nPinObj := by
  rw [State.nPinObj, h.record, List.length_set]
  rfl

theorem obj_of_ne (h : PinOp rule ready f g) {obj o : Nat} (hne : o ≠ obj) (n : PinNo) (s : State) :
    (f obj n s).obj o = s.obj o :=
  (obj_congr (t := f obj n s) (s := s.setObj obj (g obj n (s.obj obj))) (h.record obj n s) o).trans
    ((setObj_obj ..).trans (if_neg fun hc => hne hc.1))

theorem obj_self (h : PinOp rule ready f g) {obj : Nat} {s : State} (hobj : obj < s.nPinObj) (n : PinNo) :
    (f obj n s).obj obj = g obj n (s.obj obj) :=
  (obj_congr (t := f obj n s) (s := s.setObj obj (g obj n (s.obj obj))) (h.record obj n s) obj).trans
    ((setObj_obj ..).trans (if_pos ⟨rfl, hobj⟩))

/-- The operation on one object leaves another ready. -/
theorem ready_after (h : PinOp rule ready f g) {obj o : Nat} {n m : PinNo} {s : State} (ho : o ≠ obj) (hm : m ≠ n)
    (hready : ready m (s.obj o) s.pinTable[m]) : ready m ((f obj n s).obj o) (f obj n s).pinTable[m] := by
  rw [h.obj_of_ne ho, h.slots obj s hm]
  exact hready

/-- The operation ends for the three pins, one after the other. -/
theorem ends_forPins (h : PinOp rule ready f g) (hcd : clk ≠ dt) (hcs : clk ≠ sw) (hds : dt ≠ sw) {s : State}
    (hn : 3 ≤ s.nPinObj) (hready : ∀ obj n, DriverPin clk dt sw obj n → ready n (s.obj obj) s.pinTable[n]) :
    runForPins rule clk dt sw (.ok s) = .ok (forPins f clk dt sw s) := by
  have hclk := hready _ _ .clk
  have hdt := h.ready_after (n := clk) (by decide : dtObj ≠ clkObj) hcd.symm (hready _ _ .dt)
  have hsw := h.ready_after (n := dt) (by decide : swObj ≠ dtObj) hds.symm
    (h.ready_after (n := clk) (by decide : swObj ≠ clkObj) hcs.symm (hready _ _ .sw))
  have hlt : ∀ {o}, o < 3 → o < s.nPinObj := fun ho => Nat.lt_of_lt_of_le ho hn
  rw [runForPins, andThen_ok, h.ends (hlt (by decide)) hclk, andThen_ok,
    h.ends (by rw [h.nPinObj_eq]; exact hlt (by decide)) hdt, andThen_ok,
    h.ends (by rw [h.nPinObj_eq, h.nPinObj_eq]; exact hlt (by decide)) hsw]
  rfl

theorem pinObj_forPins (h : PinOp rule ready f g) (s : State) :
    (forPins f clk dt sw s).pinObj =
      driverRecords s.pinObj (g clkObj clk (s.obj clkObj)) (g dtObj dt (s.obj dtObj)) (g swObj sw (s.obj swObj)) := by
  rw [forPins, h.record, h.record, h.record, h.obj_of_ne (by decide), h.obj_of_ne (by decide), h.obj_of_ne (by decide)]
  rfl

theorem nPinObj_forPins (h : PinOp rule ready f g) (s : State) : (forPins f clk dt sw s).nPinObj = s.nPinObj := by
  rw [forPins, h.nPinObj_eq, h.nPinObj_eq, h.nPinObj_eq]

theorem obj_forPins (h : PinOp rule ready f g) {s : State} (hn : 3 ≤ s.nPinObj) {obj : Nat} {n : PinNo}
    (hpin : DriverPin clk dt sw obj n) : (forPins f clk dt sw s).obj obj = g obj n (s.obj obj) := by
  have hlt : obj < s.nPinObj := Nat.lt_of_lt_of_le hpin.lt hn
  cases hpin with
  | clk => rw [forPins, h.obj_of_ne (by decide), h.obj_of_ne (by decide), h.obj_self hlt]
  | dt =>
    rw [forPins, h.obj_of_ne (by decide), h.obj_self (by rw [h.nPinObj_eq]; exact hlt), h.obj_of_ne (by decide)]
  | sw =>
    rw [forPins, h.obj_self (by rw [h.nPinObj_eq, h.nPinObj_eq]; exact hlt), h.obj_of_ne (by decide),
      h.obj_of_ne (by decide)]

theorem frame_forPins (h : PinOp rule ready f g) (s : State) : SameButPins s (forPins f clk dt sw s) :=
  ((h.frame ..).trans (h.frame ..)).trans (h.frame ..)

end PinOp

/-- What an update leaves alone, the three of them leave alone. -/
theorem forPins_keeps {β : Type} (X : State → β) {f : Nat → PinNo → State → State}
    (h : ∀ obj n s, X (f obj n s) = X s) (clk dt sw : PinNo) (s : State) : X (forPins f clk dt sw s) = X s := by
  rw [forPins, h, h, h]

/-- What is read of a pin, where the update of a pin sets its reading to `a` and leaves that of the others, as long as
`I` holds. -/
theorem forPins_reading {β : Type} (X : State → PinNo → β) {f : Nat → PinNo → State → State} {I : State → Prop}
    {a : β} (hI : ∀ obj n s, I s → I (f obj n s))
    (h : ∀ obj n s m, I s → X (f obj n s) m = if m = n then a else X s m)
    (clk dt sw : PinNo) {s : State} (hs : I s) (m : PinNo) :
    X (forPins f clk dt sw s) m = if m = clk ∨ m = dt ∨ m = sw then a else X s m := by
  rw [forPins, h _ _ _ _ (hI _ _ _ (hI _ _ _ hs)), h _ _ _ _ (hI _ _ _ hs), h _ _ _ _ hs]
  by_cases hsw : m = sw <;> by_cases hdt : m = dt <;> simp [hsw, hdt]

/-! ### The four operations (rules R200, R201, R204, R207) -/

/-- A pin's enables of the two edge kinds that the driver enables (rule R240). -/
def edgesOf (s : State) (m : PinNo) : Bool × Bool := (pinBit s.ren m, pinBit s.fen m)

/-- The state after `Pin.AssignPin` of a free object. -/
def pinAssigned (obj : Nat) (n : PinNo) (s : State) : State := s.setObj obj { s.obj obj with pinNumber := some n }

theorem pinOp_assign :
    PinOp (fun obj n => rulePinAssignPin obj n) (fun _ p _ => p.pinNumber = none) pinAssigned
      fun _ n p => { p with pinNumber := some n } where
  ends hobj hfree := rulePinAssignPin_free hobj (Fin.isLt _) hfree
  record _ _ _ := rfl
  slots _ _ _ _ _ := rfl
  frame _ _ _ := rfl

/-- The state after `Pin.SetMode` of an object to an input with pull-up. -/
def inputPullUp (obj : Nat) (n : PinNo) (s : State) : State := modeSet s obj n .input .up

/-- `Pin.SetMode` changes the object's record, the function and the pull. -/
theorem inputPullUp_frame (obj : Nat) (n : PinNo) (s : State) :
    { inputPullUp obj n s with
      pinObj := s.pinObj, fsel := s.fsel, pullState := s.pullState, pud := s.pud, pudclk := s.pudclk
      puppdn := s.puppdn, busTrace := s.busTrace } = s := by
  cases hstyle : s.cfg.pullStyle with
  | legacyStrobe => rw [inputPullUp, modeSet_legacy hstyle]
  | combined2Bit => rw [inputPullUp, modeSet_combined hstyle]

theorem inputPullUp_pinTable (obj : Nat) (n : PinNo) (s : State) : (inputPullUp obj n s).pinTable = s.pinTable :=
  have h := congrArg State.pinTable (inputPullUp_frame obj n s)
  h

theorem inputPullUp_edges (obj : Nat) (n : PinNo) (s : State) : edgesOf (inputPullUp obj n s) = edgesOf s :=
  have h := congrArg edgesOf (inputPullUp_frame obj n s)
  h

theorem pinOp_setMode :
    PinOp (fun obj _ => rulePinSetMode obj .input 1) (fun n p _ => p.pinNumber = some n) inputPullUp
      fun _ _ p => { p with fn := .input, pull := .up } where
  ends hobj hpin := rulePinSetMode_legal hobj hpin rfl .input
  record obj n s := by
    have h : (applyPull (applyFunction s n .input) n .up).pinObj = s.pinObj :=
      (applyPull_pinObj ..).trans (applyFunction_pinObj ..)
    exact congrArg (·.set obj { s.obj obj with fn := .input, pull := .up }) h
  slots obj _ _ s _ := by rw [inputPullUp_pinTable]
  frame obj n s := by
    have h := congrArg (fun u : State => { u with pinTable := s.pinTable, ren := s.ren, fen := s.fen })
      (inputPullUp_frame obj n s)
    exact h

/-- The handler word of a driver's object (rule R240). -/
def driverWord (obj : Nat) : Word := builtinWord (if obj = swObj then .encSw else .encClkDt)

/-- The state after `Pin.ConnectInterrupt` of an object that is not connected and whose slot is empty. -/
def driverConnected (obj : Nat) (n : PinNo) (s : State) : State :=
  (s.setSlot n (some obj)).setObj obj { s.obj obj with handler := some ⟨driverWord obj, 0, true⟩ }

theorem driverConnected_pinTable (obj : Nat) (n : PinNo) (s : State) :
    (driverConnected obj n s).pinTable = s.pinTable.set n (some obj) := rfl

theorem pinOp_connect :
    PinOp (fun obj _ => rulePinConnectInterrupt obj true (driverWord obj) 0)
      (fun n p slot => p.pinNumber = some n ∧ p.handler = none ∧ slot = none) driverConnected
      fun obj _ p => { p with handler := some ⟨driverWord obj, 0, true⟩ } where
  ends := by
    rintro obj n s _ ⟨hpin, hnone, hslot⟩
    rw [rulePinConnectInterrupt_unconnected hpin hnone, ruleGmConnectInterrupt_free hpin hslot, andThen_ok]
    rfl
  record _ _ _ := rfl
  slots _ _ _ s hne := (setSlot_slot s _ _ _).trans (if_neg hne)
  frame _ _ _ := rfl

/-- The state after `Pin.EnableInterrupt` of an object for both edges. -/
def edgesEnabled (obj : Nat) (n : PinNo) (s : State) : State := interruptEnabled s obj n bothEdges

/-- `Pin.EnableInterrupt` of the edge kinds changes the object's record and the two edge groups. -/
theorem edgesEnabled_frame (obj : Nat) (n : PinNo) (s : State) :
    { edgesEnabled obj n s with pinObj := s.pinObj, ren := s.ren, fen := s.fen, busTrace := s.busTrace } = s := by
  have htrig : ∀ k, bothEdges.getLsbD (trigBit k) = false → (edgesEnabled obj n s).trig k = s.trig k :=
    fun k hk => (triggersWritten_trig ..).trans (if_neg (by rw [hk]; decide))
  have hhen : (edgesEnabled obj n s).hen = s.hen := htrig .highLevel rfl
  have hlen : (edgesEnabled obj n s).len = s.len := htrig .lowLevel rfl
  have haren : (edgesEnabled obj n s).aren = s.aren := htrig .asyncRisingEdge rfl
  have hafen : (edgesEnabled obj n s).afen = s.afen := htrig .asyncFallingEdge rfl
  have heds : (edgesEnabled obj n s).eds = s.eds := interruptEnabled_eds s obj n bothEdges
  obtain ⟨_, _, hframe⟩ := triggersWritten_frame s obj n (fun v => v ||| pinMask n) bothEdges
    { s.obj obj with triggerMask := (s.obj obj).triggerMask ||| bothEdges }
  rw [← hhen, ← hlen, ← haren, ← hafen, ← heds] at hframe
  exact hframe

theorem edgesEnabled_pinTable (obj : Nat) (n : PinNo) (s : State) : (edgesEnabled obj n s).pinTable = s.pinTable :=
  have h := congrArg State.pinTable (edgesEnabled_frame obj n s)
  h

theorem edgesEnabled_fsel (obj : Nat) (n : PinNo) (s : State) : (edgesEnabled obj n s).fsel = s.fsel :=
  have h := congrArg State.fsel (edgesEnabled_frame obj n s)
  h

theorem edgesEnabled_pullState (obj : Nat) (n : PinNo) (s : State) :
    (edgesEnabled obj n s).pullState = s.pullState :=
  have h := congrArg State.pullState (edgesEnabled_frame obj n s)
  h

theorem pinOp_enable :
    PinOp (fun obj _ => rulePinEnableInterrupt obj bothEdges) (fun n p _ => p.pinNumber = some n) edgesEnabled
      fun _ _ p => { p with triggerMask := p.triggerMask ||| bothEdges } where
  ends hobj hpin := rulePinEnableInterrupt_assigned hobj hpin bothEdges
  record obj n s := by
    obtain ⟨hrecord, _, _⟩ := triggersWritten_frame s obj n (fun v => v ||| pinMask n) bothEdges
      { s.obj obj with triggerMask := (s.obj obj).triggerMask ||| bothEdges }
    exact hrecord
  slots obj n _ s _ := by rw [edgesEnabled_pinTable]
  frame obj n s := by
    have h := congrArg (fun u : State => { u with
      pinTable := s.pinTable, fsel := s.fsel, pullState := s.pullState, pud := s.pud, pudclk := s.pudclk
      puppdn := s.puppdn }) (edgesEnabled_frame obj n s)
    exact h

/-! ### Function, pull and edges of a pin after the operations -/

theorem inputPullUp_fselField (obj : Nat) (n : PinNo) (s : State) (m : PinNo) :
    fselField (inputPullUp obj n s).fsel m = if m = n then 0 else fselField s.fsel m := by
  have hfsel : (inputPullUp obj n s).fsel = setFselWord s.fsel (fselIndex n) (functionWord s n .input) := by
    cases hstyle : s.cfg.pullStyle with
    | legacyStrobe => rw [inputPullUp, modeSet_legacy hstyle]
    | combined2Bit => rw [inputPullUp, modeSet_combined hstyle]
  rw [hfsel]
  exact fselField_insert s.fsel n m (fselCode .input)

theorem inputPullUp_pull (obj : Nat) (n : PinNo) {s : State} (m : PinNo) (h : PullMirror s) :
    (inputPullUp obj n s).pullState[m] = if m = n then .up else s.pullState[m] := by
  have hpull : (inputPullUp obj n s).pullState = s.pullState.set n .up := by
    cases hstyle : s.cfg.pullStyle with
    | legacyStrobe => rw [inputPullUp, modeSet_legacy hstyle]
    | combined2Bit =>
      rw [inputPullUp, modeSet_combined hstyle]
      exact combinedPulls_one h hstyle n .up
  simp only [hpull, Fin.getElem_fin, Vector.getElem_set, Fin.val_inj, eq_comm]

/-- The mode's register sequence keeps the pulls mirrored. -/
theorem inputPullUp_pullMirror (obj : Nat) (n : PinNo) {s : State} (h : PullMirror s) :
    PullMirror (inputPullUp obj n s) := by
  have hreach : Reach s (applyPull (applyFunction s n .input) n .up) :=
    ((calm_applyFunction s n .input).trans (calm_applyPull _ n .up)).1
  have hkeep : PullMirror (applyPull (applyFunction s n .input) n .up) := by
    generalize applyPull (applyFunction s n .input) n .up = u at hreach
    induction hreach with
    | refl => exact h
    | tail _ hprim ih => exact prim_pullMirror hprim ih
  exact hkeep

theorem edgesEnabled_edges (obj : Nat) (n : PinNo) (s : State) (m : PinNo) :
    edgesOf (edgesEnabled obj n s) m = if m = n then (true, true) else edgesOf s m := by
  have hren : pinBit (edgesEnabled obj n s).ren m = (pinBit s.ren m || (decide (m = n) && true)) :=
    pinBit_interruptEnabled s obj n bothEdges .risingEdge m
  have hfen : pinBit (edgesEnabled obj n s).fen m = (pinBit s.fen m || (decide (m = n) && true)) :=
    pinBit_interruptEnabled s obj n bothEdges .fallingEdge m
  rw [edgesOf, edgesOf, hren, hfen]
  by_cases hm : m = n <;> simp [hm]

/-! ### `Enc.Initialize`: what it leaves (rule R240) -/

/-- Past its checks the rule runs four operations, each of them for the three pins. -/
theorem ruleEncInitialize_checked {s : State} {clk dt sw : PinNo} (hoff : s.enc.initialized = false) (hcd : clk ≠ dt)
    (hcs : clk ≠ sw) (hds : dt ≠ sw) :
    ruleEncInitialize sw dt clk s =
      (runForPins (fun obj _ => rulePinEnableInterrupt obj bothEdges) clk dt sw
        (runForPins (fun obj _ => rulePinConnectInterrupt obj true (driverWord obj) 0) clk dt sw
          (runForPins (fun obj _ => rulePinSetMode obj .input 1) clk dt sw
            (runForPins (fun obj n => rulePinAssignPin obj n) clk dt sw (.ok s))))).andThen
        fun s => .ok (s.setEnc encStarted) := by
  have hoff : ¬ s.enc.initialized = true := by rw [hoff]; decide
  have hpins : ¬ (clk.val ≥ 54 ∨ dt.val ≥ 54 ∨ sw.val ≥ 54) := by omega
  have hne : ¬ (clk.val = dt.val ∨ clk.val = sw.val ∨ dt.val = sw.val) := by simp [Fin.val_inj, hcd, hcs, hds]
  rw [ruleEncInitialize, if_neg hoff, if_neg hpins, if_neg hne]
  rfl

/-- The pins after `Pin.AssignPin` of each. -/
def pinsAssigned (clk dt sw : PinNo) (s : State) : State := forPins pinAssigned clk dt sw s

/-- The pins after `Pin.SetMode` of each, which follows. -/
def pinsInput (clk dt sw : PinNo) (s : State) : State := forPins inputPullUp clk dt sw (pinsAssigned clk dt sw s)

/-- The pins after `Pin.ConnectInterrupt` of each, which follows. -/
def pinsConnected (clk dt sw : PinNo) (s : State) : State := forPins driverConnected clk dt sw (pinsInput clk dt sw s)

/-- The pins after `Pin.EnableInterrupt` of each, the last of the four operations. -/
def pinsEnabled (clk dt sw : PinNo) (s : State) : State := forPins edgesEnabled clk dt sw (pinsConnected clk dt sw s)

section DriverPins

variable {s : State} {clk dt sw : PinNo}

theorem pinsAssigned_nPinObj : (pinsAssigned clk dt sw s).nPinObj = s.nPinObj := pinOp_assign.nPinObj_forPins s

theorem pinsInput_nPinObj : (pinsInput clk dt sw s).nPinObj = s.nPinObj :=
  (pinOp_setMode.nPinObj_forPins _).trans pinsAssigned_nPinObj

theorem pinsConnected_nPinObj : (pinsConnected clk dt sw s).nPinObj = s.nPinObj :=
  (pinOp_connect.nPinObj_forPins _).trans pinsInput_nPinObj

theorem pinsAssigned_obj (hn : 3 ≤ s.nPinObj) {obj : Nat} {n : PinNo} (h : DriverPin clk dt sw obj n) :
    (pinsAssigned clk dt sw s).obj obj = { s.obj obj with pinNumber := some n } :=
  pinOp_assign.obj_forPins hn h

theorem pinsInput_obj (hn : 3 ≤ s.nPinObj) {obj : Nat} {n : PinNo} (h : DriverPin clk dt sw obj n) :
    (pinsInput clk dt sw s).obj obj = { s.obj obj with pinNumber := some n, fn := .input, pull := .up } := by
  rw [pinsInput, pinOp_setMode.obj_forPins (pinsAssigned_nPinObj.symm ▸ hn) h, pinsAssigned_obj hn h]

theorem pinsConnected_obj (hn : 3 ≤ s.nPinObj) {obj : Nat} {n : PinNo} (h : DriverPin clk dt sw obj n) :
    (pinsConnected clk dt sw s).obj obj =
      ⟨some n, .input, .up, (s.obj obj).triggerMask, some ⟨driverWord obj, 0, true⟩⟩ := by
  rw [pinsConnected, pinOp_connect.obj_forPins (pinsInput_nPinObj.symm ▸ hn) h, pinsInput_obj hn h]

theorem pinsInput_pinTable : (pinsInput clk dt sw s).pinTable = s.pinTable :=
  (forPins_keeps State.pinTable inputPullUp_pinTable clk dt sw _).trans
    (forPins_keeps State.pinTable (fun _ _ _ => rfl) clk dt sw s)

/-- Each operation makes the pins ready for the next. -/
theorem ruleEncInitialize_free (hoff : s.enc.initialized = false) (hcd : clk ≠ dt) (hcs : clk ≠ sw) (hds : dt ≠ sw)
    (hn : 3 ≤ s.nPinObj) (hfree : ∀ o < 3, (s.obj o).pinNumber = none ∧ (s.obj o).handler = none)
    (hslots : ∀ obj n, DriverPin clk dt sw obj n → s.pinTable[n] = none) :
    ruleEncInitialize sw dt clk s = .ok ((pinsEnabled clk dt sw s).setEnc encStarted) := by
  have hassign : runForPins _ clk dt sw (.ok s) = .ok (pinsAssigned clk dt sw s) :=
    pinOp_assign.ends_forPins hcd hcs hds hn fun obj n h => (hfree obj h.lt).1
  have hmode : runForPins _ clk dt sw (.ok (pinsAssigned clk dt sw s)) = .ok (pinsInput clk dt sw s) :=
    pinOp_setMode.ends_forPins hcd hcs hds (pinsAssigned_nPinObj.symm ▸ hn) fun obj n h => by
      rw [pinsAssigned_obj hn h]
  have hconnect : runForPins _ clk dt sw (.ok (pinsInput clk dt sw s)) = .ok (pinsConnected clk dt sw s) :=
    pinOp_connect.ends_forPins hcd hcs hds (pinsInput_nPinObj.symm ▸ hn) fun obj n h => by
      rw [pinsInput_obj hn h, pinsInput_pinTable]
      exact ⟨rfl, (hfree obj h.lt).2, hslots obj n h⟩
  have henable : runForPins _ clk dt sw (.ok (pinsConnected clk dt sw s)) = .ok (pinsEnabled clk dt sw s) :=
    pinOp_enable.ends_forPins hcd hcs hds (pinsConnected_nPinObj.symm ▸ hn) fun obj n h => by
      rw [pinsConnected_obj hn h]
  rw [ruleEncInitialize_checked hoff hcd hcs hds, hassign, hmode, hconnect, henable, andThen_ok]

variable (s clk dt sw)

theorem pinsEnabled_pinTable :
    (pinsEnabled clk dt sw s).pinTable = ((s.pinTable.set clk (some 0)).set dt (some 1)).set sw (some 2) := by
  have henable : (pinsEnabled clk dt sw s).pinTable = (pinsConnected clk dt sw s).pinTable :=
    forPins_keeps State.pinTable edgesEnabled_pinTable clk dt sw _
  rw [henable, pinsConnected, forPins, driverConnected_pinTable, driverConnected_pinTable, driverConnected_pinTable,
    pinsInput_pinTable]
  rfl

/-- The record of a driver's object after the four operations. -/
def enabledRecord (obj : Nat) (n : PinNo) (p : PinObj) : PinObj :=
  ⟨some n, .input, .up, p.triggerMask ||| bothEdges, some ⟨driverWord obj, 0, true⟩⟩

theorem pinsEnabled_pinObj {s : State} (hn : 3 ≤ s.nPinObj) :
    (pinsEnabled clk dt sw s).pinObj =
      driverRecords s.pinObj (enabledRecord clkObj clk (s.obj clkObj)) (enabledRecord dtObj dt (s.obj dtObj))
        (enabledRecord swObj sw (s.obj swObj)) := by
  rw [pinsEnabled, pinOp_enable.pinObj_forPins, pinsConnected_obj hn .clk, pinsConnected_obj hn .dt,
    pinsConnected_obj hn .sw, pinsConnected, pinOp_connect.pinObj_forPins, driverRecords_driverRecords, pinsInput,
    pinOp_setMode.pinObj_forPins, driverRecords_driverRecords, pinsAssigned, pinOp_assign.pinObj_forPins,
    driverRecords_driverRecords]
  rfl

theorem pinsEnabled_frame : SameButPins s (pinsEnabled clk dt sw s) :=
  (((pinOp_assign.frame_forPins s).trans (pinOp_setMode.frame_forPins _)).trans
    (pinOp_connect.frame_forPins _)).trans (pinOp_enable.frame_forPins _)

/-- Only `Pin.EnableInterrupt` writes the edge groups. -/
theorem pinsEnabled_edges (m : PinNo) :
    edgesOf (pinsEnabled clk dt sw s) m = if m = clk ∨ m = dt ∨ m = sw then (true, true) else edgesOf s m := by
  rw [pinsEnabled, forPins_reading edgesOf (I := fun _ => True) (fun _ _ _ h => h)
    (fun obj n s m _ => edgesEnabled_edges obj n s m) clk dt sw trivial, pinsConnected, pinsInput, pinsAssigned,
    forPins_keeps (f := driverConnected) edgesOf fun _ _ _ => rfl, forPins_keeps edgesOf inputPullUp_edges,
    forPins_keeps (f := pinAssigned) edgesOf fun _ _ _ => rfl]

theorem pinsEnabled_edgeBits (m : PinNo) :
    pinBit (pinsEnabled clk dt sw s).ren m = (pinBit s.ren m || decide (m = clk ∨ m = dt ∨ m = sw)) ∧
      pinBit (pinsEnabled clk dt sw s).fen m = (pinBit s.fen m || decide (m = clk ∨ m = dt ∨ m = sw)) := by
  have hedges := pinsEnabled_edges s clk dt sw m
  by_cases hmine : m = clk ∨ m = dt ∨ m = sw
  · rw [if_pos hmine] at hedges
    simpa only [hmine, decide_true, Bool.or_true] using Prod.mk.inj hedges
  · rw [if_neg hmine] at hedges
    simpa only [hmine, decide_false, Bool.or_false] using Prod.mk.inj hedges

/-- Only `Pin.SetMode` writes the function. -/
theorem pinsEnabled_fsel : (pinsEnabled clk dt sw s).fsel = (pinsInput clk dt sw s).fsel := by
  rw [pinsEnabled, pinsConnected, forPins_keeps State.fsel edgesEnabled_fsel,
    forPins_keeps (f := driverConnected) State.fsel fun _ _ _ => rfl]

/-- Only `Pin.SetMode` writes the pull. -/
theorem pinsEnabled_pullState : (pinsEnabled clk dt sw s).pullState = (pinsInput clk dt sw s).pullState := by
  rw [pinsEnabled, pinsConnected, forPins_keeps State.pullState edgesEnabled_pullState,
    forPins_keeps (f := driverConnected) State.pullState fun _ _ _ => rfl]

theorem pinsEnabled_fselField (m : PinNo) :
    fselField (pinsEnabled clk dt sw s).fsel m = if m = clk ∨ m = dt ∨ m = sw then 0 else fselField s.fsel m := by
  rw [pinsEnabled_fsel]
  exact forPins_reading (fun s m => fselField s.fsel m) (I := fun _ => True) (fun _ _ _ h => h)
    (fun obj n s m _ => inputPullUp_fselField obj n s m) clk dt sw (s := pinsAssigned clk dt sw s) trivial m

theorem pinsEnabled_pull {s : State} (hmirror : PullMirror s) (m : PinNo) :
    (pinsEnabled clk dt sw s).pullState[m] = if m = clk ∨ m = dt ∨ m = sw then .up else s.pullState[m] := by
  rw [pinsEnabled_pullState]
  exact forPins_reading (fun s m => s.pullState[m]) (fun obj n s => inputPullUp_pullMirror obj n)
    (fun obj n s m => inputPullUp_pull obj n m) clk dt sw (s := pinsAssigned clk dt sw s) hmirror m

end DriverPins

theorem raises_encInitialize {s : State} {sw dt clk : Nat} {e : ErrorCode} (hs : s.fault = none)
    (h : ruleEncInitialize sw dt clk s = .raised e s) : Raises (.encInitialize sw dt clk) s e :=
  exec_of_rule_raised hs h

/-- Settles O36: the checks in their order; then four operations, each of them for the three pins. -/
theorem encInitialize : Obligations.EncInitialize := by
  constructor
  · intro s sw dt clk hs
    refine ⟨rfl, ?_⟩
    split
    · next hon => exact raises_encInitialize hs (ruleEncInitialize_on hon sw dt clk)
    next hoff =>
    split
    · next hpins => exact raises_encInitialize hs (ruleEncInitialize_invalidPin hoff hpins)
    next hpins =>
    split
    · next hequal => exact raises_encInitialize hs (ruleEncInitialize_equalPins hoff hpins hequal)
    next hne =>
    refine ⟨fun hzero => ?_, fun hpos hassigned => ?_⟩
    · exact raises_encInitialize hs (ruleEncInitialize_assignRaises hoff hpins hne
        (rulePinAssignPin_outOfRange (Nat.le_of_eq hzero) clk))
    · obtain ⟨n, hn⟩ := Option.isSome_iff_exists.1 hassigned
      exact raises_encInitialize hs (ruleEncInitialize_assignRaises hoff hpins hne
        (rulePinAssignPin_assigned hpos (by omega) hn))
  · intro s sw dt clk hs hoff hcd hcs hds hn hfree hclk hdt hsw
    have hslots : ∀ obj n, DriverPin clk dt sw obj n → s.pinTable[n] = none := by
      rintro _ _ (_ | _ | _) <;> assumption
    have hrule := ruleEncInitialize_free hoff hcd hcs hds hn hfree hslots
    have htable := pinsEnabled_pinTable s clk dt sw
    have hrecords := pinsEnabled_pinObj clk dt sw hn
    have hedges := pinsEnabled_edgeBits s clk dt sw
    have hfsel := pinsEnabled_fselField s clk dt sw
    have hpull : PullMirror s → _ := pinsEnabled_pull clk dt sw
    have hframe := pinsEnabled_frame s clk dt sw
    generalize pinsEnabled clk dt sw s = t at *
    refine ⟨t.setEnc encStarted, exec_of_rule_ok hs hrule, congrArg encStarted hframe.enc_eq, htable, hrecords, ?_,
      hframe.setEnc encStarted⟩
    intro m mine
    obtain ⟨hren, hfen⟩ := hedges m
    exact ⟨hren, hfen, hfsel m, fun hmirror => hpull hmirror m⟩

/-! ### `Enc.RegisterEventHandler` (rule R241) -/

theorem ruleEncRegisterEventHandler_second {s : State} {r : Registration} (h : s.enc.appCallback = some r)
    (callback ctx : Word) : ruleEncRegisterEventHandler callback ctx s = .raised .secondAppCallback s := by
  rw [ruleEncRegisterEventHandler, h]

theorem ruleEncRegisterEventHandler_first {s : State} (h : s.enc.appCallback = none) (callback ctx : Word) :
    ruleEncRegisterEventHandler callback ctx s =
      .ok { s with enc := { s.enc with appCallback := some ⟨callback, ctx⟩ } } := by
  rw [ruleEncRegisterEventHandler, h]
  rfl

/-- Settles O37: by whether a callback is registered. -/
theorem registerEventHandler : Obligations.RegisterEventHandler := by
  intro s callback ctx hs
  refine ⟨rfl, ?_⟩
  split
  · next hsome =>
    obtain ⟨r, hr⟩ := Option.isSome_iff_exists.1 hsome
    exact exec_of_rule_raised hs (ruleEncRegisterEventHandler_second hr callback ctx)
  · next hnone =>
    exact exec_of_rule_ok hs
      (ruleEncRegisterEventHandler_first (Option.not_isSome_iff_eq_none.1 hnone) callback ctx)

/-! ### `Enc.Uninitialize` (rule R242) -/

/-- The object is connected at the pin `n`: it has a handler, and the pin's slot holds it (rules R207, R208). -/
def ConnectedAt (s : State) (obj : Nat) (n : PinNo) : Prop :=
  (s.obj obj).pinNumber = some n ∧ (s.obj obj).handler ≠ none ∧ s.pinTable[n] = some obj

theorem rulePinDisconnectInterrupt_connectedAt {s : State} {obj : Nat} {n : PinNo} (h : ConnectedAt s obj n) :
    rulePinDisconnectInterrupt obj s = .ok (pinDisconnected s obj n) := by
  obtain ⟨hpin, hsome, hslot⟩ := h
  rw [rulePinDisconnectInterrupt_connected hpin hsome, ruleGmDisconnectInterrupt_owner hpin hslot, andThen_ok]
  rfl

/-- Disconnecting an object leaves the others connected: a slot holds one object. -/
theorem pinDisconnected_keeps_connectedAt {s : State} {obj o : Nat} {n m : PinNo} (hne : o ≠ obj)
    (hobj : ConnectedAt s obj n) (h : ConnectedAt s o m) : ConnectedAt (pinDisconnected s obj n) o m := by
  obtain ⟨_, _, hown⟩ := hobj
  obtain ⟨hpin, hsome, hslot⟩ := h
  have hmn : m ≠ n := by
    rintro rfl
    exact hne (Option.some.inj (hslot.symm.trans hown))
  have hrecord : (pinDisconnected s obj n).obj o = s.obj o := by
    rw [pinDisconnected, setObj_obj, if_neg fun h => hne h.1]
    rfl
  have htable : (pinDisconnected s obj n).pinTable[m] = s.pinTable[m] := (setSlot_slot s n m none).trans (if_neg hmn)
  exact ⟨hrecord ▸ hpin, hrecord ▸ hsome, htable.trans hslot⟩

theorem cancelEncTimers_eq (s : State) :
    cancelEncTimers s =
      { s with
        timers := withoutTimer s.enc.tickTimer (withoutTimer s.enc.debounceTimer s.timers)
        enc := { s.enc with debounceTimer := none, tickTimer := none } } := by
  simp only [cancelEncTimers, cancelOptional_eq, State.setEnc]

/-- The state after `Enc.Uninitialize` of a driver with connected pins. -/
def encUninitialized (s : State) (clk dt sw : PinNo) : State :=
  { s with
    timers := withoutTimer s.enc.tickTimer (withoutTimer s.enc.debounceTimer s.timers)
    pinTable := ((s.pinTable.set clk none).set dt none).set sw none
    pinObj := driverRecords s.pinObj pinObjReset pinObjReset pinObjReset
    enc := { s.enc with
      debounceTimer := none, tickTimer := none, appCallback := none, encState := .start, btnState := .start
      initialized := false } }

theorem ruleEncUninitialize_off {s : State} (h : s.enc.initialized = false) :
    ruleEncUninitialize s = .raised .encState s := by
  simp [ruleEncUninitialize, h]

/-- Only the pin's slot and the object's record change. -/
theorem pinDisconnected_eq (s : State) (obj : Nat) (n : PinNo) :
    ∃ p, pinDisconnected s obj n = { s with pinTable := s.pinTable.set n none, pinObj := s.pinObj.set obj p } :=
  ⟨_, rfl⟩

/-- The slots and the records after the driver's three disconnects. -/
theorem disconnectPins_eq (s : State) (clk dt sw : PinNo) :
    ∃ p q r, pinDisconnected (pinDisconnected (pinDisconnected s clkObj clk) dtObj dt) swObj sw =
      { s with
        pinTable := ((s.pinTable.set clk none).set dt none).set sw none
        pinObj := driverRecords s.pinObj p q r } := by
  obtain ⟨p, hp⟩ := pinDisconnected_eq s clkObj clk
  obtain ⟨q, hq⟩ := pinDisconnected_eq (pinDisconnected s clkObj clk) dtObj dt
  obtain ⟨r, hr⟩ := pinDisconnected_eq (pinDisconnected (pinDisconnected s clkObj clk) dtObj dt) swObj sw
  exact ⟨p, q, r, by rw [hr, hq, hp]; rfl⟩

theorem destroyPins_eq (s : State) :
    destroyPins s = { s with pinObj := driverRecords s.pinObj pinObjReset pinObjReset pinObjReset } := rfl

theorem ruleEncUninitialize_connected {s : State} {clk dt sw : PinNo} (hon : s.enc.initialized = true)
    (hclk : ConnectedAt s clkObj clk) (hdt : ConnectedAt s dtObj dt) (hsw : ConnectedAt s swObj sw) :
    ruleEncUninitialize s = .ok (encUninitialized s clk dt sw) := by
  rw [ruleEncUninitialize, if_pos hon, cancelEncTimers_eq, encUninitialized]
  generalize hu : { s with timers := _, enc := _ } = u
  have hkeep : ∀ {o n}, ConnectedAt s o n → ConnectedAt u o n := fun h => hu ▸ h
  have hdt₁ := pinDisconnected_keeps_connectedAt (by decide) (hkeep hclk) (hkeep hdt)
  have hsw₁ := pinDisconnected_keeps_connectedAt (by decide) (hkeep hclk) (hkeep hsw)
  have hsw₂ := pinDisconnected_keeps_connectedAt (by decide) hdt₁ hsw₁
  rw [rulePinDisconnectInterrupt_connectedAt (hkeep hclk), andThen_ok, rulePinDisconnectInterrupt_connectedAt hdt₁,
    andThen_ok, rulePinDisconnectInterrupt_connectedAt hsw₂, andThen_ok]
  obtain ⟨p, q, r, heq⟩ := disconnectPins_eq u clk dt sw
  rw [heq, destroyPins_eq, driverRecords_driverRecords, ← hu]
  rfl

/-- Settles O38: the flag; the timers leave the objects and the slots alone, and each disconnect the other pins. -/
theorem encUninitialize : Obligations.EncUninitialize := by
  intro s hs
  refine ⟨rfl, fun hoff => exec_of_rule_raised hs (ruleEncUninitialize_off hoff), ?_⟩
  intro clk dt sw hon ⟨_, hclk⟩ ⟨_, hdt⟩ ⟨_, hsw⟩ hconnected hclkSlot hdtSlot hswSlot
  have hhandler : ∀ o < 3, (s.obj o).handler ≠ none := fun o ho => Option.isSome_iff_ne_none.1 (hconnected o ho)
  have hrule := ruleEncUninitialize_connected hon ⟨hclk, hhandler 0 (by decide), hclkSlot⟩
    ⟨hdt, hhandler 1 (by decide), hdtSlot⟩ ⟨hsw, hhandler 2 (by decide), hswSlot⟩
  have hagain := ruleEncUninitialize_off (s := encUninitialized s clk dt sw) rfl
  exact ⟨encUninitialized s clk dt sw, rfl, exec_of_rule_ok hs hrule,
    exec_of_rule_raised (s := encUninitialized s clk dt sw) hs hagain⟩

/-! ### The quadrature decoder (rules R243 to R247) -/

theorem quadRun_append (c : Config) (st : EncState) (xs ys : List Nat) :
    quadRun c st (xs ++ ys) =
      ((quadRun c (quadRun c st xs).1 ys).1, (quadRun c st xs).2 ++ (quadRun c (quadRun c st xs).1 ys).2) := by
  induction xs generalizing st with
  | nil => rfl
  | cons q xs ih => simp only [List.cons_append, quadRun, ih, List.append_assoc]

theorem quadRun_concat (c : Config) (st : EncState) (qs : List Nat) (q : Nat) :
    quadRun c st (qs ++ [q]) =
      (qdecNext c (quadRun c st qs).1 q, (quadRun c st qs).2 ++ (qdecOut (quadRun c st qs).1 q).toList) := by
  rw [quadRun_append]
  simp only [quadRun, List.append_nil]

/-- The decoder under its default table (rule R245; log entry 22). -/
theorem qdecNext_default {c : Config} (h : c.qdecNext = defaultQdecNext) : qdecNext c = qdecNext rc0 := by
  funext st q
  rw [qdecNext, qdecNext, h]
  rfl

/-- A state of the decoder that is entered from `source` on the input `q` only, and waits there on that input; entering
and waiting emit nothing. -/
structure Phase (c : Config) (source : EncState) (q : Nat) (st : EncState) : Prop where
  not_start : st ≠ .start
  enters : qdecNext c source q = st ∧ qdecOut source q = none
  waits : qdecNext c st q = st ∧ qdecOut st q = none
  only : ∀ st', ∀ r < 4, qdecNext c st' r = st → r = q ∧ (st' = st ∨ st' = source)

theorem Phase.quadRun_replicate {c : Config} {source st : EncState} {q : Nat} (h : Phase c source q st) (n : Nat) :
    quadRun c source (List.replicate (n + 1) q) = (st, []) := by
  obtain ⟨henter, hquiet⟩ := h.enters
  obtain ⟨hwait, hquiet'⟩ := h.waits
  induction n with
  | zero => simp [quadRun, henter, hquiet]
  | succ n ih =>
    rw [List.replicate_succ', quadRun_concat, ih, hwait, hquiet']
    rfl

/-- A run that ends in the phase's state ends with the phase's input, from an end in the source on. -/
theorem Phase.of_quadRun {c : Config} {source st : EncState} {q : Nat} (h : Phase c source q st) {qs : List Nat}
    (hqs : ∀ r ∈ qs, r < 4) (hend : (quadRun c .start qs).1 = st) :
    ∃ pre n, qs = pre ++ List.replicate (n + 1) q ∧ (quadRun c .start pre).1 = source := by
  induction qs using List.reverseRecOn with
  | nil => exact absurd hend.symm h.not_start
  | append_singleton qs r ih =>
    rw [quadRun_concat] at hend
    obtain ⟨rfl, hwaited | hentered⟩ := h.only _ r (hqs r (by simp)) hend
    · obtain ⟨pre, n, rfl, hpre⟩ := ih (fun r' hr' => hqs r' (List.mem_append_left _ hr')) hwaited
      exact ⟨pre, n + 1, by rw [List.append_assoc, ← List.replicate_succ'], hpre⟩
    · exact ⟨qs, 0, rfl, hentered⟩

theorem fullSequence_eq (q₁ q₂ q₃ a₁ a₂ a₃ : Nat) :
    fullSequence q₁ q₂ q₃ a₁ a₂ a₃ =
      (List.replicate (a₁ + 1) q₁ ++ List.replicate (a₂ + 1) q₂ ++ List.replicate (a₃ + 1) q₃) ++ [3] := rfl

/-- A direction of rotation: three phases from Start, then the neutral input, which alone emits the direction's event
and leads back to Start (rules R245, R246). -/
structure Direction (c : Config) (e : AppEvent) (q₁ q₂ q₃ : Nat) (st₁ st₂ st₃ : EncState) : Prop where
  first : Phase c .start q₁ st₁
  second : Phase c st₁ q₂ st₂
  third : Phase c st₂ q₃ st₃
  emits : ∀ st, ∀ q < 4, qdecOut st q = some e ↔ st = st₃ ∧ q = 3
  returns : qdecNext c st₃ 3 = .start

namespace Direction

variable {c : Config} {e : AppEvent} {q₁ q₂ q₃ : Nat} {st₁ st₂ st₃ : EncState}

/-- A run that ends in Start, and then a full sequence without its last input. -/
theorem quadRun_phases (h : Direction c e q₁ q₂ q₃ st₁ st₂ st₃) {pre : List Nat}
    (hpre : (quadRun c .start pre).1 = .start) (a₁ a₂ a₃ : Nat) :
    quadRun c .start (pre ++
      (List.replicate (a₁ + 1) q₁ ++ List.replicate (a₂ + 1) q₂ ++ List.replicate (a₃ + 1) q₃)) =
      (st₃, (quadRun c .start pre).2) := by
  simp only [quadRun_append, hpre, h.first.quadRun_replicate, h.second.quadRun_replicate, h.third.quadRun_replicate,
    List.append_nil]

/-- A full sequence emits the event and ends in Start. -/
theorem quadRun_full (h : Direction c e q₁ q₂ q₃ st₁ st₂ st₃) (a₁ a₂ a₃ : Nat) :
    quadRun c .start (fullSequence q₁ q₂ q₃ a₁ a₂ a₃) = (.start, [e]) := by
  have hphases := h.quadRun_phases (pre := []) rfl a₁ a₂ a₃
  rw [List.nil_append] at hphases
  rw [fullSequence_eq, quadRun_concat, hphases, h.returns, (h.emits st₃ 3 (by decide)).2 ⟨rfl, rfl⟩]
  rfl

/-- The last input of a run emits the event exactly when it ends a full sequence that began in Start. -/
theorem emits_iff (h : Direction c e q₁ q₂ q₃ st₁ st₂ st₃) {qs : List Nat} (hqs : ∀ q ∈ qs, q < 4) {q : Nat}
    (hq : q < 4) :
    (quadRun c .start (qs ++ [q])).2 = (quadRun c .start qs).2 ++ [e] ↔
      ∃ pre a₁ a₂ a₃, qs ++ [q] = pre ++ fullSequence q₁ q₂ q₃ a₁ a₂ a₃ ∧ (quadRun c .start pre).1 = .start := by
  have hlast : (quadRun c .start (qs ++ [q])).2 = (quadRun c .start qs).2 ++ [e] ↔
      (quadRun c .start qs).1 = st₃ ∧ q = 3 := by
    rw [quadRun_concat, List.append_right_inj, Option.toList_eq_singleton_iff, h.emits _ q hq]
  rw [hlast]
  constructor
  · rintro ⟨hend, rfl⟩
    obtain ⟨pre₃, a₃, rfl, hend₂⟩ := h.third.of_quadRun hqs hend
    have hqs₃ : ∀ q ∈ pre₃, q < 4 := fun q hq => hqs q (List.mem_append_left _ hq)
    obtain ⟨pre₂, a₂, rfl, hend₁⟩ := h.second.of_quadRun hqs₃ hend₂
    obtain ⟨pre, a₁, rfl, hpre⟩ := h.first.of_quadRun (fun q hq => hqs₃ q (List.mem_append_left _ hq)) hend₁
    exact ⟨pre, a₁, a₂, a₃, by simp only [fullSequence_eq, List.append_assoc], hpre⟩
  · rintro ⟨pre, a₁, a₂, a₃, heq, hpre⟩
    rw [fullSequence_eq, ← List.append_assoc] at heq
    obtain ⟨rfl, hq3⟩ := List.append_inj' heq rfl
    exact ⟨congrArg Prod.fst (h.quadRun_phases hpre a₁ a₂ a₃), List.singleton_inj.1 hq3⟩

end Direction

/-- The clockwise phases, read off the default table (rule R245). -/
theorem direction_rc0_clockwise :
    Direction rc0 .rotateClockwise 1 0 2 .cwStart .cwDataFall .cwClockRise where
  first := ⟨by decide, by decide, by decide, fun st' => by cases st' <;> decide⟩
  second := ⟨by decide, by decide, by decide, fun st' => by cases st' <;> decide⟩
  third := ⟨by decide, by decide, by decide, fun st' => by cases st' <;> decide⟩
  emits st := by cases st <;> decide
  returns := rfl

/-- The counterclockwise phases, read off the default table (rule R245). -/
theorem direction_rc0_counterclockwise :
    Direction rc0 .rotateCounterclockwise 2 0 1 .ccwStart .ccwClockFall .ccwDataRise where
  first := ⟨by decide, by decide, by decide, fun st' => by cases st' <;> decide⟩
  second := ⟨by decide, by decide, by decide, fun st' => by cases st' <;> decide⟩
  third := ⟨by decide, by decide, by decide, fun st' => by cases st' <;> decide⟩
  emits st := by cases st <;> decide
  returns := rfl

theorem quadRun_default {c : Config} (h : c.qdecNext = defaultQdecNext) : quadRun c = quadRun rc0 := by
  funext st qs
  induction qs generalizing st with
  | nil => rfl
  | cons q qs ih => simp only [quadRun, qdecNext_default h, ih]

/-- The decoder emits rotations only (rule R246). -/
theorem qdecOut_cases (st : EncState) (q : Nat) :
    qdecOut st q = none ∨ ∃ e, (e = .rotateClockwise ∨ e = .rotateCounterclockwise) ∧ qdecOut st q = some e := by
  unfold qdecOut
  split
  · exact .inr ⟨_, .inl rfl, rfl⟩
  · exact .inr ⟨_, .inr rfl, rfl⟩
  · exact .inl rfl

/-- Settles O40: the cells that the source fixes, and with the default table the phases of the two directions. -/
theorem rotationNeedsFullSequence : Obligations.RotationNeedsFullSequence := by
  refine ⟨fun c => ⟨rfl, rfl, ?_⟩, fun c a₁ a₂ a₃ htable => ?_, fun c qs htable hqs q hq => ?_⟩
  · intro q hq
    interval_cases q <;> exact ⟨rfl, rfl⟩
  · rw [quadRun_default htable]
    exact ⟨direction_rc0_clockwise.quadRun_full a₁ a₂ a₃, direction_rc0_counterclockwise.quadRun_full a₁ a₂ a₃⟩
  · rw [quadRun_default htable]
    refine ⟨direction_rc0_clockwise.emits_iff hqs hq, direction_rc0_counterclockwise.emits_iff hqs hq, ?_⟩
    rw [quadRun_concat]
    obtain hnone | ⟨e, he, hsome⟩ := qdecOut_cases (quadRun rc0 .start qs).1 q
    · exact .inl (by rw [hnone]; exact List.append_nil _)
    · exact .inr ⟨e, he, by rw [hsome]; rfl⟩

end Sys2Proof.Proofs
end

section
/-! PROOFS. The button machine (spec/44_button.md): the SW handler, the two expiry handlers of the driver, and a press
and release that make a click. -/

namespace Sys2Proof.Proofs

open Sys2Proof.Machine Sys2Proof.Safety Sys2Proof.Laws

/-! ### The SW handler (rules R270, R304, R305) -/

theorem ruleEncSw_off {s : State} (h : s.enc.initialized = false) : ruleEncSw s = .ok s := by
  simp [ruleEncSw, h]

/-- The cancel gives up no start number, so the restart is a start from `s` over the timers left. -/
theorem ruleEncSw_on {s : State} (hon : s.enc.initialized = true) (hstart : CanStart s (tDeb s.cfg)) :
    ruleEncSw s = .ok
      { s with
        timers := withoutTimer s.enc.debounceTimer s.timers ++ [newTimer s (tDeb s.cfg) 0xFFFF0005 0]
        timerSeq := s.timerSeq + 1
        freeCount := s.freeCount + 1
        enc := { s.enc with debounceTimer := some (newTimer s (tDeb s.cfg) 0xFFFF0005 0).handle } } := by
  have hleft : CanStart { s with timers := withoutTimer s.enc.debounceTimer s.timers } (tDeb s.cfg) := hstart
  simp only [ruleEncSw, if_pos hon, cancelOptional_eq, startTimer_eq hleft, nextHandle_eq hleft 0xFFFF0005 0]
  rfl

/-- Settles O41: by whether the driver is there. -/
theorem swHandler : Obligations.SwHandler := by
  refine fun s ctx arg => ⟨fun hoff => ?_, fun hon hstart => ?_⟩
  · exact (invoke_builtin .encSw ctx arg s).trans (ruleEncSw_off hoff)
  · exact (invoke_builtin .encSw ctx arg s).trans (ruleEncSw_on hon hstart)

/-! ### A step of the machine (rule R275) -/

/-- The state after a step of the button machine whose output can be delivered. -/
def btnStepped (s : State) (ev : ButtonEvent) : State :=
  emitted { s with enc := { s.enc with btnState := btnNext s.cfg s.enc.btnState ev } } (btnOut s.cfg s.enc.btnState ev)

theorem btnStep_quiet {s : State} {ev : ButtonEvent} (hemit : CanEmit s (btnOut s.cfg s.enc.btnState ev)) :
    btnStep innerCall ev s = .ok (btnStepped s ev) :=
  emitOutput_quiet (s := s.setEnc fun e => { e with btnState := btnNext s.cfg e.btnState ev }) hemit

theorem btnStepped_withBus (s : State) (l : List BusAccess) (ev : ButtonEvent) :
    btnStepped (withBus s l) ev = withBus (btnStepped s ev) l :=
  emitted_withBus { s with enc := { s.enc with btnState := btnNext s.cfg s.enc.btnState ev } } l _

/-! ### The tick timer (rules R272, R273, R274) -/

theorem cancelTick_eq (s : State) : cancelTick s = { s with timers := withoutTimer s.enc.tickTimer s.timers } :=
  cancelOptional_eq s s.enc.tickTimer

theorem startTick_eq {s : State} (hstart : CanStart s (tTick s.cfg)) :
    startTick s = { s with
      timers := s.timers ++ [newTimer s (tTick s.cfg) 0xFFFF0006 0]
      timerSeq := s.timerSeq + 1
      freeCount := s.freeCount + 1
      enc := { s.enc with tickTimer := some (newTimer s (tTick s.cfg) 0xFFFF0006 0).handle } } := by
  rw [startTick, startTimer_eq hstart, nextHandle_eq hstart 0xFFFF0006 0]
  rfl

/-- As for the debounce timer, the cancel gives up no start number. -/
theorem restartTick_eq {s : State} (hstart : CanStart s (tTick s.cfg)) :
    startTick (cancelTick s) = { s with
      timers := withoutTimer s.enc.tickTimer s.timers ++ [newTimer s (tTick s.cfg) 0xFFFF0006 0]
      timerSeq := s.timerSeq + 1
      freeCount := s.freeCount + 1
      enc := { s.enc with tickTimer := some (newTimer s (tTick s.cfg) 0xFFFF0006 0).handle } } := by
  rw [cancelTick_eq]
  exact startTick_eq (s := { s with timers := withoutTimer s.enc.tickTimer s.timers }) hstart

/-! ### Tick expiry (rule R274) -/

/-- The state in which tick expiry has forgotten its timer. -/
def tickForgotten (s : State) : State := { s with enc := { s.enc with tickTimer := none } }

theorem ruleEncTick_off {s : State} (h : s.enc.initialized = false) (inv : Invoker) :
    ruleEncTick inv s = .ok (tickForgotten s) :=
  if_neg (Bool.eq_false_iff.1 h)

theorem ruleEncTick_on {s : State} (hon : s.enc.initialized = true) (inv : Invoker) :
    ruleEncTick inv s =
      btnStep inv .tick (if s.enc.swStable then tickForgotten s else startTick (tickForgotten s)) :=
  if_pos hon

/-- Settles O45: by whether the driver is there and whether the button is down; starting the timer touches nothing that
the step of the machine reads. -/
theorem tickExpiry : Obligations.TickExpiry := by
  refine fun s ctx arg => ⟨fun hoff => ?_, fun hon hemit => ⟨fun hup => ?_, fun hdown hstart => ?_⟩⟩
  · exact (invoke_builtin .encTick ctx arg s).trans (ruleEncTick_off hoff innerCall)
  · have hrule := ruleEncTick_on hon innerCall
    rw [if_pos hup] at hrule
    exact (invoke_builtin .encTick ctx arg s).trans (hrule.trans (btnStep_quiet (s := tickForgotten s) hemit))
  · have hrule := ruleEncTick_on hon innerCall
    rw [if_neg (Bool.eq_false_iff.1 hdown), startTick_eq (s := tickForgotten s) hstart] at hrule
    exact (invoke_builtin .encTick ctx arg s).trans (hrule.trans (btnStep_quiet hemit))

/-! ### Debounce expiry: the level (rules R212, R271) -/

/-- The read of the switch's pin, as it is recorded. -/
def switchRead (s : State) (sw : PinNo) : BusAccess := readOf s.cfg (.lev (pinWord sw)) (bankWord s.lev (pinWord sw))

theorem levelOf_eq (s : State) (sw : PinNo) : levelOf s sw = pinBit s.lev sw := bankWord_pin s.lev sw

/-- The state in which a debounce expiry has forgotten its timer. -/
def debounceForgotten (s : State) : State := { s with enc := { s.enc with debounceTimer := none } }

theorem debounceForgotten_read (s : State) (sw : PinNo) :
    memRead (s.setEnc fun e => { e with debounceTimer := none }) (.lev (pinWord sw)) =
      withBus (debounceForgotten s) [switchRead s sw] :=
  memRead_withBus _ _ (by simp)

/-- The state with a new stable level, before it is classified. -/
def newStable (s : State) (level : Bool) : State :=
  { s with enc := { s.enc with debounceTimer := none, swStable := level } }

theorem atNewLevel_eq (s : State) (sw : PinNo) :
    atNewLevel s sw = withBus (newStable s (pinBit s.lev sw)) [switchRead s sw] := by
  rw [atNewLevel, debounceForgotten_read, levelOf_eq]
  rfl

theorem ruleEncDebounce_off {s : State} (h : s.enc.initialized = false) (inv : Invoker) :
    ruleEncDebounce inv s = .ok (debounceForgotten s) :=
  if_neg (Bool.eq_false_iff.1 h)

section Level

variable {s : State} {sw : PinNo} (hon : s.enc.initialized = true) (hpin : (s.obj swObj).pinNumber = some sw)

include hon hpin

theorem ruleEncDebounce_same (hsame : pinBit s.lev sw = s.enc.swStable) (inv : Invoker) :
    ruleEncDebounce inv s = .ok (withBus (debounceForgotten s) [switchRead s sw]) := by
  rw [ruleEncDebounce_eq hon hpin, if_pos ((levelOf_eq s sw).trans hsame), debounceForgotten_read]

theorem ruleEncDebounce_press (hlow : pinBit s.lev sw = false) (hup : s.enc.swStable = true) (inv : Invoker) :
    ruleEncDebounce inv s = classifyPress inv (withBus (newStable s false) [switchRead s sw]) := by
  rw [ruleEncDebounce_eq hon hpin, atNewLevel_eq, levelOf_eq, hlow, hup]
  rfl

theorem ruleEncDebounce_release (hhigh : pinBit s.lev sw = true) (hdown : s.enc.swStable = false) (inv : Invoker) :
    ruleEncDebounce inv s = classifyRelease inv (withBus (newStable s true) [switchRead s sw]) := by
  rw [ruleEncDebounce_eq hon hpin, atNewLevel_eq, levelOf_eq, hhigh, hdown]
  rfl

end Level

/-- Settles O44: without the driver the level is not read, and a level that is not new is not classified. -/
theorem debounceFilter : Obligations.DebounceFilter := by
  refine fun s ctx arg => ⟨fun hoff => ?_, fun sw hon hpin hsame => ?_⟩
  · exact (invoke_builtin .encDebounce ctx arg s).trans (ruleEncDebounce_off hoff innerCall)
  · exact (invoke_builtin .encDebounce ctx arg s).trans (ruleEncDebounce_same hon hpin hsame innerCall)

/-! ### Debounce expiry: classification (rules R272, R273) -/

theorem pressEvent_eq (s : State) :
    pressEvent s = if s.enc.pressSeen = true ∧ (s.ticks - s.enc.lastPress).toNat < tDbl s.cfg then .doubleClick
      else .down := by
  simp [pressEvent]

theorem releaseEvent_eq (s : State) :
    releaseEvent s = if s.enc.pressSeen = true ∧ (s.ticks - s.enc.lastPress).toNat < tClick s.cfg then .click
      else .up := by
  simp [releaseEvent]

/-- The press is timed and the tick timer restarted. -/
def pressTimed (s : State) : State :=
  { s with
    timers := withoutTimer s.enc.tickTimer s.timers ++ [newTimer s (tTick s.cfg) 0xFFFF0006 0]
    timerSeq := s.timerSeq + 1
    freeCount := s.freeCount + 1
    enc := { s.enc with
      lastPress := s.ticks, pressSeen := true, tickTimer := some (newTimer s (tTick s.cfg) 0xFFFF0006 0).handle } }

/-- The release is timed and the tick timer cancelled. -/
def releaseTimed (s : State) : State :=
  { s with
    timers := withoutTimer s.enc.tickTimer s.timers
    enc := { s.enc with lastRelease := s.ticks, tickTimer := none } }

theorem classifyPress_eq {s : State} (hstart : CanStart s (tTick s.cfg)) (inv : Invoker) :
    classifyPress inv s = btnStep inv (pressEvent s) (pressTimed s) :=
  congrArg (btnStep inv (pressEvent s))
    (restartTick_eq (s := s.setEnc fun e => { e with lastPress := s.ticks, pressSeen := true }) hstart)

theorem classifyRelease_eq (s : State) (inv : Invoker) :
    classifyRelease inv s = btnStep inv (releaseEvent s) (releaseTimed s) := by
  rw [classifyRelease, cancelTick_eq]
  rfl

/-- Timing a press and stepping the machine do not look at the access record. -/
theorem classifyPress_quiet {s : State} (hstart : CanStart s (tTick s.cfg)) (l : List BusAccess)
    (hemit : CanEmit s (btnOut s.cfg s.enc.btnState (pressEvent s))) :
    classifyPress innerCall (withBus s l) = .ok (withBus (btnStepped (pressTimed s) (pressEvent s)) l) := by
  rw [classifyPress_eq (s := withBus s l) hstart, ← btnStepped_withBus]
  exact btnStep_quiet (s := withBus (pressTimed s) l) hemit

theorem classifyRelease_quiet {s : State} (l : List BusAccess)
    (hemit : CanEmit s (btnOut s.cfg s.enc.btnState (releaseEvent s))) :
    classifyRelease innerCall (withBus s l) = .ok (withBus (btnStepped (releaseTimed s) (releaseEvent s)) l) := by
  rw [classifyRelease_eq, ← btnStepped_withBus]
  exact btnStep_quiet (s := withBus (releaseTimed s) l) hemit

/-- The state after a debounce expiry that classifies a press. -/
def pressed (s : State) (sw : PinNo) : State :=
  withBus (btnStepped (pressTimed (newStable s false)) (pressEvent s)) [switchRead s sw]

/-- The state after a debounce expiry that classifies a release. -/
def released (s : State) (sw : PinNo) : State :=
  withBus (btnStepped (releaseTimed (newStable s true)) (releaseEvent s)) [switchRead s sw]

section Expiry

variable {s : State} {sw : PinNo} (hon : s.enc.initialized = true) (hpin : (s.obj swObj).pinNumber = some sw)
  (ctx : Word) (arg : Option AppEvent)

include hon hpin

theorem debounce_ends_pressed (hlow : pinBit s.lev sw = false) (hup : s.enc.swStable = true)
    (hstart : CanStart s (tTick s.cfg)) (hemit : CanEmit s (btnOut s.cfg s.enc.btnState (pressEvent s))) :
    HandlerEnds 0xFFFF0005 ctx arg s (pressed s sw) := by
  have hrule := ruleEncDebounce_press hon hpin hlow hup innerCall
  rw [classifyPress_quiet (s := newStable s false) hstart _ hemit] at hrule
  exact (invoke_builtin .encDebounce ctx arg s).trans hrule

theorem debounce_ends_released (hhigh : pinBit s.lev sw = true) (hdown : s.enc.swStable = false)
    (hemit : CanEmit s (btnOut s.cfg s.enc.btnState (releaseEvent s))) :
    HandlerEnds 0xFFFF0005 ctx arg s (released s sw) := by
  have hrule := ruleEncDebounce_release hon hpin hhigh hdown innerCall
  rw [classifyRelease_quiet (s := newStable s true) _ hemit] at hrule
  exact (invoke_builtin .encDebounce ctx arg s).trans hrule

end Expiry

/-- Settles O42: the statement's event is the press event, and its state is the one after a press. -/
theorem debouncePress : Obligations.DebouncePress := by
  intro s ctx arg sw hon hpin hlow hup hstart ev timer hemit
  have hev : pressEvent s = ev := pressEvent_eq s
  rw [← hev] at hemit ⊢
  exact debounce_ends_pressed hon hpin ctx arg hlow hup hstart hemit

/-- Settles O43: the statement's event is the release event, and its state is the one after a release. -/
theorem debounceRelease : Obligations.DebounceRelease := by
  intro s ctx arg sw hon hpin hhigh hdown ev hemit
  have hev : releaseEvent s = ev := releaseEvent_eq s
  rw [← hev] at hemit ⊢
  exact debounce_ends_released hon hpin ctx arg hhigh hdown hemit

/-! ### A click (rules R277 to R280) -/

/-- The first press is a plain one whatever the time is (rule R272). -/
theorem pressEvent_first {s : State} (h : s.enc.pressSeen = false) : pressEvent s = .down := by
  simp [pressEvent, h]

theorem releaseEvent_within {s : State} (hseen : s.enc.pressSeen = true)
    (h : (s.ticks - s.enc.lastPress).toNat < tClick s.cfg) : releaseEvent s = .click := by
  rw [releaseEvent_eq, if_pos ⟨hseen, h⟩]

/-- The time since a tick count, `d` ticks later. -/
theorem elapsed_toNat (now : Ticks) {d : Nat} (hd : d < 18446744073709551616) :
    (now + BitVec.ofNat 64 d - now).toNat = d := by
  rw [BitVec.add_comm, BitVec.add_sub_cancel, BitVec.toNat_ofNat]
  exact Nat.mod_eq_of_lt hd

/-- A step that emits an event delivers it to the callback. -/
theorem btnStepped_event {s : State} {ev : ButtonEvent} {e : AppEvent} {cb : Registration}
    (hout : btnOut s.cfg s.enc.btnState ev = some e) (hcb : s.enc.appCallback = some cb) :
    btnStepped s ev = { s with
      enc := { s.enc with btnState := btnNext s.cfg s.enc.btnState ev }
      appTrace := s.appTrace ++ [⟨e, cb.ctx⟩]
      callTrace := s.callTrace ++ [⟨cb.handler, cb.ctx⟩] } := by
  simp only [btnStepped, emitted, hout, hcb]

theorem canEmit_event {s : State} {e : AppEvent} {cb : Registration} (hcb : s.enc.appCallback = some cb)
    (hq : CallableQuietly s cb.handler cb.ctx (some e)) : CanEmit s (some e) := by
  rintro e' cb' ⟨⟩ hcb'
  cases hcb.symm.trans hcb'
  exact hq

/-- The state after a first press from Start: SwitchDown is delivered. -/
def firstPressed (s : State) (sw : PinNo) (cb : Registration) : State :=
  { s with
    timers := withoutTimer s.enc.tickTimer s.timers ++ [newTimer s (tTick s.cfg) 0xFFFF0006 0]
    timerSeq := s.timerSeq + 1
    freeCount := s.freeCount + 1
    enc := { s.enc with
      debounceTimer := none, swStable := false, lastPress := s.ticks, pressSeen := true
      tickTimer := some (newTimer s (tTick s.cfg) 0xFFFF0006 0).handle, btnState := .down }
    appTrace := s.appTrace ++ [⟨.switchDown, cb.ctx⟩]
    callTrace := s.callTrace ++ [cb]
    busTrace := s.busTrace ++ [switchRead s sw] }

/-- The state after a release from Down within the click window: SwitchClick is delivered. -/
def clicked (s : State) (sw : PinNo) (cb : Registration) : State :=
  { s with
    timers := withoutTimer s.enc.tickTimer s.timers
    enc := { s.enc with
      debounceTimer := none, swStable := true, lastRelease := s.ticks, tickTimer := none, btnState := .click }
    appTrace := s.appTrace ++ [⟨.switchClick, cb.ctx⟩]
    callTrace := s.callTrace ++ [cb]
    busTrace := s.busTrace ++ [switchRead s sw] }

theorem pressed_first {s : State} {cb : Registration} (hbtn : s.enc.btnState = .start)
    (hev : pressEvent s = .down) (hcb : s.enc.appCallback = some cb) (sw : PinNo) :
    pressed s sw = firstPressed s sw cb := by
  have hout : btnOut s.cfg s.enc.btnState .down = some .switchDown := by rw [hbtn]; rfl
  have hnext : btnNext s.cfg s.enc.btnState .down = .down := by rw [hbtn]; rfl
  rw [pressed, hev, btnStepped_event (s := pressTimed (newStable s false)) hout hcb, firstPressed, ← hnext]
  rfl

theorem released_click {s : State} {cb : Registration} (hbtn : s.enc.btnState = .down)
    (hev : releaseEvent s = .click) (hcb : s.enc.appCallback = some cb) (sw : PinNo) :
    released s sw = clicked s sw cb := by
  have hout : btnOut s.cfg s.enc.btnState .click = some .switchClick := by rw [hbtn]; rfl
  have hnext : btnNext s.cfg s.enc.btnState .click = .click := by rw [hbtn]; rfl
  rw [released, hev, btnStepped_event (s := releaseTimed (newStable s true)) hout hcb, clicked, ← hnext]
  rfl

/-- The switch's pin is high, `d` ticks later. -/
def switchHigh (s : State) (sw : PinNo) (d : Nat) : State :=
  { s with lev := setPinBit s.lev sw true, ticks := s.ticks + BitVec.ofNat 64 d }

theorem releaseEvent_switchHigh {s : State} {d : Nat} (hwindow : d < tClick s.cfg) (hd : d < 18446744073709551616)
    (sw : PinNo) (cb : Registration) : releaseEvent (switchHigh (firstPressed s sw cb) sw d) = .click := by
  have helapsed : (s.ticks + BitVec.ofNat 64 d - s.ticks).toNat < tClick s.cfg := by rwa [elapsed_toNat s.ticks hd]
  exact releaseEvent_within rfl helapsed

/-- A first press from Start ends with SwitchDown delivered. -/
theorem debounce_ends_firstPressed {s : State} {sw : PinNo} {cb : Registration} (hon : s.enc.initialized = true)
    (hpin : (s.obj swObj).pinNumber = some sw) (hlow : pinBit s.lev sw = false) (hup : s.enc.swStable = true)
    (hbtn : s.enc.btnState = .start) (hev : pressEvent s = .down) (hcb : s.enc.appCallback = some cb)
    (hstart : CanStart s (tTick s.cfg)) (hq : CallableQuietly s cb.handler cb.ctx (some .switchDown)) :
    HandlerEnds 0xFFFF0005 0 none s (firstPressed s sw cb) := by
  have hout : btnOut s.cfg s.enc.btnState (pressEvent s) = some .switchDown := by rw [hev, hbtn]; rfl
  rw [← pressed_first hbtn hev hcb]
  exact debounce_ends_pressed hon hpin 0 none hlow hup hstart (hout ▸ canEmit_event hcb hq)

/-- A release from Down in the click window ends with SwitchClick delivered. -/
theorem debounce_ends_clicked {s : State} {sw : PinNo} {cb : Registration} (hon : s.enc.initialized = true)
    (hpin : (s.obj swObj).pinNumber = some sw) (hhigh : pinBit s.lev sw = true) (hdown : s.enc.swStable = false)
    (hbtn : s.enc.btnState = .down) (hev : releaseEvent s = .click) (hcb : s.enc.appCallback = some cb)
    (hq : CallableQuietly s cb.handler cb.ctx (some .switchClick)) :
    HandlerEnds 0xFFFF0005 0 none s (clicked s sw cb) := by
  have hout : btnOut s.cfg s.enc.btnState (releaseEvent s) = some .switchClick := by rw [hev, hbtn]; rfl
  rw [← released_click hbtn hev hcb]
  exact debounce_ends_released hon hpin 0 none hhigh hdown (hout ▸ canEmit_event hcb hq)

/-- Settles O46: the first press from Start and, from the Down it leads to, a release in the click window. -/
theorem pressThenReleaseIsAClick : Obligations.PressThenReleaseIsAClick := by
  intro s sw cb d hon hpin hlow hup hbtn hseen hcb hstart hwindow hd hqdown hqclick
  have hpress := debounce_ends_firstPressed hon hpin hlow hup hbtn (pressEvent_first hseen) hcb hstart hqdown
  have hhigh : pinBit (switchHigh (firstPressed s sw cb) sw d).lev sw = true :=
    (pinBit_setPinBit s.lev sw sw true).trans (if_pos rfl)
  have hrelease : HandlerEnds 0xFFFF0005 0 none (switchHigh (firstPressed s sw cb) sw d)
      (clicked (switchHigh (firstPressed s sw cb) sw d) sw cb) :=
    debounce_ends_clicked hon hpin hhigh rfl rfl (releaseEvent_switchHigh hwindow hd sw cb) hcb hqclick
  exact ⟨_, _, hpress, hrelease, List.append_assoc _ _ _, rfl, rfl, rfl⟩

end Sys2Proof.Proofs
end

section
/-! PROOFS. The kernel timers (spec/45_timer_mmio.md): the timer period, the order of the due timers, and the timer
handler. -/

namespace Sys2Proof.Proofs

open Sys2Proof.Machine Sys2Proof.Safety Sys2Proof.Laws

/-! ### `Ev.TimerPeriod` (rule R306) -/

/-- Settles O19: the rule is one change of the timer line. -/
theorem timerPeriodStimulus : Obligations.TimerPeriodStimulus :=
  fun _ hs => ⟨rfl, exec_of_rule_ok hs rfl⟩

/-! ### The order of the due timers (rules R307, R331) -/

/-- Without a fire priority all handles have the same rank. -/
theorem firesBefore_iff_dueOrder {c : Config} (hc : c.firePriority = []) (a b : Timer) :
    firesBefore c a b = true ↔ DueOrder a b := by
  have hrank : fireRank c a.handle = fireRank c b.handle := by simp [fireRank, hc]
  by_cases hdl : a.deadline = b.deadline <;> simp [firesBefore, DueOrder, hrank, hdl]

theorem dueOrder_total (a b : Timer) : DueOrder a b ∨ DueOrder b a := by
  unfold DueOrder
  bv_omega

theorem dueOrder_trans {a b c : Timer} (hab : DueOrder a b) (hbc : DueOrder b c) : DueOrder a c := by
  unfold DueOrder at *
  bv_omega

theorem insertDue_eq_orderedInsert (c : Config) (t : Timer) (l : List Timer) :
    insertDue c t l = l.orderedInsert (fun a b => firesBefore c a b = true) t := by
  induction l with
  | nil => rfl
  | cons u us ih => rw [insertDue, ih, List.orderedInsert_cons]

/-- The model's sort is insertion sort by the fire order. -/
theorem sortDue_eq_insertionSort (c : Config) (l : List Timer) :
    sortDue c l = l.insertionSort fun a b => firesBefore c a b = true := by
  induction l with
  | nil => rfl
  | cons t ts ih => rw [sortDue, ih, insertDue_eq_orderedInsert, List.insertionSort_cons]

theorem sortDue_pairwise {c : Config} (hc : c.firePriority = []) (l : List Timer) :
    (sortDue c l).Pairwise DueOrder := by
  have horder := firesBefore_iff_dueOrder hc
  have htotal : Std.Total fun a b => firesBefore c a b = true :=
    ⟨fun a b => by simpa only [horder] using dueOrder_total a b⟩
  have htrans : IsTrans Timer fun a b => firesBefore c a b = true :=
    ⟨fun a b d => by simpa only [horder] using dueOrder_trans⟩
  rw [sortDue_eq_insertionSort]
  exact (List.pairwise_insertionSort _ l).imp fun h => (horder _ _).1 h

/-- The due timers are the running ones whose deadline has come, each as often as it runs. -/
theorem dueTimers_perm (s : State) :
    (dueTimers s).Perm (s.timers.filter fun t => decide (t.deadline ≤ s.ticks)) :=
  sortDue_perm s.cfg _

/-- Settles O49: insertion sort by a total and transitive order. -/
theorem dueTimersInOrder : Obligations.DueTimersInOrder :=
  fun s hprio => ⟨sortDue_pairwise hprio _, dueTimers_perm s⟩

/-! ### The timer handler before its callbacks (rule R307) -/

/-- The line withdrawn and one tick counted, the count not wrapping. -/
theorem tickOnce_eq {s : State} (hticks : s.ticks ≠ BitVec.allOnes 64) :
    tickOnce s = { s with
      lines := s.lines.modify s.cfg.timerLine fun l => { l with pending := false }
      ticks := s.ticks + 1
      freeCount := s.freeCount + 1 } := by
  simp only [tickOnce, nextTicks, if_neg hticks]
  rfl

/-- A call of the timer handler fires what is due after the tick. -/
theorem invoke_timer (ctx : Word) (arg : Option AppEvent) (s : State) :
    invoke 0xFFFF0002 ctx arg s = fireTimers innerCall (dueTimers (tickOnce s)) (tickOnce s) :=
  invoke_builtin .timer ctx arg s

theorem timer_ends_of_firesTo {s t : State} (h : FiresTo (dueTimers (tickOnce s)) (tickOnce s) t) (ctx : Word)
    (arg : Option AppEvent) : HandlerEnds 0xFFFF0002 ctx arg s t :=
  (invoke_timer ctx arg s).trans ((fireTimers_ok_iff _ _ _).2 h)

theorem dueTimers_eq_nil {s : State} (h : ∀ x ∈ s.timers, s.ticks < x.deadline) : dueTimers s = [] :=
  List.eq_nil_iff_forall_not_mem.2 fun x hx => by
    obtain ⟨hrun, hdue⟩ := mem_dueTimers.1 hx
    exact absurd hdue (BitVec.not_le.2 (h x hrun))

/-! ### Firing a list of timers (rules R307, R321) -/

/-- A list of timers fires in order, the rest from where the first part ends. -/
theorem fireTimers_append (inv : Invoker) (xs ys : List Timer) (s : State) :
    fireTimers inv (xs ++ ys) s = (fireTimers inv xs s).andThen (fireTimers inv ys) := by
  induction xs generalizing s with
  | nil => rfl
  | cons x xs ih =>
    rw [List.cons_append, fireTimers, fireTimers]
    cases fireTimer inv x s with
    | ok t => exact ih t
    | raised e t => rfl
    | unending u => rfl

/-- The first call that raises ends the run. -/
theorem fireTimers_raised {fired rest : List Timer} {x : Timer} {s u t : State} {e : ErrorCode}
    (hfired : FiresTo fired s u) (hrun : x ∈ u.timers)
    (hcall : innerCall x.callback x.ctx none { u with timers := u.timers.erase x } = .raised e t) :
    fireTimers innerCall (fired ++ x :: rest) s = .raised e t := by
  rw [fireTimers_append, (fireTimers_ok_iff fired s u).2 hfired, andThen_ok, fireTimers, fireTimer, if_pos hrun,
    hcall, andThen_raised]

/-! ### Quiet callbacks (rules R307, R334) -/

/-- The state after the timers of a list have fired with callbacks that only record their call. -/
def quietlyFired (s : State) (l : List Timer) : State :=
  { s with
    timers := s.timers.diff l
    callTrace := s.callTrace ++ l.map fun x => ⟨x.callback, x.ctx⟩ }

theorem quietlyFired_nil (s : State) : quietlyFired s [] = s := by
  simp [quietlyFired]

theorem quietlyFired_cons (s : State) (x : Timer) (xs : List Timer) :
    quietlyFired s (x :: xs) = quietlyFired (quietlyFired s [x]) xs := by
  simp [quietlyFired]

theorem quietlyFired_singleton_timers (s : State) (x : Timer) :
    (quietlyFired s [x]).timers = s.timers.erase x := by
  simp [quietlyFired]

/-- A timer whose callback is quiet is taken out and its call recorded. -/
theorem innerCall_quietlyFired {s : State} {x : Timer} (hq : CallableQuietly s x.callback x.ctx none) :
    innerCall x.callback x.ctx none { s with timers := s.timers.erase x } = .ok (quietlyFired s [x]) := by
  rw [innerCall_quiet (s := { s with timers := s.timers.erase x }) hq]
  simp [quietlyFired]

/-- A quiet callback cancels nothing, so every timer of the list still runs when its turn comes. -/
theorem firesTo_quietlyFired {l : List Timer} {s : State} (hrun : l.Subperm s.timers)
    (hq : ∀ x ∈ l, CallableQuietly s x.callback x.ctx none) : FiresTo l s (quietlyFired s l) := by
  induction l generalizing s with
  | nil => exact quietlyFired_nil s
  | cons x xs ih =>
    have hleft : xs.Subperm (quietlyFired s [x]).timers := by
      rw [quietlyFired_singleton_timers, ← List.erase_cons_head x xs]
      exact hrun.erase x
    have hrest : FiresTo xs (quietlyFired s [x]) (quietlyFired (quietlyFired s [x]) xs) :=
      ih hleft fun y hy => hq y (List.mem_cons_of_mem x hy)
    rw [FiresTo, if_pos (hrun.subset List.mem_cons_self), quietlyFired_cons]
    exact ⟨_, innerCall_quietlyFired (hq x List.mem_cons_self), hrest⟩

/-- Taking out what a test selects leaves what it rejects, repeated elements as well. -/
theorem diff_filter {α : Type} [DecidableEq α] (p : α → Bool) (l : List α) :
    l.diff (l.filter p) = l.filter fun x => !p x := by
  induction l with
  | nil => rfl
  | cons x xs ih =>
    cases hp : p x with
    | true => simp [hp, ih]
    | false => simp [hp, ih, List.cons_diff_of_not_mem]

/-- The timers left when the due ones are gone. -/
theorem timers_diff_dueTimers (s : State) :
    s.timers.diff (dueTimers s) = s.timers.filter fun x => decide (s.ticks < x.deadline) := by
  rw [(dueTimers_perm s).diff_left, diff_filter]
  simp only [← decide_not, BitVec.not_le]

/-- All due timers fire when the callback of each is quiet. -/
theorem firesTo_dueTimers_quiet {s : State}
    (hq : ∀ x ∈ s.timers, x.deadline ≤ s.ticks → CallableQuietly s x.callback x.ctx none) :
    FiresTo (dueTimers s) s (quietlyFired s (dueTimers s)) := by
  refine firesTo_quietlyFired ((dueTimers_perm s).subperm.trans List.filter_sublist.subperm) fun x hx => ?_
  obtain ⟨hrun, hdue⟩ := mem_dueTimers.1 hx
  exact hq x hrun hdue

/-! ### The timer handler (rules R303, R307, R321, R334) -/

/-- Settles O48: the handler fires what is due after the tick, so each clause is one about firing a list. -/
theorem timerHandler : Obligations.TimerHandler := by
  intro s ctx arg hticks quiesced
  have hquiesced : tickOnce s = quiesced := tickOnce_eq hticks
  have hends : ∀ t, FiresTo (dueTimers quiesced) quiesced t → HandlerEnds 0xFFFF0002 ctx arg s t := by
    rw [← hquiesced]
    exact fun t h => timer_ends_of_firesTo h ctx arg
  refine ⟨fun hnone => hends _ ?_, fun hq => hends _ ?_, hends, ?_⟩
  · rw [dueTimers_eq_nil (s := quiesced) hnone]
    rfl
  · have hfires := firesTo_dueTimers_quiet (s := quiesced) hq
    rwa [quietlyFired, timers_diff_dueTimers] at hfires
  · intro fired x rest u e t hdue hfired hrun hcall
    rw [invoke_timer, hquiesced, hdue]
    exact fireTimers_raised hfired hrun hcall

end Sys2Proof.Proofs
end

section
/-! PROOFS. The call of an external handler (spec/60_exceptions.md, rule R334). -/

namespace Sys2Proof.Proofs

open Sys2Proof.Machine Sys2Proof.Safety Sys2Proof.Laws

/-! ### The calls inside a handler -/

/-- Every call made inside a handler leaves the context flags as it found them unless it raises. -/
theorem good_innerCall : GoodInvoker innerCall := good_splitCall (good_timedCall _) good_invoke

/-- Only the timer handler is called otherwise inside a handler than by an operation (log entries 11 and 23). -/
theorem innerCall_eq_invoke {w : Word} (hw : w ≠ 0xFFFF0002) : innerCall w = invoke w := splitCall_other hw

/-! ### The body -/

/-- A body that the table does not list is empty (log entry 10). -/
theorem handlerBody_eq_nil {c : Config} {h ctx : Word} {arg : Option AppEvent}
    (hnone : ∀ b ∈ c.handlerBodies, ¬ (b.handler = h ∧ b.ctx = ctx ∧ b.arg = arg)) : handlerBody c h ctx arg = [] := by
  have hfind : c.handlerBodies.find? (fun b => b.handler == h && b.ctx == ctx && b.arg == arg) = none :=
    List.find?_eq_none.2 fun b hb => by simpa [and_assoc] using hnone b hb
  rw [handlerBody, hfind]

/-- A body that ends leaves the nesting depth as it was. -/
theorem commandsEnd_invokeDepth {is : List Instr} {s t : State} (h : CommandsEnd is s t) :
    t.invokeDepth = s.invokeDepth := by
  have hgood := good_runBody good_innerCall is s
  rw [(runBody_ok_iff is s t).2 h] at hgood
  obtain ⟨_, _, _, _, hdepth⟩ := hgood
  exact hdepth

/-- A body runs in order, the rest from where the first part ends. -/
theorem runBody_append (inv : Invoker) (is js : List Instr) (s : State) :
    runBody inv (is ++ js) s = (runBody inv is s).andThen (runBody inv js) := by
  induction is generalizing s with
  | nil => rfl
  | cons i is ih =>
    rw [List.cons_append, runBody, runBody]
    cases command inv i s with
    | ok t => exact ih t
    | raised e t => rfl
    | unending u => rfl

/-- The first command that raises ends the body (rule R321). -/
theorem runBody_raised {done rest : List Instr} {i : Instr} {s u t : State} {e : ErrorCode}
    (hdone : CommandsEnd done s u) (hi : command innerCall i u = .raised e t) :
    runBody innerCall (done ++ i :: rest) s = .raised e t := by
  rw [runBody_append, (runBody_ok_iff done s u).2 hdone, andThen_ok, runBody, hi, andThen_raised]

/-! ### The call -/

/-- The call of an external handler ends exactly in the states that its body leads to one level deeper, the depth taken
back. -/
theorem external_ends_iff {s : State} {h : Word} (hext : handlerClass h = .external)
    (hdepth : s.invokeDepth < s.cfg.maxNest) (ctx : Word) (arg : Option AppEvent) (t : State) :
    HandlerEnds h ctx arg s t ↔
      ∃ u, CommandsEnd (handlerBody s.cfg h ctx arg) (inHandler h ctx s) u ∧
        t = { u with invokeDepth := s.invokeDepth } := by
  rw [HandlerEnds, invoke_external hext, runExternal_of_callable hdepth, andThen_eq_ok]
  simp only [runBody_ok_iff, Res.ok.injEq]
  refine exists_congr fun u => and_congr_right fun hbody => ?_
  have hback : u.invokeDepth - 1 = s.invokeDepth := by
    rw [commandsEnd_invokeDepth hbody]
    rfl
  rw [hback, eq_comm]

/-- The call raises as the first command that raises does (rule R321). -/
theorem external_raises {s u t : State} {h ctx : Word} {arg : Option AppEvent} {done rest : List Instr} {i : Instr}
    {e : ErrorCode} (hext : handlerClass h = .external) (hdepth : s.invokeDepth < s.cfg.maxNest)
    (hbody : handlerBody s.cfg h ctx arg = done ++ i :: rest) (hdone : CommandsEnd done (inHandler h ctx s) u)
    (hi : command innerCall i u = .raised e t) : invoke h ctx arg s = .raised e t := by
  rw [invoke_external hext, runExternal_of_callable hdepth, hbody, runBody_raised hdone hi, andThen_raised]

/-- Settles O47: the call is the run of its body, so each clause is one about running a list of commands. -/
theorem externalHandlerRunsBody : Obligations.ExternalHandlerRunsBody := by
  intro h ctx arg s hext recorded
  refine ⟨fun hdeep => ?_, fun hdepth => ⟨fun t hbody => ?_, ?_, fun t hends => ?_⟩, handlerBody_eq_nil, ?_⟩
  · rw [invoke_external hext]
    exact runExternal_of_deep hdeep innerCall h ctx arg
  · exact (external_ends_iff hext hdepth ctx arg _).2 ⟨t, hbody, rfl⟩
  · intro done i rest u e t hsplit hdone hraise
    exact external_raises hext hdepth hsplit hdone hraise
  · exact (external_ends_iff hext hdepth ctx arg t).1 hends
  · intro w ctx' arg' u hw
    rw [innerCall_eq_invoke hw]

end Sys2Proof.Proofs
end

section
/-! PROOFS. Reset (spec/70_reset_and_hazards.md, rule R371). -/

namespace Sys2Proof.Proofs

open Sys2Proof.Machine Sys2Proof.Safety Sys2Proof.Laws

/-! ### The lines at reset -/

@[simp] theorem line_reset (id : Nat) : State.reset.line id = lineReset := by
  rw [State.line, List.getD_eq_getElem?_getD]
  exact List.getElem?_getD_replicate_default_eq lineReset rc0NIrq id

/-- The mask of a line depends on the handlers and masks of the lines alone, not on what is pending. -/
theorem irqEnable_congr {s t : State}
    (h : s.lines.map (fun l => (l.handler, l.enable)) = t.lines.map (fun l => (l.handler, l.enable))) (id : Nat) :
    s.irqEnable id = t.irqEnable id := by
  have henable : s.lines.map IrqLine.enable = t.lines.map IrqLine.enable := by
    simpa only [List.map_map, Function.comp_def] using congrArg (List.map Prod.snd) h
  calc s.irqEnable id
    _ = (s.lines.map IrqLine.enable).getD id lineReset.enable := (List.getD_map _ lineReset IrqLine.enable).symm
    _ = (t.lines.map IrqLine.enable).getD id lineReset.enable := by rw [henable]
    _ = t.irqEnable id := List.getD_map _ lineReset IrqLine.enable

/-! ### Masked lines request nothing (rule R26) -/

theorem nFiqRequest_of_masked {s : State} (h : ∀ id, s.irqEnable id = false) : ¬ s.nFiqRequest = true := by
  intro hreq
  obtain ⟨f, -, -, hen, -⟩ := (nFiqRequest_iff s).1 hreq
  exact Bool.false_ne_true ((h f).symm.trans hen)

theorem nIrqRequest_of_masked {s : State} (h : ∀ id, s.irqEnable id = false) : ¬ s.nIrqRequest = true := by
  intro hreq
  obtain ⟨⟨id, -, -, -, hen⟩, -, -⟩ := (nIrqRequest_iff s).1 hreq
  exact Bool.false_ne_true ((h id).symm.trans hen)

/-- Settles O56: every line is masked at reset, and a masked line requests nothing whatever is pending. -/
theorem resetAssertsNoRequest : Obligations.ResetAssertsNoRequest := by
  refine ⟨rfl, rfl, rfl, rfl, rfl, rfl, fun id => ?_, fun lines eds c hlines => ?_⟩
  · simp [State.irqEnable, State.irqTable, lineReset]
  · have hmasked : ∀ id, ({ State.reset with lines := lines, eds := eds, cfg := c } : State).irqEnable id = false :=
      fun id => (irqEnable_congr hlines id).trans (congrArg IrqLine.enable (line_reset id))
    have hfiq := nFiqRequest_of_masked hmasked
    have hirq := nIrqRequest_of_masked hmasked
    exact ⟨Bool.eq_false_iff.2 hirq, Bool.eq_false_iff.2 hfiq, trapOperation_of_no_request hfiq hirq⟩

end Sys2Proof.Proofs
end
